-- ==== Sys2Proof/Word.lean ====
section
/-!
DEFINITION. The words of Thowagil: bytes, 32-bit vector registers, 64-bit scalar registers, lane masks and the
96-bit instruction word (00_scope R5, 04_formats R75).
-/

namespace Sys2Proof

/-- A byte of memory (R5). -/
abbrev Byte := BitVec 8
/-- A vector register of one lane, and a program counter (R40, R56). -/
abbrev Word := BitVec 32
/-- A scalar register, a latch, a 64-bit system register (R56). -/
abbrev DWord := BitVec 64
/-- One bit for each lane of a team; bit l is lane l (R33). -/
abbrev Mask := BitVec 32
/-- An instruction word W[95:0] (R74). -/
abbrev IWord := BitVec 96

/-- The lanes of a team, in ascending order (R38). -/
def allLanes : List Nat := List.range 32

end Sys2Proof
end

