-- ==== Sys2Proof/Syntax.lean ====
section
/-!
DEFINITION. The syntax of a step: operands, the fields of an instruction word, and the one inductive of all rows of
spec/opcode_table.json (04_formats R74-R90; the events of 95_what_each_step_holds).
-/

namespace Sys2Proof

/-- The type codes of R79. -/
inductive Ty where
  | none | s8 | s16 | s32 | s64 | n8 | n16 | n32 | n64 | b8 | b16 | b32 | b64 | b128 | f32 | bf16 | f16
  | fmt (n : BitVec 4)
deriving DecidableEq, Repr

/-- A register that a DEST field names: DKIND 0, or one of the classes of DKIND 1 (R82). -/
inductive Dst where
  | v (n : BitVec 8) | s (n : BitVec 6) | g (n : BitVec 3) | f (n : BitVec 4)
deriving DecidableEq, Repr

/-- The destination forms of R83; `none` is the all-zero DEST of an instruction without destination. -/
inductive Dest where
  | none | reg (r : Dst) | both (r : Dst) (latch : BitVec 2) | latch (latch : BitVec 2)
deriving DecidableEq, Repr

/-- A source field (R84-R86); `unused` is the all-zero field of an operand the instruction does not have. -/
inductive Src where
  | unused
  | v (n : BitVec 8) | s (n : BitVec 6) | pair (a b : BitVec 6) | latch (n : BitVec 2)
  | int (x : BitVec 11) | flt (x : BitVec 11)
  | guard (n : BitVec 3) | fmt (n : BitVec 4) | sys (n : BitVec 9) | ty (t : Ty)
deriving DecidableEq, Repr

/-- Guard and hints (R76, R77). -/
structure Hdr where
  ginv : Bool := false
  gpred : BitVec 3 := 7
  stall : BitVec 4 := 0
  yld : Bool := false
  chain : Bool := false
  nopair : Bool := false
deriving DecidableEq, Repr

/-- The fields of an instruction word (R75): guard and hints, TYPE, QUAL, DEST and the three source fields; under
Format I (R87) the immediate in place of the second and third. -/
structure Form where
  h : Hdr := {}
  ty : Ty := .none
  q : BitVec 6 := 0
  d : Dest := .none
  a : Src := .unused
  b : Src := .unused
  c : Src := .unused
  imm : BitVec 32 := 0
deriving DecidableEq, Repr

/-- Why what stands at a program counter is no instruction (R91-R93, items 1 to 4). -/
inductive BadWord where
  | fetchRange | unassigned | reserved | unaccepted
deriving DecidableEq, Repr

/-- What one other member of a collective brings over the links (R343, R344): its rank, its SEQ, the record fields and
operation that the members must agree on, and its elements as they were coded for the links (R345). -/
structure CollPart where
  rank : Nat
  p : Nat
  tag : DWord
  seq : DWord := 0
  op : Nat
  ty : Ty
  count : Nat
  flits : List (BitVec 512)
  lost : Bool := false
deriving DecidableEq, Repr

/-- One role of a code object (R22, R23): code 0 copy, 1 matrix, 2 epilogue, 3 general. -/
structure RoleDecl where
  role : Nat
  teams : Nat
  entry : Word
  vregs : Nat
  depth : Nat
deriving DecidableEq, Repr

/-- What a code object carries beside its instructions (R22-R26, R36); its instructions stand at its address. -/
structure CodeHdr where
  count : Nat
  roles : List RoleDecl
  spad : Nat
  guard : Nat
  obuf : Nat
  kSize : Nat
  matrix : Bool
deriving DecidableEq, Repr

/-- A ring descriptor's place (R304): in host memory, or in the partition's global space. -/
structure RingRef where
  host : Bool
  part : Nat
  addr : Nat
deriving DecidableEq, Repr

/-- What firmware sets a partition up with (R421): clusters (die × 12 + cluster), ports, expansion factor, the table
roots, calendar slots (link, slot), one key a port, the root region's control-block image and grant, the rings it
accepts (doorbell number, place and bytes of the descriptor) and the code objects loaded for it. -/
structure PartSpec where
  part : Nat
  clusters : List Nat
  ports : List Nat
  expansion : Nat
  ptRoot : DWord
  rtBase : DWord
  slots : List (Nat × Nat)
  keys : List (Nat × Nat × List Byte)
  root : Nat
  image : List Byte
  grant : Nat
  rings : List (Nat × RingRef × List Byte) := []
  codes : List (Nat × CodeHdr) := []
deriving DecidableEq, Repr

/-- The buffer that a capture request names (R430): in host memory, or in the global space of a region. -/
structure CaptureRing where
  host : Bool
  part : Nat
  base : Nat
  size : Nat
deriving DecidableEq, Repr


/-- The mnemonics of the opcode map (R90), those that a qualifier splits into rows of their own split
(`accld` by FORM, `notice.ack` by KIND, `kslot` by OP, `trap` by its code). -/
inductive Op where
  | add | sub | mul | mulhi | mad | div | rem | min | max | abs | neg | and | or | xor | not | shl | shr | sar
  | rot | bfx | bfi | popc | clz | brev | sel | mov | movi | lea | cmp | gand | gor | gxor | gnot | gset | gmov
  | bra | brx | call | ret | exit | convOpen | convNext | convClose | vote | ballot | shfl | redux | elect
  | matchLanes | bcast | yield | nop | isync | fadd | fsub | fmul | ffma | fmin | fmax | frcp | frsq | fsqrt
  | fexp2 | flog2 | ftanh | fcmp | fclass | frnd | hfma2 | cvt | cvtQ | cvtW | qpack | qunpack | bscale | bdot4
  | ld | st | atom | red | acq | rel | bind | unbind | fence | pref | stSparse | ldExpand | cwb | cinv | icinv
  | bsize | copy | copyGen | copySeal | copyWait | obres | obrel | obfmt | mma | accldGet | accldPut | accldZero
  | accst | coll | collWait | bar | barGang | pbarArrive | pbarWait | sleep | trap | trapService | rett | sread
  | swrite | segld | tlbinv | rsvRead | rsvAsk | pgsurr | noticeAckBalloon | noticeAckTimer | endwg | tileNext
  | yieldpoint | kslotLoad | kslotRevoke
deriving DecidableEq, Repr

/-- One step of the machine: an instruction word as a group issues it, or an event of the machine
(spec/opcode_table.json, one constructor a row). An event names the unit or the message that moves; what a party
outside the machine chooses stands in its arguments. -/
inductive Instr where
  /-- Adds two integer sources and delivers the sum wrapped or saturated. (R108) -/
  | add (f : Form)
  /-- Subtracts the second integer source from the first and delivers the result wrapped or saturated. (R108) -/
  | sub (f : Form)
  /-- Multiplies two integer sources and delivers the low bits or a saturated value. (R108) -/
  | mul (f : Form)
  /-- Writes the high half of the exact double-width integer product. (R109) -/
  | mulhi (f : Form)
  /-- Computes a times b plus c with one delivery and no intermediate wrap. (R108) -/
  | mad (f : Form)
  /-- Divides integers truncating toward zero, without ever faulting, including on division by zero. (R110) -/
  | div (f : Form)
  /-- Writes the integer remainder, which takes the sign of the dividend. (R110) -/
  | rem (f : Form)
  /-- Writes the lesser of two integer sources. (R108) -/
  | min (f : Form)
  /-- Writes the greater of two integer sources. (R108) -/
  | max (f : Form)
  /-- Writes the absolute value of a signed source, wrapped or saturated. (R108) -/
  | abs (f : Form)
  /-- Writes the negation of a signed source, wrapped or saturated. (R108) -/
  | neg (f : Form)
  /-- Writes the bitwise AND of two sources. (R111) -/
  | and (f : Form)
  /-- Writes the bitwise OR of two sources. (R111) -/
  | or (f : Form)
  /-- Writes the bitwise XOR of two sources. (R111) -/
  | xor (f : Form)
  /-- Writes the bitwise complement of a source. (R111) -/
  | not (f : Form)
  /-- Shifts left by an unreduced 32-bit amount, optionally saturating. (R112) -/
  | shl (f : Form)
  /-- Shifts right logically by an unreduced amount, with zeros entering. (R112) -/
  | shr (f : Form)
  /-- Shifts right arithmetically by an unreduced amount, with copies of the sign bit entering. (R112) -/
  | sar (f : Form)
  /-- Rotates left by the amount taken modulo the width. (R112) -/
  | rot (f : Form)
  /-- Extracts a bit field given by pos and len, sign- or zero-extended. (R113) -/
  | bfx (f : Form)
  /-- Inserts the low bits of b into a at the position and length given by a control word. (R114) -/
  | bfi (f : Form)
  /-- Writes the number of set bits. (R115) -/
  | popc (f : Form)
  /-- Writes the number of leading zero bits. (R115) -/
  | clz (f : Form)
  /-- Writes the source with its bit order reversed. (R115) -/
  | brev (f : Form)
  /-- Writes a or b in each lane according to a guard predicate. (R116) -/
  | sel (f : Form)
  /-- Copies a value, including to or from a format register. (R117) -/
  | mov (f : Form)
  /-- Writes a 32-bit immediate, extended according to the type. (R118) -/
  | movi (f : Form)
  /-- Computes a plus b times the scale plus c, wrapped. (R119) -/
  | lea (f : Form)
  /-- Sets a guard predicate per lane from an integer comparison. (R120) -/
  | cmp (f : Form)
  /-- Writes the AND of two guard predicates. (R121) -/
  | gand (f : Form)
  /-- Writes the OR of two guard predicates. (R121) -/
  | gor (f : Form)
  /-- Writes the XOR of two guard predicates. (R121) -/
  | gxor (f : Form)
  /-- Writes the complement of a guard predicate. (R121) -/
  | gnot (f : Form)
  /-- Sets a guard from the nonzero test of a vector value or from bit l of a scalar value. (R121) -/
  | gset (f : Form)
  /-- Copies a guard predicate. (R121) -/
  | gmov (f : Form)
  /-- Branches each active lane to PC plus 1 plus a signed offset. (R123) -/
  | bra (f : Form)
  /-- Branches each active lane to an absolute PC held in a register. (R123) -/
  | brx (f : Form)
  /-- Writes the return PC into a vector register and branches. (R123) -/
  | call (f : Form)
  /-- Branches each lane to the return PC held in its vector register. (R123) -/
  | ret (f : Form)
  /-- Moves each active lane to the Exited state. (R124) -/
  | exit (f : Form)
  /-- Opens a convergence level and writes its token, or faults at full depth. (R125) -/
  | convOpen (f : Form)
  /-- Increments the pass count of the innermost open convergence level. (R126) -/
  | convNext (f : Form)
  /-- Makes the lane wait to close its innermost convergence level with its matching members. (R127) -/
  | convClose (f : Form)
  /-- Arrives at a group-collective that votes over a guard across contributors. (R133) -/
  | vote (f : Form)
  /-- Arrives at a group-collective that gathers a guard into a scalar bit mask. (R133) -/
  | ballot (f : Form)
  /-- Arrives at a group-collective that takes values from lanes chosen by a mode. (R135) -/
  | shfl (f : Form)
  /-- Arrives at a group-collective that reduces a value over contributors in lane order. (R134) -/
  | redux (f : Form)
  /-- Arrives at a group-collective that sets the guard in the lowest contributor only. (R133) -/
  | elect (f : Form)
  /-- Arrives at a group-collective that sets the guard where the value equals that of the lowest contributor. (R133) -/
  | matchLanes (f : Form)
  /-- Arrives at a group-collective that broadcasts the value of one lane. (R133) -/
  | bcast (f : Form)
  /-- Sets the yield mark of each active lane. (R137) -/
  | yield (f : Form)
  /-- Changes nothing and advances the group. (R137) -/
  | nop (f : Form)
  /-- Ends the team's loop-buffer hold and discards the words fetched ahead. (R139) -/
  | isync (f : Form)
  /-- Adds two floating-point values with one rounding. (R157) -/
  | fadd (f : Form)
  /-- Subtracts two floating-point values with one rounding. (R157) -/
  | fsub (f : Form)
  /-- Multiplies two floating-point values with one rounding. (R157) -/
  | fmul (f : Form)
  /-- Computes a fused multiply-add with one rounding. (R157) -/
  | ffma (f : Form)
  /-- Writes the lesser floating-point operand, with NaN handling. (R159) -/
  | fmin (f : Form)
  /-- Writes the greater floating-point operand, with NaN handling. (R159) -/
  | fmax (f : Form)
  /-- Writes the correctly rounded reciprocal. (R158) -/
  | frcp (f : Form)
  /-- Writes the correctly rounded reciprocal square root. (R158) -/
  | frsq (f : Form)
  /-- Writes the correctly rounded square root. (R158) -/
  | fsqrt (f : Form)
  /-- Writes the correctly rounded value of 2 to the power a. (R158) -/
  | fexp2 (f : Form)
  /-- Writes the correctly rounded base-2 logarithm. (R158) -/
  | flog2 (f : Form)
  /-- Writes the correctly rounded hyperbolic tangent. (R158) -/
  | ftanh (f : Form)
  /-- Sets a guard from a floating-point comparison. (R162) -/
  | fcmp (f : Form)
  /-- Sets a guard when the operand's class is named in the class mask. (R163) -/
  | fclass (f : Form)
  /-- Rounds a floating-point value to an integral value. (R160) -/
  | frnd (f : Form)
  /-- Computes two independent 16-bit fused multiply-adds. (R161) -/
  | hfma2 (f : Form)
  /-- Converts a value between IEEE, integer and narrow formats. (R164) -/
  | cvt (f : Form)
  /-- Quantises FP32 into a narrow format under a block scale. (R165) -/
  | cvtQ (f : Form)
  /-- Widens a narrow element to FP32 under a block scale. (R165) -/
  | cvtW (f : Form)
  /-- Quantises k registers into the containers of one register. (R166) -/
  | qpack (f : Form)
  /-- Widens the containers of one register into k registers. (R166) -/
  | qunpack (f : Form)
  /-- Computes the block scale that fits a value into a narrow format. (R167) -/
  | bscale (f : Form)
  /-- Adds a four-element narrow dot product to an FP32 accumulator with one rounding. (R168) -/
  | bdot4 (f : Form)
  /-- Loads from a space into a register after the segment, translation and wait checks. (R259) -/
  | ld (f : Form)
  /-- Stores register bytes into a space after the segment, translation, token and pledge checks. (R259) -/
  | st (f : Form)
  /-- Performs an atomic read-modify-write per lane and returns the old value. (R263) -/
  | atom (f : Form)
  /-- Performs an atomic reduction per lane without returning a value. (R263) -/
  | red (f : Form)
  /-- Acquires a sync object, shared or exclusive, at a scope. (R266) -/
  | acq (f : Form)
  /-- Records a release of a sync object lazily, without writing back any word. (R266) -/
  | rel (f : Form)
  /-- Enters a binding of a global range to a sync object in the region's binding table. (R268) -/
  | bind (f : Form)
  /-- Frees a binding of the issuing region. (R269) -/
  | unbind (f : Form)
  /-- Holds the group until the thread's earlier accesses and enqueues have been performed. (R270) -/
  | fence (f : Form)
  /-- Prefetches a line into the L1 or the die copy. (R271) -/
  | pref (f : Form)
  /-- Stores one 32-element chunk into a sparse record and advances the cursor. (R275) -/
  | stSparse (f : Form)
  /-- Reads one chunk of a sparse record back into dense lanes. (R276) -/
  | ldExpand (f : Form)
  /-- Writes back the dirty words of a line or of the whole L1 and waits for the settlements. (R271) -/
  | cwb (f : Form)
  /-- Writes back, then invalidates, a line or the whole L1. (R271) -/
  | cinv (f : Form)
  /-- Writes back code words and discards fetch copies on every core of the partition. (R272) -/
  | icinv (f : Form)
  /-- Reports a block's type, sector count and pledge mark from its home. (R273) -/
  | bsize (f : Form)
  /-- Contributes a slice to a collective copy instance that becomes one copy command. (R326) -/
  | copy (f : Form)
  /-- Contributes a copy slice whose global side is given by a coordinate program. (R329) -/
  | copyGen (f : Form)
  /-- Seals the team's open batch and writes its number. (R331) -/
  | copySeal (f : Form)
  /-- Waits until at most n sealed batches of the team are unfinished. (R332) -/
  | copyWait (f : Form)
  /-- Reserves a run of operand-buffer granules and a reservation record. (R334) -/
  | obres (f : Form)
  /-- Releases a reservation record once its queued commands have completed. (R335) -/
  | obrel (f : Form)
  /-- Rewrites the type, format and scale layout of a valid reservation record. (R336) -/
  | obfmt (f : Form)
  /-- Enqueues one matrix operation per active lane in lane order. (R340) -/
  | mma (f : Form)
  /-- Enqueues a read of an accumulator block into vector registers. (R341) -/
  | accldGet (f : Form)
  /-- Enqueues a write of an accumulator block, or of the whole accumulator from scratchpad. (R341) -/
  | accldPut (f : Form)
  /-- Enqueues the zeroing of an accumulator. (R341) -/
  | accldZero (f : Form)
  /-- Enqueues the conversion and store of an accumulator to scratchpad or global memory. (R342) -/
  | accst (f : Form)
  /-- Enqueues a cross-package reduction over the members of a group record. (R344) -/
  | coll (f : Form)
  /-- Waits until at most n of the team's coll commands are unfinished. (R346) -/
  | collWait (f : Form)
  /-- Arrives at the workgroup barrier and waits. (R367) -/
  | bar (f : Form)
  /-- Arrives at the gang barrier once the core has written back its dirty global words. (R369) -/
  | barGang (f : Form)
  /-- Releases and counts an arrival at a phase-bit barrier word, completing the phase at n. (R371) -/
  | pbarArrive (f : Form)
  /-- Waits until the barrier word's phase differs from p. (R372) -/
  | pbarWait (f : Form)
  /-- Makes active lanes wait until RUN reaches a deadline. (R374) -/
  | sleep (f : Form)
  /-- Transfers the team to the region handler with the software-trap cause. (R375) -/
  | trap (f : Form)
  /-- Code 240 sends a firmware-service migration request and holds the group for the answer. (R376) -/
  | trapService (f : Form)
  /-- Returns the team from its handler, restoring s62, PRIV and MASK and resuming the lanes. (R377) -/
  | rett (f : Form)
  /-- Reads a system register into a register. (R378) -/
  | sread (f : Form)
  /-- Writes a system register, with side effects on TIMER, notice traps and FPSTAT. (R379) -/
  | swrite (f : Form)
  /-- Sets a segment register within its bound. (R380) -/
  | segld (f : Form)
  /-- Invalidates TLB entries of a partition and waits for acknowledgements. (R381) -/
  | tlbinv (f : Form)
  /-- Reads RSVG, RSVH and RSVP at one instant into three scalar registers. (R382) -/
  | rsvRead (f : Form)
  /-- Moves sectors from the parent's grant to the region's grant. (R383) -/
  | rsvAsk (f : Form)
  /-- Surrenders a run of owned pages, discarding their data and returning their sectors. (R384) -/
  | pgsurr (f : Form)
  /-- Acknowledges a balloon request by SEQ, completing it and lowering RSVG. (R385) -/
  | noticeAckBalloon (f : Form)
  /-- Clears TIMER in the issuing team. (R385) -/
  | noticeAckTimer (f : Form)
  /-- Ends the issuing workgroup with a code and writes its exit record. (R386) -/
  | endwg (f : Form)
  /-- Draws the next tile index from the bound walker, or stops the gang for a pending soft pre-emption. (R387) -/
  | tileNext (f : Form)
  /-- Starts the gang's instruction-level halt if a soft pre-emption request is pending. (R388) -/
  | yieldpoint (f : Form)
  /-- Loads a key into an empty key slot and makes it active. (R390) -/
  | kslotLoad (f : Form)
  /-- Starts the revocation and scrub of an active key slot. (R390) -/
  | kslotRevoke (f : Form)
  /-- A close instance completes when all members wait at it, and their level counts drop and their PCs advance. (R127) -/
  | convCloseCompletion (team lane : Nat)
  /-- A group-collective instance completes once all named lanes with its token have arrived, and its result is
  written. (R131) -/
  | collectiveCompletion (team inst : Nat)
  /-- A waiting .fe or .fec load completes once all its granules are full, and .fec clears them. (R185) -/
  | feLoadCompletion (load : Nat)
  /-- A copy.wait completes, observing the finished batches and invalidating clean words in their global write
  extents. (R332) -/
  | copyWaitCompletion (team : Nat)
  /-- A waiting mma enqueues its further operations as queue places free. (R49) -/
  | mmaEnqueueResume (team : Nat)
  /-- A coll.wait completes and observes the collective results. (R346) -/
  | collWaitCompletion (team : Nat)
  /-- The workgroup barrier completes when every live lane waits at a bar, acting as release and acquire. (R367) -/
  | barCompletion (wg : Nat)
  /-- The gang barrier completes, and each core invalidates its clean global words. (R369) -/
  | barGangCompletion (gang : Nat)
  /-- A phase wait completes with an acquire at its scope. (R372) -/
  | pbarWaitCompletion (team : Nat)
  /-- A sleep ends at its deadline, at a NOTICE bit rising, or at a notice trap. (R374) -/
  | sleepEnd (team : Nat)
  /-- Firmware answers a service request with the count of pages migrated. (R376) -/
  | firmwareServiceAnswer (team count : Nat)
  /-- The port scrubs one page of a revoked slot, settling its reserve and lowering LEFT. (R302) -/
  | keyScrubPage (port slot : Nat)
  /-- TIMER sets when RUN reaches TMRCMP in a resident cycle. (R69) -/
  | noticeTimer (team : Nat)
  /-- A set NOTICE bit with its NTEN bit set traps the team before its next issue, with the notice cause. (R68) -/
  | noticeTrap (team : Nat)
  /-- A sibling team receives a halt broadcast and stops within its skid bound. (R401) -/
  | haltBroadcast (team : Nat)
  /-- A reserve unit decides the pledge of a write against each owner region's available count. (R207) -/
  | pledgeRequest (msg : Nat)
  /-- The home merges a write into a line, encodes and settles the block, and updates die copies. (R245) -/
  | merge (msg : Nat)
  /-- A landing of an engine write adjusts RSVH and RSVP per standing pledge, and ends the pledge at the last byte. (R212) -/
  | engineWriteLanding (msg : Nat)
  /-- The home performs a strong access, atomic or reduction in its total order. (R231) -/
  | homeStrongAccess (msg : Nat)
  /-- A pledge claim on a block marked elsewhere makes the holding core write back and clear its mark. (R208) -/
  | pledgeOwnerChange (msg : Nat)
  /-- The home serves an acquire or hold request, taking back holds, asking a surrender and granting. (R226) -/
  | acquireRequest (line : Nat)
  /-- A core gives its hold of a sync line back to the home with its recorded releases. (R226) -/
  | holdTakeback (msg : Nat)
  /-- A core writes back its dirty words bound to a sync object and acknowledges. (R28) -/
  | surrender (msg : Nat)
  /-- The home receives a surrender acknowledgement, clears the last releaser and proceeds to grant. (R226) -/
  | surrenderAck (msg : Nat)
  /-- A core receives a grant and self-invalidates clean words bound to the object. (R226) -/
  | acquireGrant (msg : Nat)
  /-- The home serves a die copy miss itself or forwards it to the owner die. (R245) -/
  | dieCopyRead (msg : Nat)
  /-- An owner die sends the line to the reader and moves from M to O. (R245) -/
  | forwardedRead (msg : Nat)
  /-- A die copy is invalidated at the home's request and acknowledges. (R245) -/
  | dieCopyInvalidate (msg : Nat)
  /-- A die copy holder drops its copy at a back-invalidation and acknowledges. (R248) -/
  | backInvalidation (msg : Nat)
  /-- A die copy in M or O leaving the L2 tells the home, and the line has no owner. (R245) -/
  | ownerEvictionNotice (die line : Nat)
  /-- A remote copy becomes invalid when CLK reaches its expiry less the margin. (R251) -/
  | remoteCopyExpiry (die line : Nat)
  /-- A merge waiting for a lease proceeds once CLK reaches the line's latest expiry. (R252) -/
  | leaseWaitEnd (line : Nat)
  /-- A TLB miss walks the page tables and fills the TLB or raises the translation fault. (R283) -/
  | tlbWalk (msg : Nat)
  /-- The copy engine runs a copy command, with its acquire and release flags and full/empty updates. (R325) -/
  | copyExecution (core : Nat)
  /-- A command's release waiting for another workgroup's exclusive hold is recorded when the hold ends. (R328) -/
  | releaseFlagRecord (core cmd : Nat)
  /-- The matrix unit runs one queued operation into the accumulator in 16 cycles. (R340) -/
  | matrixOperation (core half : Nat)
  /-- The matrix queue runs a queued accld or accst on the accumulator. (R341) -/
  | accumulatorTransfer (core half : Nat)
  /-- A collective instance reduces over members in ring order and writes every destination. (R344) -/
  | collExecution (core : Nat) (parts : List CollPart)
  /-- The dispatcher places the next chosen gang whole on a free user core. (R317) -/
  | gangPlacement (die cluster core : Nat)
  /-- A dispatcher with an idle core splits the largest walker range to a thief walker. (R293) -/
  | walkerSplit (die core : Nat)
  /-- The dispatcher fuses or unfuses an empty cluster's L1s after writing them back. (R192) -/
  | l1FusionSwitch (die cluster : Nat) (fuse : Bool)
  /-- A soft pre-emption request is posted to a gang and sets PREEMPT. (R317) -/
  | preemptRequest (gang : Nat)
  /-- A request withdrawn before any halt clears PREEMPT. (R406) -/
  | preemptWithdraw (gang : Nat)
  /-- The grace limit expires and the gang's instruction-level halt begins or becomes pending. (R406) -/
  | graceExpiry (gang : Nat)
  /-- A gang is halted and saved and its resources freed, once no team has MASK set. (R407) -/
  | instructionLevelHalt (gang : Nat)
  /-- The kill limit expires and every workgroup of the gang ends with reason 3. (R410) -/
  | killExpiry (gang : Nat)
  /-- The dispatcher restores a pre-empted gang whole from its save record. (R407) -/
  | gangRestore (gang cluster core : Nat)
  /-- A workgroup whose lanes have all exited ends once its engine commands have completed. (R333) -/
  | workgroupEnd (wg : Nat)
  /-- A gang retires after its cores write back their dirty global words. (R316) -/
  | gangRetirement (gang : Nat)
  /-- A nop packet is consumed and completes. (R312) -/
  | nopPacket (ring : Nat)
  /-- A launch packet is checked and accepted into its region's dispatch queue. (R290) -/
  | launchPacket (ring : Nat)
  /-- A wait-value packet is consumed once its masked condition holds. (R315) -/
  | waitValuePacket (ring : Nat)
  /-- A wait-value timeout expires and raises packet-fault sub-cause 10. (R315) -/
  | waitValueTimeout (ring : Nat)
  /-- A signal packet sets or adds to a memory word at system scope. (R312) -/
  | signalPacket (ring : Nat)
  /-- A copy packet pledges its destination and moves bytes, then signals. (R312) -/
  | copyPacket (ring : Nat)
  /-- A fence packet completes when every earlier packet of the ring has completed. (R312) -/
  | fencePacket (ring : Nat)
  /-- A link packet moves consumption to the next segment and returns the drained segment. (R310) -/
  | linkPacket (ring : Nat)
  /-- A timestamp packet writes CLK to an address. (R312) -/
  | timestampPacket (ring : Nat)
  /-- A region-operation packet creates a region from a control-block image. (R314) -/
  | regionCreate (ring : Nat)
  /-- A region-operation packet destroys a region that has no children or work. (R314) -/
  | regionDestroy (ring : Nat)
  /-- A region-operation packet writes one field of a region control block. (R314) -/
  | regionFieldWrite (ring : Nat)
  /-- A region-operation packet maps pages for a region as constant zero. (R314) -/
  | mapPages (ring : Nat)
  /-- A region-operation packet unmaps a region's pages as pgsurr does. (R314) -/
  | unmapPages (ring : Nat)
  /-- A region-operation packet adds sectors to a root region's RSVG. (R314) -/
  | grantSectors (ring : Nat)
  /-- A doorbell write makes the queue engine examine the slot at READ. (R306) -/
  | ringDoorbell (ring : Nat) (value : DWord)
  /-- A doorbell write with bit 63 set clears STOP and re-reads the packet. (R306) -/
  | doorbellResume (ring : Nat)
  /-- The queue engine examines each unstopped ring at least once every microsecond. (R306) -/
  | ringPoll (ring : Nat)
  /-- A held device-ring bookkeeping write is retried when the owner region's available count rises. (R436) -/
  | bookkeepingWriteRetry (ring : Nat)
  /-- Firmware writes a balloon request and sets BALLOON in every resident team. (R217) -/
  | balloonPost (region seq sectors deadline : Nat)
  /-- A balloon deadline expires and the request completes, lowering RSVG. (R219) -/
  | balloonDeadline (region : Nat)
  /-- A page migrates between paired ports and its blocks are re-encoded. (R203) -/
  | migration (part va off : Nat)
  /-- A firmware sweep halves every access-heat counter of a port. (R354) -/
  | heatSweep (port : Nat)
  /-- A die samples all 64 cone monitors every millisecond. (R353) -/
  | coneSample (die : Nat) (readings : List (BitVec 16))
  /-- Firmware installs a margin table, raising the generation and possibly HCAP. (R353) -/
  | marginPlanInstall (die : Nat) (hcap : Option (BitVec 16)) (energy : List Nat)
  /-- A new gait-calendar slot becomes live and its owner's traffic moves. (R299) -/
  | gaitSlotStart (link : Nat)
  /-- Traffic waiting a full period for a slot causes an error record with the no-slot cause. (R300) -/
  | noSlotAlert (link part : Nat)
  /-- Hardware updates a region counter block under its SEQ protocol. (R356) -/
  | counterBlockUpdate (region : Nat)
  /-- A pipe takes one sample each sampling period. (R360) -/
  | pipeSample (pipe : Nat)
  /-- A full or 10-microsecond-old trace frame is closed and written whole to the sink. (R362) -/
  | traceFrameClose (die : Nat)
  /-- A detected memory error writes an error record, and an uncorrected one poisons its block. (R425) -/
  | memoryError (part va : Nat) (corrected : Bool) (syndrome : BitVec 16)
  /-- A power-stage alarm halves every die's issue clock within 10 microseconds. (R427) -/
  | powerAlarm
  /-- Firmware clears the alarm and the issue clock is restored. (R427) -/
  | powerAlarmClear
  /-- Firmware writes a connection-matrix entry for an idle cluster. (R298) -/
  | connectionMatrixWrite (rq : Nat) (value : DWord)
  /-- Firmware writes a calendar entry, which takes effect at the next slot 0. (R299) -/
  | gaitCalendarWrite (link slot : Nat) (value : Byte)
  /-- A write to a management register without a row of its own, dropped with an error record if the host writes a
  firmware-only register. (R419) -/
  | mgmtRegisterWrite (host : Bool) (off : Nat) (value : DWord)
  /-- Firmware sets up a partition in the fixed order, refusing one that breaks R31. (R421) -/
  | partitionSetup (p : PartSpec)
  /-- Firmware tears down a partition in reverse order, after key revocation. (R421) -/
  | partitionTeardown (part : Nat)
  /-- A host nonce produces a signed attestation report. (R423) -/
  | attestationRequest (part : Nat) (nonce : List Byte)
  /-- Boot ROM checks the firmware signature and firmware takes the firmware cores. (R422) -/
  | firmwareBoot (die : Nat)
  /-- The host reloads the firmware image over CXL.io. (R422) -/
  | firmwareRecoveryLoad (image sig : List Byte)
  /-- A cold reset sets device-owned state to reset values and clears the saddlebag. (R55) -/
  | deviceReset
  /-- A warm reset that keeps every saddlebag entry. (R426) -/
  | warmReset
  /-- A Pallum link trains, and a package with mismatched lease settings is refused. (R420) -/
  | linkTraining (link lease margin : Nat)
  /-- The host interface trains down to 8 or 4 lanes when lanes fail. (R418) -/
  | cxlLaneRetrain (lanes : Nat)
  /-- Loss of a package's links starts recovery, ending its collectives with STATUS 2. (R432) -/
  | linkLoss (package : Nat)
  /-- Every T ms firmware halts the job, copies dirty blocks and save records, and restores in place. (R428) -/
  | checkpoint (job : Nat)
  /-- A full order log makes firmware take the next checkpoint at once. (R429) -/
  | orderLogFull (job : Nat)
  /-- Replay from a checkpoint forces the logged outcomes. (R429) -/
  | replay (job : Nat) (snapshot : Bool)
  /-- A host request enables capture mode, with a snapshot checkpoint and capture entries. (R430) -/
  | captureEnable (job : Nat) (ring : CaptureRing)
  /-- A job moves by a consistent cut with markers on every channel. (R431) -/
  | jobMove (job : Nat) (received : List (List Byte))
  /-- Each cycle RUN advances for resident teams, CLK ticks, and each pipe adds to its stall histogram and charges a
  stall reason. (R358) -/
  | clockCycle
  /-- Load data or an atomic result returning from a die copy or the home fills the line's invalid L1 words and writes
  the waiting destination. (R189) -/
  | loadDataReply (load : Nat)
  /-- A group issues a word with an unassigned opcode, or fetches beyond its code object, and raises the
  illegal-instruction fault. (R91) -/
  | illegalInstructionWord (why : BadWord)
deriving DecidableEq, Repr

namespace Instr

/-- The word instruction of mnemonic `o` with the fields `f`. -/
def ofOp (o : Op) (f : Form) : Instr :=
  match o with
  | .add => .add f
  | .sub => .sub f
  | .mul => .mul f
  | .mulhi => .mulhi f
  | .mad => .mad f
  | .div => .div f
  | .rem => .rem f
  | .min => .min f
  | .max => .max f
  | .abs => .abs f
  | .neg => .neg f
  | .and => .and f
  | .or => .or f
  | .xor => .xor f
  | .not => .not f
  | .shl => .shl f
  | .shr => .shr f
  | .sar => .sar f
  | .rot => .rot f
  | .bfx => .bfx f
  | .bfi => .bfi f
  | .popc => .popc f
  | .clz => .clz f
  | .brev => .brev f
  | .sel => .sel f
  | .mov => .mov f
  | .movi => .movi f
  | .lea => .lea f
  | .cmp => .cmp f
  | .gand => .gand f
  | .gor => .gor f
  | .gxor => .gxor f
  | .gnot => .gnot f
  | .gset => .gset f
  | .gmov => .gmov f
  | .bra => .bra f
  | .brx => .brx f
  | .call => .call f
  | .ret => .ret f
  | .exit => .exit f
  | .convOpen => .convOpen f
  | .convNext => .convNext f
  | .convClose => .convClose f
  | .vote => .vote f
  | .ballot => .ballot f
  | .shfl => .shfl f
  | .redux => .redux f
  | .elect => .elect f
  | .matchLanes => .matchLanes f
  | .bcast => .bcast f
  | .yield => .yield f
  | .nop => .nop f
  | .isync => .isync f
  | .fadd => .fadd f
  | .fsub => .fsub f
  | .fmul => .fmul f
  | .ffma => .ffma f
  | .fmin => .fmin f
  | .fmax => .fmax f
  | .frcp => .frcp f
  | .frsq => .frsq f
  | .fsqrt => .fsqrt f
  | .fexp2 => .fexp2 f
  | .flog2 => .flog2 f
  | .ftanh => .ftanh f
  | .fcmp => .fcmp f
  | .fclass => .fclass f
  | .frnd => .frnd f
  | .hfma2 => .hfma2 f
  | .cvt => .cvt f
  | .cvtQ => .cvtQ f
  | .cvtW => .cvtW f
  | .qpack => .qpack f
  | .qunpack => .qunpack f
  | .bscale => .bscale f
  | .bdot4 => .bdot4 f
  | .ld => .ld f
  | .st => .st f
  | .atom => .atom f
  | .red => .red f
  | .acq => .acq f
  | .rel => .rel f
  | .bind => .bind f
  | .unbind => .unbind f
  | .fence => .fence f
  | .pref => .pref f
  | .stSparse => .stSparse f
  | .ldExpand => .ldExpand f
  | .cwb => .cwb f
  | .cinv => .cinv f
  | .icinv => .icinv f
  | .bsize => .bsize f
  | .copy => .copy f
  | .copyGen => .copyGen f
  | .copySeal => .copySeal f
  | .copyWait => .copyWait f
  | .obres => .obres f
  | .obrel => .obrel f
  | .obfmt => .obfmt f
  | .mma => .mma f
  | .accldGet => .accldGet f
  | .accldPut => .accldPut f
  | .accldZero => .accldZero f
  | .accst => .accst f
  | .coll => .coll f
  | .collWait => .collWait f
  | .bar => .bar f
  | .barGang => .barGang f
  | .pbarArrive => .pbarArrive f
  | .pbarWait => .pbarWait f
  | .sleep => .sleep f
  | .trap => .trap f
  | .trapService => .trapService f
  | .rett => .rett f
  | .sread => .sread f
  | .swrite => .swrite f
  | .segld => .segld f
  | .tlbinv => .tlbinv f
  | .rsvRead => .rsvRead f
  | .rsvAsk => .rsvAsk f
  | .pgsurr => .pgsurr f
  | .noticeAckBalloon => .noticeAckBalloon f
  | .noticeAckTimer => .noticeAckTimer f
  | .endwg => .endwg f
  | .tileNext => .tileNext f
  | .yieldpoint => .yieldpoint f
  | .kslotLoad => .kslotLoad f
  | .kslotRevoke => .kslotRevoke f

/-- The mnemonic and the fields of a word instruction; an event has none. -/
def word? : Instr → Option (Op × Form)
  | .add f => some (.add, f)
  | .sub f => some (.sub, f)
  | .mul f => some (.mul, f)
  | .mulhi f => some (.mulhi, f)
  | .mad f => some (.mad, f)
  | .div f => some (.div, f)
  | .rem f => some (.rem, f)
  | .min f => some (.min, f)
  | .max f => some (.max, f)
  | .abs f => some (.abs, f)
  | .neg f => some (.neg, f)
  | .and f => some (.and, f)
  | .or f => some (.or, f)
  | .xor f => some (.xor, f)
  | .not f => some (.not, f)
  | .shl f => some (.shl, f)
  | .shr f => some (.shr, f)
  | .sar f => some (.sar, f)
  | .rot f => some (.rot, f)
  | .bfx f => some (.bfx, f)
  | .bfi f => some (.bfi, f)
  | .popc f => some (.popc, f)
  | .clz f => some (.clz, f)
  | .brev f => some (.brev, f)
  | .sel f => some (.sel, f)
  | .mov f => some (.mov, f)
  | .movi f => some (.movi, f)
  | .lea f => some (.lea, f)
  | .cmp f => some (.cmp, f)
  | .gand f => some (.gand, f)
  | .gor f => some (.gor, f)
  | .gxor f => some (.gxor, f)
  | .gnot f => some (.gnot, f)
  | .gset f => some (.gset, f)
  | .gmov f => some (.gmov, f)
  | .bra f => some (.bra, f)
  | .brx f => some (.brx, f)
  | .call f => some (.call, f)
  | .ret f => some (.ret, f)
  | .exit f => some (.exit, f)
  | .convOpen f => some (.convOpen, f)
  | .convNext f => some (.convNext, f)
  | .convClose f => some (.convClose, f)
  | .vote f => some (.vote, f)
  | .ballot f => some (.ballot, f)
  | .shfl f => some (.shfl, f)
  | .redux f => some (.redux, f)
  | .elect f => some (.elect, f)
  | .matchLanes f => some (.matchLanes, f)
  | .bcast f => some (.bcast, f)
  | .yield f => some (.yield, f)
  | .nop f => some (.nop, f)
  | .isync f => some (.isync, f)
  | .fadd f => some (.fadd, f)
  | .fsub f => some (.fsub, f)
  | .fmul f => some (.fmul, f)
  | .ffma f => some (.ffma, f)
  | .fmin f => some (.fmin, f)
  | .fmax f => some (.fmax, f)
  | .frcp f => some (.frcp, f)
  | .frsq f => some (.frsq, f)
  | .fsqrt f => some (.fsqrt, f)
  | .fexp2 f => some (.fexp2, f)
  | .flog2 f => some (.flog2, f)
  | .ftanh f => some (.ftanh, f)
  | .fcmp f => some (.fcmp, f)
  | .fclass f => some (.fclass, f)
  | .frnd f => some (.frnd, f)
  | .hfma2 f => some (.hfma2, f)
  | .cvt f => some (.cvt, f)
  | .cvtQ f => some (.cvtQ, f)
  | .cvtW f => some (.cvtW, f)
  | .qpack f => some (.qpack, f)
  | .qunpack f => some (.qunpack, f)
  | .bscale f => some (.bscale, f)
  | .bdot4 f => some (.bdot4, f)
  | .ld f => some (.ld, f)
  | .st f => some (.st, f)
  | .atom f => some (.atom, f)
  | .red f => some (.red, f)
  | .acq f => some (.acq, f)
  | .rel f => some (.rel, f)
  | .bind f => some (.bind, f)
  | .unbind f => some (.unbind, f)
  | .fence f => some (.fence, f)
  | .pref f => some (.pref, f)
  | .stSparse f => some (.stSparse, f)
  | .ldExpand f => some (.ldExpand, f)
  | .cwb f => some (.cwb, f)
  | .cinv f => some (.cinv, f)
  | .icinv f => some (.icinv, f)
  | .bsize f => some (.bsize, f)
  | .copy f => some (.copy, f)
  | .copyGen f => some (.copyGen, f)
  | .copySeal f => some (.copySeal, f)
  | .copyWait f => some (.copyWait, f)
  | .obres f => some (.obres, f)
  | .obrel f => some (.obrel, f)
  | .obfmt f => some (.obfmt, f)
  | .mma f => some (.mma, f)
  | .accldGet f => some (.accldGet, f)
  | .accldPut f => some (.accldPut, f)
  | .accldZero f => some (.accldZero, f)
  | .accst f => some (.accst, f)
  | .coll f => some (.coll, f)
  | .collWait f => some (.collWait, f)
  | .bar f => some (.bar, f)
  | .barGang f => some (.barGang, f)
  | .pbarArrive f => some (.pbarArrive, f)
  | .pbarWait f => some (.pbarWait, f)
  | .sleep f => some (.sleep, f)
  | .trap f => some (.trap, f)
  | .trapService f => some (.trapService, f)
  | .rett f => some (.rett, f)
  | .sread f => some (.sread, f)
  | .swrite f => some (.swrite, f)
  | .segld f => some (.segld, f)
  | .tlbinv f => some (.tlbinv, f)
  | .rsvRead f => some (.rsvRead, f)
  | .rsvAsk f => some (.rsvAsk, f)
  | .pgsurr f => some (.pgsurr, f)
  | .noticeAckBalloon f => some (.noticeAckBalloon, f)
  | .noticeAckTimer f => some (.noticeAckTimer, f)
  | .endwg f => some (.endwg, f)
  | .tileNext f => some (.tileNext, f)
  | .yieldpoint f => some (.yieldpoint, f)
  | .kslotLoad f => some (.kslotLoad, f)
  | .kslotRevoke f => some (.kslotRevoke, f)
  | .convCloseCompletion _ _ => none
  | .collectiveCompletion _ _ => none
  | .feLoadCompletion _ => none
  | .copyWaitCompletion _ => none
  | .mmaEnqueueResume _ => none
  | .collWaitCompletion _ => none
  | .barCompletion _ => none
  | .barGangCompletion _ => none
  | .pbarWaitCompletion _ => none
  | .sleepEnd _ => none
  | .firmwareServiceAnswer _ _ => none
  | .keyScrubPage _ _ => none
  | .noticeTimer _ => none
  | .noticeTrap _ => none
  | .haltBroadcast _ => none
  | .pledgeRequest _ => none
  | .merge _ => none
  | .engineWriteLanding _ => none
  | .homeStrongAccess _ => none
  | .pledgeOwnerChange _ => none
  | .acquireRequest _ => none
  | .holdTakeback _ => none
  | .surrender _ => none
  | .surrenderAck _ => none
  | .acquireGrant _ => none
  | .dieCopyRead _ => none
  | .forwardedRead _ => none
  | .dieCopyInvalidate _ => none
  | .backInvalidation _ => none
  | .ownerEvictionNotice _ _ => none
  | .remoteCopyExpiry _ _ => none
  | .leaseWaitEnd _ => none
  | .tlbWalk _ => none
  | .copyExecution _ => none
  | .releaseFlagRecord _ _ => none
  | .matrixOperation _ _ => none
  | .accumulatorTransfer _ _ => none
  | .collExecution _ _ => none
  | .gangPlacement _ _ _ => none
  | .walkerSplit _ _ => none
  | .l1FusionSwitch _ _ _ => none
  | .preemptRequest _ => none
  | .preemptWithdraw _ => none
  | .graceExpiry _ => none
  | .instructionLevelHalt _ => none
  | .killExpiry _ => none
  | .gangRestore _ _ _ => none
  | .workgroupEnd _ => none
  | .gangRetirement _ => none
  | .nopPacket _ => none
  | .launchPacket _ => none
  | .waitValuePacket _ => none
  | .waitValueTimeout _ => none
  | .signalPacket _ => none
  | .copyPacket _ => none
  | .fencePacket _ => none
  | .linkPacket _ => none
  | .timestampPacket _ => none
  | .regionCreate _ => none
  | .regionDestroy _ => none
  | .regionFieldWrite _ => none
  | .mapPages _ => none
  | .unmapPages _ => none
  | .grantSectors _ => none
  | .ringDoorbell _ _ => none
  | .doorbellResume _ => none
  | .ringPoll _ => none
  | .bookkeepingWriteRetry _ => none
  | .balloonPost _ _ _ _ => none
  | .balloonDeadline _ => none
  | .migration _ _ _ => none
  | .heatSweep _ => none
  | .coneSample _ _ => none
  | .marginPlanInstall _ _ _ => none
  | .gaitSlotStart _ => none
  | .noSlotAlert _ _ => none
  | .counterBlockUpdate _ => none
  | .pipeSample _ => none
  | .traceFrameClose _ => none
  | .memoryError _ _ _ _ => none
  | .powerAlarm => none
  | .powerAlarmClear => none
  | .connectionMatrixWrite _ _ => none
  | .gaitCalendarWrite _ _ _ => none
  | .mgmtRegisterWrite _ _ _ => none
  | .partitionSetup _ => none
  | .partitionTeardown _ => none
  | .attestationRequest _ _ => none
  | .firmwareBoot _ => none
  | .firmwareRecoveryLoad _ _ => none
  | .deviceReset => none
  | .warmReset => none
  | .linkTraining _ _ _ => none
  | .cxlLaneRetrain _ => none
  | .linkLoss _ => none
  | .checkpoint _ => none
  | .orderLogFull _ => none
  | .replay _ _ => none
  | .captureEnable _ _ => none
  | .jobMove _ _ => none
  | .clockCycle => none
  | .loadDataReply _ => none
  | .illegalInstructionWord _ => none

end Instr

end Sys2Proof
end

