-- ==== Sys2Proof/Machine/Accept.lean ====
section
/-!
DEFINITION. What each mnemonic accepts: types, qualifiers, source kinds and destinations, as the encoding tables of
the spec list them (05 R106, R107; 06 R122; 07 R154, R155; 11 R255, R256; 14 R322; 17 R365), and which instructions
may stand in a latch chain (04 R96).
-/

namespace Sys2Proof

namespace Ty

/-- `.s8`-`.s64` -/
def isS : Ty → Bool | .s8 | .s16 | .s32 | .s64 => true | _ => false
/-- `.n8`-`.n64` -/
def isN : Ty → Bool | .n8 | .n16 | .n32 | .n64 => true | _ => false
/-- `.b8`-`.b64` -/
def isB : Ty → Bool | .b8 | .b16 | .b32 | .b64 => true | _ => false
/-- "Int" of R155. -/
def isInt (t : Ty) : Bool := t.isS || t.isN
/-- "IEEE" of R155. -/
def isIEEE : Ty → Bool | .f32 | .bf16 | .f16 => true | _ => false
/-- `.fmt0`-`.fmt15` -/
def isFmt : Ty → Bool | .fmt _ => true | _ => false

/-- The width of a type in bits; 0 for `none` and for `.fmtN`. -/
def width : Ty → Nat
  | .none | .fmt _ => 0
  | .s8 | .n8 | .b8 => 8
  | .s16 | .n16 | .b16 | .bf16 | .f16 => 16
  | .s32 | .n32 | .b32 | .f32 => 32
  | .s64 | .n64 | .b64 => 64
  | .b128 => 128

/-- The code of a type (R79). -/
def code : Ty → BitVec 6
  | .none => 0x00 | .s8 => 0x01 | .s16 => 0x02 | .s32 => 0x03 | .s64 => 0x04
  | .n8 => 0x05 | .n16 => 0x06 | .n32 => 0x07 | .n64 => 0x08
  | .b8 => 0x09 | .b16 => 0x0A | .b32 => 0x0B | .b64 => 0x0C | .b128 => 0x0D
  | .f32 => 0x0E | .bf16 => 0x0F | .f16 => 0x10
  | .fmt n => 0b10#2 ++ n

/-- The type of a code of R79, if the table has it. -/
def ofCode (c : BitVec 6) : Option Ty :=
  if c.extractLsb' 4 2 = 0b10#2 then some (.fmt (c.extractLsb' 0 4))
  else match c.toNat with
    | 0x00 => some .none | 0x01 => some .s8 | 0x02 => some .s16 | 0x03 => some .s32 | 0x04 => some .s64
    | 0x05 => some .n8 | 0x06 => some .n16 | 0x07 => some .n32 | 0x08 => some .n64
    | 0x09 => some .b8 | 0x0A => some .b16 | 0x0B => some .b32 | 0x0C => some .b64 | 0x0D => some .b128
    | 0x0E => some .f32 | 0x0F => some .bf16 | 0x10 => some .f16
    | _ => Option.none

end Ty

/-- The kinds that a source field may have (R84-R86); `none` marks a field that may also be left unused, and `anyPair`
a field that always holds a scalar pair, s0 second included (R380), which the engine family's `pair` cannot (R322). -/
inductive SrcKind where
  | none | v | s | pair | anyPair | latch | int | flt | guard | fmt | sys | ty
deriving DecidableEq, Repr

/-- The kind of a source operand. -/
def Src.kind : Src → SrcKind
  | .unused => .none | .v _ => .v | .s _ => .s | .pair _ _ => .pair | .latch _ => .latch
  | .int _ => .int | .flt _ => .flt | .guard _ => .guard | .fmt _ => .fmt | .sys _ => .sys | .ty _ => .ty

/-- The classes of destination (R82, R83). -/
inductive DstKind where
  | v | s | g | f | latch
deriving DecidableEq, Repr

/-- The class of a destination register. -/
def Dst.kind : Dst → DstKind
  | .v _ => .v | .s _ => .s | .g _ => .g | .f _ => .f

/-- The register and the latch that a destination names. -/
def Dest.dst : Dest → Option Dst
  | .reg r | .both r _ => some r
  | _ => Option.none
def Dest.lat : Dest → Option (BitVec 2)
  | .both _ l | .latch l => some l
  | _ => Option.none

/-- Where an instruction may stand in a latch chain (R96). -/
inductive ChainUse where
  | any | last | no
deriving DecidableEq, Repr

namespace Op

/-- Format I is fixed by the opcode (R87). -/
def formatI : Op → Bool | .movi | .bra | .call => true | _ => false

/-- The types a mnemonic accepts (R107, R122, R134, R155, R256, R258, R262, R274, R322, R365). -/
def typeOk (o : Op) (t : Ty) : Bool :=
  match o with
  | .add | .sub | .mul | .mulhi | .mad | .div | .rem | .min | .max => t.isInt
  | .abs | .neg => t.isS
  | .and | .or | .xor | .not | .rot | .bfi | .popc | .clz | .brev | .sel | .mov => t.isB
  | .shl | .bfx | .cmp => t.isB || t.isInt
  | .shr => t.isB || t.isN
  | .sar => t.isB || t.isS
  | .movi => t ∈ [Ty.b32, .n32, .s32, .b64, .n64, .s64]
  | .lea => t ∈ [Ty.n32, .n64, .s64]
  | .shfl | .matchLanes | .bcast => t ∈ [Ty.b32, .b64]
  | .redux | .atom | .red => t ∈ [Ty.s32, .n32, .s64, .n64, .f32, .b32, .b64]
  | .fadd | .fsub | .fmul | .ffma | .fmin | .fmax | .frcp | .frsq | .fsqrt | .fexp2 | .flog2 | .ftanh
  | .fcmp | .fclass | .frnd => t.isIEEE
  | .hfma2 => t ∈ [Ty.bf16, .f16]
  | .cvt => t.isIEEE || t.isInt || t.isFmt
  | .cvtQ | .qpack | .bscale | .bdot4 => t.isFmt
  | .cvtW | .qunpack | .accldGet | .accldPut | .accldZero => t == .f32
  | .ld | .st => t != .none && !t.isFmt
  | .stSparse | .ldExpand => t ∈ [Ty.b16, .bf16, .f16, .b32, .f32]
  | .obres | .obfmt => t == .f32 || t.isFmt
  | .mma => t == .bf16 || t == .f16 || t.isFmt
  | .accst => t.isIEEE || t.isFmt
  | .coll => t == .f32 || t == .bf16
  | _ => t == .none

/-- Whether QUAL holds a set bit that the mnemonic does not define, or a reserved code
(R80, R106, R122, R134, R154, R255, R256, R262, R267, R322, R365). -/
def qualReserved (o : Op) (q : BitVec 6) : Bool :=
  let undefined (defd : BitVec 6) : Bool := q &&& ~~~defd != 0
  let scope3 : Bool := (q.extractLsb' 0 3).toNat ≥ 6
  match o with
  | .add | .sub | .mul | .mad | .div | .abs | .neg | .shl => undefined 0b000001
  | .cmp => undefined 0b000111 || (q.extractLsb' 0 3).toNat ≥ 6
  | .lea | .fcmp => undefined 0b000111
  | .vote => undefined 0b000011
  | .shfl => undefined 0b000111
  | .redux => undefined 0b000111 || (q.extractLsb' 0 3).toNat ≥ 6
  | .fadd | .fsub | .fmul | .ffma | .frcp | .fsqrt | .frnd | .hfma2 => undefined 0b000011
  | .cvt | .cvtQ | .cvtW | .qpack | .qunpack | .accst => undefined 0b001111
  | .ld =>
    match (q.extractLsb' 4 2).toNat with
    | 0 => if q.getLsbD 3 then scope3 else undefined 0b110001
    | 3 => undefined 0b110000
    | _ => undefined 0b111110 || q.extractLsb' 1 2 == 3
  | .st =>
    match (q.extractLsb' 4 2).toNat with
    | 0 => if q.getLsbD 3 then scope3 else undefined 0b110000
    | 3 => undefined 0b110000
    | _ => undefined 0b111000
  | .stSparse =>
    match (q.extractLsb' 4 2).toNat with
    | 0 | 3 => undefined 0b110000
    | _ => undefined 0b111000
  | .ldExpand =>
    match (q.extractLsb' 4 2).toNat with
    | 0 => undefined 0b110001
    | 3 => undefined 0b110000
    | _ => undefined 0b111000
  | .pref =>
    match (q.extractLsb' 4 2).toNat with
    | 0 => undefined 0b110001
    | _ => undefined 0b110000
  | .atom | .red => (q.extractLsb' 2 4).toNat ≥ 8
  | .acq => undefined 0b100111 || scope3
  | .rel | .fence => undefined 0b000111 || scope3
  | .bind | .cwb | .cinv | .tlbinv => undefined 0b100000
  | .copy | .copyGen => undefined 0b111110 || (q.extractLsb' 1 3).toNat ≥ 6
  | .accldGet | .accldPut | .accldZero => undefined 0b110000
  | .coll => undefined 0b000011 || q.extractLsb' 0 2 == 3
  | .pbarArrive | .pbarWait => undefined 0b110000
  | .noticeAckBalloon | .noticeAckTimer => undefined 0b000011
  | .kslotLoad | .kslotRevoke => undefined 0b000001
  | _ => undefined 0

/-- Where the mnemonic may stand in a chain (R96); `ld` with `.fe` or `.fec` may not. -/
def chain (o : Op) (q : BitVec 6) : ChainUse :=
  match o with
  | .add | .sub | .mul | .mulhi | .mad | .div | .rem | .min | .max | .abs | .neg | .and | .or | .xor | .not
  | .shl | .shr | .sar | .rot | .bfx | .bfi | .popc | .clz | .brev | .sel | .mov | .movi | .lea | .cmp
  | .gand | .gor | .gxor | .gnot | .gset | .gmov
  | .fadd | .fsub | .fmul | .ffma | .fmin | .fmax | .frcp | .frsq | .fsqrt | .fexp2 | .flog2 | .ftanh | .fcmp
  | .fclass | .frnd | .hfma2 | .cvt | .cvtQ | .cvtW | .qpack | .qunpack | .bscale | .bdot4 | .ldExpand => .any
  | .ld =>
    if (q.extractLsb' 4 2 == 1 || q.extractLsb' 4 2 == 2) && q.extractLsb' 1 2 != 0 then .no else .any
  | .bra | .brx | .st | .stSparse | .atom | .red => .last
  | _ => .no

/-- The value of an integer source: vector, scalar, latch or short integer (R103). -/
def vi : List SrcKind := [.v, .s, .latch, .int]
/-- The same on an instruction that may not stand in a chain, which takes no latch (R84). -/
def vsi : List SrcKind := [.v, .s, .int]
/-- The value of a source read under an IEEE type (R155). -/
def vf : List SrcKind := [.v, .s, .latch, .flt]
/-- A scalar register or an immediate integer. -/
def si : List SrcKind := [.s, .int]

/-- What OPA accepts; the empty list is a field that must be zero. -/
def slotA (o : Op) (q : BitVec 6) : List SrcKind :=
  match o with
  | .add | .sub | .mul | .mulhi | .mad | .div | .rem | .min | .max | .abs | .neg | .and | .or | .xor | .not
  | .shl | .shr | .sar | .rot | .bfx | .bfi | .popc | .clz | .brev | .sel | .lea | .cmp | .gset => vi
  | .mov => .fmt :: vi
  | .gand | .gor | .gxor | .gnot | .gmov | .vote | .ballot => [.guard]
  | .brx => [.v, .s, .latch]
  | .ret | .matchLanes | .bcast | .qpack => [.v]
  | .shfl | .redux => [.v, .s]
  | .fadd | .fsub | .fmul | .ffma | .fmin | .fmax | .frcp | .frsq | .fsqrt | .fexp2 | .flog2 | .ftanh
  | .fcmp | .fclass | .frnd | .hfma2 | .cvtQ | .bscale => vf
  | .cvt => .flt :: vi
  | .cvtW | .qunpack | .bdot4 => vi
  | .ld => if o.chain q = .no then vsi else vi
  | .st | .atom | .red => vi
  | .pref | .icinv | .bsize => vsi
  | .cwb | .cinv => if q.getLsbD 5 then [] else vsi
  | .acq | .rel | .bind | .unbind | .stSparse | .ldExpand => si
  | .copy | .copyGen | .coll => [.pair]
  | .copyWait | .obrel | .obfmt | .collWait => si
  | .mma | .accldPut => [.v, .pair]
  | .accst => [.s, .pair]
  | .pbarArrive | .pbarWait | .sleep | .trap | .rsvAsk | .pgsurr | .noticeAckBalloon => si
  | .trapService => [.int]
  | .sread | .swrite => [.sys]
  | .segld => [.int]
  | .tlbinv => if q.getLsbD 5 then [] else [.s]
  | .endwg => .none :: si
  | .kslotLoad | .kslotRevoke => [.s]
  | _ => []

/-- What OPB accepts, given OPA. -/
def slotB (o : Op) (q : BitVec 6) (a : Src) : List SrcKind :=
  match o with
  | .add | .sub | .mul | .mulhi | .mad | .div | .rem | .min | .max | .and | .or | .xor
  | .shl | .shr | .sar | .rot | .bfx | .bfi | .sel | .lea | .cmp => vi
  | .gand | .gor | .gxor => [.guard]
  | .shfl => [.v, .s, .int]
  | .bcast => si
  | .fadd | .fsub | .fmul | .ffma | .fmin | .fmax | .fcmp | .hfma2 => vf
  | .fclass => si
  | .cvtQ | .cvtW | .qpack | .qunpack | .bdot4 => vi
  | .ld => if o.chain q = .no then vsi else vi
  | .st | .atom | .red => vi
  | .pref | .icinv | .bsize => vsi
  | .cwb | .cinv => if q.getLsbD 5 then [] else vsi
  | .acq | .rel | .pbarArrive | .pbarWait => [.int]
  | .bind | .stSparse | .ldExpand | .pgsurr => si
  | .copy | .copyGen | .coll => [.pair]
  | .segld => [.anyPair]
  | .obres => si
  | .mma => [.v, .pair]
  | .accldGet => si
  | .accldPut | .accst => if a.kind = .pair then [] else si
  | .trap | .trapService => .none :: si
  | .swrite => [.v, .s, .int]
  | .tlbinv => si
  | .kslotLoad => [.s]
  | _ => []

/-- What OPC accepts. -/
def slotC (o : Op) : List SrcKind :=
  match o with
  | .mad | .bfx | .bfi | .lea => vi
  | .sel => [.guard]
  | .vote | .ballot | .shfl | .redux | .elect | .matchLanes | .bcast => si
  | .ffma | .hfma2 | .bdot4 => vf
  | .cvt | .cvtQ | .cvtW | .qpack | .qunpack | .bscale => [.ty]
  | .st | .atom | .red => .flt :: vi
  | .bind | .ldExpand => si
  | .stSparse => [.v]
  | .copy | .copyGen => [.s, .int, .pair]
  | .obres | .obfmt | .mma | .accldGet | .accldPut | .accldZero | .accst => si
  | .pbarArrive | .pbarWait => si
  | .trap | .trapService => .none :: si
  | _ => []

/-- The destinations a mnemonic accepts; the empty list is a mnemonic without destination. -/
def dests (o : Op) : List DstKind :=
  match o with
  | .mov | .movi => [.v, .s, .latch, .f]
  | .add | .sub | .mul | .mulhi | .mad | .div | .rem | .min | .max | .abs | .neg | .and | .or | .xor | .not
  | .shl | .shr | .sar | .rot | .bfx | .bfi | .popc | .clz | .brev | .sel | .lea
  | .fadd | .fsub | .fmul | .ffma | .fmin | .fmax | .frcp | .frsq | .fsqrt | .fexp2 | .flog2 | .ftanh | .frnd
  | .hfma2 | .cvt | .cvtQ | .cvtW | .bscale | .bdot4 | .ld => [.v, .s, .latch]
  | .cmp | .gand | .gor | .gxor | .gnot | .gset | .gmov | .vote | .elect | .matchLanes | .fcmp | .fclass
  | .tileNext => [.g]
  | .call | .shfl | .bcast | .qpack | .qunpack | .atom | .accldGet => [.v]
  | .ballot | .redux | .bind | .stSparse | .copySeal | .obres | .trap | .trapService | .rsvRead | .rsvAsk
  | .pgsurr | .kslotLoad | .kslotRevoke => [.s]
  | .ldExpand => [.v, .latch]
  | .bsize | .sread => [.v, .s]
  | _ => []

end Op

/-- Whether a source operand is of a kind that the field accepts. -/
def slotOk (ks : List SrcKind) (x : Src) : Bool :=
  match x with
  | .pair _ b => ks.contains .anyPair || (ks.contains .pair && b != 0)
  | x => if ks = [] then x.kind == .none else ks.contains x.kind

/-- The mnemonics of the system family that have a destination: there LEN = 1 is left to the chain-structure check,
whatever the destination's other bits hold (R365, R376). -/
def Op.lenFirst (o : Op) : Bool :=
  o matches .trap | .trapService | .sread | .rsvRead | .rsvAsk | .pgsurr | .tileNext | .kslotLoad | .kslotRevoke

/-- Whether the destination is of a form and class that the mnemonic accepts (R83, R105, R376). A latch named by a
mnemonic that may not stand in a chain is left to the chain-structure check (R96). -/
def destOk (o : Op) (q : BitVec 6) (d : Dest) : Bool :=
  let ks := o.dests
  let latchOk := ks.contains .latch || o.chain q == .no
  match o, d with
  | .trap, .none | .trapService, .none => true
  | _, .none => ks == []
  | _, .reg r => ks.contains r.kind
  | o, .both r _ => ks.contains r.kind && latchOk && !o.lenFirst
  | _, .latch _ => ks != [] && latchOk

/-- Second type suffixes (R81, R155). -/
def secondOk (o : Op) (t : Ty) (c : Src) : Bool :=
  match o, c with
  | .cvt, .ty u => (u.isIEEE || u.isInt || u.isFmt) && !(t.isInt && u.isInt)
  | .cvtQ, .ty u | .qpack, .ty u | .bscale, .ty u => u == .f32
  | .cvtW, .ty u | .qunpack, .ty u => u.isFmt
  | .cvt, _ | .cvtQ, _ | .qpack, _ | .bscale, _ | .cvtW, _ | .qunpack, _ => false
  | _, _ => true

/-- The immediate subkind that a source takes follows how it is read: `cvt` by its source type (R155), `atom` and
`red` by their type (R262). -/
def immOk (o : Op) (t : Ty) (x : Src) : Bool :=
  match o, x with
  | .atom, .flt _ | .red, .flt _ => t == .f32
  | .atom, .int _ | .red, .int _ => t != .f32
  | _, _ => true

/-- The pairings of type, qualifiers and operands that a mnemonic accepts
(R106, R117, R118, R120, R134, R155, R164, R255, R257, R258, R262, R266, R342, R365). -/
def pairingOk (o : Op) (f : Form) : Bool :=
  let sp := f.q.extractLsb' 4 2
  match o with
  | .add | .sub | .mul | .mad | .div | .abs | .neg | .shl => !(f.q.getLsbD 0 && f.ty.isB)
  | .cmp => !(f.ty.isB && (f.q.extractLsb' 0 3).toNat > 1)
  | .mov => f.ty == .b32 || (f.a.kind != .fmt &&
      match f.d with | .reg (.f _) | .both (.f _) _ => false | _ => true)
  | .movi => f.ty == .b32 || (match f.d with | .reg (.f _) | .both (.f _) _ => false | _ => true)
  | .fclass => match f.b with | .int x => !x.msb | _ => true
  | .redux => if (f.q.extractLsb' 0 3).toNat < 3 then !f.ty.isB else f.ty.isB
  | .cvt =>
    (match f.c, f.a with
      | .ty u, .flt _ => u.isIEEE
      | .ty u, .int _ => !u.isIEEE
      | _, _ => true) && !(f.ty.isInt && f.q.extractLsb' 2 2 != 0)
  | .atom | .red =>
    let op := (f.q.extractLsb' 2 4).toNat
    f.q.extractLsb' 0 2 != 3 && (o == .atom || op < 6) && (if op < 3 then !f.ty.isB else f.ty.isB)
      && immOk o f.ty f.c
  | .st => sp != 3 && !(f.ty == .b128 && (f.c.kind == .s || f.c.kind == .latch))
  | .stSparse => sp != 3
  | .pref => sp == 0 || sp == 3
  | .ld => !(f.ty == .b128 && match f.d with | .reg (.v _) => false | _ => true)
  | .acq => !(f.q.getLsbD 5 && (f.q.extractLsb' 0 3).toNat < 2)
  | .accst => f.q.extractLsb' 2 2 != 3
  | .pbarArrive | .pbarWait => sp == 1 || sp == 2
  | _ => true

/-- Item 4 of R93: every kind, form and type of the word is one that the mnemonic accepts. -/
def Op.accepts (o : Op) (f : Form) : Bool :=
  o.typeOk f.ty && slotOk (o.slotA f.q) f.a && slotOk (o.slotB f.q f.a) f.b && slotOk o.slotC f.c
    && destOk o f.q f.d && secondOk o f.ty f.c && pairingOk o f

/-- The forms that one opcode splits into by a qualifier or its code operand
(`accld` R322, `notice.ack` and `kslot` R365, `trap` R376). -/
def Op.split (o : Op) (f : Form) : Bool :=
  let isService := match f.a with | .int x => x.extractLsb' 0 8 == 240 | _ => false
  match o with
  | .accldGet => f.q.extractLsb' 4 2 == 0
  | .accldPut => f.q.extractLsb' 4 2 == 1
  | .accldZero => f.q.extractLsb' 4 2 == 2
  | .noticeAckBalloon => f.q.extractLsb' 0 2 == 0
  | .noticeAckTimer => f.q.extractLsb' 0 2 == 1
  | .kslotLoad => !f.q.getLsbD 0
  | .kslotRevoke => f.q.getLsbD 0
  | .trap => !isService
  | .trapService => isService
  | _ => true

/-- Under Format I the immediate stands in place of the second and third source and of two qualifier bits (R87). -/
def Op.immForm (o : Op) (f : Form) : Bool :=
  if o.formatI then f.q == 0 && f.b == .unused && f.c == .unused else f.imm == 0

end Sys2Proof
end

