-- ==== Sys2Proof/WellFormed.lean ====
section
/-!
DEFINITION. Well-formed instructions: those that some word of the spec's encoding decodes to. An event is well formed
as it stands.
-/

namespace Sys2Proof

/-- A word instruction with no reserved qualifier bit or code, every field of a kind its mnemonic accepts
(R93, items 3 and 4), and the fields of its own format. -/
def Op.wf (o : Op) (f : Form) : Bool :=
  !o.qualReserved f.q && o.immForm f && o.split f && o.accepts f

/-- The syntactic check of an instruction. -/
def Instr.wf (i : Instr) : Bool :=
  match i.word? with
  | some (o, f) => o.wf f
  | none => true

end Sys2Proof
end

