-- ==== Sys2Proof/Decode.lean ====
section
/-!
DEFINITION. Decoding of the 96-bit instruction word (04 R74-R93, items 2 to 4) and, after it, the encoder. Bits that
a rule marks reserved are refused first, then kinds and forms that the mnemonic does not accept.
-/

namespace Sys2Proof

/-- Opcodes, in ascending order from each family's first opcode (R90). -/
def Op.opcode : Op → BitVec 10
  | .add => 0x000 | .sub => 0x001 | .mul => 0x002 | .mulhi => 0x003 | .mad => 0x004 | .div => 0x005 | .rem => 0x006
  | .min => 0x007 | .max => 0x008 | .abs => 0x009 | .neg => 0x00A | .and => 0x00B | .or => 0x00C | .xor => 0x00D
  | .not => 0x00E | .shl => 0x00F | .shr => 0x010 | .sar => 0x011 | .rot => 0x012 | .bfx => 0x013 | .bfi => 0x014
  | .popc => 0x015 | .clz => 0x016 | .brev => 0x017 | .sel => 0x018 | .mov => 0x019 | .movi => 0x01A | .lea => 0x01B
  | .cmp => 0x01C | .gand => 0x01D | .gor => 0x01E | .gxor => 0x01F | .gnot => 0x020 | .gset => 0x021 | .gmov => 0x022
  | .bra => 0x080 | .brx => 0x081 | .call => 0x082 | .ret => 0x083 | .exit => 0x084 | .convOpen => 0x085
  | .convNext => 0x086 | .convClose => 0x087 | .vote => 0x088 | .ballot => 0x089 | .shfl => 0x08A | .redux => 0x08B
  | .elect => 0x08C | .matchLanes => 0x08D | .bcast => 0x08E | .yield => 0x08F | .nop => 0x090 | .isync => 0x091
  | .fadd => 0x100 | .fsub => 0x101 | .fmul => 0x102 | .ffma => 0x103 | .fmin => 0x104 | .fmax => 0x105 | .frcp => 0x106
  | .frsq => 0x107 | .fsqrt => 0x108 | .fexp2 => 0x109 | .flog2 => 0x10A | .ftanh => 0x10B | .fcmp => 0x10C
  | .fclass => 0x10D | .frnd => 0x10E | .hfma2 => 0x10F
  | .cvt => 0x180 | .cvtQ => 0x181 | .cvtW => 0x182 | .qpack => 0x183 | .qunpack => 0x184 | .bscale => 0x185
  | .bdot4 => 0x186
  | .ld => 0x200 | .st => 0x201 | .atom => 0x202 | .red => 0x203 | .acq => 0x204 | .rel => 0x205 | .bind => 0x206
  | .unbind => 0x207 | .fence => 0x208 | .pref => 0x209 | .stSparse => 0x20A | .ldExpand => 0x20B | .cwb => 0x20C
  | .cinv => 0x20D | .icinv => 0x20E | .bsize => 0x20F
  | .copy => 0x280 | .copyGen => 0x281 | .copySeal => 0x282 | .copyWait => 0x283 | .obres => 0x284 | .obrel => 0x285
  | .obfmt => 0x286 | .mma => 0x287 | .accldGet | .accldPut | .accldZero => 0x288 | .accst => 0x289 | .coll => 0x28A
  | .collWait => 0x28B
  | .bar => 0x300 | .barGang => 0x301 | .pbarArrive => 0x302 | .pbarWait => 0x303 | .sleep => 0x304
  | .trap | .trapService => 0x305 | .rett => 0x306 | .sread => 0x307 | .swrite => 0x308 | .segld => 0x309
  | .tlbinv => 0x30A | .rsvRead => 0x30B | .rsvAsk => 0x30C | .pgsurr => 0x30D
  | .noticeAckBalloon | .noticeAckTimer => 0x30E | .endwg => 0x30F | .tileNext => 0x310 | .yieldpoint => 0x311
  | .kslotLoad | .kslotRevoke => 0x312

/-- The mnemonics of each family in opcode order (R90). -/
def familyOps : List (List Op) :=
  [[.add, .sub, .mul, .mulhi, .mad, .div, .rem, .min, .max, .abs, .neg, .and, .or, .xor, .not, .shl, .shr, .sar,
    .rot, .bfx, .bfi, .popc, .clz, .brev, .sel, .mov, .movi, .lea, .cmp, .gand, .gor, .gxor, .gnot, .gset, .gmov],
   [.bra, .brx, .call, .ret, .exit, .convOpen, .convNext, .convClose, .vote, .ballot, .shfl, .redux, .elect,
    .matchLanes, .bcast, .yield, .nop, .isync],
   [.fadd, .fsub, .fmul, .ffma, .fmin, .fmax, .frcp, .frsq, .fsqrt, .fexp2, .flog2, .ftanh, .fcmp, .fclass, .frnd,
    .hfma2],
   [.cvt, .cvtQ, .cvtW, .qpack, .qunpack, .bscale, .bdot4],
   [.ld, .st, .atom, .red, .acq, .rel, .bind, .unbind, .fence, .pref, .stSparse, .ldExpand, .cwb, .cinv, .icinv,
    .bsize],
   [.copy, .copyGen, .copySeal, .copyWait, .obres, .obrel, .obfmt, .mma, .accldGet, .accst, .coll, .collWait],
   [.bar, .barGang, .pbarArrive, .pbarWait, .sleep, .trap, .rett, .sread, .swrite, .segld, .tlbinv, .rsvRead,
    .rsvAsk, .pgsurr, .noticeAckBalloon, .endwg, .tileNext, .yieldpoint, .kslotLoad]]

/-- The mnemonic of an opcode, before a qualifier or a code operand splits it; unassigned opcodes have none
(R89, R91). -/
def opcodeOp (c : BitVec 10) : Option Op :=
  (familyOps[(c.extractLsb' 7 3).toNat]?).bind fun fam => fam[(c.extractLsb' 0 7).toNat]?

/-- The row that one opcode's word belongs to, by FORM, KIND, OP or the code operand; `none` is a reserved code
(R322, R365, R376). -/
def splitOp (o : Op) (q : BitVec 6) (a : BitVec 15) : Option Op :=
  match o with
  | .accldGet =>
    match (q.extractLsb' 4 2).toNat with
    | 0 => some .accldGet | 1 => some .accldPut | 2 => some .accldZero | _ => none
  | .noticeAckBalloon =>
    match (q.extractLsb' 0 2).toNat with
    | 0 => some .noticeAckBalloon | 1 => some .noticeAckTimer | _ => none
  | .kslotLoad => some (if q.getLsbD 0 then .kslotRevoke else .kslotLoad)
  | .trap => some (if a.extractLsb' 11 4 = 0b1100#4 ∧ a.extractLsb' 0 8 = 240#8 then .trapService else .trap)
  | o => some o

/-- A source field whose payload holds no reserved bit or code (R84-R86), under what the mnemonic accepts there: a field
of kind 01 is a pair where only a pair may stand (R380), and otherwise one where payload [11:6] is not zero (R322). -/
def srcOfBits (ks : List SrcKind) (x : BitVec 15) : Option Src :=
  let p := x.extractLsb' 0 13
  match (x.extractLsb' 13 2).toNat with
  | 0 => if p.extractLsb' 8 5 = 0 then some (.v (p.extractLsb' 0 8)) else none
  | 1 =>
    if p.getLsbD 12 then none
    else if ks.contains .anyPair then some (.pair (p.extractLsb' 0 6) (p.extractLsb' 6 6))
    else if p.extractLsb' 6 6 = 0 then some (.s (p.extractLsb' 0 6))
    else if ks.contains .pair then some (.pair (p.extractLsb' 0 6) (p.extractLsb' 6 6)) else none
  | 2 => if p.extractLsb' 2 11 = 0 then some (.latch (p.extractLsb' 0 2)) else none
  | _ =>
    match (p.extractLsb' 11 2).toNat with
    | 0 => some (.int (p.extractLsb' 0 11))
    | 1 => some (.flt (p.extractLsb' 0 11))
    | 2 =>
      match (p.extractLsb' 9 2).toNat with
      | 0 => if p.extractLsb' 3 6 = 0 then some (.guard (p.extractLsb' 0 3)) else none
      | 1 => if p.extractLsb' 4 5 = 0 then some (.fmt (p.extractLsb' 0 4)) else none
      | 2 => some (.sys (p.extractLsb' 0 9))
      | _ => if p.extractLsb' 6 3 = 0 then (Ty.ofCode (p.extractLsb' 0 6)).map .ty else none
    | _ => none

/-- A source field under what the mnemonic accepts there: a field it does not use must be zero (R84). -/
def slotOfBits (ks : List SrcKind) (x : BitVec 15) : Option Src :=
  if x = 0 ∧ (ks = [] ∨ ks.contains .none) then some .unused
  else if ks = [] then none
  else srcOfBits ks x

/-- The register that DKIND and DREG name (R82); a reserved class or number bit names none. -/
def dstOfBits (dkind : Bool) (dreg : BitVec 8) : Option Dst :=
  if !dkind then some (.v dreg)
  else match (dreg.extractLsb' 6 2).toNat with
    | 0 => some (.s (dreg.extractLsb' 0 6))
    | 1 => if dreg.extractLsb' 3 3 = 0 then some (.g (dreg.extractLsb' 0 3)) else none
    | 2 => if dreg.extractLsb' 4 2 = 0 then some (.f (dreg.extractLsb' 0 4)) else none
    | _ => none

/-- The destination field (R82, R83, R376). On a mnemonic of the system family LEN = 1 hides the other bits, which the
chain-structure check then refuses; a `trap` takes otherwise all zero or a plain scalar. A latch alone whose DKIND or
DREG is not zero is a reserved bit, sub-cause 1: R83 asks for zero and names no sub-cause (DESIGN CHOICE, log 56). -/
def destOfBits (o : Op) (x : BitVec 13) : Except BadWord Dest :=
  let wbs := x.getLsbD 12
  let len := x.getLsbD 11
  let lsel := x.extractLsb' 9 2
  let dkind := x.getLsbD 8
  let dreg := x.extractLsb' 0 8
  if len && o.lenFirst then .ok (.latch lsel)
  else if o = .trap ∨ o = .trapService then
    if x = 0 then .ok .none
    else if !wbs && dkind && dreg.extractLsb' 6 2 == 0 then .ok (.reg (.s (dreg.extractLsb' 0 6)))
    else .error .unaccepted
  else if o.dests = [] then (if x = 0 then .ok .none else .error .reserved)
  else if wbs && len then (if dkind || dreg != 0 then .error .reserved else .ok (.latch lsel))
  else match dstOfBits dkind dreg with
    | none => .error .reserved
    | some r => if wbs then .error .unaccepted else .ok (if len then .both r lsel else .reg r)

/-- The fields of a word (R75). -/
structure Raw where
  opc : BitVec 10
  ginv : Bool
  gpred : BitVec 3
  hints : BitVec 12
  ty : BitVec 6
  q : BitVec 6
  dest : BitVec 13
  a : BitVec 15
  b : BitVec 15
  c : BitVec 15
deriving DecidableEq, Repr

/-- Cuts a word into its fields. -/
def Raw.ofWord (w : IWord) : Raw where
  opc := w.extractLsb' 86 10
  ginv := w.getLsbD 85
  gpred := w.extractLsb' 82 3
  hints := w.extractLsb' 70 12
  ty := w.extractLsb' 64 6
  q := w.extractLsb' 58 6
  dest := w.extractLsb' 45 13
  a := w.extractLsb' 30 15
  b := w.extractLsb' 15 15
  c := w.extractLsb' 0 15

/-- A refusal where a reserved bit or code stands. -/
def orReserved {α : Type} : Option α → Except BadWord α
  | some a => .ok a
  | none => .error .reserved

/-- The mnemonic and the form of a word's fields (R93, items 2 to 4). -/
def decodeRaw (r : Raw) : Except BadWord (Op × Form) := do
  let o₀ ← match opcodeOp r.opc with
    | some o => .ok o
    | none => .error .unassigned
  if r.hints.extractLsb' 0 5 ≠ 0 then .error .reserved
  let ty ← orReserved (Ty.ofCode r.ty)
  let o ← orReserved (splitOp o₀ r.q r.a)
  let i := o.formatI
  let q : BitVec 6 := if i then r.q.extractLsb' 2 4 ++ 0#2 else r.q
  if o.qualReserved q then .error .reserved
  let a ← orReserved (slotOfBits (o.slotA q) r.a)
  let b ← if i then .ok .unused else orReserved (slotOfBits (o.slotB q a) r.b)
  let c ← if i then .ok .unused else orReserved (slotOfBits o.slotC r.c)
  let d ← destOfBits o r.dest
  let f : Form :=
    { h := { ginv := r.ginv, gpred := r.gpred, stall := r.hints.extractLsb' 8 4, yld := r.hints.getLsbD 7,
             chain := r.hints.getLsbD 6, nopair := r.hints.getLsbD 5 },
      ty := ty, q := q, d := d, a := a, b := b, c := c,
      imm := if i then r.q.extractLsb' 0 2 ++ (r.b ++ r.c) else 0 }
  if o.accepts f then .ok (o, f) else .error .unaccepted

/-- The instruction that a word holds, or why it holds none. -/
def decode (w : IWord) : Except BadWord Instr :=
  (decodeRaw (Raw.ofWord w)).map fun (o, f) => Instr.ofOp o f

/-- The word of 12 bytes in address order (R74). -/
def wordOfBytes (bs : List Byte) : IWord :=
  bs.foldr (fun b acc => (acc <<< 8) ||| b.setWidth 96) 0

/-- The 12 bytes of a word, in address order (R74). -/
def bytesOfWord (w : IWord) : List Byte := (List.range 12).map fun k => w.extractLsb' (8 * k) 8

/-- The instruction of 12 bytes at the program counter. -/
def decodeBytes (bs : List Byte) : Except BadWord Instr :=
  if bs.length = 12 then decode (wordOfBytes bs) else .error .fetchRange

/-- The instruction that the decoder reads from a word of `nbits` bits, bit 0 the least significant of its first
byte. -/
def decodeTableWord (nbits w : Nat) : Option Instr :=
  (decodeBytes (bytesOfWord (BitVec.ofNat 96 (w % 2 ^ min nbits 96)))).toOption

/-! The encoder, from the same tables. -/

/-- The field of a source operand (R84-R86). -/
def Src.bits : Src → BitVec 15
  | .unused => 0
  | .v n => 0b00#2 ++ (0#5 ++ n)
  | .s n => 0b01#2 ++ (0#7 ++ n)
  | .pair a b => 0b01#2 ++ (0#1 ++ (b ++ a))
  | .latch n => 0b10#2 ++ (0#11 ++ n)
  | .int x => 0b1100#4 ++ x
  | .flt x => 0b1101#4 ++ x
  | .guard n => 0b1110#4 ++ (0b00#2 ++ (0#6 ++ n))
  | .fmt n => 0b1110#4 ++ (0b01#2 ++ (0#5 ++ n))
  | .sys n => 0b1110#4 ++ (0b10#2 ++ n)
  | .ty t => 0b1110#4 ++ (0b11#2 ++ (0#3 ++ t.code))

/-- DKIND and DREG of a destination register (R82). -/
def Dst.bits : Dst → BitVec 9
  | .v n => 0#1 ++ n
  | .s n => 1#1 ++ (0b00#2 ++ n)
  | .g n => 1#1 ++ (0b01#2 ++ (0#3 ++ n))
  | .f n => 1#1 ++ (0b10#2 ++ (0#2 ++ n))

/-- The destination field (R83). -/
def Dest.bits : Dest → BitVec 13
  | .none => 0
  | .reg r => 0b0000#4 ++ r.bits
  | .both r l => 0b01#2 ++ (l ++ r.bits)
  | .latch l => 0b11#2 ++ (l ++ 0#9)

/-- The fields of an instruction's word. -/
def encodeRaw (o : Op) (f : Form) : Raw where
  opc := o.opcode
  ginv := f.h.ginv
  gpred := f.h.gpred
  hints := f.h.stall ++ (BitVec.ofBool f.h.yld ++ (BitVec.ofBool f.h.chain ++ (BitVec.ofBool f.h.nopair ++ 0#5)))
  ty := f.ty.code
  q := if o.formatI then f.q.extractLsb' 2 4 ++ f.imm.extractLsb' 30 2 else f.q
  dest := f.d.bits
  a := f.a.bits
  b := if o.formatI then f.imm.extractLsb' 15 15 else f.b.bits
  c := if o.formatI then f.imm.extractLsb' 0 15 else f.c.bits

/-- Joins the fields into a word (R75). -/
def Raw.toWord (r : Raw) : IWord :=
  r.opc ++ (BitVec.ofBool r.ginv ++ (r.gpred ++ (r.hints ++ (r.ty ++ (r.q ++
    (r.dest ++ (r.a ++ (r.b ++ r.c))))))))

/-- The word of a word instruction; an event has none. -/
def encode (i : Instr) : Option IWord := i.word?.map fun (o, f) => (encodeRaw o f).toWord

end Sys2Proof
end

