-- ==== Sys2Proof/Config.lean ====
section
/-!
DEFINITION. What an implementation fixes, and the values that the spec leaves open. Every open value is a constant
without a body applied to plain data: nothing can evaluate it, so a statement about it holds for every value.
-/

namespace Sys2Proof.Config

/-- The ordering codes of R1. -/
inductive Product where
  | kx9p | m768 | m1536
deriving DecidableEq, Repr, Inhabited

/-- The product that is modelled (R1; log 11). -/
opaque product : Product
/-- Whether board-tier ports are present: a KX9-P has none (R1). -/
def boardPresent : Bool := product != .kx9p

/-- The `n`-th free number: a latency, an order, a choice that the architecture does not fix (R433, R435; log 3). -/
opaque free : Nat → Nat
/-- Where the pointer of a unit's rotating priority stands until it moves (R435; log 5). -/
opaque rotation : Nat → Nat
/-- The `n`-th free byte (R325, R344; log 15). -/
opaque freeByte : Nat → Byte

/-- The number by which a guard record names the `n`-th command of a workgroup, which no rule gives (R182, R399; log 70). -/
opaque commandNumber : Nat → BitVec 63

/-- LAUNCHID of the `n`-th unit of work, which no rule gives (R66; log 71). -/
opaque launchNumber : Nat → BitVec 32
/-- The event code of a kind of saddlebag entry, which R426 does not give (log 17). -/
opaque eventCode : Nat → BitVec 16
/-- How many outcomes an order log holds before it is full (R429; log 20). -/
opaque orderLogSize : Nat

/-- What the codec makes of a block's 128 words that are not all equal, before R195's bounds are laid on (log 4). -/
opaque codecRaw : BitVec 4096 → Nat

/-- The size that the codec achieves (R194, R195): 0 sectors when the 128 words are equal, otherwise a function of
the 512 bytes alone from 1 to 8. -/
def codec (x : BitVec 4096) : Nat :=
  if (List.range 128).all fun i => x.extractLsb' (32 * i) 32 == x.extractLsb' 0 32 then 0
  else 1 + codecRaw x % 8

/-- The `n`-th byte of the codec's encoding of a block (R194, R195; log 4). -/
opaque codecByte : BitVec 4096 → Nat → Byte
/-- The PCs in the firmware image at which a firmware team starts and at which its own handler stands, which no rule
gives (R375, R422; log 72). -/
opaque firmwareEntry : Word
opaque firmwareHandler : Word
/-- The ciphertext of a constant block's pattern under a key at a place: 4 bytes, of which no rule says how a mode with
blocks of 16 encrypts them (R196, R199; log 7). -/
opaque cipher : List Byte → Nat → BitVec 32 → BitVec 32
/-- Whether a signature is the vendor's Falcon-1024 signature over a digest (R422; log 7). -/
opaque vendorSigned : List Byte → List Byte → Bool
/-- The signature of the identity key over a digest (R423; log 7). -/
opaque identitySign : List Byte → List Byte
/-- The identity public key (R417; log 7). -/
opaque identityPublic : List Byte

end Sys2Proof.Config
end

