-- ==== Sys2Proof/Machine/Tbl.lean ====
section
/-!
DEFINITION. Tables: sparse data by a natural key, as a list of pairs whose keys rise strictly, so that equal
tables are equal lists. Every register file, memory-side table and set of the state is one of these.
-/

namespace Sys2Proof.Machine

/-- A table: pairs of key and value, keys strictly rising (its `wf`). -/
abbrev Tbl (α : Type) := List (Nat × α)

namespace Tbl

variable {α : Type}

/-- The entry at key `k`, if any. -/
def find? : Tbl α → Nat → Option α
  | [], _ => none
  | (j, a) :: m, k => if j = k then some a else find? m k

/-- The entry at key `k`, or the default `d` that an unlisted key stands for. -/
def get (d : α) (m : Tbl α) (k : Nat) : α := (m.find? k).getD d

/-- Writes the entry at key `k`, in its place in the order. -/
def put : Tbl α → Nat → α → Tbl α
  | [], k, a => [(k, a)]
  | (j, b) :: m, k, a =>
    if k < j then (k, a) :: (j, b) :: m
    else if k = j then (k, a) :: m
    else (j, b) :: put m k a

/-- Removes the entry at key `k`. -/
def erase : Tbl α → Nat → Tbl α
  | [], _ => []
  | (j, b) :: m, k => if j = k then erase m k else (j, b) :: erase m k

/-- Changes the entry at key `k` (the default's change where it is unlisted). -/
def upd (d : α) (m : Tbl α) (k : Nat) (f : α → α) : Tbl α := m.put k (f (m.get d k))

/-- Changes the entry at key `k` where there is one. -/
def updIf (m : Tbl α) (k : Nat) (f : α → α) : Tbl α :=
  match m.find? k with
  | some a => m.put k (f a)
  | none => m

/-- Whether key `k` has an entry. -/
def has (m : Tbl α) (k : Nat) : Bool := (m.find? k).isSome

/-- The keys, rising. -/
def keys (m : Tbl α) : List Nat := m.map Prod.fst

/-- The values, by rising key. -/
def vals (m : Tbl α) : List α := m.map Prod.snd

/-- The least natural number that is no key of the table, of `0 … n - 1`. -/
def freeKey (m : Tbl α) (n : Nat) : Option Nat := (List.range n).find? fun k => !m.has k

/-- The canonical form: keys strictly rising from `lo` up. -/
def wfFrom (lo : Nat) : Tbl α → Bool
  | [] => true
  | (k, _) :: m => decide (lo ≤ k) && wfFrom (k + 1) m

/-- The canonical form of a table. -/
def wf (m : Tbl α) : Bool := wfFrom 0 m

end Tbl

/-- Writes an entry of a table whose unlisted keys stand for `d`: writing `d` removes the entry. -/
def Tbl.store {α : Type} [DecidableEq α] (d : α) (m : Tbl α) (k : Nat) (a : α) : Tbl α :=
  if a = d then m.erase k else m.put k a

end Sys2Proof.Machine
end

