-- ==== Sys2Proof/Machine/State.lean ====
section
/-!
DEFINITION. The state of a KX9 package: everything the spec gives the machine, and the model's own fields, which are
marked MODEL. A key of a table names its unit: a core is (die × 12 + cluster) × 4 + core, a pipe is core × 4 + pipe,
a requester port is die × 12 + cluster, a region is partition × 65,536 + number, and a global byte is
partition × 2^60 + virtual address.
-/

namespace Sys2Proof.Machine

/-- 128 bytes of a line, byte k in bits [8k+7:8k] (R188). -/
abbrev LineData := BitVec 1024

/-- A scratchpad operand descriptor as captured at enqueue (R178-R181), with the base that its segment register had. -/
structure Desc where
  clus : Bool
  col : Bool
  rot : Nat
  seg : Nat
  base : Nat
  tpitch : Nat
  rpitch : Nat
deriving DecidableEq, Repr

/-- One slice of a copy (R324-R330), captured at its team's issue. `runs` are the runs of global bytes, start and
count, that the local elements take in ascending order; `obuf` replaces the descriptor's space by the operand buffer. -/
structure Slice where
  team : Nat
  teamid : Nat
  pc : Word
  toGlobal : Bool
  obuf : Bool
  e : Nat
  rows : Nat
  cols : Nat
  tiles : Nat
  runs : List (Nat × Nat)
  /-- The global extent that was checked and pledged. -/
  ext : List (Nat × Nat)
  desc : Desc
deriving DecidableEq, Repr

/-- What an operation of the matrix queue does (R338-R342). -/
inductive MatOp where
  | mma (ty : Ty) (fa fb : BitVec 32) (a b : Sum (Tbl Word) Desc)
  | get (team : Nat) (lanes : Mask) (vd q : Nat)
  | putReg (lanes : Mask) (vals : Tbl Word) (q : Nat)
  | putDesc (d : Desc)
  | zero
  | storeSpad (ty : Ty) (fmt : BitVec 32) (rm ovf : Nat) (d : Desc)
  | storeGlobal (ty : Ty) (fmt : BitVec 32) (rm ovf : Nat) (g : Int) (pitch : Int)
deriving DecidableEq, Repr

/-- An engine command (R303, R321): a copy, a collective with its group record and member table, or an operation of
the matrix queue with its captured accumulator record. -/
inductive CmdBody where
  | copy (slices : List Slice) (acq rel : Bool) (scope : Nat) (obj : Option Nat)
  | coll (op : Nat) (ty : Ty) (count src dst : Nat) (rec : Nat) (seq : DWord) (p rank : Nat) (tag : DWord) (table : Nat)
  | mat (m : MatOp) (recIdx first count soff spitch : Nat) (fmtv : BitVec 32)
deriving DecidableEq, Repr

/-- Where an engine command stands between enqueue and completion. -/
inductive CmdState where
  | queued | acquiring | running | landing | releasing
deriving DecidableEq, Repr

/-- A command in an engine queue, with the blocks of its pledge that have not ended (R212). -/
structure Cmd where
  id : Nat
  number : Nat
  wg : Nat
  teams : List Nat
  pc : Word := 0
  /-- The active lanes of its issue. -/
  lanes : Mask := 0
  body : CmdBody
  st : CmdState := .queued
  pledged : List Nat := []
  /-- The global bytes that the command writes (R241). -/
  ext : List (Nat × Nat) := []
  /-- What a collective brings to the other members, captured once (R344), with the time of its capture; and what it has been
  brought. -/
  brings : Option (CollPart × Nat) := none
  got : List CollPart := []
  /-- Bytes that have still to land, by block: global byte and value. -/
  landings : List (Nat × List (Nat × Byte)) := []
  /-- Pages that were unmapped since its enqueue, where its writes are discarded (R212). -/
  gone : List Nat := []
  /-- The cycle until which the unit runs it; of a copy that acquires, the message number up to which its core's
  write-backs must have merged first (0: the home must grant). -/
  busyUntil : Nat := 0
deriving DecidableEq, Repr

/-- Whether a command is an operation of the matrix queue. -/
def Cmd.isMat (c : Cmd) : Bool := match c.body with | .mat _ _ _ _ _ _ _ => true | _ => false

/-- Why a waiting lane waits (R41, R364). -/
inductive Wait where
  | bar
  | barGang (upTo : Nat)
  | pbar (core : Nat) (addr : Option Nat) (phase : Bool) (cluster : Bool)
  /-- A sleep, with the count of rises of NOTICE bits at its issue (R374). -/
  | sleep (deadline : DWord) (rises : Nat)
  | copyWait (n : Nat)
  | collWait (n : Nat)
  | close (opener : BitVec 24) (outer : List Word)
  | coll (inst : Nat)
  | fe (load : Nat)
  | mma (done first : Nat) (active : Mask) (word : IWord) (op : Cmd)
deriving DecidableEq, Repr

/-- What an issued instruction holds its group for: its next instruction is not ready until then (R43). -/
inductive Hold where
  /-- The instruction is not performed yet and issues again: walks of pages are under way (R283), named by their
  messages; `want` are the addresses that it reaches with their lanes. -/
  | walk (left : List Nat) (want : List (Nat × Mask)) (write : Bool) (word : IWord)
  /-- Room in the miss queue of its cluster (R283); the instruction issues again. -/
  | missRoom
  /-- A pledge decision (R209). -/
  | pledge (msg : Nat)
  /-- A message of this number or an older one, sent by this core, has not been served. -/
  | drain (core : Nat) (upTo : Nat)
  /-- An acquire or a release request in the queue of the sync line (R226). -/
  | sync (line : Nat)
  /-- Queue commands that name an operand-buffer record (R335). -/
  | record (core rec : Nat)
  /-- The thread's earlier accesses of the team (R270, R371). -/
  | team (scope : Nat)
  /-- The trap frame: the siblings that have still to stop, whose skids it holds, and its stores that are on their way to the
  home; the handler issues after them (R391, R397, R401). -/
  | frame
  /-- Firmware's answer to a service request (R376). -/
  | service (dest : Option Nat) (off count : Nat)
  /-- The write-backs before an arrival at a phase barrier, and the arrival: core and address of the word, n, and the port
  of its issue (R371, R373). -/
  | arrive (core upTo owner addr n port : Nat)
  /-- Room in an engine queue or among the assembly instances (R318); the instruction issues again. -/
  | room
  /-- Earlier accesses of the thread, for an acquire or for another instruction (R230, R242); the
  instruction issues again. -/
  | earlier (sync : Bool)
  /-- A split of a walker, which is made after the issues of the cycle; the word of the `tile.next` (R294). -/
  | split (word : IWord)
  /-- A release that the thread's earlier accesses still precede (R225): the sync line, the address that the
  instruction names, its scope and its word. It is performed once they have been. -/
  | release (line va scope : Nat) (word : IWord)
  /-- A request for sectors, which reaches the parent's reserve unit after the issues of the cycle: the number of sectors, as
  it was read at issue, and the word of the `rsv.ask` (R206, R383). -/
  | ask (amount : Nat) (word : IWord)
  /-- A line that the instruction reads first; the instruction issues again (R276). -/
  | fill (load : Nat)
  /-- Write-backs of code words, after which the fetch copies of some lines are discarded (R272). -/
  | code (core upTo : Nat) (lines : List Nat)
  /-- The instruction has completed while its lanes were stopped; they go on to the next as they are released (R266, R400,
  R401). -/
  | done
deriving DecidableEq, Repr

/-- The four states of a lane (R41). -/
inductive LaneState where
  | running | waiting | off | exited
deriving DecidableEq, Repr

/-- One lane of a team: a thread (R40, R41, R43, R64). -/
structure Lane where
  pc : Word := 0
  st : LaneState := .running
  level : Nat := 0
  age : Nat := 0
  yld : Bool := false
  readyAt : Nat := 0
  wait : Option Wait := none
  hold : Option Hold := none
  /-- Its instruction is an access that has issued and not been performed: it waits, or issues again (R413). -/
  retry : Bool := false
deriving DecidableEq, Repr

/-- A segment register (R62). -/
structure Seg where
  base : DWord := 0
  limit : DWord := 0
deriving DecidableEq, Repr

/-- An open latch chain (R94-R101), with the cycle in which it opened. Registers are named by number: v n, 256 + s n,
320 + g n, 328 + fmt n. -/
structure Chain where
  since : Nat
  lanes : Mask
  pc0 : Word
  len : Nat
  reads : List Nat
  written : BitVec 4
  vals : Tbl DWord
  /-- The next word, which says whether the chain goes on, cannot be looked at yet (R97, R203, R283). -/
  look : Bool := false
deriving DecidableEq, Repr

/-- An open group-collective instance of a team (R130-R132): key, arrived lanes, contributed values. -/
structure CollInst where
  op : Op
  form : Form
  pc : Word
  mask : Mask
  token : List Word
  handler : Bool
  arrived : Mask := 0
  contrib : Mask := 0
  vals : Tbl DWord := []
  lanes : Tbl DWord := []
deriving DecidableEq, Repr

/-- A team's stay in its handler: the trapping lanes, the cycle of entry, and whether a fault made it (R400-R402). -/
structure Handler where
  lanes : Mask
  at_ : Nat
  fault : Bool
deriving DecidableEq, Repr

/-- One batch of engine commands of a team (R331): its number and the commands not yet complete, with the global
write extents that an observer invalidates (R241). -/
structure Batch where
  number : Nat
  cmds : List Nat := []
  extents : List (Nat × Nat) := []
deriving DecidableEq, Repr

/-- A team (R33, R56, R66, R321). -/
structure Team where
  wg : Nat
  teamid : Nat := 0
  role : Nat := 0
  vregs : Nat := 1
  depth : Nat := 0
  core : Nat
  pipe : Nat := 0
  slot : Nat := 0
  placed : Nat := 0
  resident : Bool := true
  /-- Its save slot, at which its trap frame stands (R391, R395). -/
  slotVa : Nat := 0
  code : Nat := 0
  lanes : Tbl Lane := []
  s : Tbl DWord := []
  v : Tbl Word := []
  g : Tbl Mask := []
  segs : Tbl Seg := []
  priv : BitVec 2 := 0
  run : DWord := 0
  tmrcmp : DWord := BitVec.allOnes 64
  notice : BitVec 32 := 0
  fmask : Mask := 0
  trapmask : BitVec 32 := 0
  fairctl : BitVec 32 := 64
  fpstat : BitVec 32 := 0
  chain : Option Chain := none
  colls : Tbl CollInst := []
  handler : Option Handler := none
  halted : Bool := false
  haltDue : Option Nat := none
  skid : Nat := 0
  stopping : Bool := false
  /-- It stopped itself at a task boundary, by `tile.next` or `yieldpoint` (R387, R388, R408). -/
  atTask : Bool := false
  locks : List (Nat × Nat) := []
  nextBatch : Nat := 0
  openBatch : Batch := { number := 0 }
  sealed : List Batch := []
  /-- Its `coll` commands, each a batch of its own (R346). -/
  collCmds : List Batch := []
  /-- How many times a bit of NOTICE has gone from clear to set (R374). MODEL. -/
  noticeRose : Nat := 0
  /-- Words that its groups have fetched ahead (R139). -/
  ahead : List (Word × IWord) := []
  /-- Notices whose setting event fell in this cycle (R68). -/
  noticeSet : BitVec 4 := 0
  /-- A team of firmware, whose words are those of the firmware image (R30, R422). -/
  firm : Bool := false
deriving DecidableEq, Repr

/-- The guard record of a workgroup (R182). -/
structure GuardRec where
  offset : Nat
  bank : Nat
  team : Nat
  pc : Word
  who : DWord
  count : Nat
deriving DecidableEq, Repr

/-- What a workgroup holds of its core's matrix unit (R50-R53). -/
inductive MatrixHold where
  | none | whole | half (h : Nat)
deriving DecidableEq, Repr

/-- An open copy assembly instance (R326): the number of its command to be, the qualifiers, mask and sync object of its
first slice, and the teams whose slices have still to come. -/
structure AsmInst where
  id : Nat
  q : BitVec 6
  mask : Mask
  obj : Option DWord
  missing : List Nat
  slices : List Slice
  pledged : List Nat := []
  /-- Pages that were unmapped since its first slice, where its command's writes are discarded (R212). -/
  gone : List Nat := []
deriving DecidableEq, Repr

/-- An operand-buffer reservation record (R297), with the workgroup that holds it. -/
structure ObRec where
  wg : Nat
  w0 : DWord
  w1 : DWord
deriving DecidableEq, Repr

/-- A workgroup (R33, R56, R66, R170, R182, R321, R395). -/
structure Wg where
  gang : Nat
  wgid : Nat := 0
  core : Nat
  teams : List Nat := []
  resident : Bool := true
  fmts : Tbl (BitVec 32) := []
  /-- Writes of format registers in this cycle, oldest first: the writing team, the register and the value (R153). -/
  fmtsNew : List (Nat × Nat × BitVec 32) := []
  guardRec : Option GuardRec := none
  spadBase : Nat := 0
  spadSize : Nat := 0
  spadGuard : Nat := 1
  obufFirst : Nat := 0
  obufCount : Nat := 0
  matrix : MatrixHold := .none
  mflags : BitVec 5 := 0
  save : Nat := 0
  saveSize : Nat := 0
  fpp : Bool := true
  handlerObj : Nat := 0
  handlerPc : Word := 0
  globBase : DWord := 0
  globLimit : DWord := 0
  kargLimit : DWord := 0
  asm : List AsmInst := []
  nextCmd : Nat := 1
  /-- The end that has begun and waits for the workgroup's engine commands: reason, code, cause, sub-cause. -/
  ending : Option (Nat × Nat × Nat × Nat) := none
  ended : Bool := false
  /-- The reservation records and unstarted commands while switched out (R395). -/
  imgRecs : Tbl ObRec := []
  imgCmds : List Cmd := []
  /-- The cells and full bits of its last band beyond the allocation, by offset from its base, while switched out (R186). -/
  imgCells : Tbl Byte := []
  imgFull : Tbl Bool := []
deriving DecidableEq, Repr

/-- A pre-emption request on a gang (R317, R406): when it was posted, whether its halt has begun, whether a checkpoint
asked for it, the launch that waits for the gang's resources, and the message number up to which its cores' write-backs
must have merged before the halt completes. -/
structure PreReq where
  posted : DWord
  halting : Bool := false
  inPlace : Bool := false
  /-- It fell during a checkpoint, whose halt serves it (R428). -/
  ckpt : Bool := false
  asker : Option Nat := none
  upTo : Option Nat := none
deriving DecidableEq, Repr

/-- A gang (R33, R66, R406). -/
structure Gang where
  launch : Nat
  gangid : DWord := 0
  tile : Tbl (BitVec 32) := []
  wgs : List Nat := []
  die : Nat := 0
  cluster : Nat := 0
  core : Nat := 0
  resident : Bool := true
  req : Option PreReq := none
  placed : Nat := 0
  /-- The dirty words of its cores are on their way home before it retires (R316): cores and message bound. -/
  retiring : Option Nat := none
  /-- Whether its cost stands in its die's heat account (R351). -/
  charged : Bool := true
deriving DecidableEq, Repr

/-- A walker of a launch: a slot of its save array (R291, R293, R347). -/
structure Walker where
  next : Nat
  stop : Nat
  core : Option Nat := none
  killed : Bool := false
deriving DecidableEq, Repr

/-- A launch: its record as accepted, and its progress (R288-R295, R347, R414). -/
structure Launch where
  region : Nat
  part : Nat
  die : Nat
  lid : Nat
  record : Nat
  code : Nat
  karg : Nat
  signal : Nat
  saveArr : Nat
  ext : List Nat
  tileShape : List Nat
  minsplit : Nat
  ctrl : DWord
  persist : Nat
  slots : Nat
  dims : List Nat
  tiles : Nat
  walkers : Tbl Walker
  order : Nat
  retired : Nat := 0
  persistPlaced : Nat := 0
  killed : Bool := false
  ring : Nat
  packet : Nat
  signalPledge : List Nat := []
  /-- Pages of its signal and save array that were not mapped as its packet began, or have been unmapped since: its writes
  there are discarded (R212). -/
  gone : List Nat := []
  /-- Its name among the launches of a capture and of the re-run: ring and how many of that ring's launches went
  before, or 0 and its number for one that the snapshot holds (R430). -/
  capKey : Nat × Nat := (0, 0)
deriving DecidableEq, Repr

/-- A region: its control block (R284, R285), binding table (R296), reserve (R204), and the counts that only
hardware keeps (R355, R405). -/
structure Region where
  level : Nat := 0
  prio : Nat := 0
  inh : BitVec 8 := 0
  kslot : Nat := 0
  fpp : Bool := true
  mhalf : Bool := false
  parent : Nat := 0xFFFF
  child : Nat := 0xFFFF
  sibling : Nat := 0xFFFF
  globBase : DWord := 0
  globLimit : DWord := 0
  handlerObj : DWord := 0
  handlerPc : Word := 0
  saveBase : DWord := 0
  saveSize : DWord := 0
  budgets : DWord := 0
  rsvmax : DWord := 0
  energyBudget : DWord := 0
  lowMark : DWord := 0
  rsvg : Int := 0
  rsvh : Int := 0
  rsvp : Int := 0
  balloon : DWord := 0
  balloonAt : DWord := 0
  counters : DWord := 0
  queueAddr : DWord := 0
  bindAddr : DWord := 0
  bindings : Tbl (Nat × Nat × Nat × Bool) := []
  queue : List Nat := []
  energy : Nat := 0
  exitSeq : Nat := 1
  cbSeq : Nat := 0
  cbLast : DWord := 0
  /-- An update of its counter block is due and waits at the home (R252, R356). -/
  cbDue : Bool := false
  issues : Nat := 0
  teamCycles : Nat := 0
  matOps : Nat := 0
  matBusy : Nat := 0
  bytesMoved : Nat := 0
  capFaults : Nat := 0
  pledgedTotal : Nat := 0
  returnedTotal : Nat := 0
  gangsRetired : Nat := 0
  halts : Nat := 0
  reasons : Tbl Nat := []
deriving DecidableEq, Repr

/-- A partition (R31, R277, R406, R421). -/
structure Part where
  ptRoot : DWord := 0
  rtBase : DWord := 0
  clusters : List Nat := []
  ports : List Nat := []
  expansion : Nat := 1
  grace : DWord := 200000
  kill : DWord := 10000000
  accepted : Bool := false
deriving DecidableEq, Repr

/-- An L1 line (R188). -/
structure L1Line where
  valid : BitVec 32 := 0
  dirty : BitVec 32 := 0
  data : LineData := 0
  used : Nat := 0
  ro : Bool := false
deriving DecidableEq, Repr

/-- A TLB entry: the leaf that maps one page of a partition (R283). `lead` is the page's first address over its
size 2^shift. -/
structure TlbEnt where
  part : Nat
  shift : Nat
  lead : Nat
  leaf : DWord
deriving DecidableEq, Repr

/-- The loop buffer of a pipe (R138). -/
structure LoopBuf where
  team : Nat
  lo : Word
  hi : Word
  words : List IWord
deriving DecidableEq, Repr

/-- One issue pipe (R42, R138, R358, R360). Bin 0 of the histogram holds the cycles that no other bin does. -/
structure Pipe where
  last : Nat := 15
  loop : Option LoopBuf := none
  hist : Tbl Nat := []
  reasons : Tbl Nat := []
  sample : Option Nat := none
  /-- Whether the pipe has issued in this cycle (R360). -/
  issued : Bool := false
deriving DecidableEq, Repr

/-- A matrix unit (R50, R357): its queues and counts, the whole unit's or half 0's first. -/
structure Matrix where
  split : Bool := false
  q0 : List Cmd := []
  q1 : List Cmd := []
  ops0 : Nat := 0
  ops1 : Nat := 0
  busy0 : Nat := 0
  busy1 : Nat := 0
deriving DecidableEq, Repr

/-- A core (R29, R170, R188, R222, R283, R297, R303). -/
structure Core where
  spad : Tbl Byte := []
  full : Tbl Bool := []
  /-- Granules whose full bit was set in this cycle; a full/empty load sees it from the next on (R185). -/
  risen : List Nat := []
  obuf : Tbl Byte := []
  l1 : Tbl L1Line := []
  tlb : List TlbEnt := []
  holds : List (Nat × Bool) := []
  pledges : List Nat := []
  fcopy : Tbl LineData := []
  copyQ : List Cmd := []
  matrix : Matrix := {}
  recs : Tbl ObRec := []
  pipes : Tbl Pipe := []
deriving DecidableEq, Repr

/-- A core restored from a record keeps the counts that its pipes and its matrix unit have reached: no counter falls
(R350). -/
def Core.keepCounts (c now : Core) : Core :=
  { c with
    pipes := now.pipes.map fun (k, p) =>
      let old := c.pipes.get {} k
      (k, { old with hist := p.hist, reasons := p.reasons, sample := p.sample })
    matrix := { c.matrix with ops0 := now.matrix.ops0, ops1 := now.matrix.ops1, busy0 := now.matrix.busy0, busy1 := now.matrix.busy1 } }

/-- A cluster (R29, R191, R283). -/
structure Cluster where
  tlb : List TlbEnt := []
  fused : Bool := false
deriving DecidableEq, Repr

/-- A page record (R197-R199); block entries and frames default to zero. -/
structure PageRec where
  part : Nat
  page : Nat
  word : DWord
  heat : Nat := 0
  frames : Tbl (BitVec 32) := []
  blocks : Tbl DWord := []
deriving DecidableEq, Repr

/-- The states of a die copy (R244); an absent copy is I. -/
inductive Moesi where
  | m | o | e | s
deriving DecidableEq, Repr

/-- A die copy of a line; a remote copy carries the expiry of its lease (R250). -/
structure DieCopy where
  st : Moesi
  data : LineData
  expiry : Option DWord := none
  used : Nat := 0
deriving DecidableEq, Repr

/-- A directory entry (R247): the counter and mode, the pair of the last episode, the die of a merge that no episode has
followed yet, and whether a read has followed the last merge. -/
structure DirEntry where
  counter : Nat := 0
  consumer : Option Nat := none
  lastPair : Option (Nat × Nat) := none
  lastMerge : Option Nat := none
  readSince : Bool := true
  used : Nat := 0
deriving DecidableEq, Repr

/-- A request that waits at a sync line's home (R225, R226, R234, R240). -/
structure SyncReq where
  core : Nat
  team : Option Nat
  lanes : Mask
  launch : Nat
  widx : Nat
  excl : Bool
  release : Bool
  cmd : Option Nat := none
  /-- How far its service has come: 0 not begun, 1 the hold asked back, 2 no other core holds the line, 3 the last
  releaser asked to surrender, 4 no surrender owed. -/
  stage : Nat := 0
  /-- The address that the instruction names, and its word, for a fault of a release at its turn (R225). -/
  va : Nat := 0
  word : IWord := 0
  /-- The cycle in which it reached the home: requests of one cycle tie (R234, R435). -/
  since : Nat := 0
  /-- It has still to cross the link to its home (R299). -/
  away : Bool := false
deriving DecidableEq, Repr

/-- Sync metadata of a line (R222, R234); `widx` names a workgroup by gang and index. -/
structure SyncMeta where
  last : Option Nat := none
  hold : Option Nat := none
  excl : Option (Nat × Nat) := none
  queue : List SyncReq := []
deriving DecidableEq, Repr

/-- A key slot (R301). -/
structure KeySlot where
  word : DWord := 0
  key : List Byte := []
deriving DecidableEq, Repr

/-- A store that waits for its pledge (R207, R209), as captured at issue: the bytes by lane in ascending order. -/
structure StoreReq where
  team : Nat
  core : Nat
  lanes : Mask
  writes : List (Nat × Nat × List Byte)
  strong : Bool := false
  /-- `atom` and `red`: the operation, type, and whether the old value is written to vd. -/
  atom : Option (Nat × Ty × Option Nat) := none
  cmp : List (List Byte) := []
  cursor : Option (Nat × DWord) := none
  /-- The chain that the store ended: PC of its first instruction, and the store's position (R101). -/
  chain : Option (Word × Nat) := none
  word : IWord := 0
  pc : Word := 0
  /-- The lanes that go Off as the store is performed, and those that store (R172, R213). -/
  off : Mask := 0
  stores : Mask := 0
deriving DecidableEq, Repr

/-- A strong access of one lane at the home (R231, R263). -/
structure StrongLane where
  lane : Nat
  addr : Nat
  n : Nat
  bytes : List Byte
  cmp : List Byte := []
deriving DecidableEq, Repr

/-- A message in flight or an action that waits at a unit (R303, R319, R320). -/
inductive MsgBody where
  | pledge (blocks : List Nat) (r : StoreReq)
  | ownerChange (block core : Nat)
  | merge (core line : Nat) (mask : BitVec 128) (data : LineData)
  | strong (core line : Nat) (team load : Nat) (write : Bool) (atom : Option (Nat × Ty)) (lanes : List StrongLane)
  | landing (core cmd block : Nat)
  | copyRead (die core line : Nat) (load : Nat)
  | fwdRead (owner die core line : Nat) (load : Nat)
  | invalidate (die line : Nat)
  | backInv (die line : Nat)
  | takeback (core line : Nat)
  | surrender (core line : Nat) (upTo : Option Nat)
  | surrenderAck (core line : Nat) (upTo : Nat)
  | grant (line : Nat) (r : SyncReq)
  | walk (rq part page : Nat)
deriving DecidableEq, Repr

/-- The traffic classes (R319). -/
inductive Class where
  | request | reply | control
deriving DecidableEq, Repr

/-- A message with its number, class, the cycle from which it can be served, and the core that it comes from with
the line it concerns: of two messages of one core to one line the older is served first. -/
structure Msg where
  cls : Class
  due : Nat
  chan : Option (Nat × Nat)
  part : Nat := 0
  link : Option Nat := none
  waitFrom : Nat := 0
  /-- The links that it has crossed (R299). -/
  hops : Nat := 0
  /-- Its place in the order of arrival at its home while it waits there, 0 before (R245). -/
  arrived : Nat := 0
  /-- The cycle in which it reached its unit, 0 before (R435). -/
  came : Nat := 0
  /-- A strong store that hardware makes on behalf of the core (R391, R405). -/
  hw : Bool := false
  body : MsgBody
deriving DecidableEq, Repr

/-- What one destination register of an outstanding load receives (R259, R276). -/
inductive LoadDest where
  | vec (n : Nat) | scalar (n : Nat) | none
deriving DecidableEq, Repr

/-- An outstanding load, atomic or waiting full/empty load: for each lane the address and, for a strong access or
an atomic, the value once it has been performed at the home (R21, R185, R189, R263). -/
structure Load where
  team : Nat
  core : Nat
  lanes : Mask
  ty : Ty
  n : Nat
  dest : LoadDest
  latch : Option Nat := none
  addrs : Tbl Nat := []
  lines : List Nat := []
  vals : Tbl (List Byte) := []
  flags : BitVec 5 := 0
  /-- The lines that the reply fills: those that could be allocated at the issue (R233). -/
  fills : List Nat := []
  /-- A weak load: its values come from the L1, the die copy or the home as it returns (R230). -/
  weak : Bool := false
  ro : Bool := false
  fe : Nat := 0
  /-- FE: 0 for a load that does not wait for full granules, 1 `.fe`, 2 `.fec`; column orientation; the granules'
  space is `.c` (R185). -/
  col : Bool := false
  clus : Bool := false
  offs : Tbl Nat := []
  /-- Its space's segment base at the issue (R185, R380). -/
  base : Nat := 0
  /-- The load of the lower half of its 16 bytes, which is performed first (R260). -/
  after : Option Nat := none
  pc : Word := 0
  port : Nat := 1
  since : Nat := 0
  /-- The cycle from which the reply can come. MODEL (log 3). -/
  due : Nat := 0
deriving DecidableEq, Repr

/-- The second half of a 16-byte weak store whose first half stands in its core's L1: accesses of other teams can fall
between the two, and it follows before the team issues again, at the end of the cycle at the latest (R230, R260; log
47). -/
structure Half where
  team : Nat
  core : Nat
  ga : Nat
  bytes : List Byte
deriving DecidableEq, Repr

/-- A trace sink (R362): a ring in host memory or in firmware's own memory, its address and size in bytes, and the byte
counts written and read so far. -/
structure Sink where
  host : Bool
  addr : Nat
  size : Nat
  wrote : Nat := 0
  read : Nat := 0
deriving DecidableEq, Repr

/-- A breakpoint on a thread's logical name (R359), and whether it has matched. -/
structure Break where
  lid : Nat
  gangid : DWord
  wgid : Nat
  teamid : Nat
  lane : Nat
  hit : Bool := false
deriving DecidableEq, Repr

/-- A die's service state (R349, R353, R361, R362, R424, R426). -/
structure Die where
  hcap : BitVec 16 := 0
  used : Nat := 0
  cones : List (BitVec 16) := List.replicate 64 0
  coneAt : DWord := 0
  margin : BitVec 16 := 0
  energy : List Nat := []
  errRing : List (List Byte) := []
  errOverflow : Nat := 0
  /-- The records written to the error ring, and firmware's read index: the ring holds those not read yet (R417, R424). -/
  errWrote : Nat := 0
  errRead : Nat := 0
  saddle : List (List Byte) := []
  booted : Bool := false
  /-- Firmware has run on the die since the last cold reset (R426). -/
  ran : Bool := false
  rrRegion : Nat := 0
  trace : List (DWord × List Nat × List Byte) := []
  traceOpen : Option DWord := none
  frames : Nat := 0
  drops : Nat := 0
  dropsSince : Nat := 0
  sink : Option Sink := none
deriving DecidableEq, Repr

/-- Firmware moves its read index: the records before it leave the error ring (R417). -/
def Die.readErrors (d : Die) (n : Nat) : Die :=
  { d with errRing := d.errRing.drop (n + d.errRing.length - d.errWrote), errRead := n }

/-- A copy packet that has begun (R312): its packet, both ends, the chunks that have still to land as runs of first chunk
and count, its signal, and the blocks of its pledge that have not ended. -/
structure QCopy where
  index : Nat
  src : Nat
  dst : Nat
  count : Nat
  srcHost : Bool
  dstHost : Bool
  signal : Nat
  left : List (Nat × Nat)
  pledged : List Nat
  /-- Pages that were unmapped since it began, where its writes are discarded (R212). -/
  gone : List Nat := []
  /-- A chunk that has been read and not yet written: its block and bytes. -/
  hand : Option (Nat × List Byte) := none
  /-- The link on which its next transfer waits for a slot, and since when (R299, R300). -/
  wait : Option (Nat × Nat) := none
deriving DecidableEq, Repr

/-- A ring as its queue engine serves it (R303-R315): the packets begun and not yet complete, with HOSTINT; of a growing
ring the segment and the slot that stand next; bookkeeping writes that are held; when the timeout of the packet at READ
began; and when the ring was last examined. -/
structure Ring where
  ref : RingRef
  open_ : List (Nat × Bool) := []
  seg : Option Nat := none
  slot : Nat := 0
  held : List (Nat × List Byte) := []
  waitFrom : Option DWord := none
  polled : DWord := 0
  copies : List QCopy := []
  /-- The packet at READ has been read by the queue engine, which serves it (R306, R315). -/
  seen : Bool := false
  /-- An examination, or the packet that has been read, waits for a link, a page or a home, and is tried again in the next
  cycle (R203, R299, R306). -/
  asked : Bool := false
  /-- The links that the reads of what is waited for have crossed (R299). -/
  crossed : List Nat := []
  /-- The descriptor that firmware has still to write: one of a device ring waits until its page is mapped (R303, R304). -/
  image : List Byte := []
deriving DecidableEq, Repr

/-- A shared link (R299, R300): its live calendar, the writes that wait for slot 0, and whether it is trained. -/
structure Link where
  cal : Tbl Byte := []
  pending : Tbl Byte := []
  trained : Bool := false
deriving DecidableEq, Repr

/-- A checkpoint (R428): memory blocks, the records of a job's work, and what decides the outcomes of the interval
that follows, so that a replay takes them again (R429; log 20): CLK, the counter that free values are drawn with, the
pointers of rotating priorities and of dispatchers, the partition's cores and clusters, its messages, and the
protocol's entries of its lines. -/
structure Snap where
  teams : Tbl Team
  wgs : Tbl Wg
  gangs : Tbl Gang
  launches : Tbl Launch
  regions : Tbl Region
  pages : Tbl PageRec
  ptes : Tbl DWord
  syncs : Tbl SyncMeta
  loads : Tbl Load
  cmdPledges : Tbl Nat
  clk : DWord
  fresh : Nat
  rot : Tbl Nat
  turns : Tbl Nat
  cores : Tbl Core
  clusters : Tbl Cluster
  msgs : Tbl Msg
  dir : Tbl DirEntry
  copies : Tbl DieCopy
  leases : Tbl DWord
  rings : Tbl Ring
  /-- The cycle in which it was taken. -/
  cycle : Nat := 0
  /-- The memory blocks of the set. -/
  image : Tbl (BitVec 4096)
deriving DecidableEq, Repr

/-- A job of a partition (R428-R431): checkpoint interval in ticks, the last checkpoint and the count of checkpoints,
the blocks dirtied since, the checkpoint set, the output ranges of its launches by record address, capture with its
snapshot, and the messages recorded on its channels while it moves. -/
structure Job where
  /-- The launch records that the runtime has named as the job's; none names every launch of the partition (R428; log 20). -/
  named : List Nat := []
  interval : DWord := 100000000
  lastAt : DWord := 0
  /-- Where the order log begins: the counter of free values as it was emptied (R417, R429; log 20). -/
  logFrom : Nat := 0
  /-- While CLK is below `replayUntil`, a replay gives CLK as it was read before, less by `replayBack` (R429). -/
  replayBack : DWord := 0
  replayUntil : DWord := 0
  count : Nat := 0
  halting : Bool := false
  dirtied : List Nat := []
  ckpt : Option Snap := none
  /-- A checkpoint is due at once (R429-R431). -/
  forced : Bool := false
  /-- No collective starts until the image is taken (R431). -/
  moving : Bool := false
  outputs : Tbl (List (Nat × Nat)) := []
  capture : Option CaptureRing := none
  capNext : Nat := 0
  /-- Entries of the capture ring that wait at their home, oldest first: address and bytes (R252, R430). -/
  capHeld : List (Nat × List Byte) := []
  pendingCapture : Option CaptureRing := none
  capSnap : Option Snap := none
  /-- The launches that each ring has begun since capture or its re-run began. -/
  capCounts : Tbl Nat := []
  sums : List ((Nat × Nat) × List Byte) := []
  rerun : List ((Nat × Nat) × List Byte) := []
  /-- The Pallum links of the job while it moves, each with the cycle in which its marker arrives (R431). -/
  markers : Tbl Nat := []
  /-- What arrives on each channel before its marker while the job moves (R431). -/
  arriving : List (List Byte) := []
  channels : List (List Byte) := []
deriving DecidableEq, Repr

/-- The group at an issue port: its team, lanes and program counter, and the word it issues (R44, R92). -/
structure Issue where
  team : Nat
  lanes : Mask
  pc : Word
  word : IWord
  port : Nat
deriving DecidableEq, Repr

/-- The state of the machine. -/
structure State where
  /-- The device clock of 0.5 ns ticks (R66, R69). -/
  clk : DWord := 0
  /-- Cycles of the issue clock since reset. MODEL (R4, R8; log 2). -/
  cycle : Nat := 0
  /-- The power alarm, under which the issue clock is halved (R427). -/
  alarm : Bool := false
  /-- The value that a `swrite` of this cycle gives CLK at the cycle's end (R378, R379). -/
  clkNext : Option DWord := none
  /-- Clusters that have still to take their turn of this cycle, and the place within the first. MODEL (log 2). -/
  todo : List Nat := []
  /-- The stalls of this cycle have still to be counted (R358). MODEL (log 2). -/
  stallsDue : Bool := false
  turn : Nat := 0
  /-- Events that stand to be taken before anything issues, oldest first. MODEL (log 2). -/
  agenda : List Instr := []
  /-- The counter that free values are drawn with. MODEL (log 3). -/
  fresh : Nat := 0
  /-- The next number of a unit of work, message or command. MODEL (log 2). -/
  nextId : Nat := 1
  /-- The group at the issue port, and the group that stands at port 2 of the present selection. MODEL (log 2). -/
  issue : Option Issue := none
  second : Option (Nat × Mask × Word) := none
  teams : Tbl Team := []
  wgs : Tbl Wg := []
  gangs : Tbl Gang := []
  launches : Tbl Launch := []
  regions : Tbl Region := []
  parts : Tbl Part := []
  cores : Tbl Core := []
  clusters : Tbl Cluster := []
  dies : Tbl Die := []
  codes : Tbl CodeHdr := []
  /-- Page tables (R278), page records (R197) by port × 2^38 + offset. -/
  ptes : Tbl DWord := []
  pages : Tbl PageRec := []
  /-- Poisoned blocks, with the bytes written since (R425). -/
  poisoned : Tbl (BitVec 512) := []
  /-- Main memory as it stands at the homes, by global byte (R193, R201). -/
  mem : List Host.Cell := []
  hostMem : List Host.Cell := []
  /-- Directory, by port × 2^64 + line; die copies, by die × 2^64 + line; leases and sync metadata by line. -/
  dir : Tbl DirEntry := []
  copies : Tbl DieCopy := []
  leases : Tbl DWord := []
  syncs : Tbl SyncMeta := []
  /-- Key slots by port × 32 + slot, and the requesters' copies of their STATE (R301). -/
  keys : Tbl KeySlot := []
  keyCopies : Tbl (BitVec 2) := []
  /-- Command pledges standing on a block (R212). -/
  cmdPledges : Tbl Nat := []
  rq : Tbl DWord := []
  /-- Inter-die links by 4a + b for dies a < b, and Pallum egresses 0-17 in a table of their own (R29, R299; log 29). -/
  links : Tbl Link := []
  /-- Traffic that is no message and waits for a slot of a link, by 32 × link + partition: since when, and when it was
  last seen to wait (R300). MODEL. -/
  linkWaits : Tbl (Nat × Nat) := []
  pallum : Tbl Link := []
  /-- Pointers of the rotating priorities, by unit; one that has not moved stands at a free place (R435; log 5). -/
  rot : Tbl Nat := []
  msgs : Tbl Msg := []
  loads : Tbl Load := []
  /-- Second halves of 16-byte weak stores that are still to be performed, oldest first (R260). -/
  halves : List Half := []
  /-- Reads that homes have served in this cycle, by a byte of each: they count, and mend what they find, as it ends (R200,
  R354, R415). -/
  served : List Nat := []
  rings : Tbl Ring := []
  /-- MSI-X vectors raised to the host, oldest first (R311, R313). -/
  msix : List Nat := []
  jobs : Tbl Job := []
  leaseLen : Nat := 8000
  leaseMargin : Nat := 100
  cxlLanes : Nat := 16
  lost : List Nat := []
  /-- Collectives that a member discarded: partition, TAG and SEQ (R333). -/
  collGone : List (Nat × DWord × DWord) := []
  /-- Collectives, in the same form, whose members have been found to disagree (R344). -/
  collBad : List (Nat × DWord × DWord) := []
  mgmt : Tbl DWord := []
  /-- Breakpoints by number (R359). -/
  breaks : Tbl Break := []
  /-- Pages under migration, by their record's key: the offset of the new record and the cycle from which the move can end
  (R203; log 27). -/
  migs : Tbl (Nat × Nat) := []
  report : List Byte := []
  firmware : List Byte := []
  firmwareSig : List Byte := []
deriving DecidableEq, Repr

namespace State

/-- The package right after device reset: no partition, no region, nothing resident, every table at the value of the
inventory rules (R66, R170, R193, R222, R277, R303, R349, R417; logs 1, 8, 9). -/
def reset : State := {}

end State

/-- The model's own stops. No rule of the spec asks for one: every fault of the spec is a next state. -/
inductive Fault where
  /-- A word instruction is executed while no group stands at an issue port. Raised by every word's meaning; safe:
  `step` never executes a word without its group. -/
  | noIssuingGroup
deriving DecidableEq, Repr

/-- The model's own refusals. -/
inductive Refusal where
  /-- The instruction of this mnemonic has no meaning yet. Raised by an arm of `exec`; safe. -/
  | notModelled (mnemonic : String)
deriving DecidableEq, Repr

end Sys2Proof.Machine
end

