-- ==== Sys2Proof/Machine/Bits.lean ====
section
/-!
DEFINITION. Bits, bytes and masks: the helpers every other file of the machine uses, little-endian (R5), and the
named fields of an instruction's QUAL (R80, R106, R122, R154, R255, R262, R267, R322, R365).
-/

namespace Sys2Proof.Machine

/-- Bits [hi:lo] of a word, as a number (R5). -/
def bitsOf {w : Nat} (x : BitVec w) (hi lo : Nat) : Nat := (x.extractLsb' lo (hi + 1 - lo)).toNat

/-- Replaces bits [hi:lo] of a 64-bit word. -/
def setBits (x : DWord) (hi lo : Nat) (v : Nat) : DWord :=
  let m : DWord := (BitVec.allOnes 64 <<< lo) &&& (BitVec.allOnes 64 >>> (63 - hi))
  (x &&& ~~~m) ||| ((BitVec.ofNat 64 v <<< lo) &&& m)

/-- The `n` bytes of a value, the byte of bits [7:0] first (R5). -/
def bytesOf {w : Nat} (n : Nat) (x : BitVec w) : List Byte := (List.range n).map fun k => x.extractLsb' (8 * k) 8

/-- The value of bytes in address order (R5). -/
def ofBytes (w : Nat) (bs : List Byte) : BitVec w := bs.foldr (fun b acc => (acc <<< 8) ||| b.setWidth w) 0

/-- Two's complement reading of the low `n` bits. -/
def toS (n : Nat) (x : Nat) : Int := (BitVec.ofNat n x).toInt

/-- The value of an integer in `n` bits, wrapped. -/
def wrapN (n : Nat) (x : Int) : Nat := (BitVec.ofInt n x).toNat

/-- The lanes of a mask, in ascending order (R38). -/
def lanesOf (m : Mask) : List Nat := allLanes.filter fun l => m.getLsbD l

/-- The mask of the lanes that satisfy a test. -/
def maskBy (p : Nat → Bool) : Mask :=
  allLanes.foldl (fun m l => if p l then m ||| (1#32 <<< l) else m) 0

/-- The lowest lane of a mask. -/
def lowest (m : Mask) : Option Nat := allLanes.find? fun l => m.getLsbD l

/-- Rounds up to a multiple. -/
def alignUp (x a : Nat) : Nat := (x + a - 1) / a * a

/-- The place of a core in its package: die, cluster on the die, core of the cluster (R29, R67). -/
def coreDie (core : Nat) : Nat := core / 48
/-- The requester port of a core's cluster (R3). -/
def coreRq (core : Nat) : Nat := core / 4

/-- OWNER of a block entry names a core (R199). -/
def ownerCode (core : Nat) : Nat := core / 48 * 64 + core / 4 % 12 * 4 + core % 4
/-- The core that OWNER names. -/
def ownerCore (o : Nat) : Nat := (o / 64 * 12 + o / 4 % 16) * 4 + o % 4

/-- The die of a memory port (R3). -/
def portDie (p : Nat) : Nat := if p < 32 then p / 8 else (p - 32) / 2

/-- A global byte of a partition's address space. -/
def gaOf (part va : Nat) : Nat := part * 2 ^ 60 + va
/-- The partition of a global byte. -/
def gaPart (ga : Nat) : Nat := ga / 2 ^ 60
/-- The virtual address of a global byte. -/
def gaVa (ga : Nat) : Nat := ga % 2 ^ 60

end Sys2Proof.Machine

namespace Sys2Proof.Form

open Sys2Proof.Machine (bitsOf)

/-- `.sat` (R106) -/
def sat (f : Form) : Bool := f.q.getLsbD 0
/-- COND of `cmp` and `fcmp`, SCALE of `lea`, OP of `redux`, SCOPE of `acq`, `rel`, `fence` and strong accesses. -/
def q3 (f : Form) : Nat := bitsOf f.q 2 0
/-- The operation of `vote`, the mode of `shfl`, RM, the OP of `coll`. -/
def q2 (f : Form) : Nat := bitsOf f.q 1 0
/-- WRAP of `shfl` (R135) -/
def wrap (f : Form) : Bool := f.q.getLsbD 2
/-- OVF (R154) -/
def ovf (f : Form) : Nat := bitsOf f.q 3 2
/-- SPACE of loads and stores and of the phase barriers (R255, R365) -/
def space (f : Form) : Nat := bitsOf f.q 5 4
/-- SPACE of `atom` and `red` (R262) -/
def atomSpace (f : Form) : Nat := bitsOf f.q 1 0
/-- OP of `atom` and `red` (R262) -/
def atomOp (f : Form) : Nat := bitsOf f.q 5 2
/-- ORIENT, under SPACE `.s` and `.c` (R255) -/
def col (f : Form) : Bool := f.q.getLsbD 3
/-- FE (R255) -/
def fe (f : Form) : Nat := if f.space = 1 ∨ f.space = 2 then bitsOf f.q 2 1 else 0
/-- STRONG, under SPACE `.g` (R255) -/
def strong (f : Form) : Bool := f.space == 0 && f.q.getLsbD 3
/-- `.ro` or `.l2` (R255) -/
def ro (f : Form) : Bool := f.space == 0 && !f.q.getLsbD 3 && f.q.getLsbD 0
/-- EXCL, GUARDED and ALL stand in [63] (R256, R267, R365) -/
def top (f : Form) : Bool := f.q.getLsbD 5
/-- ACQ, REL and SCOPE of `copy` (R322) -/
def cAcq (f : Form) : Bool := f.q.getLsbD 5
def cRel (f : Form) : Bool := f.q.getLsbD 4
def cScope (f : Form) : Nat := bitsOf f.q 3 1

end Sys2Proof.Form
end

