-- ==== Sys2Proof/Machine/Crypto.lean ====
section
/-!
DEFINITION. The two fixed functions that the spec names and does not write out (00 R2; 09 R196; 23 R422, R423, R430):
SHAKE256, and AES-256 in XTS mode. PRESUMED (log 7): their published standards, FIPS 202, FIPS 197 and IEEE 1619.
-/

namespace Sys2Proof.Machine

/-! SHAKE256: sponge of Keccak-f[1600] with a rate of 136 bytes. -/

/-- Where lane (x, y) stands among the 25. -/
def keccakAt (x y : Nat) : Nat := x % 5 + 5 * (y % 5)

/-- The lanes after θ: each takes the parities of two columns. -/
def keccakTheta (a : List (BitVec 64)) : List (BitVec 64) :=
  let at_ := fun (x y : Nat) => a.getD (keccakAt x y) 0
  let c := (List.range 5).map fun x => (List.range 5).foldl (fun (w : BitVec 64) y => w ^^^ at_ x y) 0
  (List.range 25).map fun i => a.getD i 0 ^^^ c.getD ((i + 4) % 5) 0 ^^^ (c.getD ((i + 1) % 5) 0).rotateLeft 1

/-- The steps of ρ and π from the lane at (x, y) on: each lane is rotated by (t + 1)(t + 2) / 2 and takes the next one's
place. -/
def keccakRhoPi : Nat → Nat → Nat → Nat → BitVec 64 → List (BitVec 64) → List (BitVec 64)
  | 0, _, _, _, _, a => a
  | n + 1, t, x, y, w, a =>
    let (x, y) := (y, (2 * x + 3 * y) % 5)
    let i := keccakAt x y
    keccakRhoPi n (t + 1) x y (a.getD i 0) (a.set i (w.rotateLeft ((t + 1) * (t + 2) / 2 % 64)))

/-- χ: each lane takes in the two after it in its row. -/
def keccakChi (a : List (BitVec 64)) : List (BitVec 64) :=
  (List.range 25).map fun i =>
    let at_ := fun (k : Nat) => a.getD (keccakAt (i % 5 + k) (i / 5)) 0
    at_ 0 ^^^ (~~~at_ 1 &&& at_ 2)

/-- The shift register that gives the bits of the round constants, after some steps. -/
def keccakLfsr : Nat → Nat
  | 0 => 1
  | n + 1 =>
    let r := 2 * keccakLfsr n
    if r < 256 then r else (r - 256) ^^^ 0x71

/-- The constant of a round. -/
def keccakConst (round : Nat) : BitVec 64 :=
  (List.range 7).foldl (fun (w : BitVec 64) j =>
    if (keccakLfsr (7 * round + j)).testBit 0 then w ^^^ (1#64 <<< (2 ^ j - 1)) else w) 0

/-- Keccak-f[1600]. -/
def keccakF (a : List (BitVec 64)) : List (BitVec 64) :=
  (List.range 24).foldl (fun a round =>
    let t := keccakTheta a
    let b := keccakChi (keccakRhoPi 24 0 1 0 (t.getD 1 0) t)
    b.set 0 (b.getD 0 0 ^^^ keccakConst round)) a

/-- Eight bytes as a lane, the lowest first. -/
def laneOf (bs : List Byte) : BitVec 64 := (bs.take 8).foldr (fun b w => (w <<< 8) ||| b.setWidth 64) 0
/-- The bytes of the lanes. -/
def laneBytes (a : List (BitVec 64)) : List Byte :=
  a.flatMap fun (w : BitVec 64) => (List.range 8).map fun i => w.extractLsb' (8 * i) 8

/-- Takes a block of 136 bytes into the sponge. -/
def absorb (a : List (BitVec 64)) (block : List Byte) : List (BitVec 64) :=
  keccakF ((List.range 25).map fun i => a.getD i 0 ^^^ laneOf (block.drop (8 * i)))

/-- The message with SHAKE's suffix and padding, a whole number of blocks. -/
def shakePad (x : List Byte) : List Byte :=
  let n := 135 - x.length % 136
  if n = 0 then x ++ [0x9F] else x ++ [0x1F] ++ List.replicate (n - 1) 0 ++ [0x80]

/-- What a sponge gives, block after block. -/
def squeeze : Nat → List (BitVec 64) → List Byte
  | 0, _ => []
  | n + 1, a => (laneBytes a).take 136 ++ squeeze n (keccakF a)

/-- SHAKE256 of some bytes with `n` output bytes. -/
def shake (x : List Byte) (n : Nat) : List Byte :=
  let m := shakePad x
  let a := (List.range (m.length / 136)).foldl (fun a i => absorb a ((m.drop (136 * i)).take 136)) (List.replicate 25 0)
  (squeeze ((n + 135) / 136) a).take n

/-! AES-256. -/

/-- Twice a byte in the field of AES. -/
def aesDouble (x : Byte) : Byte := (x <<< 1) ^^^ (if x.getLsbD 7 then 0x1B else 0)

/-- The product of two bytes in the field of AES. -/
def aesMul (a b : Byte) : Byte :=
  ((List.range 8).foldl (fun (p : Byte × Byte) i => (if b.getLsbD i then p.1 ^^^ p.2 else p.1, aesDouble p.2)) ((0 : Byte), a)).1

/-- The S-box: the inverse, x to the power 254, under the affine map. -/
def aesSbox (x : Byte) : Byte :=
  let sq := fun (y : Byte) => aesMul y y
  -- 254 = 2 + 4 + … + 128
  let inv := ((List.range 7).foldl (fun (p : Byte × Byte) _ => let q := sq p.2; (aesMul p.1 q, q)) ((1 : Byte), x)).1
  inv ^^^ inv.rotateLeft 1 ^^^ inv.rotateLeft 2 ^^^ inv.rotateLeft 3 ^^^ inv.rotateLeft 4 ^^^ 0x63

/-- The XOR of two rows of bytes. -/
def xorBytes (a b : List Byte) : List Byte := (a.zip b).map fun (x, y) => x ^^^ y

/-- The key schedule: 60 words of 4 bytes, the first 8 the key's. -/
def aesWords (key : List Byte) : List (List Byte) :=
  let first := (List.range 8).map fun i => (List.range 4).map fun j => key.getD (4 * i + j) 0
  (List.range 52).foldl (fun ws n =>
    let i := n + 8
    let t := ws.getD (i - 1) []
    let t := if i % 8 = 0 then
        xorBytes ((t.drop 1 ++ t.take 1).map aesSbox) [(List.range (i / 8 - 1)).foldl (fun (r : Byte) _ => aesDouble r) 1, 0, 0, 0]
      else if i % 8 = 4 then t.map aesSbox else t
    ws ++ [xorBytes (ws.getD (i - 8) []) t]) first

/-- ShiftRows and, but in the last round, MixColumns of a state of 16 bytes, column by column. -/
def aesMix (last : Bool) (s : List Byte) : List Byte :=
  (List.range 4).flatMap fun c =>
    let a := fun (r : Nat) => s.getD (r % 4 + 4 * ((c + r % 4) % 4)) 0
    (List.range 4).map fun r =>
      if last then a r else aesDouble (a r) ^^^ (aesDouble (a (r + 1)) ^^^ a (r + 1)) ^^^ a (r + 2) ^^^ a (r + 3)

/-- AES-256 of a block of 16 bytes under a schedule. -/
def aesBlock (ws : List (List Byte)) (x : List Byte) : List Byte :=
  let key := fun (round : Nat) => ((ws.drop (4 * round)).take 4).flatten
  (List.range 14).foldl (fun s n => xorBytes (aesMix (n == 13) (s.map aesSbox)) (key (n + 1))) (xorBytes x (key 0))

/-- The tweak of the next block of a sector: the 16 bytes, lowest first, times α. -/
def xtsNext (t : List Byte) : List Byte :=
  (List.range 16).map fun i =>
    let b := fun (j : Nat) => (t.getD j 0 : Byte)
    (b i <<< 1) ^^^ (if i != 0 then (b (i - 1)) >>> 7 else if (b 15).getLsbD 7 then 0x87 else 0)

/-- The blocks of a sector in turn, each under its tweak. -/
def xtsBlocks (ws : List (List Byte)) : Nat → List Byte → List Byte → List Byte
  | 0, _, _ => []
  | n + 1, t, x => xorBytes (aesBlock ws (xorBytes (x.take 16) t)) t ++ xtsBlocks ws n (xtsNext t) (x.drop 16)

/-- A sector of 64 bytes under AES-256 in XTS mode: a brand key is the data key and the tweak key, of 32 bytes each, and the
tweak is a number, lowest byte first (R196, R390). -/
def xtsSector (key : List Byte) (tweak : Nat) (plain : List Byte) : List Byte :=
  xtsBlocks (aesWords (key.take 32)) 4
    (aesBlock (aesWords (key.drop 32)) ((List.range 16).map fun i => BitVec.ofNat 8 (tweak / 256 ^ i))) plain

end Sys2Proof.Machine
end

