-- ==== Sys2Proof/Machine/Mem.lean ====
section
/-!
DEFINITION. Main memory at the homes, its blocks and page records, the page tables, and the reserve (09, 12). An
unlisted byte of memory reads as zero: a newly mapped block is constant zero (R193, R201; log 8).
-/

namespace Sys2Proof.Machine

/-- What a byte of memory that nothing has written reads as (R193, R201; log 8). -/
def memDefault : Byte := 0

/-- Reads one byte. -/
def memRead (m : List Host.Cell) (a : Nat) : Byte := Tbl.get memDefault m a

/-- Writes one byte, keeping the canonical form. -/
def memWrite (m : List Host.Cell) (a : Nat) (b : Byte) : List Host.Cell := Tbl.store memDefault m a b

/-- Writes bytes at consecutive addresses. -/
def memWriteBytes : List Host.Cell → Nat → List Byte → List Host.Cell
  | m, _, [] => m
  | m, a, b :: bs => memWriteBytes (memWrite m a b) (a + 1) bs

/-- Reads `n` bytes. -/
def memReadBytes (m : List Host.Cell) (a n : Nat) : List Byte := (List.range n).map fun k => memRead m (a + k)

/-- The blocks that a run of global bytes reaches. -/
def blocksOf (ga n : Nat) : List Nat := (List.range ((ga + n - 1) / 512 + 1 - ga / 512)).map (ga / 512 + ·)

/-- The canonical form of memory: addresses strictly rising, no entry that reads as an unlisted address does. -/
def Memory.wf (m : List Host.Cell) : Bool := Tbl.wf m && m.all fun c => c.2 != memDefault

namespace State

/-- Bytes at the home. -/
def homeBytes (s : State) (ga n : Nat) : List Byte := memReadBytes s.mem ga n
/-- A line as it stands at its home. -/
def homeLine (s : State) (line : Nat) : LineData := ofBytes 1024 (s.homeBytes (128 * line) 128)
/-- A block as it stands at its home. -/
def homeBlock (s : State) (k : Nat) : BitVec 4096 := ofBytes 4096 (s.homeBytes (512 * k) 512)
/-- Writes bytes at the home. -/
def putHome (s : State) (ga : Nat) (bs : List Byte) : State := { s with mem := memWriteBytes s.mem ga bs }

/-- Fields of a region, a partition, a core, a cluster, a die. -/
def region (s : State) (r : Nat) : Region := s.regions.get {} r
def part (s : State) (p : Nat) : Part := s.parts.get {} p
def core (s : State) (c : Nat) : Core := s.cores.get {} c
def cluster (s : State) (c : Nat) : Cluster := s.clusters.get {} c
def die (s : State) (d : Nat) : Die := s.dies.get {} d
def updRegion (s : State) (r : Nat) (f : Region → Region) : State := { s with regions := s.regions.updIf r f }
def updPart (s : State) (p : Nat) (f : Part → Part) : State := { s with parts := s.parts.updIf p f }
def updCore (s : State) (c : Nat) (f : Core → Core) : State := { s with cores := s.cores.upd {} c f }
def updCluster (s : State) (c : Nat) (f : Cluster → Cluster) : State := { s with clusters := s.clusters.upd {} c f }
def updDie (s : State) (d : Nat) (f : Die → Die) : State := { s with dies := s.dies.upd {} d f }

end State

/-! Page records (R197-R199). -/

namespace PageRec

def regionNo (r : PageRec) : Nat := bitsOf r.word 63 48
def home (r : PageRec) : Nat := bitsOf r.word 47 42
def tier (r : PageRec) : Bool := r.word.getLsbD 41
def kslot (r : PageRec) : Nat := bitsOf r.word 35 31
def surr (r : PageRec) : Bool := r.word.getLsbD 30
def migr (r : PageRec) : Bool := r.word.getLsbD 29
def sect (r : PageRec) : Nat := bitsOf r.word 28 18
/-- The owner region, as a key. -/
def owner (r : PageRec) : Nat := r.part * 65536 + r.regionNo
/-- Entry of block `i` of the page. -/
def block (r : PageRec) (i : Nat) : DWord := r.blocks.get 0 i

end PageRec

/-- A block entry as the home reads it: reserved bits are ignored, and TYPE 3 reads as constant zero (R200). -/
def entRead (e : DWord) : DWord := if bitsOf e 31 30 = 3 then e &&& 0xFF80 else e &&& ~~~0x7F

/-- The largest value of a 64-bit count, at which it saturates (R350). -/
def sat64 (n : Nat) : Nat := min n (2 ^ 64 - 1)

/-- Physical sectors of a memory port: 12 GiB of HBM; a board port an eighth of its module's tier (R1, R193). -/
def portSectors (port : Nat) : Nat :=
  if port < 32 then 12 * 2 ^ 30 / 64
  else match Config.product with
    | .kx9p => 0
    | .m768 => 96 * 2 ^ 30 / 64
    | .m1536 => 192 * 2 ^ 30 / 64

/-- Frames of 64 sectors that a memory port has (R197). -/
def portFrames (port : Nat) : Nat := portSectors port / 64

/-- Sectors(k) in a block entry (R199). -/
def entSect (e : DWord) : Nat := bitsOf e 29 26
/-- TYPE of a block entry (R199). -/
def entType (e : DWord) : Nat := bitsOf e 31 30
/-- PLEDGED of a block entry (R199). -/
def entPledged (e : DWord) : Bool := e.getLsbD 7
/-- OWNER of a block entry, as a core (R199). -/
def entOwner (e : DWord) : Nat := ownerCore (bitsOf e 15 8)

namespace State

/-- The page record of a global byte: key and record. A surrendered page has none that an access could reach. -/
def pageAt (s : State) (ga : Nat) : Option (Nat × PageRec) :=
  List.find? (fun x => x.2.part == gaPart ga && x.2.page == gaVa ga / 65536 && !x.2.surr) s.pages

/-- Whether the page of a global byte is under migration, so that an access that reaches it waits (R203). -/
def migrating (s : State) (ga : Nat) : Bool := ((s.pageAt ga).map (·.2.migr)).getD false

/-- The entry of block `k` (R199). -/
def blockEntry (s : State) (k : Nat) : DWord :=
  match s.pageAt (512 * k) with
  | some (_, r) => entRead (r.block (k % 128))
  | none => 0

/-- Sectors(k) (R28). -/
def sectors (s : State) (k : Nat) : Nat := entSect (s.blockEntry k)

/-- The owner region of block `k`. -/
def ownerOf (s : State) (k : Nat) : Option Nat := (s.pageAt (512 * k)).map fun x => x.2.owner

/-- The frames that the pages of a port hold (R197). -/
def framesOf (s : State) (port : Nat) : List Nat :=
  s.pages.flatMap fun (key, r) => if key / 2 ^ 38 = port then r.frames.vals.map (·.toNat) else []

end State

/-- Gives each block of a page its place in the holding, one after another by ascending block (R199; log 16). -/
def repack : Nat → Tbl DWord → Tbl DWord
  | _, [] => []
  | off, (i, e) :: m => (i, setBits e 25 16 (if entSect e = 0 then 0 else off)) :: repack (off + entSect e) m

/-- A holding of `n` frames: the first of those held, and the lowest free ones of the port beside them (log 16). -/
def reframe (used : List Nat) (held : Tbl (BitVec 32)) (n : Nat) : Tbl (BitVec 32) :=
  if n ≤ held.length then held.take n
  else
    let more := ((List.range (used.length + n)).filter fun i => !used.contains i).take (n - held.length)
    held ++ ((List.range more.length).zip more).map fun (i, x) => (held.length + i, BitVec.ofNat 32 x)

namespace State

/-- Rewrites the entry of block `k`, keeping SECT and FRAMES of the page word, the places of the page's blocks and its
frames: a page holds as many frames as its sectors need (R193, R197-R200; log 16). -/
def setEntry (s : State) (k : Nat) (e : DWord) : State :=
  match s.pageAt (512 * k) with
  | none => s
  | some (key, r) =>
    let sect := r.sect + entSect e - entSect (r.block (k % 128))
    let n := (sect + 63) / 64
    let w := setBits (setBits (setBits r.word 28 18 sect) 40 36 n) 17 0 0
    let r' : PageRec :=
      { r with word := w, blocks := repack 0 (Tbl.store 0 r.blocks (k % 128) e),
               frames := reframe (s.framesOf (key / 2 ^ 38)) r.frames n }
    { s with pages := s.pages.put key r' }

/-- Counts an access that reaches the home (R354). -/
def heatPage (s : State) (ga : Nat) : State :=
  match s.pageAt ga with
  | none => s
  | some (key, _) => { s with pages := s.pages.updIf key fun r => { r with heat := sat64 (r.heat + 1) } }

/-- Writes an error record into its die's ring; an identical record is folded into the one before, where that has not been
read, and a full ring loses its oldest record (R424). -/
def errorRecord (s : State) (die port rq kind cause syn loc region : Nat) : State :=
  let unit := die % 4 + port * 4 + rq * 256 + kind * 16384
  let mid := bytesOf 4 (BitVec.ofNat 32 unit) ++ bytesOf 2 (BitVec.ofNat 16 cause) ++ bytesOf 2 (BitVec.ofNat 16 syn)
    ++ bytesOf 8 (BitVec.ofNat 64 loc) ++ bytesOf 2 (BitVec.ofNat 16 region)
  s.updDie die fun d =>
    let rep := match d.errRing.getLast? with
      | some r => if (r.drop 8).take 18 = mid then some r else none
      | none => none
    match rep with
    | some r =>
      let n := (ofBytes 16 ((r.drop 26).take 2)).toNat
      let r' := r.take 26 ++ bytesOf 2 (BitVec.ofNat 16 (min (n + 1) 65535)) ++ r.drop 28
      { d with errRing := d.errRing.dropLast ++ [r'] }
    | none =>
      let r := bytesOf 8 s.clk ++ mid ++ bytesOf 2 (0 : BitVec 16) ++ bytesOf 4 (0 : BitVec 32)
      let full := decide (d.errRing.length ≥ 4096)
      { d with errRing := (if full then d.errRing.drop 1 else d.errRing) ++ [r], errWrote := d.errWrote + 1,
               errOverflow := if full then d.errOverflow + 1 else d.errOverflow }

/-- The home port mends the record of a page as an access to a block of it finds a reserved bit or TYPE 3: they are
written as zero, a block of TYPE 3 as constant zero, and an error record names the port and the record (R200). -/
def repair (s : State) (ga : Nat) : State :=
  match s.pageAt ga with
  | none => s
  | some (key, r) =>
    let k := ga / 512
    let e := r.block (k % 128)
    if entType e != 3 && e &&& 0x7F == 0 && bitsOf r.word 17 0 == 0 then s
    else
      let s := if entType e = 3 then s.putHome (512 * k) (List.replicate 512 0) else s
      let port := key / 2 ^ 38
      (s.setEntry k (entRead e)).errorRecord (portDie port) port 0 0 5 0xFFFF (key % 2 ^ 38) r.regionNo

/-- The home mends the records of the blocks that a run of bytes reaches (R200). -/
def repairRun (s : State) (ga n : Nat) : State :=
  (List.range ((ga + n - 1) / 512 + 1 - ga / 512)).foldl (fun s i => s.repair (512 * (ga / 512 + i))) s

/-- Bytes as the home serves a read of them: a block of TYPE 3 reads as constant zero (R200). -/
def homeLoad (s : State) (ga n : Nat) : List Byte := (s.repairRun ga n).homeBytes ga n

/-- The key of a page's slot at its home (R301). -/
def pageKey (s : State) (r : PageRec) : List Byte := (s.keys.get {} (r.home * 32 + r.kslot)).key

/-- The physical byte address of sector `i` of block `k` at its home port (R196, R197). -/
def sectorAddr (r : PageRec) (k i : Nat) : Nat :=
  let n := bitsOf (r.block (k % 128)) 25 16 + i
  4096 * (r.frames.get 0 (n / 64)).toNat + 64 * (n % 64)

/-- Sector `i` of block `k` as it is stored: the block's raw bytes or the codec's encoding, under the key of the page's
slot with the sector's physical address as tweak (R194, R196). -/
def storedSector (s : State) (k i : Nat) : List Byte :=
  match s.pageAt (512 * k) with
  | none => []
  | some (_, r) =>
    let x := s.homeBlock k
    let plain := (List.range 64).map fun j =>
      if entSect (r.block (k % 128)) = 8 then x.extractLsb' (8 * (64 * i + j)) 8 else Config.codecByte x (64 * i + j)
    xtsSector (s.pageKey r) (sectorAddr r k i) plain

end State

/-! The reserve (R204-R206). -/

/-- Available, a signed value (R204). -/
def Region.available (r : Region) : Int := r.rsvg - r.rsvh - r.rsvp

namespace State

/-- The region of a workgroup's gang's launch. -/
def launchOf (s : State) (wg : Nat) : Option Launch :=
  (s.wgs.find? wg).bind fun w => (s.gangs.find? w.gang).bind fun g => s.launches.find? g.launch

/-- Firmware's own memory: a space of its own beside the 20 partitions, not translated and charged to no region
(R32, R362; log 72). -/
def fwPart : Nat := 20

def regionOf (s : State) (wg : Nat) : Nat := ((s.launchOf wg).map (·.region)).getD (65536 * fwPart)

/-- RSVLOW follows available against the low mark in every resident team of the region (R68, R206); one that has risen in
this cycle stays set. -/
def followLow (s : State) (r : Nat) : State :=
  let reg := s.region r
  let low := reg.available < (reg.lowMark.toNat : Int)
  { s with teams := s.teams.map fun (k, t) =>
      if t.resident && s.regionOf t.wg == r then
        let rose := low && !t.notice.getLsbD 3
        (k, { t with notice := if low || t.noticeSet.getLsbD 3 then t.notice ||| 8 else t.notice &&& ~~~8,
                     noticeRose := if rose then t.noticeRose + 1 else t.noticeRose,
                     noticeSet := if rose then t.noticeSet ||| 8 else t.noticeSet })
      else (k, t) }

/-- Changes a region's counts, with RSVLOW following, and a held bookkeeping write retried at a rise (R206, R436). -/
def reserve (s : State) (r : Nat) (f : Region → Region) : State :=
  let before := (s.region r).available
  let s := (s.updRegion r f).followLow r
  if before < (s.region r).available then
    { s with agenda := s.agenda ++ (s.rings.filter fun (_, g) => g.held != []).map fun (k, _) => .bookkeepingWriteRetry k }
  else s

/-- Command pledges standing on block `k` (R212). -/
def cmdPledgesOn (s : State) (k : Nat) : Nat := s.cmdPledges.get 0 k

/-- The need of a set of blocks against one region: 8 − Sectors(k) each (R28). -/
def needOf (s : State) (ks : List Nat) (r : Nat) : Nat :=
  (ks.filter fun k => s.ownerOf k == some r).foldl (fun n k => n + (8 - s.sectors k)) 0

/-- The owner regions of a set of blocks, by first appearance. -/
def ownersOf (s : State) (ks : List Nat) : List Nat := (ks.filterMap s.ownerOf).eraseDups

/-- The first region that cannot cover its share: region, need and available (R207, R213); a need of 0 never
fails (R28). -/
def uncovered (s : State) (ks : List Nat) : Option (Nat × Nat × Int) :=
  (s.ownersOf ks).findSome? fun r =>
    let need := s.needOf ks r
    if need > 0 ∧ (s.region r).available < (need : Int) then some (r, need, (s.region r).available) else none

/-- Adds the need of each owner region to its RSVP. -/
def addPledges (s : State) (ks : List Nat) : State :=
  (s.ownersOf ks).foldl (fun s' r =>
    let n := s.needOf ks r
    s'.reserve r fun g => { g with rsvp := g.rsvp + n, pledgedTotal := sat64 (g.pledgedTotal + n) }) s

/-- Marks block `k` pledged at a core, at its home, which mends its record, and in the core's pledge table (R200, R208,
R209). -/
def markBlock (s : State) (core k : Nat) : State :=
  let s := s.repair (512 * k)
  let e := setBits (setBits (s.blockEntry k) 15 8 (ownerCode core)) 7 7 1
  (s.setEntry k e).updCore core fun c => { c with pledges := c.pledges ++ [k] }

/-- Clears the mark of block `k`. -/
def clearMark (s : State) (k : Nat) : State :=
  let e := s.blockEntry k
  let core := entOwner e
  (s.setEntry k (setBits (setBits e 15 8 0) 7 7 0)).updCore core fun c => { c with pledges := c.pledges.filter (· != k) }

/-- The size, type and pattern that the home gives block `k` as it encodes it anew (R194-R196, R199). A pinned block
stays raw (R355, R391). -/
def encodeEntry (s : State) (k : Nat) (pinned : Bool) : DWord × Nat :=
  let x := s.homeBlock k
  let n := if pinned then 8 else Config.codec x
  let ty := if n = 0 then 0 else if n = 8 then 2 else 1
  let key := match s.pageAt (512 * k) with
    | some (_, r) => s.pageKey r
    | none => []
  let pat := if n = 0 then Config.cipher key k (x.extractLsb' 0 32) else 0
  let e := setBits (setBits (setBits (s.blockEntry k) 63 32 pat.toNat) 31 30 ty) 29 26 n
  (e, n)

/-- Whether block `k` is pinned raw: the region's save area or its counter block (R355, R391). -/
def pinned (s : State) (k : Nat) : Bool :=
  match s.ownerOf k with
  | none => false
  | some r =>
    let reg := s.region r
    let va := gaVa (512 * k)
    (reg.saveSize != 0 && reg.saveBase.toNat ≤ va && va < reg.saveBase.toNat + reg.saveSize.toNat)
      || (reg.counters != 0 && va == reg.counters.toNat / 512 * 512)

/-- The accounting of a merge into block `k`, once its bytes stand at the home: a full settle of a core's mark, a
partial settle, or the landing of a write performed at the home (R28, R210-R212, R221). `mark` is whether the
merging core holds the mark, `full` whether no dirty word of the block remains there. -/
def settle (s : State) (k : Nat) (mark full : Bool) : State :=
  let old := s.sectors k
  let (e, n) := s.encodeEntry k (s.pinned k)
  match s.ownerOf k with
  | none => s
  | some r =>
    let p : Int := s.cmdPledgesOn k
    let other : Int := if entPledged e ∧ ¬ mark then 1 else 0
    let d : Int := (n : Int) - old
    let returned := old - n
    let s := s.setEntry k e
    if mark ∧ full then
      (s.reserve r fun g => { g with rsvp := g.rsvp - (8 - (old : Int)) - p * d, rsvh := g.rsvh + d,
                                     returnedTotal := sat64 (g.returnedTotal + returned) }).clearMark k
    else
      let held : Int := if mark then 1 else 0
      s.reserve r fun g => { g with rsvh := g.rsvh + d, rsvp := g.rsvp - (p + other + held) * d,
                                    returnedTotal := sat64 (g.returnedTotal + returned) }

end State

/-! Translation (R278-R281). -/

/-- What a walk finds: the first failing check's sub-cause, or the leaf that maps the page with its size. -/
inductive Walked where
  | fault (sub : Nat) (malformed : Option Nat)
  | leaf (pte : DWord) (shift : Nat) (pteKey : Nat)
deriving DecidableEq, Repr

def pteV (e : DWord) : Bool := e.getLsbD 63
def pteLeaf (e : DWord) : Bool := e.getLsbD 62
def pteWr (e : DWord) : Bool := e.getLsbD 61
def pteExec (e : DWord) : Bool := e.getLsbD 60
def pteIlv (e : DWord) : Nat := bitsOf e 59 57
def ptePort (e : DWord) : Nat := bitsOf e 56 51
def pteSurr (e : DWord) : Bool := e.getLsbD 50
def pteKslot (e : DWord) : Nat := bitsOf e 49 45
def pteOff (e : DWord) : Nat := bitsOf e 37 7 * 128

/-- An entry that is malformed at its level (R279-R281, sub-cause 4). R281 does not name a valid entry with LEAF clear
at level 3, which has no table below it: it is malformed here (DESIGN CHOICE, log 74). -/
def pteMalformed (e : DWord) (level : Nat) : Bool :=
  bitsOf e 44 38 != 0 || bitsOf e 6 0 != 0 ||
    (if pteLeaf e then
      level == 0 || (level == 3 && pteIlv e != 0) || pteIlv e > 3 || ptePort e % 2 ^ pteIlv e != 0
    else
      level == 3 && pteV e || pteWr e || pteExec e || pteIlv e != 0 || pteSurr e || pteKslot e != 0)

/-- The walk from one level down (R278, R281): checks 4, 0 and 1. Bits [13:7] of a table pointer, of which no check
speaks, are ignored (DESIGN CHOICE, log 74). -/
def walkFrom (s : State) (va : Nat) : Nat → Nat → Nat → Walked
  | 0, _, _ => .fault 0 none
  | fuel + 1, level, table =>
    let idx := va / 2 ^ (49 - 11 * level) % 2048
    let key := table + 8 * idx
    let e := s.ptes.get 0 key
    if pteMalformed e level then .fault 4 (some key)
    else if !pteV e then .fault 0 none
    else if pteLeaf e then
      (if pteSurr e then .fault 1 none else .leaf e (49 - 11 * level) key)
    else walkFrom s va fuel (level + 1) (ptePort e * 2 ^ 38 + pteOff e / 16384 * 16384)

/-- The walk of a virtual address of a partition; PTROOT names the root table as a table pointer does (log 12). An
address at or beyond 2^60 has no entry: sub-cause 0, where no rule says what a walk gives (DESIGN CHOICE, log 74). -/
def State.walk (s : State) (part va : Nat) : Walked :=
  let root := (s.part part).ptRoot
  if va ≥ 2 ^ 60 then .fault 0 none
  else walkFrom s va 4 0 (ptePort root * 2 ^ 38 + pteOff root / 16384 * 16384)

/-- The ports that hold the tables of a walk, from one level down (R278). -/
def State.tablePorts (s : State) (va : Nat) : Nat → Nat → Nat → List Nat
  | 0, _, _ => []
  | fuel + 1, level, table =>
    let e := s.ptes.get 0 (table + 8 * (va / 2 ^ (49 - 11 * level) % 2048))
    (table / 2 ^ 38) :: (if pteMalformed e level || !pteV e || pteLeaf e then []
      else s.tablePorts va fuel (level + 1) (ptePort e * 2 ^ 38 + pteOff e / 16384 * 16384))

/-- The home port and the page record's key of the 64 KiB page of `va` under a leaf (R279, R280). -/
def leafPage (pte : DWord) (shift va : Nat) : Nat × Nat :=
  let i := va % 2 ^ shift / 65536
  let n := 2 ^ pteIlv pte
  let port := if shift = 16 then ptePort pte else ptePort pte + i % n
  let off := if shift = 16 then pteOff pte else pteOff pte + 1152 * (i / n)
  (port, port * 2 ^ 38 + off)

/-- Checks 5 and 6, and 2 and 3, of a leaf: the connection matrix, the key slot at the requester, the permissions
(R281, R298, R301). `rq` is the requester port. The matrix has none of a queue engine, whose accesses are checked against its
partition's ports (DESIGN CHOICE, log 74). -/
def leafFault (s : State) (part : Nat) (rq : Option Nat) (pte : DWord) (shift va : Nat) (write fetch : Bool) : Option Nat :=
  let (port, key) := leafPage pte shift va
  let permitted := match rq with
    | some q => (s.rq.get 0 q).getLsbD port
    | none => (s.part part).ports.contains port
  let slot := pteKslot pte
  if (s.pages.get { part := 0, page := 0, word := 0 } key).surr then some 1
  else if !permitted then some 5
  else if s.keyCopies.get 0 (port * 32 + slot) != 1#2 then some 6
  else if write && !pteWr pte then some 2
  else if fetch && !pteExec pte then some 3
  else none

/-- The whole check of an access, by a walk of the tables as they stand: the sub-cause it fails with. -/
def State.translateNow (s : State) (part : Nat) (rq : Option Nat) (va : Nat) (write fetch : Bool) : Option Nat :=
  match s.walk part va with
  | .fault sub _ => some sub
  | .leaf pte shift _ => leafFault s part rq pte shift va write fetch

end Sys2Proof.Machine
end

