-- ==== Sys2Proof/Machine/Team.lean ====
section
/-!
DEFINITION. Teams, lanes and registers: the one place where a register is read or written (03 R56-R64), and the free
values drawn from Config.
-/

namespace Sys2Proof.Machine

abbrev Res := Host.Outcome State Fault Refusal

namespace State

def team (s : State) (t : Nat) : Team := s.teams.get { wg := 0, core := 0 } t
def wg (s : State) (w : Nat) : Wg := s.wgs.get { gang := 0, core := 0 } w
def updTeam (s : State) (t : Nat) (f : Team → Team) : State := { s with teams := s.teams.updIf t f }
def updWg (s : State) (w : Nat) (f : Wg → Wg) : State := { s with wgs := s.wgs.updIf w f }
def updGang (s : State) (g : Nat) (f : Gang → Gang) : State := { s with gangs := s.gangs.updIf g f }
def updLaunch (s : State) (k : Nat) (f : Launch → Launch) : State := { s with launches := s.launches.updIf k f }

/-- Draws a free number (log 3). -/
def draw (s : State) : Nat × State := (Config.free s.fresh, { s with fresh := s.fresh + 1 })

/-- The next number of a unit, message or command. -/
def newId (s : State) : Nat × State := (s.nextId, { s with nextId := s.nextId + 1 })

/-- The workgroup, region and partition of a team. -/
def teamWg (s : State) (t : Nat) : Wg := s.wg (s.team t).wg
def teamRegion (s : State) (t : Nat) : Nat := s.regionOf (s.team t).wg
def teamPart (s : State) (t : Nat) : Nat := s.teamRegion t / 65536

/-- The teams of a workgroup, in TEAMID order, with their keys. -/
def teamsOf (s : State) (w : Nat) : List (Nat × Team) := (s.wg w).teams.map fun t => (t, s.team t)

end State

namespace Team

def lane (t : Team) (l : Nat) : Lane := t.lanes.get {} l

/-- Changes the lanes that satisfy a test; every lane is listed. -/
def mapLanes (t : Team) (p : Nat → Bool) (f : Nat → Lane → Lane) : Team :=
  { t with lanes := allLanes.map fun l => (l, if p l then f l (t.lane l) else t.lane l) }

/-- The lanes in a state. -/
def inState (t : Team) (st : LaneState) : Mask := maskBy fun l => (t.lane l).st == st
/-- Lanes that are neither Off nor Exited. -/
def live (t : Team) : Mask := maskBy fun l => (t.lane l).st == .running || (t.lane l).st == .waiting

/-- Whether a lane is stopped where it stands: its team is switched out, halted, or in a handler that is not the
lane's own (R400, R401). No wait of such a lane completes. -/
def parked (t : Team) (l : Nat) : Bool :=
  !t.resident || t.halted || (match t.handler with | some h => !h.lanes.getLsbD l | none => false)

/-- The lanes that wait for something of a kind, whose waits can complete: they are not parked, and their team has not been
stopped for a pre-emption, which saves them as Waiting (R41, R389, R407). -/
def waiters (t : Team) (p : Wait → Bool) : Mask := maskBy fun l =>
  let x := t.lane l
  x.st == .waiting && (match x.wait with | some w => p w | none => false) && !t.parked l && !t.stopping

/-- The lanes held for something of a kind. -/
def holders (t : Team) (p : Hold → Bool) : Mask := maskBy fun l =>
  match (t.lane l).hold with | some h => p h | none => false

/-- LaneOff (R28): FMASK is set, and the lane leaves the running state. -/
def laneOff (t : Team) (m : Mask) : Team :=
  let t := { t with fmask := t.fmask ||| m }
  t.mapLanes (m.getLsbD ·) fun _ x => { x with st := .off, age := 0, wait := none, hold := none }

/-- Each lane of a mask advances to the next instruction; its wait or hold is over (R41, R43). -/
def advance (t : Team) (m : Mask) : Team :=
  t.mapLanes (m.getLsbD ·) fun _ x =>
    if x.st == .off || x.st == .exited then x
    else { x with pc := x.pc + 1, st := .running, wait := none, hold := none }

/-- The instruction of each lane of a mask has completed: the lane goes on to the next, or, where it is parked, as it is
released (R266, R400, R401). -/
def complete (t : Team) (m : Mask) : Team :=
  (t.advance (maskBy fun l => m.getLsbD l && !t.parked l)).mapLanes (fun l => m.getLsbD l && t.parked l) fun _ x =>
    { x with hold := some .done }

/-- Each lane of a mask is no longer held, and issues its instruction again. -/
def unhold (t : Team) (m : Mask) : Team := t.mapLanes (m.getLsbD ·) fun _ x => { x with hold := none }

/-- The earliest cycle at which the lanes of a mask issue again. -/
def readyFrom (t : Team) (m : Mask) (n : Nat) : Team :=
  t.mapLanes (m.getLsbD ·) fun _ x => { x with readyAt := max x.readyAt n }

/-- Each lane of a mask waits at its instruction (R41); it leaves the running state, so its age is reset (R43). -/
def await (t : Team) (m : Mask) (w : Nat → Wait) : Team :=
  t.mapLanes (m.getLsbD ·) fun l x => { x with st := .waiting, age := 0, wait := some (w l) }

/-- Each lane of a mask is held at its instruction (R43). -/
def holdOn (t : Team) (m : Mask) (h : Hold) : Team :=
  t.mapLanes (m.getLsbD ·) fun _ x => if x.st == .running then { x with hold := some h } else x

/-! Registers (R56-R58). -/

def readV (t : Team) (n l : Nat) : Word := t.v.get 0 (32 * n + l)
def readV64 (t : Team) (n l : Nat) : DWord := t.readV (n + 1) l ++ t.readV n l
def writeV (t : Team) (n l : Nat) (x : Word) : Team := { t with v := t.v.store 0 (32 * n + l) x }
def writeV64 (t : Team) (n l : Nat) (x : DWord) : Team :=
  (t.writeV n l (x.extractLsb' 0 32)).writeV (n + 1) l (x.extractLsb' 32 32)
def readS (t : Team) (n : Nat) : DWord := t.s.get 0 n
def writeS (t : Team) (n : Nat) (x : DWord) : Team := { t with s := t.s.store 0 n x }

/-- A guard predicate; g7 reads true (R13). -/
def guard (t : Team) (n : Nat) : Mask := if n = 7 then BitVec.allOnes 32 else t.g.get 0 n

/-- Writes a guard in the lanes of a mask; a write to g7 is discarded (R13). -/
def writeG (t : Team) (n : Nat) (m val : Mask) : Team :=
  if n = 7 then t else { t with g := t.g.store 0 n ((t.guard n &&& ~~~m) ||| (val &&& m)) }

/-- A segment register, numbered as in `segld` (R365): glob 0, spad 1, clus 2, obuf 3, karg 4, save 5. -/
def seg (t : Team) (i : Nat) : Seg := t.segs.get {} i

/-- The convergence token register of level k (1 = outermost) in a lane (R23, R64). -/
def token (t : Team) (k l : Nat) : Word := t.readV (t.vregs - k) l
def setToken (t : Team) (k l : Nat) (x : Word) : Team := t.writeV (t.vregs - k) l x

/-- The convergence token that a lane presents (R47). -/
def presents (t : Team) (l : Nat) : List Word := (List.range (t.lane l).level).map fun k => t.token (k + 1) l

/-- MASK (R67) and NTEN. -/
def masked (t : Team) : Bool := t.trapmask.getLsbD 0
def nten (t : Team) : Nat := bitsOf t.trapmask 7 4

/-- Gathers flags into FPSTAT (R152): NV 4, DZ 3, OF 2, UF 1, NX 0. -/
def gather (t : Team) (fl : BitVec 5) : Team := { t with fpstat := t.fpstat ||| fl.setWidth 32 }

end Team

/-- The bits of a format register that are not reserved (R143). -/
def fmtBits : BitVec 32 := 0x07FFFF80

/-- A format register of a workgroup, and a write to it: reserved bits are ignored (R7, R143). -/
def Wg.fmt (w : Wg) (n : Nat) : BitVec 32 := w.fmts.get 0 n
def Wg.writeFmt (w : Wg) (n : Nat) (x : BitVec 32) : Wg := { w with fmts := w.fmts.store 0 n (x &&& fmtBits) }

/-- A write by a team that stands until the cycle's end; the format registers as a team sees them, its own writes of this
cycle included; and the end of the cycle, at which the writes take effect in the order in which they were issued
(R60, R153). -/
def Wg.queueFmt (w : Wg) (team n : Nat) (x : BitVec 32) : Wg := { w with fmtsNew := w.fmtsNew ++ [(team, n, x)] }
def Wg.seenBy (w : Wg) (team : Nat) : Wg :=
  w.fmtsNew.foldl (fun w (t, n, x) => if t = team then w.writeFmt n x else w) w
def Wg.endFmts (w : Wg) : Wg := { w.fmtsNew.foldl (fun w (_, n, x) => w.writeFmt n x) w with fmtsNew := [] }

/-- The numbers by which a chain's rules name registers: v n, 256 + s n, 320 + g n, 328 + fmt n. -/
def codeV (n : Nat) : Nat := n
def codeS (n : Nat) : Nat := 256 + n
def codeG (n : Nat) : Nat := 320 + n
def codeF (n : Nat) : Nat := 328 + n

end Sys2Proof.Machine
end

