-- ==== Sys2Proof/Machine/Home.lean ====
section
/-!
DEFINITION. Caches and homes: the L1 with its word states (08 R188-R192, 10 R230-R233), die copies and the directory
(10 R244-R248), merges (10 R245, 09 R210), and messages in flight (13 R319).
-/

namespace Sys2Proof.Machine

namespace State

/-! Messages. -/

/-- Sends a message; the cycle from which it can be served is not fixed by the architecture (R433; log 3). -/
def post (s : State) (cls : Class) (chan : Option (Nat × Nat)) (part : Nat) (body : MsgBody) : Nat × State :=
  let (n, s) := s.draw
  let (id, s) := s.newId
  (id, { s with msgs := s.msgs.put id { cls := cls, due := s.cycle + 1 + n, chan := chan, part := part, body := body } })

/-- Sends a message whose number nobody needs. -/
def send (s : State) (cls : Class) (chan : Option (Nat × Nat)) (part : Nat) (body : MsgBody) : State :=
  (s.post cls chan part body).2

/-- Takes a message out of its queue. -/
def dropMsg (s : State) (m : Nat) : State := { s with msgs := s.msgs.erase m }

/-- A message that must wait stands for the next cycle, in its place in the order. -/
def requeue (s : State) (m : Nat) : State := { s with msgs := s.msgs.updIf m fun x => { x with due := s.cycle + 1 } }

/-! The L1. -/

/-- A fused cluster is one core for every L1 rule (R192); it is named by its core 0. -/
def unit (s : State) (core : Nat) : Nat := if (s.cluster (coreRq core)).fused then core / 4 * 4 else core

/-- The core whose slice holds a line (R191). -/
def slice (s : State) (core line : Nat) : Nat :=
  if (s.cluster (coreRq core)).fused then core / 4 * 4 + line % 4 else core

/-- The cores whose L1s make up the unit of a core. -/
def slices (s : State) (core : Nat) : List Nat :=
  if (s.cluster (coreRq core)).fused then (List.range 4).map (core / 4 * 4 + ·) else [core]

/-- The set of a line in its slice (R188, R191). -/
def setOf (s : State) (core line : Nat) : Nat :=
  if (s.cluster (coreRq core)).fused then line / 4 % 256 else line % 256

/-- A line of the L1 that serves a core. -/
def l1 (s : State) (core line : Nat) : L1Line := (s.core (s.slice core line)).l1.get {} line

/-- Writes a line of the L1; a line with no valid word is not held. -/
def setL1 (s : State) (core line : Nat) (x : L1Line) : State :=
  s.updCore (s.slice core line) fun c =>
    { c with l1 := if x.valid = 0 then c.l1.erase line else c.l1.put line x }

end State

/-- The bytes of the words of a mask. -/
def wordBytes (m : BitVec 32) : BitVec 128 :=
  (List.range 32).foldl (fun acc i => if m.getLsbD i then acc ||| (0xF#128 <<< (4 * i)) else acc) 0

/-- The words that bytes off … off + n − 1 of a line touch. -/
def wordMask (off n : Nat) : BitVec 32 :=
  (List.range 32).foldl (fun acc i => if off < 4 * i + 4 && 4 * i < off + n then acc ||| (1#32 <<< i) else acc) 0

/-- Bit mask of the bytes of a line. -/
def bitMask (m : BitVec 128) : LineData :=
  (List.range 128).foldl (fun acc i => if m.getLsbD i then acc ||| (0xFF#1024 <<< (8 * i)) else acc) 0

/-- Lays the masked bytes of one line over another. -/
def overlay (base : LineData) (m : BitVec 128) (x : LineData) : LineData :=
  (base &&& ~~~bitMask m) ||| (x &&& bitMask m)

/-- Lays bytes over a line from an offset on. -/
def putBytes (base : LineData) (off : Nat) (bs : List Byte) : LineData :=
  let m : BitVec 128 := (BitVec.allOnes 128 >>> (128 - bs.length)) <<< off
  overlay base m ((ofBytes 1024 bs) <<< (8 * off))

/-- Bytes of a line from an offset on. -/
def lineBytes (d : LineData) (off n : Nat) : List Byte := (List.range n).map fun k => d.extractLsb' (8 * (off + k)) 8

namespace State

/-- A line under the write-backs of one core that are on their way (R230). -/
def ownSeen (s : State) (core line : Nat) (below : LineData) : LineData :=
  s.msgs.foldl (fun acc (_, m) =>
    match m.body with
    | .merge c l mask data => if !m.hw ∧ c = s.unit core ∧ l = line then overlay acc mask data else acc
    | _ => acc) below

def copyKey (die line : Nat) : Nat := die * 2 ^ 64 + line

/-- A die's copy of a line; a remote copy is used only while CLK is before its expiry less the margin (R251). -/
def copyOf (s : State) (die line : Nat) : Option DieCopy :=
  match s.copies.find? (copyKey die line) with
  | some c =>
    match c.expiry with
    | some t => if s.clk.toNat + s.leaseMargin < t.toNat then some c else none
    | none => some c
  | none => none

/-- A line as the L2 gives it to a core: its die's copy or the home's line, under the core's own write-backs
(R189, R230). -/
def lineSeen (s : State) (core line : Nat) : LineData :=
  s.ownSeen core line (match s.copyOf (coreDie core) line with
    | some c => c.data
    | none => (s.repair (128 * line)).homeLine line)

/-- Whether a core has a write-back or a strong access of a block on its way home. -/
def inFlight (s : State) (core k : Nat) : Bool :=
  s.msgs.any fun (_, m) =>
    match m.body with
    | .merge c l _ _ => !m.hw && c == core && l / 4 == k
    | .strong c l _ _ w _ _ => w && c == core && l / 4 == k
    | _ => false

/-- Whether a core still holds dirty words of a block, in its L1 or on their way. -/
def holdsDirty (s : State) (core k : Nat) : Bool :=
  s.inFlight core k ||
    (List.range 4).any fun i => (s.l1 core (4 * k + i)).dirty != 0

/-- Writes back the dirty words of a line among those of a mask: they leave for their home and stay valid and clean
(R189, R271). -/
def writeBackWords (s : State) (core line : Nat) (m : BitVec 32) : State :=
  let x := s.l1 core line
  let d := x.dirty &&& m
  if d = 0 then s
  else
    let s := s.setL1 core line { x with dirty := x.dirty &&& ~~~m }
    s.send .request (some (s.unit core, line)) (gaPart (128 * line))
      (.merge (s.unit core) line (wordBytes d) x.data)

/-- Writes back every dirty word of a line. -/
def writeBack (s : State) (core line : Nat) : State := s.writeBackWords core line (BitVec.allOnes 32)

/-- The lines that the L1 of a core holds. -/
def l1Lines (s : State) (core : Nat) : List Nat := (s.slices core).flatMap fun c => (s.core c).l1.keys

/-- Writes back every dirty word of a core's L1. -/
def writeBackAll (s : State) (core : Nat) : State := (s.l1Lines core).foldl (fun s l => s.writeBack core l) s

/-- Writes back the dirty words of one block. -/
def writeBackBlock (s : State) (core k : Nat) : State :=
  (List.range 4).foldl (fun s i => s.writeBack core (4 * k + i)) s

/-- Clears words of a line: they become invalid. -/
def dropWords (s : State) (core line : Nat) (m : BitVec 32) : State :=
  let x := s.l1 core line
  if x.valid &&& m = 0 then s
  else s.setL1 core line { x with valid := x.valid &&& ~~~m, dirty := x.dirty &&& ~~~m }

/-- Invalidates the valid clean words of a line that lie in given bytes of memory (R226, R233). -/
def dropClean (s : State) (core line : Nat) (within : List (Nat × Nat)) : State :=
  let x := s.l1 core line
  let m := (List.range 32).foldl (fun (acc : BitVec 32) i =>
    let a := 128 * line + 4 * i
    if x.valid.getLsbD i && !x.dirty.getLsbD i && within.any fun (lo, n) => a < lo + n && lo < a + 4
    then acc ||| (1#32 <<< i) else acc) 0
  s.dropWords core line m

/-- Invalidates the valid clean words of a core's L1 that lie in given ranges. -/
def dropCleanAll (s : State) (core : Nat) (within : List (Nat × Nat)) : State :=
  (s.l1Lines core).foldl (fun s l => s.dropClean core l within) s

/-- Every valid clean word of a core's L1 takes the value that the L2 gives the core now, and stays valid: a load of it
returns a later write, never an older one (R230, R233; log 31). -/
def renewClean (s : State) (core : Nat) : State :=
  (s.l1Lines core).foldl (fun s l =>
    let x := s.l1 core l
    s.setL1 core l { x with data := overlay (s.lineSeen core l) (wordBytes x.dirty) x.data }) s

/-- The lines with a fill outstanding in the set of a line (R233). -/
def filling (s : State) (core line : Nat) : List Nat :=
  ((s.loads.flatMap fun (_, d) =>
    if s.unit d.core == s.unit core then d.fills else []).filter fun l =>
      s.slice core l == s.slice core line && s.setOf core l == s.setOf core line).eraseDups

/-- Makes room for a line in its set: the least recently used line without a fill outstanding leaves, a `.ro` line
after the other clean ones, and only its dirty words are written back (R188, R189, R261). Of lines that were last used in
one cycle the lowest leaves, which no rule says (DESIGN CHOICE, log 74). -/
def makeRoom (s : State) (core line : Nat) : State :=
  let sl := s.slice core line
  let here := (s.core sl).l1.filter fun (l, _) => s.setOf core l == s.setOf core line
  if here.any (·.1 == line) || here.length < 8 then s
  else
    let busy := s.filling core line
    let cand := here.filter fun (l, _) => !busy.contains l
    let lru := fun (xs : Tbl L1Line) => xs.foldl (fun (b : Option (Nat × L1Line)) x =>
      match b with
      | some y => if x.2.used < y.2.used then some x else b
      | none => some x) none
    let plain := cand.filter fun (_, x) => x.dirty == 0 && !x.ro
    let victim := match lru cand with
      | some (l, x) => if x.dirty == 0 && x.ro then (lru plain).getD (l, x) else (l, x)
      | none => (lru here).getD (line, {})
    let s := s.writeBack core victim.1
    s.updCore sl fun c => { c with l1 := c.l1.erase victim.1 }

/-- Fills the invalid words of a line; no fill overwrites a dirty word (R189). -/
def fillLine (s : State) (core line : Nat) (data : LineData) (ro : Bool) : State :=
  let s := s.makeRoom core line
  let x := s.l1 core line
  s.setL1 core line { x with valid := BitVec.allOnes 32, data := overlay data (wordBytes x.valid) x.data,
                             used := s.cycle, ro := ro }

/-- A load that finds its words valid makes its line the most recently used of its set (R188). -/
def touchLine (s : State) (core line : Nat) : State :=
  let x := s.l1 core line
  if x.valid = 0 then s else s.setL1 core line { x with used := s.cycle }

/-- The home port of a line. -/
def homePort (s : State) (line : Nat) : Nat := ((s.pageAt (128 * line)).map fun x => x.2.home).getD 0
def dirKey (s : State) (line : Nat) : Nat := s.homePort line * 2 ^ 64 + line

/-- A request for a line that the home serves renews the recency of its entry (R415). -/
def dirTouch (s : State) (line : Nat) : State :=
  { s with dir := s.dir.updIf (s.dirKey line) fun e => { e with used := s.cycle } }

/-- The home serves a read that reaches a byte; what comes of it stands at the end of the cycle. -/
def readHome (s : State) (ga : Nat) : State := { s with served := s.served ++ [ga] }

/-- A read that a home has served counts, the block's record is mended where it must be, and the line's entry is the most
recently used (R200, R354, R415). -/
def countRead (s : State) (ga : Nat) : State := ((s.repair ga).heatPage ga).dirTouch (ga / 128)

/-- The same for the reads of a cycle. -/
def countReads (s : State) : State := s.served.foldl countRead { s with served := [] }

/-- Whether a weak store of `n` bytes at a core reads the rest of a word that is not valid from the home (R189). -/
def storeFills (s : State) (core ga n : Nat) : Bool :=
  let m := wordMask (ga % 128) n
  n < 4 && (s.l1 core (ga / 128)).valid &&& m != m && (s.copyOf (coreDie core) (ga / 128)).isNone

/-- A weak store of bytes within one line: its words become valid and dirty; a store of part of an invalid word
first fills that word, from the home where the die has no copy (R189, R354). -/
def l1Store (s : State) (core ga : Nat) (bs : List Byte) : State :=
  let line := ga / 128
  let s := s.makeRoom core line
  let x := s.l1 core line
  let m := wordMask (ga % 128) bs.length
  let s := if s.storeFills core ga bs.length then s.readHome ga else s
  let base := overlay (s.lineSeen core line) (wordBytes x.valid) x.data
  s.setL1 core line { x with valid := x.valid ||| m, dirty := x.dirty ||| m,
                             data := putBytes base (ga % 128) bs, used := s.cycle }

/-! Die copies and the directory. -/

/-- The second halves of some 16-byte weak stores are performed: those that `p` picks, oldest first (R260). -/
def endHalves (s : State) (p : Half → Bool) : State :=
  (s.halves.filter p).foldl (fun s h => s.l1Store h.core h.ga h.bytes) { s with halves := s.halves.filter fun h => !p h }

/-- Whether a write that arrived at the home of a line before a message still waits there (R245); of message 0, which
there is none, whether any does. -/
def laterThan (s : State) (id line : Nat) : Bool :=
  let mine := ((s.msgs.find? id).map (·.arrived)).getD 0
  s.msgs.any fun (k, m) => k != id && m.arrived != 0 && (mine == 0 || decide (m.arrived < mine)) && match m.body with
    | .merge _ l _ _ => l == line
    | .strong _ l _ _ _ _ _ => l == line
    | .landing _ _ k => k == line / 4
    | _ => false

/-- The HBM ports of a partition on a die, ascending. -/
def hbmPorts (s : State) (part die : Nat) : List Nat :=
  ((List.range 8).map (8 * die + ·)).filter fun p => (s.part part).ports.contains p

/-- The L2 slice that holds a die's copy of a line, named by its port: on the home's die the home's own, elsewhere the one
at place A[9:7] mod p among the partition's HBM ports of that die (R244). A board port has no slice, so a line of one
is placed in this second way on its own die too (log 73). -/
def sliceOf (s : State) (die line : Nat) : Option Nat :=
  let home := s.homePort line
  if portDie home = die && home < 32 then some home
  else
    let ps := s.hbmPorts (gaPart (128 * line)) die
    ps[line % 8 % ps.length]?

/-- Lines of an L2 slice of 12 MiB (R2, R29). -/
def sliceLines : Nat := 12 * 2 ^ 20 / 128

def dropCopy (s : State) (die line : Nat) : State := { s with copies := s.copies.erase (copyKey die line) }

/-- Makes room in a slice for one more line: where it is full, its least recently used copy leaves the L2 (R222, R245;
log 73). -/
def sliceRoom (s : State) (die : Nat) (slice : Option Nat) : State :=
  match slice with
  | none => s
  | some p =>
    let here := s.copies.filter fun (k, _) => k / 2 ^ 64 == die && s.sliceOf die (k % 2 ^ 64) == some p
    if here.length < sliceLines then s
    else match here.foldl (fun (b : Option (Nat × DieCopy)) x => match b with
        | some y => if x.2.used < y.2.used then some x else b
        | none => some x) none with
      | some (k, _) => { s with copies := s.copies.erase k }
      | none => s

/-- Puts a die's copy of a line into its slice. -/
def putCopy (s : State) (die line : Nat) (c : DieCopy) : State :=
  let s := if s.copies.has (copyKey die line) || die ≥ 4 then s else s.sliceRoom die (s.sliceOf die line)
  { s with copies := s.copies.put (copyKey die line) c }

def setCopy (s : State) (die line : Nat) (st : Moesi) (data : LineData) : State :=
  s.putCopy die line { st := st, data := data, used := s.cycle }

/-- A die copy that serves a core is the most recently used of its slice. -/
def touchCopy (s : State) (die line : Nat) : State :=
  { s with copies := s.copies.updIf (copyKey die line) fun c => { c with used := s.cycle } }

/-- The dies that hold a copy of a line. -/
def holders (s : State) (line : Nat) : List Nat := (List.range 4).filter fun d => (s.copies.find? (copyKey d line)).isSome

/-- The die that owns a line: in M or O (R244). -/
def ownerDie (s : State) (line : Nat) : Option Nat :=
  (List.range 4).find? fun d => match s.copies.find? (copyKey d line) with
    | some c => c.st == .m || c.st == .o
    | none => false

/-- Whether a request for a line is in progress at its home (R248). -/
def lineBusy (s : State) (line : Nat) : Bool :=
  s.msgs.any fun (_, m) => match m.body with
    | .landing _ _ k => k == line / 4
    | .merge _ l _ _ => l == line | .strong _ l _ _ _ _ _ => l == line
    | .copyRead _ _ l _ => l == line | .fwdRead _ _ _ l _ => l == line
    | .invalidate _ l => l == line | .backInv _ l => l == line
    | _ => false

/-- The entries of the directory set of a line at a port. -/
def dirSet (s : State) (port line : Nat) : Tbl DirEntry :=
  s.dir.filter fun (k, _) => k / 2 ^ 64 == port && k % 2 ^ 64 % 4096 == line % 4096

/-- The entry of a line's set that can be given up: the least recently used one without a request in progress (R248). -/
def dirVictim (s : State) (port line : Nat) : Option Nat :=
  (((s.dirSet port line).filter fun (k, _) => !s.lineBusy (k % 2 ^ 64)).foldl
    (fun (b : Option (Nat × DirEntry)) x => match b with
      | some y => if x.2.used < y.2.used then some x else b
      | none => some x) none).map (·.1)

/-- Why a line must wait for a directory entry at a port: its set of 16 is full, and the entry to be given up still has die
copies, whose holders are asked to drop them, or none can be given up (R248). -/
def entryWaitAt (s : State) (port line : Nat) : Option State :=
  let here := s.dirSet port line
  let backInv := fun (l : Nat) => s.msgs.any fun (_, m) => match m.body with | .backInv _ k => k == l | _ => false
  if s.dir.has (port * 2 ^ 64 + line) || here.length < 16 then none
  else if here.any fun (k, _) => backInv (k % 2 ^ 64) then some s
  else match s.dirVictim port line with
    | none => some s
    | some k =>
      let l := k % 2 ^ 64
      match s.holders l with
      | [] => none
      | ds => some (ds.foldl (fun s d => s.send .control none (gaPart (128 * l)) (.backInv d l)) s)

/-- The same for a request, which comes to the line's home. -/
def entryWait (s : State) (line : Nat) : Option State := s.entryWaitAt (s.homePort line) line

/-- Takes a directory entry for a line, whose request has waited for one to be free or given up (`entryWait`). Where there is
neither, as for an access that a surrender of its page performs, the line goes without (R248, R249, R415; log 73). -/
def needEntry (s : State) (line : Nat) : State :=
  let key := s.dirKey line
  if s.dir.has key then { s with dir := s.dir.updIf key fun e => { e with used := s.cycle } }
  else if (s.dirSet (s.homePort line) line).length < 16 then { s with dir := s.dir.put key { used := s.cycle } }
  else match s.dirVictim (s.homePort line) line with
    | none => s
    | some k => if s.holders (k % 2 ^ 64) != [] then s else { s with dir := (s.dir.erase k).put key { used := s.cycle } }

/-- The directory entry of a line stands anew at the home port that its page has now (R249). -/
def moveEntry (s : State) (line : Nat) (e : DirEntry) : State :=
  let s := s.needEntry line
  { s with dir := s.dir.updIf (s.dirKey line) fun _ => e }

/-- The mode of a line: the consumer in update mode (R247). -/
def consumer (s : State) (line : Nat) : Option Nat := (s.dir.get {} (s.dirKey line)).consumer

/-- The directory learns of a merge from a die (R247). -/
def dirMerge (s : State) (die line : Nat) : State :=
  { s with dir := s.dir.updIf (s.dirKey line) fun e =>
      if e.readSince then { e with lastMerge := some die, readSince := false }
      else { e with counter := 0, consumer := none, lastMerge := some die } }

/-- The directory learns of a read by a die (R247): with a merge of another die before it the two make an episode. -/
def dirRead (s : State) (q line : Nat) : State :=
  let others := (s.holders line).filter (· != q)
  { s with dir := s.dir.updIf (s.dirKey line) fun e =>
      let e := { e with readSince := true }
      let e1 := match e.lastMerge with
        | some p =>
          if p = q then e
          else if e.lastPair = some (p, q) then
            let n := min (e.counter + 1) 3
            { e with counter := n, consumer := if n = 3 then some q else e.consumer, lastMerge := none }
          else { e with counter := 1, consumer := none, lastPair := some (p, q), lastMerge := none }
        | none => e
      if others.length ≥ 2 then { e1 with counter := 0, consumer := none } else e1 }

/-- The other die copies that a merge from die p must see invalidated first (R245, step 1). -/
def mustInvalidate (s : State) (p line : Nat) : List Nat :=
  (s.holders line).filter fun d => d != p && s.consumer line != some d

/-- Whether a line has a home: its page is mapped, or it lies in firmware's own memory. -/
def mapped (s : State) (line : Nat) : Bool :=
  gaPart (128 * line) == fwPart || (s.pageAt (128 * line)).isSome

/-- Steps 2 and 3 of R245 but for the settlement: the bytes stand at the home, p's copy receives the line, and in
update mode the consumer's copy is pushed. Writes to a page that is not mapped are discarded (R212, R215). -/
def mergeAt (s : State) (p line : Nat) (m : BitVec 128) (data : LineData) : State :=
  if !s.mapped line then s else
  let s := (s.repair (128 * line)).needEntry line
  let new := overlay (s.homeLine line) m data
  let s := s.putHome (128 * line) (bytesOf 128 new)
  let q := match s.consumer line with | some q => if q = p then none else some q | none => none
  let s := s.dirMerge p line
  let s := match q with
    | some q => (s.setCopy p line .o new).setCopy q line .s new
    | none => s.setCopy p line .m new
  let s := s.heatPage (128 * line)
  let k := line / 4
  { s with
    jobs := s.jobs.updIf (gaPart (128 * line)) fun j =>
      { j with dirtied := if j.dirtied.contains k then j.dirtied else j.dirtied ++ [k] }
    poisoned := match s.poisoned.find? k with
      | some w =>
        let w := w ||| (m.setWidth 512 <<< (128 * (line % 4)))
        if w = BitVec.allOnes 512 then s.poisoned.erase k else s.poisoned.put k w
      | none => s.poisoned }

/-- The settlement of block k after a write by a core reached its home (R210): the mark of that core, if it holds
it, is settled in full when the core holds no dirty word of the block any more. -/
def settleFor (s : State) (core : Option Nat) (k : Nat) : State :=
  let e := s.blockEntry k
  match core with
  | some c =>
    let mark := entPledged e && entOwner e == c
    s.settle k mark (mark && !s.holdsDirty c k)
  | none => s.settle k false false

/-! Shared links (R299). No memory port belongs to two partitions (R31), so no codec or port scheduler is shared. -/

/-- The gait-calendar slot that is live (R299). -/
def slotNow (s : State) : Nat := s.clk.toNat / 16 % 240

/-- Of a calendar entry: the partition that owns the slot, if it is owned (R299). -/
def slotEntry (e : Byte) : Option Nat := if e.getLsbD 7 then some (bitsOf e 4 0) else none

/-- A shared link by its number: 4a + b names the inter-die link of dies a < b, and 16 + k the k-th Pallum egress, a
numbering that no rule gives (R2, R29, R299; DESIGN CHOICE, log 29). -/
def validLink (n : Nat) : Bool := [1, 2, 3, 6, 7, 11].contains n || (decide (16 ≤ n) && decide (n < 34))
def linkAt (s : State) (n : Nat) : Link := if n < 16 then s.links.get {} n else s.pallum.get {} (n - 16)
def updLink (s : State) (n : Nat) (f : Link → Link) : State :=
  if !validLink n then s
  else if n < 16 then { s with links := s.links.upd {} n f } else { s with pallum := s.pallum.upd {} (n - 16) f }

/-- The die of the k-th Pallum egress: dies 0 and 2 have five of the 18, dies 1 and 3 four (R29; log 29). -/
def pallumDie (k : Nat) : Nat := if k < 5 then 0 else if k < 9 then 1 else if k < 14 then 2 else 3

/-- The owner of a link's slot (R299). -/
def slotOwner (s : State) (link slot : Nat) : Option Nat := slotEntry ((s.linkAt link).cal.get 0 slot)

/-- Whether a partition owns a slot of a link (R300). -/
def ownsSlot (s : State) (link part : Nat) : Bool := (List.range 240).any fun k => s.slotOwner link k == some part

/-- Whether a partition's traffic moves over a link in this cycle (R299). -/
def mayCross (s : State) (link part : Nat) : Bool := s.slotOwner link s.slotNow == some part

/-- Whether a partition's traffic moves over a trained Pallum egress of a die in this cycle (R299, R420). -/
def mayLeave (s : State) (die part : Nat) : Bool :=
  (List.range 18).any fun k => pallumDie k == die && (s.linkAt (16 + k)).trained && s.mayCross (16 + k) part

/-- The inter-die link between two dies; a remote package is none of them. -/
def linkOf (a b : Nat) : Option Nat := if a = b ∨ 4 ≤ a ∨ 4 ≤ b then none else some (min a b * 4 + max a b)

/-- The links that the walk of an address crosses from a die to the page tables (R278, R299). -/
def walkLinks (s : State) (die part va : Nat) : List Nat :=
  let root := (s.part part).ptRoot
  (s.tablePorts va 4 0 (ptePort root * 2 ^ 38 + pteOff root / 16384 * 16384)).filterMap fun p => linkOf die (portDie p)

/-- The link between a die and the home of a line; there is none to a page that is not mapped or to firmware's own memory. -/
def linkTo (s : State) (die line : Nat) : Option Nat :=
  (s.pageAt (128 * line)).bind fun x => linkOf die (portDie x.2.home)

/-- The links that transfers of some lines from or to a die cross (R299). -/
def legs (s : State) (die : Nat) (lines : List Nat) : List Nat := (lines.filterMap (s.linkTo die)).eraseDups

/-- The first of some links on which a partition's traffic does not move in this cycle (R299). -/
def shut (s : State) (part : Nat) (links : List Nat) : Option Nat := links.find? fun l => !s.mayCross l part

/-- The link on which something between a die and the home of a line of a partition cannot move in this cycle (R299). -/
def gate (s : State) (die line : Nat) : Option Nat :=
  (s.linkTo die line).filter fun l => !s.mayCross l (gaPart (128 * line))

/-- Traffic of a partition that is no message waits for a slot of a link: since when, and when it was last seen to (R300). -/
def noteWait (s : State) (link part : Nat) : State :=
  { s with linkWaits := s.linkWaits.upd (s.clk.toNat, 0) (32 * link + part) fun w => (w.1, s.clk.toNat) }

/-- The dies that must drop their copies of a line are asked to, those that have not been (R245 step 1). -/
def askDrop (s : State) (ds : List Nat) (line : Nat) : State :=
  ds.foldl (fun s d =>
    if s.msgs.any fun (_, m) => m.body == .invalidate d line then s
    else s.send .request none (gaPart (128 * line)) (.invalidate d line)) s

/-- Why a write from die p that waits behind no other message cannot merge into a line yet, with what the home asks for
meanwhile: an unexpired lease, a migration of the page, a directory entry that must be given up first, or other die
copies (R203, R245 step 1, R248, R252). -/
def lineWait (s : State) (p line : Nat) : Option State :=
  if s.leases.has line || s.migrating (128 * line) then some s
  else match s.entryWait line with
  | some s => some s
  | none => match s.mustInvalidate p line with
    | [] => none
    | ds => some (s.askDrop ds line)

/-- Why a write of some bytes that hardware or a queue engine makes for die p cannot be made at its home yet: no slot
of a link on its way, a write that arrived before, or what any write waits for (R245, R299). Bytes of a page that is
not mapped wait for nothing. -/
def homeWait (s : State) (p ga n : Nat) : Option State :=
  (List.range ((ga + n - 1) / 128 + 1 - ga / 128)).findSome? fun i =>
    let line := ga / 128 + i
    if !s.mapped line then none
    else match s.gate p line with
    | some l => some (s.noteWait l (gaPart ga))
    | none => if s.laterThan 0 line then some s else s.lineWait p line

/-- A strong store that hardware makes on behalf of a core (R391, R405): the words leave that core's L1 (R231). It is made at
the home at once where nothing makes a write wait there and nothing of the core is on its way to the line, and it is sent
there otherwise. -/
def hwStoreLine (s : State) (core line off : Nat) (bs : List Byte) : State :=
  let w := wordMask off bs.length
  let s := (s.writeBackWords core line w).dropWords core line w
  let p := coreDie core
  let u := s.unit core
  let m : BitVec 128 := (BitVec.allOnes 128 >>> (128 - bs.length)) <<< off
  let data : LineData := (ofBytes 1024 bs) <<< (8 * off)
  if s.msgs.any (fun (_, x) => x.chan == some (u, line)) || (s.homeWait p (128 * line) 1).isSome then
    let (id, s) := s.post .request (some (u, line)) (gaPart (128 * line)) (.merge u line m data)
    { s with msgs := s.msgs.updIf id fun x => { x with hw := true } }
  else (s.mergeAt p line m data).settleFor none (line / 4)

/-- The parts of a run of bytes that lie in one line each. -/
def splitLines (ga : Nat) (bs : List Byte) : List (Nat × Nat × List Byte) :=
  (List.range ((ga % 128 + bs.length + 127) / 128)).map fun i =>
    let line := ga / 128 + i
    let lo := if i = 0 then ga % 128 else 0
    let start := 128 * line + lo - ga
    (line, lo, (bs.drop start).take (128 - lo))

/-- A strong store of bytes by hardware. -/
def hwStore (s : State) (core ga : Nat) (bs : List Byte) : State :=
  (splitLines ga bs).foldl (fun s (line, off, b) => s.hwStoreLine core line off b) s

/-- A line at its home under the stores of hardware that are on their way to it or wait there (R252). -/
def hwLine (s : State) (line : Nat) : LineData :=
  s.msgs.foldl (fun acc (_, m) => match m.body with
    | .merge _ l mask data => if m.hw ∧ l = line then overlay acc mask data else acc
    | _ => acc) (s.homeLine line)

/-- Whether a store of hardware to a line that some bytes reach is on its way or waits at the home. -/
def hwOut (s : State) (ga n : Nat) : Bool :=
  s.msgs.any fun (_, m) => m.hw && match m.body with
    | .merge _ l _ _ => decide (ga / 128 ≤ l) && decide (l ≤ (ga + n - 1) / 128)
    | _ => false

/-- A strong load by hardware, at the home, behind the stores that hardware has made. -/
def hwLoad (s : State) (ga n : Nat) : List Byte :=
  let s := s.repairRun ga n
  if s.hwOut ga n then (List.range n).map fun i => (lineBytes (s.hwLine ((ga + i) / 128)) ((ga + i) % 128) 1).headD 0
  else s.homeBytes ga n

/-- The home serves a read of each line of a run of bytes, by hardware or an engine (R200, R354, R415). -/
def hwHeat (s : State) (ga n : Nat) : State :=
  (List.range ((ga + n - 1) / 128 + 1 - ga / 128)).foldl (fun s i => s.readHome (128 * (ga / 128 + i))) s

/-- The links that hold up, in this cycle, reads of some bytes from a die, each noted as waiting (R299, R300). -/
def readShut (s : State) (die ga n : Nat) : Option State :=
  (List.range ((ga + n - 1) / 128 + 1 - ga / 128)).findSome? fun i =>
    (s.gate die (ga / 128 + i)).map fun l => s.noteWait l (gaPart ga)

/-! Rotating priorities (R435). -/

/-- Places of the rotation of a home or a reserve unit: 48 requester ports, the engines of 192 cores, 4 queue engines. -/
def rotPlaces : Nat := 48 + 192 + 4

/-- Where the pointer of a unit stands. -/
def pointer (s : State) (u : Nat) : Nat := ((s.rot.find? u).getD (Config.rotation u)) % rotPlaces

/-- The places of a core's cluster port and of a core's engines in a rotation (log 5). -/
def placeOfCore (core : Nat) : Nat := coreRq core
def placeOfEngine (core : Nat) : Nat := 48 + core

/-- A region's reserve unit, and a walker of a launch, as units of a rotation; a home is named by its port. -/
def reserveUnit (r : Nat) : Nat := 64 + r
def walkerUnit (launch slot : Nat) : Nat := 2 ^ 64 + 4096 * launch + slot

/-- How far a requester is from a unit's pointer in the rotation. -/
def rotDistance (s : State) (u r : Nat) : Nat := (r + rotPlaces - s.pointer u) % rotPlaces

/-- The pointer of a unit moves to the place just after a winner. -/
def rotPast (s : State) (u winner : Nat) : State := { s with rot := s.rot.put u ((winner + 1) % rotPlaces) }

end State

end Sys2Proof.Machine
end

