-- ==== Sys2Proof/Machine/Ops.lean ====
section
/-!
DEFINITION. The named operations of the machine: records (23 R424, R426), translation through the TLBs (12 R283),
spaces and the segment check (08 R171-R186), taking an exception and what ends with it (19 R397-R403, 03 R72), the
return from one (17 R377, R404, R413), and the end of a workgroup (17 R386, 14 R333).
-/

namespace Sys2Proof.Machine

namespace State

/-! Records. -/

/-- Writes a saddlebag entry; the oldest of 4,096 is overwritten first (R426). The event codes are free values
(log 17). -/
def saddle (s : State) (die code region lid : Nat) (gangid : DWord) (wgid team lane cause sub : Nat) : State :=
  let e := bytesOf 8 s.clk ++ bytesOf 2 (Config.eventCode code) ++ bytesOf 2 (BitVec.ofNat 16 region)
    ++ bytesOf 4 (BitVec.ofNat 32 lid) ++ bytesOf 8 gangid
    ++ bytesOf 2 (BitVec.ofNat 16 (wgid + team * 4 + lane * 128))
    ++ [BitVec.ofNat 8 cause, BitVec.ofNat 8 sub] ++ bytesOf 4 (0 : BitVec 32)
  s.updDie die fun d =>
    { d with saddle := (if d.saddle.length ≥ 4096 then d.saddle.drop 1 else d.saddle) ++ [e] }

/-! Notices (R68). -/

/-- A team after a NOTICE bit was set. -/
def noticed (x : Team) (bit : Nat) : Team :=
  if x.notice.getLsbD bit then x
  else { x with notice := x.notice ||| (1#32 <<< bit), noticeRose := x.noticeRose + 1, noticeSet := x.noticeSet ||| (1#4 <<< bit) }

/-- A team after a NOTICE bit was cleared; one whose setting event falls in the same cycle stays set. -/
def unnoticed (x : Team) (bit : Nat) : Team :=
  if x.noticeSet.getLsbD bit then x else { x with notice := x.notice &&& ~~~(1#32 <<< bit) }

/-- Sets a NOTICE bit of a team. -/
def setNotice (s : State) (t bit : Nat) : State := s.updTeam t fun x => noticed x bit
/-- Clears a NOTICE bit of a team. -/
def clearNotice (s : State) (t bit : Nat) : State := s.updTeam t fun x => unnoticed x bit

/-- The resident teams of a region. -/
def regionTeams (s : State) (r : Nat) : List Nat :=
  (s.teams.filter fun (_, t) => t.resident && s.regionOf t.wg == r).map (·.1)

/-! Translation through the TLBs (R283). -/

/-- The cached leaf of a page, in the core's L1 TLB or its cluster's L2 TLB. -/
def tlbFind (s : State) (core part va : Nat) : Option TlbEnt :=
  let hit := fun (e : TlbEnt) => e.part == part && va / 2 ^ e.shift == e.lead
  match List.find? hit (s.core core).tlb with
  | some e => some e
  | none => List.find? hit (s.cluster (coreRq core)).tlb

/-- Puts an entry at the front of both TLBs, the least recently used leaving (R277, R283). -/
def tlbFill (s : State) (core : Nat) (e : TlbEnt) : State :=
  let s := s.updCore core fun c => { c with tlb := (e :: c.tlb.filter (· != e)).take 256 }
  s.updCluster (coreRq core) fun c => { c with tlb := (e :: c.tlb.filter (· != e)).take 4096 }

/-- An access that hits makes its entry the most recently used of the TLB that it is found in, and a hit in the L2 TLB
fills the L1 TLB (R277, R283). -/
def tlbTouch (s : State) (core part va : Nat) : State :=
  let hit := fun (e : TlbEnt) => e.part == part && va / 2 ^ e.shift == e.lead
  let front := fun (n : Nat) (e : TlbEnt) (l : List TlbEnt) => (e :: l.filter (· != e)).take n
  match List.find? hit (s.core core).tlb with
  | some e => s.updCore core fun c => { c with tlb := front 256 e c.tlb }
  | none => match List.find? hit (s.cluster (coreRq core)).tlb with
    | some e => s.tlbFill core e
    | none => s

/-- Removes entries of a partition from every TLB: those of one page, or all (R381, R215). -/
def tlbDrop (s : State) (part : Nat) (va : Option Nat) : State :=
  let keep := fun (e : TlbEnt) => e.part != part || match va with
    | some a => a / 2 ^ e.shift != e.lead
    | none => false
  { s with cores := s.cores.map (fun (k, c) => (k, { c with tlb := c.tlb.filter keep })),
           clusters := s.clusters.map (fun (k, c) => (k, { c with tlb := c.tlb.filter keep })) }

/-- The first byte of each poisoned block that a run of bytes reaches (R425). -/
def poisonIn (s : State) (part va n : Nat) : List Nat :=
  (s.poisoned.keys.filter fun k => decide (gaOf part va / 512 ≤ k) && decide (k ≤ (gaOf part va + n - 1) / 512)).map fun k =>
    max va (gaVa (512 * k))

/-- What translation says of an access: a sub-cause of the translation fault, a miss, or that it may go on. -/
inductive Trans where
  | ok | miss | fault (sub : Nat)
deriving DecidableEq, Repr

/-- Translation of one access by a core (R281, R283, R425); firmware's own memory is not translated. -/
def translate (s : State) (core part va : Nat) (write : Bool) : Trans :=
  if part = fwPart then .ok
  else match s.tlbFind core part va with
  | none => .miss
  | some e =>
    match leafFault s part (some (coreRq core)) e.leaf e.shift va write false with
    | some sub => .fault sub
    | none => if !write && (s.poisoned.find? (gaOf part va / 512)).isSome then .fault 4 else .ok

/-- The check of a page by a walk: the sub-cause with which it fails, or the entry to cache (R281, R425). -/
def walkPage (s : State) (core part va : Nat) (write : Bool) : Sum Nat TlbEnt :=
  match s.walk part va with
  | .fault sub _ => .inl sub
  | .leaf pte shift _ =>
    match leafFault s part (some (coreRq core)) pte shift va write false with
    | some sub => .inl sub
    | none =>
      if !write && (s.poisoned.find? (gaOf part va / 512)).isSome then .inl 4
      else .inr { part := part, shift := shift, lead := va / 2 ^ shift, leaf := pte }

/-- The translation fault and the token fault: detail word 0 is the owner region of the page (R399). -/
def ownerDetail (s : State) (part va : Nat) : DWord :=
  BitVec.ofNat 64 (((s.ownerOf (gaOf part va / 512)).getD 0) % 65536)

end State

/-! Scratchpad cells (R174, R176, R181). -/

/-- The cell that an address of a core's array reaches: the array's own address of the same byte, with the bank
offset and the line offset exchanged in column orientation (R174, R176). -/
def spadCell (a : Nat) (col : Bool) : Nat :=
  if col then
    let w := a / 4
    let bank := w % 128
    let line := w / 128
    let bank' := bank / 32 * 32 + line % 32
    let line' := line / 32 * 32 + bank % 32
    4 * (128 * line' + bank') + a % 4
  else a

/-- The bank of an address (R174). -/
def spadBank (a : Nat) : Nat := a / 4 % 128

/-- A bank offset moved by a rotation within its quad (R181). -/
def spadRotate (a k r : Nat) : Nat :=
  let w := a / 4
  let bank := w % 128
  let b := (bank % 32 + k * (r % 32)) % 32
  4 * (w / 128 * 128 + bank / 32 * 32 + b) + a % 4

namespace State

/-- The first byte of the allocation of a gang's workgroup with WGID 0 in the cluster scratchpad, in which core i of the
cluster has the i-th 512 KiB (R62, R174; log 24). -/
def clusBase (s : State) (gang : Nat) : Nat :=
  match (s.gangs.get { launch := 0 } gang).wgs with
  | w :: _ => (s.wg w).core % 4 * 2 ^ 19 + (s.wg w).spadBase
  | [] => 0

/-- Where a byte offset of `sg.spad` or `sg.clus` falls: the core and the address in its array, and whether it lies
in a guard granule (R24, R62, R174, R182). `segBase` is the segment register's own base; the allocations of a gang lie in
WGID order from that of WGID 0 on; the place of a workgroup that has ended is no longer the gang's (R173). -/
def spadByte (s : State) (w : Wg) (clus : Bool) (segBase off : Nat) : Option (Nat × Nat × Bool) :=
  if !clus then
    let o := segBase + off
    if o < w.spadBase then none
    else
      let r := o - w.spadBase
      some (w.core, o, decide (r < 64 * w.spadGuard ∨ r + 64 * w.spadGuard ≥ w.spadSize))
  else
    let ws := (s.gangs.get { launch := 0 } w.gang).wgs.map s.wg
    let first := s.clusBase w.gang
    if w.spadSize = 0 || segBase + off < first then none
    else
      let i := (segBase + off - first) / w.spadSize
      let r := (segBase + off - first) % w.spadSize
      (ws[i]?).bind fun x => if x.ended then none else
        some (x.core, x.spadBase + r, decide (r < 64 * x.spadGuard ∨ r + 64 * x.spadGuard ≥ x.spadSize))

/-- Reads and writes a cell of a core's array. -/
def spadGet (s : State) (core cell : Nat) : Byte := (s.core core).spad.get 0 cell
def spadPut (s : State) (core cell : Nat) (b : Byte) : State :=
  s.updCore core fun c => { c with spad := c.spad.store 0 cell b }

/-- A granule of the full/empty bits (R184): four consecutive banks of one line. -/
def granule (cell : Nat) : Nat := cell / 16
def isFull (s : State) (core cell : Nat) : Bool := (s.core core).full.get false (granule cell)
def setFull (s : State) (core cell : Nat) (b : Bool) : State :=
  s.updCore core fun c =>
    { c with full := c.full.store false (granule cell) b,
             risen := if b && !c.full.get false (granule cell) then granule cell :: c.risen else c.risen }

/-- Whether a full/empty load finds a cell's granule full: a bit set in this cycle is seen from the next on (R185). -/
def seenFull (s : State) (core cell : Nat) : Bool := s.isFull core cell && !(s.core core).risen.contains (granule cell)

/-- Records a touch of a guard granule (R182): the first with its particulars, then the count alone. -/
def touch (s : State) (w : Nat) (off addr team : Nat) (pc : Word) (who : DWord) : State :=
  s.updWg w fun x =>
    { x with guardRec := match x.guardRec with
        | none => some { offset := off, bank := spadBank addr, team := team, pc := pc, who := who, count := 1 }
        | some g => some { g with count := min (g.count + 1) 255 } }

/-- Ends a team's hold of its pipe's loop buffer (R138). -/
def endLoop (s : State) (t : Nat) : State :=
  let x := s.team t
  s.updCore x.core fun c =>
    { c with pipes := c.pipes.updIf x.pipe fun p =>
        { p with loop := match p.loop with
            | some b => if b.team = t then none else some b
            | none => none } }

/-- The teams of a gang. -/
def gangTeams (s : State) (g : Nat) : List Nat := (s.gangs.get { launch := 0 } g).wgs.flatMap fun w => (s.wg w).teams

/-- A team stops for a pre-emption; its hold of a loop buffer ends (R138, R407). -/
def stopTeam (s : State) (t : Nat) : State := (s.endLoop t).updTeam t fun x => { x with stopping := true }

/-- Whether a team of a gang that has not ended has MASK set (R408). -/
def gangMasked (s : State) (g : Nat) : Bool := (s.gangTeams g).any fun t =>
  let x := s.team t
  x.resident && x.live != 0 && x.masked

/-- A halt of a gang that has begun stops its teams before they issue again, unless one of them has MASK set, for which it
waits (R408). -/
def stopPending (s : State) (g : Nat) : State :=
  match (s.gangs.get { launch := 0 } g).req with
  | some r =>
    if r.halting && (s.gangs.get { launch := 0 } g).resident && !s.gangMasked g then (s.gangTeams g).foldl stopTeam s else s
  | none => s

/-- A team without live lanes has ended and holds no loop buffer (R138). -/
def endTeam (s : State) (t : Nat) : State := if (s.team t).live = 0 then s.endLoop t else s

/-- Lanes of a team go Off (R28). -/
def teamOff (s : State) (t : Nat) (m : Mask) : State := (s.updTeam t fun x => x.laneOff m).endTeam t

/-! The end of a workgroup's activity (R386, R333, R236). -/

/-- Ends the command pledges that stand on some blocks (R212). -/
def endPledges (s : State) (ks : List Nat) : State :=
  ks.foldl (fun s k =>
    if s.cmdPledgesOn k = 0 then s else
    let s := { s with cmdPledges := s.cmdPledges.store 0 k (s.cmdPledgesOn k - 1) }
    match s.ownerOf k with
    | some r => s.reserve r fun g => { g with rsvp := g.rsvp - (8 - (s.sectors k : Int)) }
    | none => s) s

/-- Every command of a workgroup in its core's queues. -/
def cmdsOf (s : State) (w : Nat) : List Cmd :=
  let c := s.core (s.wg w).core
  (c.copyQ ++ c.matrix.q0 ++ c.matrix.q1).filter fun x => x.wg == w

/-- Takes commands out of a core's queues. -/
def dropCmds (s : State) (core : Nat) (p : Cmd → Bool) : State :=
  s.updCore core fun c =>
    { c with copyQ := c.copyQ.filter fun x => !p x,
             matrix := { c.matrix with q0 := c.matrix.q0.filter fun x => !p x,
                                       q1 := c.matrix.q1.filter fun x => !p x } }

/-- A command counts as complete for the teams that wait on it, which have its global writes to observe (R241, R326,
R331); registers that it held are free (R341). -/
def cmdDone (s : State) (id : Nat) (ext : List (Nat × Nat)) : State :=
  let gone : Batch → Batch := fun b =>
    if b.cmds.contains id then { b with cmds := b.cmds.filter (· != id), extents := b.extents ++ ext } else b
  { s with teams := s.teams.map fun (k, t) =>
      (k, { t with openBatch := gone t.openBatch, sealed := t.sealed.map gone, collCmds := t.collCmds.map gone,
                   locks := t.locks.filter fun (_, i) => i != id }) }

/-- Takes requests out of every sync line's queue (R236, R237). With the request at the head of a queue go the messages by
which the home serves it. -/
def withdrawSync (s : State) (mine : SyncReq → Bool) : State :=
  let heads := (s.syncs.filter fun (_, m) => match m.queue with | r :: _ => mine r | [] => false).map (·.1)
  { s with
    syncs := s.syncs.map fun (k, m) => (k, { m with queue := m.queue.filter (!mine ·) })
    msgs := s.msgs.filter fun (_, m) => match m.body with
      | .takeback _ l | .surrender _ l _ | .surrenderAck _ l _ => !heads.contains l
      | _ => true }

/-- Whether a request is one of some teams. -/
def reqOfTeams (ts : List Nat) (r : SyncReq) : Bool :=
  match r.team with | some t => ts.contains t | none => false

/-- Ends the exclusive holds of a workgroup; the last releaser is the core where it last ran, and a release that another core
has recorded of the line stands no longer (R236). -/
def endExclusive (s : State) (w : Nat) : State :=
  let x := s.wg w
  let mine := (s.syncs.filter fun (_, m) => m.excl == some (x.gang, x.wgid)).map (·.1)
  { s with
    syncs := s.syncs.map fun (k, m) =>
      (k, if mine.contains k then { m with excl := none, last := some (s.unit x.core) } else m)
    cores := if mine = [] then s.cores else s.cores.map fun (k, c) =>
      (k, { c with holds := c.holds.map fun (l, r) => (l, r && !mine.contains l) }) }

/-- Ends a workgroup before its lanes have exited (R386): its teams stop, what has not started is discarded, its
holds end, and its dirty words are on their way home. `reason` as in R405. -/
def stopWorkgroup (s : State) (w reason code cause sub : Nat) : State :=
  let x := s.wg w
  if x.ending.isSome || x.ended then s else
  let ts := x.teams
  let stop : Team → Team := fun t =>
    { t.mapLanes (fun _ => true) (fun _ l => if l.st == .off then l
        else { l with st := .exited, age := 0, wait := none, hold := none }) with
      chain := none, colls := [], handler := none, halted := false, haltDue := none, locks := [] }
  let s := { s with teams := s.teams.map fun (k, t) => (k, if ts.contains k then stop t else t) }
  let discarded := (s.cmdsOf w).filter fun c => c.st == .queued
  let s := discarded.foldl (fun s c => (s.endPledges c.pledged).cmdDone c.id []) s
  let s : State := { s with collGone := s.collGone ++ discarded.filterMap fun c => match c.body with
    | .coll _ _ _ _ _ _ seq _ _ tag _ => some (s.regionOf w / 65536, tag, seq)
    | _ => none }
  let s := s.dropCmds x.core fun c => c.wg == w && c.st == .queued
  let s := x.asm.foldl (fun s a => (s.endPledges a.pledged).cmdDone a.id []) s
  let mine : Msg → Bool := fun m => match m.body with
    | .pledge _ r => ts.contains r.team
    | _ => false
  let s := { s with msgs := s.msgs.filter fun x => !mine x.2,
                    loads := s.loads.filter fun x => !ts.contains x.2.team }
  let s := (s.withdrawSync (reqOfTeams ts)).endExclusive w
  let s := ts.foldl endLoop s
  let s := s.writeBackAll x.core
  s.updWg w fun x => { x with ending := some (reason, code, cause, sub), asm := [] }

/-! Taking an exception. -/

end State

/-- Whether a word opens a latch chain (R94-R96). -/
def opensChain (w : IWord) : Bool :=
  match decodeRaw (Raw.ofWord w) with
  | .ok (o, f) => f.d.lat.isSome && !f.h.chain && o.chain f.q != .no
  | .error _ => false

/-- What a fault reports (R92, R393, R397, R399). -/
structure FaultInfo where
  cause : Nat
  sub : Nat
  mask : Mask
  addr : Nat := 0
  d0 : DWord := 0
  d1 : DWord := 0
  d2 : DWord := 0
  /-- The frame PC, where it is not the faulting instruction's. -/
  pc : Option Word := none
  /-- The chain that a store ended before its pledge was refused: first PC and position (R101, R264). -/
  chain : Option (Word × Nat) := none
deriving DecidableEq, Repr

namespace State

/-- The bytes of a trap frame (R397-R399), but for the skids. -/
def frameBytes (t : Team) (balloon : DWord) (word : IWord) (fi : FaultInfo) (pc : Word) (inch : Bool) (chpos : Nat) :
    List Byte :=
  let cw : DWord := BitVec.ofNat 64
    (t.teamid * 2 ^ 24 + (if fi.cause = 13 then 2 ^ 21 else 0) + (if inch then 2 ^ 20 else 0) + chpos * 2 ^ 18
      + fi.sub * 256 + fi.cause)
  bytesOf 8 cw ++ bytesOf 8 (BitVec.ofNat 64 fi.addr) ++ bytesOf 4 fi.mask ++ bytesOf 4 pc ++ bytesOf 8 balloon
    ++ bytesOf 12 word ++ bytesOf 4 (0 : BitVec 32) ++ bytesOf 8 (t.readS 62)
    ++ bytesOf 8 fi.d0 ++ bytesOf 8 fi.d1 ++ bytesOf 8 fi.d2 ++ bytesOf 176 (0 : BitVec 1408)

/-- The bytes of the lane PCs in a save slot (R396). -/
def pcBytes (t : Team) : List Byte := allLanes.flatMap fun l => bytesOf 4 (t.lane l).pc

/-- Handler entry (R400, R72): the frame and every lane's PC are written into the team's save slot as strong stores,
before the handler issues: it waits for them, and for the siblings whose skids the frame holds, to reach the home (R391,
R397). s62 takes the frame's offset in `sg.glob`, PRIV becomes 1 (a team of firmware stays at level 2, R375, R377) and
MASK 1, and the trapping lanes stand at the handler that the workgroup had at dispatch. The siblings are sent a halt
broadcast (R401). A halt of its gang that is under way waits for the handler: its teams go on, but for those that
stopped at a task boundary (R402, R408). -/
def enterHandler (s : State) (t : Nat) (lanes : Mask) (pc : Word) (word : IWord) (fi : FaultInfo) (inch : Bool)
    (chpos : Nat) (isFault : Bool) : State :=
  let x := s.team t
  let w := s.wg x.wg
  let part := s.teamPart t
  let balloon := (s.region (s.teamRegion t)).balloon
  let trap := lanes &&& x.live
  let back : Team → Team := fun y => match y.chain with
    | some c => y.mapLanes (fun l => c.lanes.getLsbD l && !trap.getLsbD l) fun _ l =>
        if l.st == LaneState.running then { l with pc := c.pc0 } else l
    | none => y
  let x' := (back x).mapLanes (trap.getLsbD ·) fun _ l => { l with pc := pc }
  let ga := gaOf part x.slotVa
  let s := s.hwStore x.core ga (frameBytes x (if bitsOf balloon 63 48 = 0 then 0 else balloon) word fi pc inch chpos)
  let s := s.hwStore x.core (ga + 256) (pcBytes x')
  let s := (s.gangTeams w.gang).foldl (fun s u => s.updTeam u fun y => { y with stopping := y.stopping && y.atTask }) s
  let s := s.updTeam t fun x =>
    let x := back x
    let x := { x with chain := none, handler := some { lanes := trap, at_ := s.cycle, fault := isFault },
                      priv := if x.priv = 2 then 2 else 1, trapmask := x.trapmask ||| 1, halted := false, stopping := false,
                      haltDue := none, skid := 0, ahead := [] }
    let x := x.writeS 62 (BitVec.ofNat 64 x.slotVa - (x.seg 0).base)
    x.mapLanes (trap.getLsbD ·) fun _ l =>
      { l with pc := w.handlerPc, st := .running, age := 0, wait := none, hold := some .frame, retry := false }
  let s := s.endLoop t
  w.teams.foldl (fun s u =>
    if u = t then s
    else
      let (n, s) := s.draw
      s.updTeam u fun y =>
        if y.live = 0 then y else { y with haltDue := some (s.cycle + 1 + n), skid := 0 }) s

/-- A sibling stops (R401): its skid goes into the trapping team's frame and its lanes' PCs into its own slot. A team
inside a latch chain that is stopped at a fault restarts the chain (R101). -/
def stopSibling (s : State) (t : Nat) : State :=
  let x := s.team t
  let part := s.teamPart t
  let back : Team → Chain → Team := fun x c =>
    x.mapLanes (c.lanes.getLsbD ·) fun _ l => if l.st == LaneState.running then { l with pc := c.pc0 } else l
  let s := s.updTeam t fun x =>
    let x := match x.chain with | some c => back x c | none => x
    { x with halted := true, haltDue := none, chain := none }
  let s := s.hwStore x.core (gaOf part (x.slotVa + 256)) (pcBytes (s.team t))
  let s := s.endLoop t
  match (s.teamsOf x.wg).find? fun (_, y) => y.handler.isSome with
  | some (_, y) => s.hwStore y.core (gaOf part (y.slotVa + 80 + x.teamid)) [BitVec.ofNat 8 x.skid]
  | none => s

/-- A double fault (R403): nothing traps; the workgroup ends with reason 2, and a saddlebag entry names the thread. -/
def doubleFault (s : State) (t : Nat) (lanes : Mask) (cause sub : Nat) : State :=
  let x := s.team t
  let w := s.wg x.wg
  let g := s.gangs.get { launch := 0 } w.gang
  let lid := ((s.launches.find? g.launch).map (·.lid)).getD 0
  let s := s.saddle (coreDie x.core) 1 (s.teamRegion t % 65536) lid g.gangid w.wgid x.teamid
    ((lowest lanes).getD 0) cause sub
  s.stopWorkgroup x.wg 2 0 cause sub

/-- Undoes a sibling's handler entry of this cycle (R402): the lower TEAMID traps, and the other team is halted at
its faulting instruction with skid 0. -/
def yieldTrap (s : State) (t : Nat) : State :=
  let x := s.team t
  let ga := gaOf (s.teamPart t) x.slotVa
  let s62 : DWord := ofBytes 64 (s.hwLoad (ga + 48) 8)
  (s.hwHeat ga 384).updTeam t fun x =>
    let m := match x.handler with | some h => h.lanes | none => 0
    let x := x.mapLanes (m.getLsbD ·) fun l y => { y with pc := ofBytes 32 (s.hwLoad (ga + 256 + 4 * l) 4), hold := none }
    { x.writeS 62 s62 with stopping := x.atTask, handler := none, priv := if x.priv = 1 then 0 else x.priv, trapmask := x.trapmask &&& ~~~1#32, halted := true, skid := 0 }

/-- TAKING AN EXCEPTION: what becomes of a fault of a group of a team at `pc` with the word it issued. At level 1, and
in the handler of a team of firmware, whose frame it would overwrite, it is a double fault (R403); during the skid it is
not performed and the team stops (R401); when a sibling with a greater TEAMID faulted in the same cycle, that sibling
gives way, and one with a smaller halts the team (R402); otherwise the team enters its handler, and a fault inside a
chain restarts the chain (R101): the word that opens one is its first (R398; log 39). A capacity fault counts as it is
raised, at level 1 and in such a tie too (R355, R411). -/
def raise (s : State) (t : Nat) (lanes : Mask) (pc : Word) (word : IWord) (fi : FaultInfo) (isFault : Bool) : State :=
  let x := s.team t
  let counted := fun (s : State) =>
    if fi.cause = 7 then s.updRegion (s.teamRegion t) fun r => { r with capFaults := min (r.capFaults + 1) (2 ^ 64 - 1) } else s
  if x.priv = 1 ∨ x.handler.isSome then (counted s).doubleFault t lanes fi.cause fi.sub
  else
    let tie := isFault && (s.teamsOf x.wg).any fun (_, y) => match y.handler with
      | some h => h.fault && h.at_ == s.cycle
      | none => false
    let rival := (s.teamsOf x.wg).find? fun (_, y) => match y.handler with
      | some h => h.fault && h.at_ == s.cycle && isFault && x.teamid < y.teamid
      | none => false
    let s := match rival with
      | some (u, _) => (s.yieldTrap u).updTeam t fun y => { y with haltDue := none }
      | none => s
    if (s.team t).haltDue.isSome then
      ((if tie then counted s else s).updTeam t fun y => y.unhold lanes).stopSibling t
    else
      let (fpc, inch, pos) := match fi.chain, x.chain with
        | some (p, n), _ => (p, true, n)
        | none, some c => if c.lanes &&& lanes = 0 then (pc, false, 0) else (c.pc0, true, c.len)
        | none, none => (pc, isFault && opensChain word, 0)
      counted (s.enterHandler t lanes (fi.pc.getD fpc) word fi inch pos isFault)

/-- THE RETURN FROM AN EXCEPTION (R377, R404, R413): s62 is given back, PRIV and MASK become 0, each lane takes the PC
that the save slot records and the trapping lanes the frame's PC, as they stand at the home, and the siblings resume.
That ages and yield marks of the lanes that were stopped stand as they were is the model's own (R54; DESIGN CHOICE, log
74). A team that stopped at a task boundary stops again (R408). -/
def returnFromHandler (s : State) (t : Nat) : State :=
  let x := s.team t
  let ga := gaOf (s.teamPart t) x.slotVa
  let fpc : Word := ofBytes 32 (s.hwLoad (ga + 20) 4)
  let cause := (s.hwLoad ga 1).headD 0
  let s62 : DWord := ofBytes 64 (s.hwLoad (ga + 48) 8)
  let d0 : DWord := ofBytes 64 (s.hwLoad (ga + 56) 8)
  let d1 := (ofBytes 64 (s.hwLoad (ga + 64) 8)).toNat
  let pcs := (List.range 32).map fun l => (ofBytes 32 (s.hwLoad (ga + 256 + 4 * l) 4) : Word)
  let s := (s.hwHeat ga 384).updTeam t fun x =>
    let m := match x.handler with | some h => h.lanes | none => 0
    let x := x.mapLanes (fun _ => true) fun l y =>
      if m.getLsbD l then
        if y.st == .running || y.st == .waiting then
          { y with pc := fpc, st := .running, age := 0, wait := none, hold := none }
        else y
      else { y with pc := pcs.getD l 0 }
    let x := x.writeS 62 s62
    let x := if cause = 8 then x.writeS (d1 % 64) d0 else x
    { x with handler := none, trapmask := x.trapmask &&& ~~~1#32, priv := if x.priv = 1 then 0 else x.priv, ahead := [],
             stopping := x.atTask, colls := x.colls.filter fun (_, i) => !i.handler }
  (s.team t |>.wg |> s.wg).teams.foldl (fun s u => s.updTeam u fun y => { y with halted := false, haltDue := none }) s

end State

end Sys2Proof.Machine
end

