-- ==== Sys2Proof/Machine/Operands.lean ====
section
/-!
DEFINITION. Every operand form: how a word's sources are read and its destination is written in each lane (03 R57-R60,
04 R82-R86, 05 R103-R105, 08 R172), and which registers a word reads and writes (04 R99, 01 R14).
-/

namespace Sys2Proof.Machine

/-- A word instruction as its group issues it: the state, the word's fields, the group, its team and workgroup, and
the lanes in which it is active (R19, R28). -/
structure Ctx where
  s : State
  o : Op
  f : Form
  is : Issue
  t : Team
  w : Wg
  active : Mask

/-- Active(l) (R28): the group's lanes whose FMASK bit is clear and whose guard passes (R76). -/
def activeMask (t : Team) (lanes : Mask) (h : Hdr) : Mask :=
  let g := t.guard h.gpred.toNat
  lanes &&& ~~~t.fmask &&& (if h.ginv then ~~~g else g)

/-- The context of a word that a group issues. -/
def ctxOf (o : Op) (f : Form) (s : State) (is : Issue) : Ctx :=
  let t := s.team is.team
  { s := s, o := o, f := f, is := is, t := t, w := (s.wg t.wg).seenBy is.team, active := activeMask t is.lanes f.h }

namespace Ctx

/-- The lowest active lane, or 0. -/
def low (c : Ctx) : Nat := (lowest c.active).getD 0
/-- The active lanes in ascending order. -/
def lanes (c : Ctx) : List Nat := lanesOf c.active
def part (c : Ctx) : Nat := c.s.teamPart c.is.team
def region (c : Ctx) : Nat := c.s.teamRegion c.is.team

/-- The open chain of the team, where the group is the one that opened it (R94, R100). -/
def ownChain (c : Ctx) : Option Chain :=
  match c.t.chain with
  | some ch => if ch.lanes &&& c.is.lanes = 0 then none else some ch
  | none => none

/-- A source as 64 bits in a lane: a vector pair when `wide`, a vector register zero-extended otherwise; a scalar or a
latch whole; a short integer sign-extended; a short float as its FP32 pattern (R14, R84-R86, R98). -/
def src (c : Ctx) (x : Src) (wide : Bool) (l : Nat) : DWord :=
  match x with
  | .unused => 0
  | .v n => if wide then c.t.readV64 n.toNat l else (c.t.readV n.toNat l).setWidth 64
  | .s n => c.t.readS n.toNat
  | .pair a _ => c.t.readS a.toNat
  | .latch b => match c.t.chain with
    | some ch => ch.vals.get 0 (32 * b.toNat + l)
    | none => 0
  | .int i => i.signExtend 64
  | .flt i => (i ++ 0#21).setWidth 64
  | .guard n => if (c.t.guard n.toNat).getLsbD l then 1 else 0
  | .fmt n => (c.w.fmt n.toNat).setWidth 64
  | .sys n => n.setWidth 64
  | .ty _ => 0

/-- The low `n` bits of a source under a type of `n` bits (R103). -/
def bits (c : Ctx) (x : Src) (n l : Nat) : Nat := (c.src x (n == 64) l).toNat % 2 ^ n

/-- An integer source read under a type: two's complement under `.s`, unsigned otherwise (R103). -/
def int (c : Ctx) (x : Src) (t : Ty) (l : Nat) : Int :=
  if t.isS then toS t.width (c.bits x t.width l) else (c.bits x t.width l : Int)

/-- A source read as an unsigned 32-bit value, whatever the type (R103, R112-R114, R135). -/
def u32 (c : Ctx) (x : Src) (l : Nat) : Nat := c.bits x 32 l

/-- A scalar or immediate operand as 64 bits, of the lowest active lane (R366). -/
def sc (c : Ctx) (x : Src) : DWord := c.src x false c.low
/-- Both registers of a scalar pair. -/
def pair (c : Ctx) (x : Src) : DWord × DWord :=
  match x with
  | .pair a b => (c.t.readS a.toNat, c.t.readS b.toNat)
  | y => (c.sc y, 0)

/-- One term of a memory operand's offset (R172): scalars and latches as 64-bit unsigned, vectors as 32-bit unsigned,
immediates signed. -/
def term (c : Ctx) (x : Src) (l : Nat) : Int :=
  match x with
  | .int i => i.toInt
  | y => ((c.src y false l).toNat : Int)

/-- The offset of a memory operand in a lane: the exact sum of its terms (R15, R172, R254). -/
def offset (c : Ctx) (l : Nat) : Int := c.term c.f.a l + c.term c.f.b l

/-- The offset of an `atom.cas`, from OPA alone (R262). -/
def offsetA (c : Ctx) (l : Nat) : Int := c.term c.f.a l

end Ctx

/-- How a delivered value of `n` bits stands in a register (R18, R58, R59, R104, R258): sign-extended to a scalar
under a signed type, and to a vector register where a load says so. -/
def toScalar (n : Nat) (signed : Bool) (x : Nat) : DWord :=
  if signed then BitVec.ofInt 64 (toS n x) else BitVec.ofNat 64 (x % 2 ^ n)
def toVector (n : Nat) (signed : Bool) (x : Nat) : Word :=
  if signed then BitVec.ofInt 32 (toS n x) else BitVec.ofNat 32 (x % 2 ^ n)

/-- Writes a destination register in one lane. -/
def Team.writeDst (t : Team) (r : Dst) (n : Nat) (signed vsign : Bool) (l : Nat) (x : Nat) : Team :=
  match r with
  | .v k => if n = 64 then t.writeV64 k.toNat l (BitVec.ofNat 64 x) else t.writeV k.toNat l (toVector n vsign x)
  | .s k => t.writeS k.toNat (toScalar n signed x)
  | .g k => t.writeG k.toNat (1#32 <<< l) (if x % 2 = 1 then BitVec.allOnes 32 else 0)
  | .f _ => t

/-- Writes a latch in one lane, zero-extended to 64 bits (R59). -/
def Team.writeLatch (t : Team) (b : BitVec 2) (n : Nat) (vsign : Bool) (l : Nat) (x : Nat) : Team :=
  let y : DWord := if n = 64 then BitVec.ofNat 64 x else (toVector n vsign x).setWidth 64
  { t with chain := t.chain.map fun ch => { ch with vals := Tbl.store 0 ch.vals (32 * b.toNat + l) y } }

namespace Ctx

/-- The lane whose sources make a lane's result: under a scalar destination there is one result, of the lowest active lane
(R57, R103); a latch that such a word reads is taken from that lane too, which no rule says (DESIGN CHOICE, log 74). -/
def ofLane (c : Ctx) (l : Nat) : Nat := match c.f.d.dst with | some (.s _) => c.low | _ => l

/-- The register writes of a destination: a vector or guard in each active lane; a scalar once, from the lowest active
lane (R57, R105). -/
def wrote (c : Ctx) (n : Nat) (signed vsign : Bool) (x : Nat → Nat) (t : Team) : Team :=
  match c.f.d.dst with
  | some (.v k) => c.lanes.foldl (fun t l => t.writeDst (.v k) n signed vsign l (x l)) t
  | some (.g k) => c.lanes.foldl (fun t l => t.writeDst (.g k) n signed vsign l (x l)) t
  | some (.s k) => t.writeDst (.s k) n signed vsign c.low (x c.low)
  | _ => t

/-- The latch writes of a destination, in each active lane (R59, R83). -/
def latched (c : Ctx) (n : Nat) (vsign : Bool) (x : Nat → Nat) (t : Team) : Team :=
  match c.f.d.lat with
  | some b => c.lanes.foldl (fun t l => t.writeLatch b n vsign l (x (c.ofLane l))) t
  | none => t

/-- The write of a format register, once, from the lowest active lane (R117); other teams see it from the next cycle on
(R153). -/
def wroteFmt (c : Ctx) (x : Nat → Nat) (s : State) : State :=
  match c.f.d.dst with
  | some (.f k) => s.updWg c.t.wg fun w => w.queueFmt c.is.team k.toNat (BitVec.ofNat 32 (x c.low))
  | _ => s

/-- Writes the values of the active lanes to the destination. -/
def write (c : Ctx) (s : State) (n : Nat) (signed vsign : Bool) (x : Nat → Nat) : State :=
  if c.active = 0 then s
  else c.wroteFmt x (s.updTeam c.is.team fun t => c.latched n vsign x (c.wrote n signed vsign x t))

/-- Writes a guard destination in the active lanes. -/
def writeGuard (c : Ctx) (s : State) (p : Nat → Bool) : State := c.write s 1 false false fun l => if p l then 1 else 0

/-- Writes a scalar destination once, when at least one lane is active (R57). -/
def writeScalar (c : Ctx) (s : State) (x : DWord) : State := c.write s 64 false false fun _ => x.toNat

/-- The group's lanes advance to PC + 1. -/
def advance (c : Ctx) (s : State) : State := s.updTeam c.is.team fun t => t.advance c.is.lanes

/-- A held instruction of the group has completed. -/
def complete (c : Ctx) (s : State) : State := s.updTeam c.is.team fun t => t.complete c.is.lanes

/-- A fault of this word in the named lanes. -/
def fault (c : Ctx) (cause sub : Nat) : FaultInfo := { cause := cause, sub := sub, mask := c.active }

end Ctx

end Sys2Proof.Machine

namespace Sys2Proof

/-! Which registers a word names (R14, R99). -/

/-- The width in bits at which a vector source is read (R103, R112-R114, R119, R135, R155, R172). -/
def Op.srcWidth (o : Op) (f : Form) (i : Nat) : Nat :=
  match o, i with
  | .shl, 1 | .shr, 1 | .sar, 1 | .rot, 1 | .bfx, 1 | .bfx, 2 | .bfi, 2 | .lea, 1 | .shfl, 1 => 32
  | .atom, 1 | .red, 1 => if f.atomOp = 7 then f.ty.width else 32
  | .ld, 0 | .ld, 1 | .st, 0 | .st, 1 | .atom, 0 | .red, 0 => 32
  | .cvt, 0 => match f.c with | .ty u => u.width | _ => 32
  | _, _ => f.ty.width

end Sys2Proof

namespace Sys2Proof.Machine

/-- Consecutive vector registers of a value of `n` bits (R14, R258). -/
def spanOf (n : Nat) : Nat := if n = 128 then 4 else if n = 64 then 2 else 1

/-- The vector operands of a word: whether it is the destination, the first register and the count (R14, R23). -/
def vecOperands (o : Op) (f : Form) : List (Bool × Nat × Nat) :=
  let src := fun (i : Nat) (x : Src) => match x with
    | .v n => [(false, n.toNat, spanOf (o.srcWidth f i))]
    | _ => []
  (match f.d.dst with
    | some (.v n) => [(true, n.toNat, spanOf f.ty.width)]
    | _ => []) ++ src 0 f.a ++ src 1 f.b ++ src 2 f.c

/-- Elements of a register under a narrow format (R143, R146). -/
def fmtWidth (v : BitVec 32) : Nat := (if v.getLsbD 7 then 1 else 0) + bitsOf v 10 8 + bitsOf v 13 11
def fmtContainer (v : BitVec 32) : Nat := if fmtWidth v ≤ 4 then 4 else 8
def fmtCount (v : BitVec 32) : Nat := 32 / fmtContainer v

/-- The format registers that a word's types name (R81, R144). -/
def fmtTypes (f : Form) : List (BitVec 4) :=
  (match f.ty with | .fmt n => [n] | _ => []) ++ (match f.c with | .ty (.fmt n) => [n] | _ => [])

/-- The codes of vector registers from one on; there are none beyond v255. -/
def runV (n len : Nat) : List Nat := ((List.range len).map fun j => codeV (n + j)).filter (· < 256)

/-- The longer vector ranges that a word reads (`qpack`, `mma`, `accld`: R166, R338, R341). -/
def longReads (o : Op) (f : Form) (k : Nat) : List Nat :=
  let run := fun (x : Src) (n : Nat) => match x with
    | .v a => runV a.toNat n
    | _ => []
  match o with
  | .qpack => run f.a k
  | .mma => run f.a 32 ++ run f.b 32
  | .accldPut => run f.a 32
  | _ => []

/-- Register numbers that a word reads: sources, guard and cursor; g7 takes no part (R99, R275). -/
def regsRead (o : Op) (f : Form) (k : Nat) : List Nat :=
  let one := fun (i : Nat) (x : Src) => match x with
    | .v n => runV n.toNat (spanOf (o.srcWidth f i))
    | .s n => [codeS n.toNat]
    | .pair a b => [codeS a.toNat, codeS b.toNat]
    | .guard n => if n.toNat = 7 then [] else [codeG n.toNat]
    | .fmt n => [codeF n.toNat]
    | _ => []
  (if f.h.gpred.toNat = 7 then [] else [codeG f.h.gpred.toNat]) ++ one 0 f.a ++ one 1 f.b ++ one 2 f.c
    ++ longReads o f k ++ (match o, f.d.dst with | .stSparse, some (.s n) => [codeS n.toNat] | _, _ => [])

/-- Register numbers that a word writes. -/
def regsWritten (o : Op) (f : Form) (k : Nat) : List Nat :=
  match f.d.dst with
  | some (.v n) =>
    let len := match o with | .qunpack => k | .accldGet => 32 | _ => spanOf f.ty.width
    runV n.toNat len
  | some (.s n) =>
    if o = .rsvRead then ((List.range 3).map fun j => codeS (n.toNat + j)).filter (· < 320) else [codeS n.toNat]
  | some (.g n) => if n.toNat = 7 then [] else [codeG n.toNat]
  | some (.f n) => [codeF n.toNat]
  | none => []

/-- Latches that a word reads. -/
def latchesRead (f : Form) : List Nat :=
  [f.a, f.b, f.c].filterMap fun x => match x with | .latch b => some b.toNat | _ => none

end Sys2Proof.Machine
end

