-- ==== Sys2Proof/Machine/Fetch.lean ====
section
/-!
DEFINITION. Fetching a word: the loop buffer (06 R138), words fetched ahead (06 R139), fetch copies (11 R272), the
fetch range (02 R40) and the translation of code (12 R278, R281).
-/

namespace Sys2Proof.Machine

/-- What a fetch gives: a word, a PC beyond the code object, or a sub-cause of the translation fault with the byte that
fails. -/
inductive Fetched where
  | word (w : IWord)
  | range
  | fault (sub va : Nat)
deriving DecidableEq, Repr

namespace State

/-- The error record that a failing translation writes beside its fault (R281, R298, R425). -/
def recordWalk (s : State) (core part va sub : Nat) : State :=
  let rq := coreRq core
  match s.walk part va with
  | .fault _ (some key) =>
    let port := key / 2 ^ 38
    s.errorRecord (portDie port) port rq 0 5 0xFFFF (key % 2 ^ 38) 0xFFFF
  | .fault _ none => s
  | .leaf pte shift _ =>
    let port := (leafPage pte shift va).1
    if sub = 5 then s.errorRecord (coreDie core) port rq 3 6 0xFFFF va 0xFFFF
    else if sub = 4 then s.errorRecord (portDie port) port rq 0 2 0xFFFF va 0xFFFF
    else s

/-- The code object that a team runs: its handler's while it is in its handler (R400). -/
def codeOf (s : State) (t : Nat) : Nat :=
  let x := s.team t
  if x.handler.isSome then (s.wg x.wg).handlerObj else x.code

/-- The word that the loop buffer holds for a team at a PC (R138). -/
def loopWord (s : State) (t : Nat) (pc : Word) : Option IWord :=
  let x := s.team t
  match ((s.core x.core).pipes.get {} x.pipe).loop with
  | some b => if b.team = t ∧ b.lo ≤ pc ∧ pc ≤ b.hi then b.words[(pc - b.lo).toNat]? else none
  | none => none

/-- The leaf by which a core reaches a page, from its TLBs or by a walk, with the state that caches it where the page
may be read (R283). -/
def leafFor (s : State) (core part va : Nat) : Option (DWord × Nat × State) :=
  match s.tlbFind core part va with
  | some e => some (e.leaf, e.shift, s.tlbTouch core part va)
  | none => match s.walk part va with
    | .leaf pte shift _ =>
      if (leafFault s part (some (coreRq core)) pte shift va false false).isSome then some (pte, shift, s)
      else some (pte, shift, s.tlbFill core { part := part, shift := shift, lead := va / 2 ^ shift, leaf := pte })
    | .fault _ _ => none

/-- The translation of a fetch: a sub-cause, or the state with its page cached (R278, R281, R283). -/
def fetchPage (s : State) (core part va : Nat) : Option Nat × State :=
  match s.leafFor core part va with
  | some (pte, shift, s') =>
    match leafFault s part (some (coreRq core)) pte shift va false true with
    | some sub => (some sub, s)
    | none => if (s.poisoned.find? (gaOf part va / 512)).isSome then (some 4, s) else (none, s')
  | none => match s.walk part va with
    | .fault sub _ => (some sub, s)
    | .leaf _ _ _ => (none, s)

/-- The fetch copy of a line at a core, taken from the home where there is none (R272), which serves the read (R354,
R415). -/
def fetchLine (s : State) (core line : Nat) : LineData × State :=
  match (s.core core).fcopy.find? line with
  | some d => (d, s)
  | none =>
    let d := (s.repair (128 * line)).homeLine line
    (d, (s.readHome (128 * line)).updCore core fun c => { c with fcopy := c.fcopy.put line d })

/-- The word that starts at byte `k` of two lines that follow each other (R74). -/
def wordIn (d0 d1 : LineData) (k : Nat) : IWord :=
  if k ≤ 116 then d0.extractLsb' (8 * k) 96
  else (d0.extractLsb' (8 * k) 96) ||| ((d1.extractLsb' 0 96) <<< (1024 - 8 * k))

/-- The word at a global byte, from the fetch copies of its lines (R272). -/
def fetchWord (s : State) (core ga : Nat) : IWord × State :=
  let a := s.fetchLine core (ga / 128)
  let b := if (ga + 11) / 128 = ga / 128 then a else a.2.fetchLine core ((ga + 11) / 128)
  (wordIn a.1 b.1 (ga % 128), b.2)

/-- Goes on from the translation of a byte, or stops with its sub-cause. -/
def fetchVia (va : Nat) (r : Option Nat × State) (k : State → Fetched × State) : Fetched × State :=
  match r with
  | (some sub, s) => (.fault sub va, s)
  | (none, s) => k s

/-- The word of the firmware image at a PC (R30, R422; log 72). -/
def firmwareWord (s : State) (pc : Word) : Fetched :=
  if 12 * pc.toNat + 12 ≤ s.firmware.length then .word (wordOfBytes ((s.firmware.drop (12 * pc.toNat)).take 12))
  else .range

/-- Fetches the word of a code object at a PC, past loop buffer and words ahead (R40, R74). -/
def fetchCode (s : State) (t : Nat) (pc : Word) : Fetched × State :=
  let core := (s.team t).core
  let part := s.teamPart t
  let code := s.codeOf t
  if (s.team t).firm then (s.firmwareWord pc, s)
  else match s.codes.find? (gaOf part code) with
  | none => (.range, s)
  | some h =>
    if h.count ≤ pc.toNat then (.range, s)
    else
      let va := code + 12 * pc.toNat
      fetchVia va (s.fetchPage core part va) fun s => fetchVia (va + 11) (s.fetchPage core part (va + 11)) fun s =>
        (s.fetchWord core (gaOf part va)).map Fetched.word id

/-- Whether a word lies within the code object of its team (R40). -/
def inCode (s : State) (t : Nat) (pc : Word) : Bool :=
  !(s.team t).firm && match s.codes.find? (gaOf (s.teamPart t) (s.codeOf t)) with
    | some h => decide (pc.toNat < h.count)
    | none => false

/-- Whether a fetch reads the code object: the word lies within it, and neither the loop buffer nor the words ahead hold it
(R40, R138, R139). -/
def fetchReads (s : State) (t : Nat) (pc : Word) : Bool :=
  s.inCode t pc && (s.loopWord t pc).isNone && !((s.team t).ahead.any fun (p, _) => p == pc)

/-- The addresses of a word whose pages no TLB of the core holds. -/
def codeMisses (s : State) (t : Nat) (pc : Word) : List Nat :=
  let va := s.codeOf t + 12 * pc.toNat
  [va, va + 11].filter fun a => (s.tlbFind (s.team t).core (s.teamPart t) a).isNone

/-- The lines of a word of which its core has no fetch copy, by an address of each. -/
def codeAway (s : State) (t : Nat) (pc : Word) : List Nat :=
  let ga := gaOf (s.teamPart t) (s.codeOf t + 12 * pc.toNat)
  [ga, ga + 11].filter fun a => !(s.core (s.team t).core).fcopy.has (a / 128)

/-- Whether a read of a word of the code object must wait: for a walk (R283), for the migration of a page (R203), or for a
slot of a link (R299). -/
def codeHeld (s : State) (t : Nat) (pc : Word) : Bool :=
  s.inCode t pc && (s.codeMisses t pc != []
    || (s.codeAway t pc).any fun a => s.migrating a || (s.gate (coreDie (s.team t).core) (a / 128)).isSome)

/-- What the fetch of a word waits for: walks of pages (R283), and lines that are still to come from their homes. -/
def fetchMisses (s : State) (t : Nat) (pc : Word) : List Nat := if s.fetchReads t pc then s.codeMisses t pc else []
def fetchAway (s : State) (t : Nat) (pc : Word) : List Nat := if s.fetchReads t pc then s.codeAway t pc else []

/-- Whether the fetch of a word must wait. -/
def fetchHeld (s : State) (t : Nat) (pc : Word) : Bool := s.fetchReads t pc && s.codeHeld t pc

/-- A fetch of a team at a PC. -/
def fetch (s : State) (t : Nat) (pc : Word) : Fetched × State :=
  match s.loopWord t pc with
  | some w => (.word w, s)
  | none =>
    match (s.team t).ahead.find? fun (p, _) => p == pc with
    | some (_, w) => (.word w, s.updTeam t fun x => { x with ahead := x.ahead.filter fun (p, _) => p != pc })
    | none => s.fetchCode t pc

/-- Fetches a word ahead of its issue (R139); one that the loop buffer holds stays there (R138). -/
def fetchAhead (s : State) (t : Nat) (pc : Word) : Option IWord × State :=
  match s.loopWord t pc with
  | some w => (some w, s)
  | none => match s.fetch t pc with
    | (.word w, s) => (some w, s.updTeam t fun x => { x with ahead := (pc, w) :: x.ahead })
    | (_, _) => (none, s)

end State

end Sys2Proof.Machine
end

