-- ==== Sys2Proof/Machine/Chain.lean ====
section
/-!
DEFINITION. What every word instruction does beside its own effect: the faults of the word (04 R91-R93, items 5 to 7),
latch chains (04 R94-R102), hints (01 R21) and the counts of an issue (16 R352, R355).
-/

namespace Sys2Proof.Machine

/-- System-register numbers (R65). -/
def sysAssigned (n : Nat) : Bool := n ≤ 0x00C || (0x010 ≤ n && n ≤ 0x018) || (0x020 ≤ n && n ≤ 0x022)

end Sys2Proof.Machine

namespace Sys2Proof

/-- The privilege levels that may issue a mnemonic (R71, R365). -/
def Op.level (o : Op) (p : Nat) : Bool :=
  match o with
  | .bar | .barGang | .pbarWait => p != 1
  | .rett | .segld => p != 0
  | .tlbinv | .kslotLoad | .kslotRevoke => p == 2
  | .pgsurr => p != 2
  | _ => true

/-- Whether a mnemonic accesses memory on behalf of its lanes (R413). -/
def Op.accesses (o : Op) : Bool :=
  match o with
  | .ld | .st | .atom | .red | .stSparse | .ldExpand => true
  | _ => false

/-- Whether a level may write the register that a `swrite` names, as far as the word says (R65, R379). -/
def Op.mayWrite (o : Op) (f : Form) (p : Nat) : Bool :=
  match o, f.a with
  | .swrite, .sys n => n == 0x012 || n == 0x015 || n == 0x016 || n == 0x017 || (n == 0x010 && p == 2)
  | _, _ => true

end Sys2Proof

namespace Sys2Proof.Machine

/-- Containers per register of the narrow format that a word names first, or 1. While that format is illegal the
registers that the chain checks count for `qpack` and `qunpack` are those of its illegal value, where no rule says how
many there are (R93, R156; DESIGN CHOICE, log 74). -/
def Ctx.packs (c : Ctx) : Nat := match fmtTypes c.f with | n :: _ => fmtCount (c.w.fmt n.toNat) | [] => 1

/-- The chain-structure fault (R96, R97, R99, R117). -/
def chainFault (c : Ctx) : Bool :=
  let lat := c.f.d.lat.isSome
  let use := c.o.chain c.f.q
  if !(c.f.h.chain || lat) then false
  else if use == .no then true
  else if c.f.h.chain && c.ownChain.isNone then true
  else
    let reads := regsRead c.o c.f c.packs
      ++ (if c.f.h.chain then (match c.ownChain with | some ch => ch.reads | none => []) else [])
    let writes := regsWritten c.o c.f c.packs
    writes.any (reads.contains ·) || (regsRead c.o c.f c.packs ++ writes).any (· ≥ 328)

/-- The illegal-operand faults of the word (R92): sub-causes 0 to 3 in order. -/
def operandFault (c : Ctx) : Option Nat :=
  let vs := vecOperands c.o c.f
  let written := match c.ownChain with | some ch => if c.f.h.chain then ch.written else 0 | none => 0
  if vs.any fun (_, r, n) => r % n != 0 then some 0
  else if vs.any fun (_, r, n) => r + n > c.t.vregs - c.t.depth then some 1
  else if (latchesRead c.f).any fun b => !written.getLsbD b then some 2
  else if (match c.f.a with | .sys n => !sysAssigned n.toNat | _ => false) then some 3
  else none

/-- Items 5 to 7 of R93, in order. The mask names every lane of the group (R92). -/
def wordFault (c : Ctx) : Option FaultInfo :=
  if chainFault c then some { cause := 1, sub := 5, mask := c.is.lanes }
  else match operandFault c with
    | some sub => some { cause := 2, sub := sub, mask := c.is.lanes }
    | none =>
      if c.o.level c.t.priv.toNat && c.o.mayWrite c.f c.t.priv.toNat then none
      else some { cause := 3, sub := 0, mask := c.is.lanes }

/-- What a word's own effect comes to: it is performed (or its lanes wait, or are held); it is not performed yet, and its
lanes, which have issued it, issue it again; it faults; or it transfers to the handler as a software trap. -/
inductive Eff where
  | go (s : State)
  | again (s : State)
  | trap (fi : FaultInfo)
  /-- A fault beside which something is recorded (R281). -/
  | trapIn (s : State) (fi : FaultInfo)
  | soft (fi : FaultInfo)

/-- A word with LEN and without CHAIN opens a chain (R94, R95). -/
def openChain (c : Ctx) : Ctx :=
  if c.f.d.lat.isSome && !c.f.h.chain then
    let t := { c.t with chain := some { since := c.s.cycle, lanes := c.is.lanes, pc0 := c.is.pc, len := 0, reads := [], written := 0,
                                        vals := [] } }
    { c with t := t, s := c.s.updTeam c.is.team fun _ => t }
  else c

/-- The look at the word that follows an open chain (R97): without CHAIN it does not continue the chain, which closes; one
that a migration or a missing translation keeps from being fetched is looked at later (R203, R283). A next word that cannot
be fetched at all counts as one with CHAIN = 0, which no rule says (DESIGN CHOICE, log 74). -/
def State.lookOn (s : State) (t : Nat) (pc : Word) (ch : Chain) : State :=
  if s.fetchHeld t pc then s.updTeam t fun t => { t with chain := some { ch with look := true } }
  else
    let (w, s) := s.fetchAhead t pc
    let next := match w with | some w => w.getLsbD 76 | none => false
    s.updTeam t fun t => { t with chain := if next then some { ch with look := false } else none }

/-- A chain that the word of some lanes has ended closes. -/
def State.closeChain (s : State) (t : Nat) (lanes : Mask) : State :=
  s.updTeam t fun x => match x.chain with
    | some ch => if ch.lanes &&& lanes = 0 then x else { x with chain := none }
    | none => x

/-- Of some lanes of a team, those in which a word that they issued is active (R28). -/
def State.activeIn (s : State) (t : Nat) (m : Mask) (word : IWord) : Mask :=
  match decodeRaw (Raw.ofWord word) with
  | .ok (_, f) => activeMask (s.team t) m f.h
  | .error _ => m

/-- The chain after a word of its group has issued (R97, R98): it closes after a store or a branch, at four instructions,
when the next word does not continue it, or when every lane has left the running state. A store that ends it and waits for
its pledge keeps it open until the decision, so that no halt finds its lanes inside it (R102; log 39). -/
def chainAfter (c : Ctx) (s : State) : State :=
  if !(c.f.h.chain || c.f.d.lat.isSome) then s
  else
    let t := s.team c.is.team
    match t.chain with
    | none => s
    | some ch =>
      if ch.lanes &&& c.is.lanes = 0 then s
      else
        let len := ch.len + 1
        let gone := c.is.lanes &&& t.live = 0
        let waits := c.is.lanes &&& t.holders (fun h => match h with | .pledge _ => true | _ => false) != 0
        let ch := { ch with len := len, reads := ch.reads ++ regsRead c.o c.f c.packs,
                            written := match c.f.d.lat with
                              | some b => ch.written ||| (1#4 <<< b.toNat) | none => ch.written }
        if waits then s.updTeam c.is.team fun t => { t with chain := some ch }
        else if c.o.chain c.f.q == .last || len ≥ 4 || gone then s.updTeam c.is.team fun t => { t with chain := none }
        else s.lookOn c.is.team (c.is.pc + 1) ch

/-- Energy charged for an event of the `k`-th kind on a die: the coefficients that firmware set (R352). -/
def energyOf (s : State) (die k : Nat) : Nat := (s.die die).energy.getD k 0

/-- Adds energy to a region's account (R350, R352). -/
def State.charge (s : State) (r n : Nat) : State :=
  s.updRegion r fun g => { g with energy := min (g.energy + n) (2 ^ 64 - 1) }

/-- The counts of an issue by a team of a region on a core: the group issues of the region's counter block, and the energy
(R352, R355). -/
def State.countIssueOf (s : State) (region core : Nat) : State :=
  let s := s.updRegion region fun g => { g with issues := min (g.issues + 1) (2 ^ 64 - 1) }
  s.charge region (energyOf s (coreDie core) 0)

/-- The counts of the issue of a word; one that faults has issued too (R352, R355, R434). -/
def countIssue (c : Ctx) (s : State) : State := s.countIssueOf c.region c.t.core

/-- After a word has issued: hints and ages (R21, R43), skid (R401), its chain, and the counts of the issue. -/
def finish (c : Ctx) (s : State) : State :=
  let h := c.f.h
  let s := s.updTeam c.is.team fun t =>
    let late := (s.teamsOf t.wg).any fun (k, y) => k != c.is.team && match y.handler with
      | some hd => hd.at_ < s.cycle
      | none => false
    let t := if t.haltDue.isSome && late then { t with skid := t.skid + 1 } else t
    t.mapLanes (c.is.lanes.getLsbD ·) fun _ x =>
      { x with age := 0, readyAt := s.cycle + h.stall.toNat, yld := x.yld || h.yld, retry := false }
  countIssue c (chainAfter c s)

/-- The meaning of a word instruction: the faults of the word, then its own effect. A fault changes nothing before
the exception is taken (R28). -/
def wordIns (o : Op) (f : Form) (s : State) (body : Ctx → Eff) : Res :=
  match s.issue with
  | none => .fault .noIssuingGroup
  | some is =>
    let c := ctxOf o f s is
    match wordFault c with
    | some fi => .next (countIssue c (s.raise is.team is.lanes is.pc is.word fi true))
    | none =>
      let c := openChain c
      match body c with
      | .go s' => .next (finish c s')
      | .again s' => .next (s'.updTeam is.team fun t =>
          { t.mapLanes (is.lanes.getLsbD ·) (fun _ x => { x with age := 0, retry := o.accesses }) with
            chain := (s.team is.team).chain })
      | .trap fi => .next (countIssue c (c.s.raise is.team is.lanes is.pc is.word fi true))
      | .trapIn s' fi => .next (countIssue c (s'.raise is.team is.lanes is.pc is.word fi true))
      | .soft fi => .next (countIssue c (c.s.raise is.team is.lanes is.pc is.word fi false))

end Sys2Proof.Machine
end

