-- ==== Sys2Proof/Machine/Flags.lean ====
section
/-!
DEFINITION. Floating-point formats, exact values, rounding, overflow and the flags (07 R140-R153): every result of the
float and format families, of float atomics and of the matrix unit goes through `roundTo` and one of the two overflow
rules. Flags stand as FPSTAT has them: NV 16, DZ 8, OF 4, UF 2, NX 1 (R67).
-/

namespace Sys2Proof.Machine

/-- A floating-point format (R140, R143, R145): sign bit, exponent and mantissa widths, bias, specials policy; `ieee`
marks the formats that tell signaling from quiet NaNs (R141, R145). -/
structure FFmt where
  sign : Bool
  e : Nat
  m : Nat
  bias : Int
  spec : Nat
  ieee : Bool := false
deriving DecidableEq, Repr

/-- FP32, BF16, binary16 (R140). -/
def fp32 : FFmt := { sign := true, e := 8, m := 23, bias := 127, spec := 2, ieee := true }
def fbf16 : FFmt := { sign := true, e := 8, m := 7, bias := 127, spec := 2, ieee := true }
def fp16 : FFmt := { sign := true, e := 5, m := 10, bias := 15, spec := 2, ieee := true }

/-- The narrow format that a format-register value describes (R143). -/
def narrowFmt (v : BitVec 32) : FFmt where
  sign := v.getLsbD 7
  e := bitsOf v 10 8
  m := bitsOf v 13 11
  bias := toS 8 (bitsOf v 21 14)
  spec := bitsOf v 23 22

/-- The sub-cause of the illegal-format fault of a value, if it is illegal (R144). -/
def illegalFmt (v : BitVec 32) : Option Nat :=
  let f := narrowFmt v
  if f.spec = 3 then some 1
  else if f.e = 0 || fmtWidth v < 3 || fmtWidth v > 8 || (f.spec == 2 && (f.e < 2 || f.m < 1)) then some 0
  else none

/-- Flags. -/
def flNV : BitVec 5 := 16
def flDZ : BitVec 5 := 8
def flOF : BitVec 5 := 4
def flUF : BitVec 5 := 2
def flNX : BitVec 5 := 1

/-- A value: a NaN (signaling or quiet), an infinity, or (−1)^neg × m × 2^x; `more` says that the exact magnitude lies
strictly between m and m + 1 units. -/
inductive FVal where
  | nan (signaling : Bool)
  | inf (neg : Bool)
  | fin (neg : Bool) (m : Nat) (x : Int) (more : Bool)
deriving DecidableEq, Repr

namespace FVal

def zero (neg : Bool) : FVal := .fin neg 0 0 false
def isNan : FVal → Bool | .nan _ => true | _ => false
def isSnan : FVal → Bool | .nan s => s | _ => false
def isInf : FVal → Bool | .inf _ => true | _ => false
def isZero : FVal → Bool | .fin _ m _ more => m == 0 && !more | _ => false
def neg? : FVal → Bool | .inf n => n | .fin n _ _ _ => n | _ => false
/-- The value with its sign changed. -/
def negate : FVal → FVal
  | .inf n => .inf (!n)
  | .fin n m x k => .fin (!n) m x k
  | v => v
/-- The value times 2^k. -/
def scale (v : FVal) (k : Int) : FVal := match v with | .fin n m x s => .fin n m (x + k) s | v => v
/-- An integer as a value. -/
def ofInt (x : Int) : FVal := .fin (decide (x < 0)) x.natAbs 0 false

end FVal

/-- Number of bits of a natural number. -/
def bitLen (n : Nat) : Nat := if n = 0 then 0 else n.log2 + 1

/-- x × 2^k, rounded down. -/
def shiftI (x : Nat) (k : Int) : Nat := if 0 ≤ k then x <<< k.toNat else x >>> (-k).toNat

namespace FFmt

def width (f : FFmt) : Nat := (if f.sign then 1 else 0) + f.e + f.m
def emin (f : FFmt) : Int := 1 - f.bias
def top (f : FFmt) : Nat := 2 ^ f.e - 1

/-- The bit of a sign in a code. -/
def signBit (f : FFmt) (neg : Bool) : Nat := if neg && f.sign then 2 ^ (f.e + f.m) else 0

/-- The canonical NaN (R140, R145). -/
def nanCode (f : FFmt) : Option Nat :=
  match f.spec with
  | 0 => none
  | 1 => some (2 ^ (f.e + f.m) - 1)
  | _ => some (f.top * 2 ^ f.m + 2 ^ (f.m - 1))

/-- The code of an infinity (R145). -/
def infCode (f : FFmt) (neg : Bool) : Option Nat :=
  if f.spec = 2 then some (f.signBit neg + f.top * 2 ^ f.m) else none

/-- The largest finite magnitude (R140, R145): m × 2^x. -/
def largest (f : FFmt) : Nat × Int :=
  match f.spec with
  | 0 => (2 ^ (f.m + 1) - 1, (f.top : Int) - f.bias - f.m)
  | 1 => if f.m = 0 then (1, (f.top : Int) - 1 - f.bias) else (2 ^ (f.m + 1) - 2, (f.top : Int) - f.bias - f.m)
  | _ => (2 ^ (f.m + 1) - 1, (f.top : Int) - 1 - f.bias - f.m)

/-- The value of a code (R140, R141, R145). -/
def value (f : FFmt) (code : Nat) : FVal :=
  let neg := f.sign && code.testBit (f.e + f.m)
  let e := code / 2 ^ f.m % 2 ^ f.e
  let m := code % 2 ^ f.m
  if f.spec = 2 ∧ e = f.top then
    (if m = 0 then .inf neg else .nan (f.ieee && !m.testBit (f.m - 1)))
  else if f.spec = 1 ∧ e = f.top ∧ m = 2 ^ f.m - 1 then .nan false
  else if e = 0 then .fin neg m (f.emin - f.m) false
  else .fin neg (2 ^ f.m + m) ((e : Int) - f.bias - f.m) false

/-- The code of a value m × 2^x on the format's grid and in its range. -/
def code (f : FFmt) (neg : Bool) (m : Nat) (x : Int) : Nat :=
  if m = 0 then f.signBit neg
  else
    let e : Int := (bitLen m : Int) - 1 + x
    if e < f.emin then f.signBit neg + shiftI m (x - (f.emin - f.m))
    else f.signBit neg + (e + f.bias).toNat * 2 ^ f.m + (shiftI m (x - (e - f.m)) - 2 ^ f.m)

/-- The code of the largest finite value with a sign. -/
def maxCode (f : FFmt) (neg : Bool) : Nat := f.code (neg && f.sign) f.largest.1 f.largest.2

end FFmt

/-- Round to a multiple of 2^u (R28, R148): the multiple and whether it is inexact. Modes: 0 nearest-even, 1 toward
zero, 2 up, 3 down. -/
def roundUnit (neg : Bool) (m : Nat) (x : Int) (more : Bool) (u : Int) (mode : Nat) : Nat × Bool :=
  if u ≤ x then (m <<< (x - u).toNat, more)
  else
    let k := min (u - x).toNat (bitLen m + 2)
    let q := m >>> k
    let rem := m - q <<< k
    let inexact := rem != 0 || more
    let half := 2 ^ (k - 1)
    let up := match mode with
      | 0 => decide (rem > half) || (rem == half && (more || q % 2 == 1))
      | 1 => false
      | 2 => inexact && !neg
      | _ => inexact && neg
    (if up then q + 1 else q, inexact)

/-- A rounded magnitude in units of 2^u, whether it lies beyond the largest finite one, and its flags UF and NX
(R148, R149, R152). -/
structure Rounded where
  q : Nat
  u : Int
  beyond : Bool
  fl : BitVec 5
deriving DecidableEq, Repr

/-- Whether m × 2^x is greater than n × 2^y. -/
def magLt (n : Nat) (y : Int) (m : Nat) (x : Int) : Bool :=
  let b := min x y
  decide (n <<< (y - b).toNat < m <<< (x - b).toNat)

/-- Round(x, F, mode) (R28, R148). -/
def roundTo (f : FFmt) (neg : Bool) (m : Nat) (x : Int) (more : Bool) (mode : Nat) : Rounded :=
  if m = 0 ∧ !more then { q := 0, u := f.emin, beyond := false, fl := 0 }
  else
    let e : Int := (bitLen m : Int) - 1 + x
    let u := max e f.emin - f.m
    let (q, inexact) := roundUnit neg m x more u mode
    let beyond := decide (f.largest.2 + bitLen f.largest.1 < (u + bitLen q : Int))
      || (decide ((u + bitLen q : Int) = f.largest.2 + bitLen f.largest.1) && magLt f.largest.1 f.largest.2 q u)
    let tiny := decide (e < f.emin) &&
      (let v := e - f.m
       let r := (roundUnit neg m x more v mode).1
       decide (((bitLen r : Int) - 1 + v) < f.emin))
    { q := q, u := u, beyond := beyond,
      fl := (if inexact then flNX else 0) ||| (if inexact && tiny then flUF else 0) }

/-- The result of an arithmetic instruction: overflow follows the mode (R150), a NaN is the canonical one (R141). -/
def deliverF (f : FFmt) (mode : Nat) (v : FVal) : Nat × BitVec 5 :=
  match v with
  | .nan _ => (f.nanCode.getD 0, 0)
  | .inf n => ((f.infCode n).getD (f.maxCode n), 0)
  | .fin n m x more =>
    let r := roundTo f n m x more mode
    if r.beyond then
      let toInf := mode == 0 || (mode == 2 && !n) || (mode == 3 && n)
      (if toInf then (f.infCode n).getD (f.maxCode n) else f.maxCode n, flOF ||| flNX)
    else (f.code n r.q r.u, r.fl)

/-- The result of a conversion: a code and its flags, or the sub-cause of the format-overflow fault. -/
inductive Conv where
  | ok (code : Nat) (fl : BitVec 5)
  | trap (sub : Nat)
deriving DecidableEq, Repr

/-- Overflow(y, F, p) (R149). -/
def overflow (f : FFmt) (neg : Bool) (policy sub : Nat) : Conv :=
  match policy with
  | 3 => .trap sub
  | 1 => .ok (((f.infCode neg).orElse fun _ => f.nanCode).getD (f.maxCode neg)) (flOF ||| flNX)
  | 2 => .ok (f.nanCode.getD (f.maxCode neg)) (flOF ||| flNX)
  | _ => .ok (f.maxCode neg) (flOF ||| flNX)

/-- A conversion to a floating-point format (R148, R149, R151, R164). -/
def convF (f : FFmt) (mode policy : Nat) (v : FVal) : Conv :=
  match v with
  | .nan sig =>
    match f.nanCode with
    | some c => .ok c (if sig then flNV else 0)
    | none => if policy = 3 then .trap 2 else .ok 0 flNV
  | .inf n =>
    if n && !f.sign then .ok 0 flNX
    else match f.infCode n with
      | some c => .ok c 0
      | none => overflow f n policy 1
  | .fin n m x more =>
    if n && !f.sign then .ok 0 (if m = 0 ∧ !more then 0 else flNX)
    else
      let r := roundTo f n m x more mode
      if r.beyond then overflow f n policy 0 else .ok (f.code n r.q r.u) r.fl

/-- A conversion to an integer of `n` bits (R164). -/
def convInt (signed : Bool) (n mode : Nat) (v : FVal) : Nat × BitVec 5 :=
  let lo : Int := if signed then -(2 ^ (n - 1) : Nat) else 0
  let hi : Int := if signed then (2 ^ (n - 1) : Nat) - 1 else (2 ^ n : Nat) - 1
  match v with
  | .nan _ => (0, flNV)
  | .inf neg => (wrapN n (if neg then lo else hi), flNV)
  | .fin neg m x more =>
    let (q, inexact) := roundUnit neg m x more 0 mode
    let y : Int := if neg then -(q : Int) else q
    if y < lo then (wrapN n lo, flNV)
    else if hi < y then (wrapN n hi, flNV)
    else (wrapN n y, if inexact then flNX else 0)

/-- The format of an IEEE type. -/
def ieeeFmt : Ty → FFmt
  | .bf16 => fbf16
  | .f16 => fp16
  | _ => fp32

/-- The exact sum of values that are no NaN; `none` when infinities of both signs meet (R157, R168). An exact zero of
opposite signs is +0, and −0 when rounding down; zeros of one sign keep it. -/
def sumF (vs : List FVal) (mode : Nat) : Option FVal :=
  let pinf := vs.any fun v => v.isInf && !v.neg?
  let ninf := vs.any fun v => v.isInf && v.neg?
  if pinf && ninf then none
  else if pinf then some (.inf false)
  else if ninf then some (.inf true)
  else
    let lowX := vs.foldl (fun (b : Int) v => match v with | .fin _ m x _ => if m = 0 then b else min b x | _ => b) 1000000
    let t : Int := vs.foldl (fun acc v => match v with
      | .fin n m x _ =>
        if m = 0 then acc
        else
          let y : Int := ((m <<< (x - lowX).toNat : Nat) : Int)
          if n then acc - y else acc + y
      | _ => acc) 0
    if t = 0 then
      let allZero := vs.all FVal.isZero
      let allNeg := vs.all FVal.neg?
      let allPos := vs.all fun v => !v.neg?
      some (.zero (if allZero && allNeg then true else if allZero && allPos then false else mode == 3))
    else some (.fin (decide (t < 0)) t.natAbs lowX false)

/-- The exact product of values that are no NaN; `none` for 0 × ∞ (R157). -/
def mulF (a b : FVal) : Option FVal :=
  let n := a.neg? != b.neg?
  match a, b with
  | .fin _ m x _, .fin _ k y _ => some (.fin n (m * k) (x + y) false)
  | a, b => if a.isZero || b.isZero then none else some (.inf n)

/-- A NaN result and the flags of NaN operands (R141, R152). -/
def snanFl (vs : List FVal) : BitVec 5 := if vs.any FVal.isSnan then flNV else 0

/-- The order of two values that are no NaN; −0 equals +0. -/
def cmpF (a b : FVal) : Ordering :=
  let key := fun (v : FVal) => match v with
    | .inf n => if n then (-1 : Int) else 1
    | _ => 0
  match a, b with
  | .fin n m x _, .fin k p y _ =>
    let b := min x y
    let l : Int := if n then -(m <<< (x - b).toNat : Nat) else (m <<< (x - b).toNat : Nat)
    let r : Int := if k then -(p <<< (y - b).toNat : Nat) else (p <<< (y - b).toNat : Nat)
    if l < r then .lt else if r < l then .gt else .eq
  | a, b => if key a < key b then .lt else if key b < key a then .gt else .eq

end Sys2Proof.Machine
end

