-- ==== Sys2Proof/Machine/Transc.lean ====
section
/-!
DEFINITION. The single-operand functions (07 R157, R158), correctly rounded: exact integer roots and quotients, and
for `fexp2`, `flog2` and `ftanh` an enclosure of the exact value that is narrowed until both its ends round alike.
-/

namespace Sys2Proof.Machine

/-- ⌊√n⌋, bit by bit from bit `k` down. -/
def isqrt (n : Nat) : Nat → Nat → Nat
  | 0, r => r
  | k + 1, r =>
    let r' := r + 2 ^ k
    isqrt n k (if r' * r' ≤ n then r' else r)

/-- 1/a of a finite nonzero value. -/
def recipF (neg : Bool) (m : Nat) (x : Int) : FVal :=
  let k := bitLen m + 64
  .fin neg (2 ^ k / m) (-(k : Int) - x) (2 ^ k % m != 0)

/-- √a of a finite positive value. -/
def sqrtF (m : Nat) (x : Int) : FVal :=
  let k : Nat := if x % 2 = 0 then 128 else 129
  let n := m * 2 ^ k
  let r := isqrt n ((bitLen n + 1) / 2 + 1) 0
  .fin false r ((x - k) / 2) (r * r != n)

/-- 1/√a of a finite positive value. -/
def rsqrtF (m : Nat) (x : Int) : FVal :=
  let k : Nat := 2 * bitLen m + (if x % 2 = 0 then 192 else 193)
  let n := 2 ^ k / m
  let r := isqrt n ((bitLen n + 1) / 2 + 1) 0
  .fin false r ((-x - k) / 2) (r * r * m != 2 ^ k)

/-! Enclosures in fixed point: `w` fraction bits, of which the last 32 absorb the errors of the terms. -/

/-- atanh z for 0 ≤ z ≤ 1/3. -/
def atanhFix (w : Nat) (z2 : Nat) : Nat → Nat → Nat → Nat
  | 0, _, _ => 0
  | n + 1, k, t => t / (2 * k + 1) + atanhFix w z2 n (k + 1) ((t * z2) >>> w)

/-- ln 2. -/
def ln2Fix (w : Nat) : Nat :=
  let z := 2 ^ w / 3
  2 * atanhFix w ((z * z) >>> w) (w / 3 + 2) 0 z

/-- e^r for 0 ≤ r < 1, by its series. -/
def expFix (w : Nat) (r : Nat) : Nat → Nat → Nat → Nat
  | 0, _, _ => 0
  | n + 1, k, t => t + expFix w r n (k + 1) (((t * r) >>> w) / (k + 1))

/-- Squares a number `n` times. -/
def squares (w : Nat) : Nat → Nat → Nat
  | 0, t => t
  | n + 1, t => squares w n ((t * t) >>> w)

/-- The two ends of an enclosure: a fixed-point number with an error below 2^31 units. -/
def ends (v : Nat) : Nat × Nat := ((v - 2 ^ 31) >>> 32, ((v + 2 ^ 31) >>> 32) + 1)

/-- The result of a function whose value is irrational, from enclosures of rising precision: the first whose ends
round alike. -/
def ziv (f : FFmt) (neg : Bool) (enc : Nat → (Nat × Nat) × Int) : List Nat → Nat × BitVec 5
  | [] => (0, 0)
  | p :: ps =>
    let ((lo, hi), x) := enc p
    let a := deliverF f 0 (.fin neg lo x true)
    let b := deliverF f 0 (.fin neg (hi - 1) x true)
    if a = b ∨ ps = [] then a else ziv f neg enc ps

/-- The precisions tried. -/
def precisions : List Nat := [192, 768, 2048]

/-- 2^a of a finite value. -/
def exp2F (f : FFmt) (neg : Bool) (m : Nat) (x : Int) : Nat × BitVec 5 :=
  if m = 0 then deliverF f 0 (.fin false 1 0 false)
  else if bitLen m + x > 12 then deliverF f 0 (if neg then .fin false 1 (-4000) true else .fin false 1 4000 true)
  else
    let a : Int := if neg then -(m : Int) else m
    let k : Int := if 0 ≤ x then a * 2 ^ x.toNat else a / 2 ^ (-x).toNat
    let rem : Nat := if 0 ≤ x then 0 else (a % 2 ^ (-x).toNat).toNat
    if rem = 0 then deliverF f 0 (.fin false 1 k false)
    else ziv f false (fun p =>
      let w := p + 32
      let r := shiftI rem (w + x)
      (ends (expFix w ((r * ln2Fix w) >>> w) (w / 3 + 8) 0 (2 ^ w)), k - p)) precisions

/-- log₂ a of a finite positive value. -/
def log2F (f : FFmt) (m : Nat) (x : Int) : Nat × BitVec 5 :=
  let n := bitLen m - 1
  let k : Int := x + n
  if m = 2 ^ n then deliverF f 0 (.ofInt k)
  else
    let val := fun (p : Nat) =>
      let w := p + 32
      let y := shiftI m ((w : Int) - n)
      let z := (y - 2 ^ w) * 2 ^ w / (y + 2 ^ w)
      let l := 2 * atanhFix w ((z * z) >>> w) (w / 3 + 2) 0 z * 2 ^ w / ln2Fix w
      k * (2 ^ w : Nat) + l
    ziv f (decide (k < 0)) (fun p => (ends (val p).natAbs, -(p : Int))) precisions

/-- tanh a of a finite nonzero magnitude. -/
def tanhF (f : FFmt) (neg : Bool) (m : Nat) (x : Int) : Nat × BitVec 5 :=
  if bitLen m + x > 6 then deliverF f 0 (.fin neg (2 ^ 64 - 1) (-64) true)
  else ziv f neg (fun p =>
    let w := p + 32
    let y := shiftI m (w + x + 1)
    let e := squares w 7 (expFix w (y >>> 7) (w / 3 + 8) 0 (2 ^ w))
    (ends (2 ^ w - 2 * 2 ^ w * 2 ^ w / (e + 2 ^ w)), -(p : Int))) precisions

end Sys2Proof.Machine
end

