-- ==== Sys2Proof/Machine/Float.lean ====
section
/-!
DEFINITION. The float family: opcodes 0x100-0x10F (07 R157-R163).
-/

namespace Sys2Proof.Machine

/-- A canonical NaN of a format with flags. -/
def nanF (f : FFmt) (fl : BitVec 5) : Nat × BitVec 5 := (f.nanCode.getD 0, fl)

/-- `fadd`, and `fsub` with its second operand negated (R157). -/
def addF (f : FFmt) (mode : Nat) (a b : FVal) : Nat × BitVec 5 :=
  if a.isNan || b.isNan then nanF f (snanFl [a, b])
  else match sumF [a, b] mode with
    | some v => deliverF f mode v
    | none => nanF f flNV

/-- `fmul` (R157). -/
def timesF (f : FFmt) (mode : Nat) (a b : FVal) : Nat × BitVec 5 :=
  if a.isNan || b.isNan then nanF f (snanFl [a, b])
  else match mulF a b with
    | some v => deliverF f mode v
    | none => nanF f flNV

/-- `ffma`: 0 × ∞ is invalid even when c is a NaN (R157). -/
def fmaF (f : FFmt) (mode : Nat) (a b c : FVal) : Nat × BitVec 5 :=
  if a.isNan || b.isNan then nanF f (snanFl [a, b, c])
  else match mulF a b with
    | none => nanF f flNV
    | some p =>
      if c.isNan then nanF f (snanFl [c])
      else match sumF [p, c] mode with
        | some v => deliverF f mode v
        | none => nanF f flNV

/-- Whether a is the lesser, with −0 below +0 (R159). -/
def lessF (a b : FVal) : Bool :=
  match cmpF a b with
  | .lt => true
  | .gt => false
  | .eq => a.isZero && b.isZero && a.neg? && !b.neg?

/-- `fmin` and `fmax` of two codes (R159). -/
def minmaxF (f : FFmt) (greater : Bool) (x y : Nat) : Nat × BitVec 5 :=
  let a := f.value x
  let b := f.value y
  let fl := snanFl [a, b]
  if a.isNan && b.isNan then nanF f fl
  else if a.isNan then (y, fl)
  else if b.isNan then (x, fl)
  else (if greater then (if lessF a b then y else x) else (if lessF b a then y else x), fl)

/-- The single-operand functions (R158). -/
def unaryF (o : Op) (f : FFmt) (mode : Nat) (v : FVal) : Nat × BitVec 5 :=
  let inf := fun n => (deliverF f mode (.inf n)).1
  match v with
  | .nan s => nanF f (if s then flNV else 0)
  | .inf n =>
    match o with
    | .frcp => (f.signBit n, 0)
    | .fexp2 => (if n then 0 else inf false, 0)
    | .ftanh => deliverF f mode (.fin n 1 0 false)
    | .frsq => if n then nanF f flNV else (0, 0)
    | _ => if n then nanF f flNV else (inf false, 0)
  | .fin n m x more =>
    if m = 0 then
      match o with
      | .frcp | .frsq => (inf n, flDZ)
      | .fexp2 => exp2F f n m x
      | .flog2 => (inf true, flDZ)
      | _ => (f.signBit n, 0)
    else
      match o with
      | .frcp => deliverF f mode (recipF n m x)
      | .fexp2 => exp2F f n m x
      | .ftanh => tanhF f n m x
      | .frsq => if n then nanF f flNV else deliverF f mode (rsqrtF m x)
      | .flog2 => if n then nanF f flNV else log2F f m x
      | _ => if n then nanF f flNV else deliverF f mode (match sqrtF m x with | .fin _ r y k => .fin false r y (k || more) | w => w)

/-- `frnd` (R160). -/
def rndF (f : FFmt) (mode : Nat) (x : Nat) : Nat × BitVec 5 :=
  match f.value x with
  | .nan s => nanF f (if s then flNV else 0)
  | .inf _ => (x, 0)
  | .fin n m e more => if m = 0 then (x, 0) else (f.code n (roundUnit n m e more 0 mode).1 0, 0)

/-- `fcmp`: conditions .eq .ne .lt .le .gt .ge .un .ord (R162). -/
def fcmpF (cond : Nat) (a b : FVal) : Bool × BitVec 5 :=
  if a.isNan || b.isNan then
    (cond == 1 || cond == 6, if (2 ≤ cond && cond ≤ 5) || a.isSnan || b.isSnan then flNV else 0)
  else
    let r := cmpF a b
    (match cond with
      | 0 => r == .eq
      | 1 => r != .eq
      | 2 => r == .lt
      | 3 => r != .gt
      | 4 => r == .gt
      | 5 => r != .lt
      | 6 => false
      | _ => true, 0)

/-- The class of a value (R163). -/
def classF (f : FFmt) (v : FVal) : Nat :=
  match v with
  | .nan s => if s then 8 else 9
  | .inf n => if n then 0 else 7
  | .fin n m x _ =>
    if m = 0 then (if n then 3 else 4)
    else
      let sub := decide ((bitLen m : Int) - 1 + x < f.emin)
      match n, sub with
      | true, false => 1
      | true, true => 2
      | false, true => 5
      | false, false => 6

namespace Ctx

/-- A source read under an IEEE type, as a code: a short float in that type (R85, R156). R85 does not say which NaN a
NaN is in `.f16`: the quiet one (DESIGN CHOICE, log 74). -/
def fcode (c : Ctx) (x : Src) (t : Ty) (l : Nat) : Nat :=
  match x with
  | .flt i =>
    let p := (i ++ 0#21).toNat
    match t with
    | .bf16 => p / 65536
    | .f16 => (deliverF fp16 0 (fp32.value p)).1
    | _ => p
  | y => c.bits y t.width l

/-- A source read under the word's IEEE type, as a value. -/
def fval (c : Ctx) (x : Src) (l : Nat) : FVal := (ieeeFmt c.f.ty).value (c.fcode x c.f.ty l)

/-- Writes float results of `n` bits and gathers the flags of every active lane (R152, R156). -/
def floatGo (c : Ctx) (n : Nat) (g : Nat → Nat × BitVec 5) : Eff :=
  let fl := c.lanes.foldl (fun acc l => acc ||| (g (c.ofLane l)).2) 0
  let s := c.s.updTeam c.is.team fun t => t.gather fl
  .go (c.advance (c.write s n false false fun l => (g l).1))

/-- Writes a guard of float comparisons and gathers flags. -/
def floatGuard (c : Ctx) (g : Nat → Bool × BitVec 5) : Eff :=
  let fl := c.lanes.foldl (fun acc l => acc ||| (g (c.ofLane l)).2) 0
  let s := c.s.updTeam c.is.team fun t => t.gather fl
  .go (c.advance (c.writeGuard s fun l => (g l).1))

end Ctx

/-- `fadd` (R157) -/
def execFadd (f : Form) (s : State) : Res :=
  wordIns .fadd f s fun c => c.floatGo f.ty.width fun l => addF (ieeeFmt f.ty) f.q2 (c.fval f.a l) (c.fval f.b l)

/-- `fsub` (R157) -/
def execFsub (f : Form) (s : State) : Res :=
  wordIns .fsub f s fun c => c.floatGo f.ty.width fun l => addF (ieeeFmt f.ty) f.q2 (c.fval f.a l) (c.fval f.b l).negate

/-- `fmul` (R157) -/
def execFmul (f : Form) (s : State) : Res :=
  wordIns .fmul f s fun c => c.floatGo f.ty.width fun l => timesF (ieeeFmt f.ty) f.q2 (c.fval f.a l) (c.fval f.b l)

/-- `ffma` (R157) -/
def execFfma (f : Form) (s : State) : Res :=
  wordIns .ffma f s fun c =>
    c.floatGo f.ty.width fun l => fmaF (ieeeFmt f.ty) f.q2 (c.fval f.a l) (c.fval f.b l) (c.fval f.c l)

/-- `fmin` (R159) -/
def execFmin (f : Form) (s : State) : Res :=
  wordIns .fmin f s fun c =>
    c.floatGo f.ty.width fun l => minmaxF (ieeeFmt f.ty) false (c.fcode f.a f.ty l) (c.fcode f.b f.ty l)

/-- `fmax` (R159) -/
def execFmax (f : Form) (s : State) : Res :=
  wordIns .fmax f s fun c =>
    c.floatGo f.ty.width fun l => minmaxF (ieeeFmt f.ty) true (c.fcode f.a f.ty l) (c.fcode f.b f.ty l)

/-- `frcp` (R158) -/
def execFrcp (f : Form) (s : State) : Res :=
  wordIns .frcp f s fun c => c.floatGo f.ty.width fun l => unaryF .frcp (ieeeFmt f.ty) f.q2 (c.fval f.a l)

/-- `frsq` (R158) -/
def execFrsq (f : Form) (s : State) : Res :=
  wordIns .frsq f s fun c => c.floatGo f.ty.width fun l => unaryF .frsq (ieeeFmt f.ty) 0 (c.fval f.a l)

/-- `fsqrt` (R158) -/
def execFsqrt (f : Form) (s : State) : Res :=
  wordIns .fsqrt f s fun c => c.floatGo f.ty.width fun l => unaryF .fsqrt (ieeeFmt f.ty) f.q2 (c.fval f.a l)

/-- `fexp2` (R158) -/
def execFexp2 (f : Form) (s : State) : Res :=
  wordIns .fexp2 f s fun c => c.floatGo f.ty.width fun l => unaryF .fexp2 (ieeeFmt f.ty) 0 (c.fval f.a l)

/-- `flog2` (R158) -/
def execFlog2 (f : Form) (s : State) : Res :=
  wordIns .flog2 f s fun c => c.floatGo f.ty.width fun l => unaryF .flog2 (ieeeFmt f.ty) 0 (c.fval f.a l)

/-- `ftanh` (R158) -/
def execFtanh (f : Form) (s : State) : Res :=
  wordIns .ftanh f s fun c => c.floatGo f.ty.width fun l => unaryF .ftanh (ieeeFmt f.ty) 0 (c.fval f.a l)

/-- `fcmp` (R162) -/
def execFcmp (f : Form) (s : State) : Res :=
  wordIns .fcmp f s fun c => c.floatGuard fun l => fcmpF f.q3 (c.fval f.a l) (c.fval f.b l)

/-- `fclass` (R163) -/
def execFclass (f : Form) (s : State) : Res :=
  wordIns .fclass f s fun c =>
    c.floatGuard fun l => ((c.sc f.b).getLsbD (classF (ieeeFmt f.ty) (c.fval f.a l)), 0)

/-- `frnd` (R160) -/
def execFrnd (f : Form) (s : State) : Res :=
  wordIns .frnd f s fun c => c.floatGo f.ty.width fun l => rndF (ieeeFmt f.ty) f.q2 (c.fcode f.a f.ty l)

/-- The two halves of an `hfma2` operand: a short float fills both (R161). -/
def Ctx.halves (c : Ctx) (x : Src) (l : Nat) : Nat × Nat :=
  match x with
  | .flt _ => let p := c.fcode x c.f.ty l; (p, p)
  | y => (c.u32 y l % 65536, c.u32 y l / 65536)

/-- `hfma2` (R161) -/
def execHfma2 (f : Form) (s : State) : Res :=
  wordIns .hfma2 f s fun c => c.floatGo 32 fun l =>
    let g := ieeeFmt f.ty
    let a := c.halves f.a l
    let b := c.halves f.b l
    let d := c.halves f.c l
    let lo := fmaF g f.q2 (g.value a.1) (g.value b.1) (g.value d.1)
    let hi := fmaF g f.q2 (g.value a.2) (g.value b.2) (g.value d.2)
    (lo.1 + 65536 * hi.1, lo.2 ||| hi.2)

end Sys2Proof.Machine
end

