-- ==== Sys2Proof/Machine/FormatIns.lean ====
section
/-!
DEFINITION. The format and convert family: opcodes 0x180-0x186 (07 R164-R168).
-/

namespace Sys2Proof.Machine

/-- The values of elements in a 32-bit register (R146). -/
def element (v : BitVec 32) (reg i : Nat) : FVal :=
  (narrowFmt v).value (reg / 2 ^ (fmtContainer v * i) % 2 ^ fmtWidth v)

namespace Ctx

/-- The value of the format register that a type names (R153). -/
def fmtOf (c : Ctx) (t : Ty) : BitVec 32 := match t with | .fmt n => c.w.fmt n.toNat | _ => 0

/-- The second type suffix (R81). -/
def ty2 (c : Ctx) : Ty := match c.f.c with | .ty t => t | _ => .none

/-- The first illegal format among those the word names (R144). -/
def illegal (c : Ctx) : Option Nat := (fmtTypes c.f).findSome? fun n => illegalFmt (c.w.fmt n.toNat)

/-- A block scale σ (R147). -/
def sigma (c : Ctx) (x : Src) (l : Nat) : Int := toS 8 (c.u32 x l % 256)

/-- The format of a type: narrow or IEEE. -/
def fmtFor (c : Ctx) (t : Ty) : FFmt := if t.isFmt then narrowFmt (c.fmtOf t) else ieeeFmt t

/-- A source of a conversion as an exact value under its type (R145, R155, R164). -/
def convSrc (c : Ctx) (x : Src) (t : Ty) (l : Nat) : FVal :=
  if t.isFmt then element (c.fmtOf t) (c.u32 x l) 0
  else if t.isInt then .ofInt (c.int x t l)
  else (ieeeFmt t).value (c.fcode x t l)

/-- Writes the results of conversions of each lane, or raises the format-overflow fault with the lowest sub-cause met
and the lanes that met it; a word with a scalar destination converts the value of its lowest active lane (R57, R149,
R152), and its fault names every active lane, where no rule says which (DESIGN CHOICE, log 74). -/
def convGo (c : Ctx) (n : Nat) (signed : Bool) (g : Nat → Conv) : Eff :=
  let g := fun l => g (c.ofLane l)
  let sub := fun l => match g l with | .trap k => some k | .ok _ _ => none
  match c.lanes.filterMap sub |>.min? with
  | some k => .trap { c.fault 11 k with mask := maskBy fun l => c.active.getLsbD l && sub l == some k }
  | none =>
    let val := fun l => match g l with | .ok x fl => (x, fl) | .trap _ => (0, 0)
    let fl := c.lanes.foldl (fun acc l => acc ||| (val l).2) 0
    let s := c.s.updTeam c.is.team fun t => t.gather fl
    .go (c.advance (c.write s n signed false fun l => (val l).1))

/-- The own faults of a word that names a format come first: an illegal format names every lane of the group
(R144). -/
def withFmt (c : Ctx) (k : Eff) : Eff :=
  match c.illegal with
  | some sub => .trap { c.fault 10 sub with mask := c.is.lanes }
  | none => k

/-- One element quantised under a block scale (R165). -/
def quantise (c : Ctx) (f : FFmt) (v : FVal) (σ : Int) : Conv :=
  if σ = -128 then .ok 0 0 else convF f c.f.q2 c.f.ovf (v.scale (-σ))

/-- One element widened under a block scale (R165). -/
def widen (c : Ctx) (v : FVal) (σ : Int) : Conv :=
  if σ = -128 then .ok 0 0 else convF fp32 c.f.q2 c.f.ovf (v.scale σ)

end Ctx

/-- `cvt` (R164) -/
def execCvt (f : Form) (s : State) : Res :=
  wordIns .cvt f s fun c => c.withFmt <|
    let t := f.ty
    if t.isInt then
      c.convGo t.width t.isS fun l =>
        let r := convInt t.isS t.width f.q2 (c.convSrc f.a c.ty2 l)
        .ok r.1 r.2
    else
      let n := if t.isFmt then fmtContainer (c.fmtOf t) else t.width
      c.convGo n false fun l => convF (c.fmtFor t) f.q2 f.ovf (c.convSrc f.a c.ty2 l)

/-- `cvt.q` (R165) -/
def execCvtQ (f : Form) (s : State) : Res :=
  wordIns .cvtQ f s fun c => c.withFmt <|
    c.convGo (fmtContainer (c.fmtOf f.ty)) false fun l =>
      c.quantise (narrowFmt (c.fmtOf f.ty)) (c.convSrc f.a .f32 l) (c.sigma f.b l)

/-- `cvt.w` (R165) -/
def execCvtW (f : Form) (s : State) : Res :=
  wordIns .cvtW f s fun c => c.withFmt <|
    c.convGo 32 false fun l => c.widen (c.convSrc f.a c.ty2 l) (c.sigma f.b l)

/-- A conversion of several elements a lane: the lowest sub-cause that any element meets (R166). -/
def worst (rs : List Conv) : Option Nat := (rs.filterMap fun r => match r with | .trap k => some k | _ => none).min?

/-- The code and the flags of a conversion that did not trap. -/
def Conv.val : Conv → Nat × BitVec 5
  | .ok x fl => (x, fl)
  | .trap _ => (0, 0)

/-- `qpack`: the register range is checked after the format (R166). -/
def execQpack (f : Form) (s : State) : Res :=
  wordIns .qpack f s fun c => c.withFmt <|
    let v := c.fmtOf f.ty
    let k := fmtCount v
    let va := match f.a with | .v n => n.toNat | _ => 0
    if va + k > c.t.vregs - c.t.depth then .trap { c.fault 2 1 with mask := c.is.lanes }
    else
      let parts := fun l => (List.range k).map fun i =>
        c.quantise (narrowFmt v) (fp32.value (c.t.readV (va + i) l).toNat) (c.sigma f.b l)
      c.convGo 32 false fun l =>
        match worst (parts l) with
        | some sub => .trap sub
        | none =>
          let rs := (parts l).map Conv.val
          .ok ((rs.zipIdx.foldl (fun acc (r, i) => acc + r.1 * 2 ^ (fmtContainer v * i)) 0))
            (rs.foldl (fun acc r => acc ||| r.2) 0)

/-- `qunpack`: every source is read before any register is written (R166). -/
def execQunpack (f : Form) (s : State) : Res :=
  wordIns .qunpack f s fun c => c.withFmt <|
    let v := c.fmtOf c.ty2
    let k := fmtCount v
    let vd := match f.d.dst with | some (.v n) => n.toNat | _ => 0
    if vd + k > c.t.vregs - c.t.depth then .trap { c.fault 2 1 with mask := c.is.lanes }
    else
      let parts := fun l => (List.range k).map fun i => c.widen (element v (c.u32 f.a l) i) (c.sigma f.b l)
      match (c.lanes.filterMap fun l => worst (parts l)).min? with
      | some sub => .trap { c.fault 11 sub with mask := maskBy fun l => c.active.getLsbD l && worst (parts l) == some sub }
      | none =>
        let fl := c.lanes.foldl (fun acc l => (parts l).foldl (fun acc r => acc ||| r.val.2) acc) 0
        let s := c.s.updTeam c.is.team fun t =>
          c.lanes.foldl (fun t l => (parts l).zipIdx.foldl (fun t (r, i) =>
            t.writeV (vd + i) l (BitVec.ofNat 32 r.val.1)) t) (t.gather fl)
        .go (c.advance s)

/-- Σ that fits a value into a format (R167). -/
def fitScale (f : FFmt) (v : FVal) : Nat × BitVec 5 :=
  match v with
  | .fin _ m x _ =>
    if m = 0 then (128, 0)
    else
      let emax : Int := (bitLen f.largest.1 : Int) - 1 + f.largest.2
      let σ : Int := (bitLen m : Int) - 1 + x - emax
      (wrapN 8 (max (-127) (min 127 σ)), 0)
  | _ => (127, flNV)

/-- `bscale` (R167) -/
def execBscale (f : Form) (s : State) : Res :=
  wordIns .bscale f s fun c => c.withFmt <|
    c.floatGo 8 fun l => fitScale (narrowFmt (c.fmtOf f.ty)) (c.convSrc f.a .f32 l)

/-- An exact sum of products added to an FP32 accumulator with one rounding (R168, R169). -/
def dotF (ps : List (FVal × FVal)) (acc : FVal) : Nat × BitVec 5 :=
  let anyNan := acc.isNan || ps.any fun (a, b) => a.isNan || b.isNan
  let prods := ps.filterMap fun (a, b) => if a.isNan || b.isNan then none else some (mulF a b)
  let invalid := prods.any Option.isNone
  let vals := prods.filterMap id
  let pinf := (acc :: vals).any fun v => v.isInf && !v.neg?
  let ninf := (acc :: vals).any fun v => v.isInf && v.neg?
  if anyNan || invalid || (pinf && ninf) then
    nanF fp32 (if invalid || (!anyNan && pinf && ninf) || acc.isSnan || ps.any (fun (a, b) => a.isSnan || b.isSnan) then flNV
      else 0)
  else match sumF (vals ++ [acc]) 0 with
    | some v => deliverF fp32 0 v
    | none => nanF fp32 flNV

/-- `bdot4` (R168) -/
def execBdot4 (f : Form) (s : State) : Res :=
  wordIns .bdot4 f s fun c => c.withFmt <|
    let v := c.fmtOf f.ty
    c.floatGo 32 fun l =>
      dotF ((List.range 4).map fun i => (element v (c.u32 f.a l) i, element v (c.u32 f.b l) i))
        (fp32.value (c.fcode f.c .f32 l))

end Sys2Proof.Machine
end

