-- ==== Sys2Proof/Machine/Select.lean ====
section
/-!
DEFINITION. Choosing what issues (02 R42-R46, R54): issue groups, which of them are ready, the order of a team's ready
groups, and the selections of one cycle, which go through the pipes one at a time (log 2).
-/

namespace Sys2Proof.Machine

/-- Whether the operations of two workgroups of a core enter one queue (R50-R52). -/
def MatrixHold.shares : MatrixHold → MatrixHold → Bool
  | .whole, .whole => true
  | .half a, .half b => a == b
  | _, _ => false

namespace Ctx

/-- The teams that a mask names, by TEAMID (R326). -/
def named (c : Ctx) (m : Mask) : List Nat :=
  ((c.s.teamsOf c.t.wg).map fun (_, t) => t.teamid).filter fun i => m == 0 || m.getLsbD i

/-- The oldest open group of slices of a mask that the team has not joined (R326). -/
def openInst (c : Ctx) (m : Mask) : Option AsmInst :=
  c.w.asm.find? fun a => a.mask == m && !(a.slices.any fun x => x.team == c.is.team)

/-- The mask of a copy (R326). -/
def copyMask (c : Ctx) : Mask := (c.sc c.f.c).setWidth 32

/-- The teams from which a slice of a mask is still to come once this team has contributed. -/
def missing (c : Ctx) (m : Mask) : List Nat :=
  (match c.openInst m with | some a => a.missing | none => c.named m).filter (· != c.t.teamid)

/-- Whether the copy engine takes a slice of a mask now: of the 8 open ones a new one is left, and the last slice finds
room in the copy queue (R318, R326). -/
def copyRoom (c : Ctx) (m : Mask) : Bool :=
  ((c.openInst m).isSome || decide (c.w.asm.length < 8))
    && (c.missing m != [] || decide ((c.s.core c.t.core).copyQ.length < 32))

end Ctx

namespace State

/-- The queue of a core's matrix unit that a workgroup's operations enter (R50, R52). -/
def matrixQueue (s : State) (w : Wg) : List Cmd :=
  let m := (s.core w.core).matrix
  match w.matrix with | .half 1 => m.q1 | _ => m.q0

/-- Whether an `mma` of a team that operates a matrix unit or half of a core has enqueued some of its operations only (R49,
R50). -/
def mmaOpen (s : State) (core : Nat) (m : MatrixHold) : Bool :=
  s.teams.any fun (_, y) => y.resident && y.core == core && (s.wg y.wg).matrix.shares m
    && y.lanes.any fun (_, x) => match x.wait with
      | some (.mma _ _ _ _ _) => true
      | _ => false

/-- Whether the matrix queue of a team takes an operation now (R49, R318). -/
def matrixRoom (s : State) (t : Nat) : Bool := (s.matrixQueue (s.teamWg t)).length < 8 && !s.mmaOpen (s.teamWg t).core (s.teamWg t).matrix

/-- The batches of a list that are unfinished: those from the first with an incomplete command on (R331, R346). -/
def unfinished (bs : List Batch) : List Batch := bs.dropWhile (·.cmds.isEmpty)

/-- Room in an engine queue, without which an instruction is not ready (R43, R49, R318, R326, R331, R346). A word that
takes no place, without an active lane or a matrix unit, needs none. -/
def roomFor (s : State) (t : Nat) (lanes : Mask) (o : Op) (f : Form) : Bool :=
  let c := ctxOf o f s { team := t, lanes := lanes, pc := 0, word := 0, port := 1 }
  c.active == 0 || match o with
  | .copySeal => (unfinished c.t.sealed).length < 8
  | .mma | .accldGet | .accldPut | .accldZero | .accst => c.w.matrix == .none || s.matrixRoom t
  | .copy | .copyGen => c.copyRoom c.copyMask
  | .coll => decide ((s.core c.t.core).copyQ.length < 32) && decide ((unfinished c.t.collCmds).length < 32)
  | _ => true

/-- Containers per register of the format that a word names first (R146). -/
def packsOf (s : State) (t : Nat) (f : Form) : Nat :=
  match fmtTypes f with | n :: _ => fmtCount (((s.teamWg t).seenBy t).fmt n.toNat) | [] => 1

/-- Whether no outstanding command or load holds a register or latch that the word reads or writes (R21). -/
def unlocked (s : State) (t : Nat) (o : Op) (f : Form) : Bool :=
  let k := s.packsOf t f
  let names := regsRead o f k ++ regsWritten o f k ++ (latchesRead f).map (344 + ·)
    ++ (match f.d.lat with | some b => [344 + b.toNat] | none => [])
  (s.team t).locks.all fun (r, _) => !names.contains r

/-- Whether a group is ready: its stall counts have run out, its operands are available and there is room for what it
does (R43). A PC at which no word can be fetched is ready, and faults; a word whose page is under migration or in no TLB is
waited for (R203, R283), also where the group's chain has still to be looked at (R97). -/
def groupReady (s : State) (t : Nat) (pc : Word) (lanes : Mask) : Bool :=
  let x := s.team t
  (lanesOf lanes).all (fun l => decide ((x.lane l).readyAt ≤ s.cycle)) && !s.fetchHeld t pc
    && !((x.chain.map (·.look)).getD false) &&
    match (s.fetch t pc).1 with
    | .word w => match decodeRaw (Raw.ofWord w) with
      | .ok (o, f) => s.unlocked t o f && s.roomFor t lanes o f
      | .error _ => true
    | _ => true

/-- The lanes of a team that may issue: running, not held, and the trapping lanes alone while the team is in its
handler (R41, R400). -/
def issuable (t : Team) : Mask :=
  let m := maskBy fun l => let x := t.lane l; x.st == LaneState.running && x.hold.isNone
  match t.handler with | some h => m &&& h.lanes | none => m

/-- The issue groups of a team: its issuable lanes by equal PC (R43), or the group of its open chain (R44). -/
def groups (t : Team) : List (Word × Mask) :=
  let m := issuable t
  match t.chain with
  | some ch =>
    let g := ch.lanes &&& m
    match lowest g with
    | some l => [((t.lane l).pc, g)]
    | none => []
  | none =>
    ((lanesOf m).map fun l => (t.lane l).pc).eraseDups.map fun pc =>
      (pc, maskBy fun l => m.getLsbD l && (t.lane l).pc == pc)

/-- Whether a team makes selections: resident, not stopped, and, outside a chain, not due to stop (R54, R102, R401). -/
def selecting (t : Team) : Bool :=
  t.resident && !t.halted && (t.chain.isSome || (!t.stopping && !(t.haltDue.isSome && t.skid ≥ 4)))

/-- The ready groups of a team. -/
def ready (s : State) (tk : Nat) : List (Word × Mask) :=
  let t := s.team tk
  if selecting t then (groups t).filter fun (pc, m) => s.groupReady tk pc m else []

end State

/-- Inserts into an ordered list, after the elements that come no later. -/
def insertBy {α : Type} (lt : α → α → Bool) (a : α) : List α → List α
  | [] => [a]
  | b :: bs => if lt a b then a :: b :: bs else b :: insertBy lt a bs

/-- Sorts a list; equal elements keep their order. -/
def sortBy {α : Type} (lt : α → α → Bool) (l : List α) : List α := l.foldl (fun acc a => insertBy lt a acc) []

/-- The fairness limit F (R44). -/
def Team.fairness (t : Team) : Nat := max 8 (bitsOf t.fairctl 11 0)

/-- The greatest age that a group holds. -/
def Team.ageOf (t : Team) (m : Mask) : Nat := (lanesOf m).foldl (fun a l => max a (t.lane l).age) 0

/-- The order in which a team's ready groups issue (R44). -/
def orderGroups (t : Team) (promise : Bool) (gs : List (Word × Mask)) : List (Word × Mask) :=
  let byPc := sortBy (fun (a b : Word × Mask) => decide (a.1 < b.1)) gs
  if !promise then byPc
  else
    let late := fun (g : Word × Mask) => decide (t.ageOf g.2 ≥ t.fairness)
    let marked := fun (g : Word × Mask) => (lanesOf g.2).all fun l => (t.lane l).yld
    let first := sortBy (fun (a b : Word × Mask) => decide (t.ageOf b.2 < t.ageOf a.2)) (byPc.filter late)
    let rest := byPc.filter fun g => !late g
    first ++ (rest.filter fun g => !marked g) ++ rest.filter marked

/-- Pairable (R44): pair-prohibit is W[75], LEN is W[56], and the family is W[95:93]. -/
def pairable (a b : IWord) : Bool :=
  let fam := fun (w : IWord) => (w.extractLsb' 93 3).toNat
  !(a.getLsbD 75 || b.getLsbD 75 || b.getLsbD 56
    || (fam a == fam b && (fam a == 4 || fam a == 5 || fam a == 6)))

namespace State

/-- Whether a notice trap is due for a team before its next issue (R68). -/
def noticeDue (t : Team) : Bool :=
  (t.notice.extractLsb' 0 4).toNat &&& t.nten != 0 && !t.masked && t.priv != 1 && t.handler.isNone && t.chain.isNone

/-- The word at a PC, 0 where none can be fetched. -/
def wordAt (s : State) (t : Nat) (pc : Word) : IWord := match (s.fetch t pc).1 with | .word w => w | _ => 0

/-- What a slot of the cycle comes to: an instruction that executes in a state, or a state in which the slot is over. -/
inductive Slot where
  | run (i : Instr) (s : State)
  | done (s : State)

/-- A breakpoint set on the logical name of a thread matches as the thread issues, wherever it runs (R359). -/
def matchBreaks (s : State) (t : Nat) (lanes : Mask) : State :=
  let x := s.team t
  let w := s.wg x.wg
  let g := s.gangs.get { launch := 0 } w.gang
  let lid := ((s.launches.find? g.launch).map (·.lid)).getD 0
  { s with breaks := s.breaks.map fun (k, b) =>
      (k, if b.lid == lid && b.gangid == g.gangid && b.wgid == w.wgid && b.teamid == x.teamid && lanes.getLsbD b.lane
          then { b with hit := true } else b) }

/-- A group issues through a port: its word is fetched and stands at the port (R40, R92). The second halves of its team's
16-byte weak stores are performed first (R260). -/
def issueGroup (s : State) (t : Nat) (pc : Word) (lanes : Mask) (port : Nat) : Slot :=
  let x := s.team t
  let outside := match ((s.core x.core).pipes.get {} x.pipe).loop with
    | some b => b.team == t && (decide (pc < b.lo) || decide (b.hi < pc))
    | none => false
  let s := if outside then s.endLoop t else s
  let s := s.endHalves (·.team == t)
  let s := (s.matchBreaks t lanes).updCore x.core fun c =>
    { c with pipes := c.pipes.upd {} x.pipe fun p => { p with issued := true } }
  match s.fetch t pc with
  | (.word w, s) =>
    let s := { s with issue := some { team := t, lanes := lanes, pc := pc, word := w, port := port } }
    match decode w with
    | .ok i => .run i s
    | .error e => .run (.illegalInstructionWord e) s
  | (.range, s) =>
    .run (.illegalInstructionWord .fetchRange)
      { s with issue := some { team := t, lanes := lanes, pc := pc, word := 0, port := port } }
  | (.fault sub va, s) =>
    let part := s.teamPart t
    let s := s.recordWalk x.core part va sub
    .done (s.raise t lanes pc 0 { cause := 5, sub := sub, mask := lanes, addr := va, d0 := s.ownerDetail part va } true)

/-- Each lane of some groups gains one of age (R43). -/
def bumpAges (s : State) (t : Nat) (m : Mask) : State :=
  s.updTeam t fun x => x.mapLanes (m.getLsbD ·) fun _ l => if l.st == LaneState.running then { l with age := l.age + 1 } else l

/-- The selection of a team (R44): the first ready group issues through port 1, and the second stands for port 2
where the two may pair; the others gain age and the yield marks set before are cleared. -/
def select (s : State) (tk : Nat) : Slot :=
  let t := s.team tk
  let s := s.updCore t.core fun c => { c with pipes := c.pipes.upd {} t.pipe fun p => { p with last := t.slot } }
  if noticeDue t then .run (.noticeTrap tk) { s with issue := none }
  else
    match orderGroups t (s.teamWg tk).fpp (s.ready tk) with
    | [] => .done s
    | (pc, m) :: rest =>
      if t.chain.isSome then s.issueGroup tk pc m 1
      else
        let two : Option (Word × Mask) := match rest with
          | (pc2, m2) :: _ => if pairable (s.wordAt tk pc) (s.wordAt tk pc2) then some (pc2, m2) else none
          | [] => none
        let left := rest.foldl (fun (acc : Mask) g => acc ||| g.2) 0 &&& ~~~(match two with | some (_, m2) => m2 | none => 0)
        let s := (s.updTeam tk fun x => x.mapLanes (fun _ => true) fun _ l => { l with yld := false }).bumpAges tk left
        let s := { s with second := two.map fun (g : Word × Mask) => (tk, g.2, g.1) }
        s.issueGroup tk pc m 1

/-- The group that stands for port 2 issues after the first has taken effect, if it is still ready and the first has not
stopped its team (R44, R45, R388). -/
def selectSecond (s : State) (tk : Nat) (m : Mask) (pc : Word) : Slot :=
  let t := s.team tk
  let s := { s with second := none }
  let still := selecting t && m &&& issuable t == m && (lanesOf m).all (fun l => (t.lane l).pc == pc)
    && s.groupReady tk pc m
  if still then s.issueGroup tk pc m 2 else .done (s.bumpAges tk m)

/-- The team that a pipe picks: the one with an open chain whose group is ready, or the next in round-robin order that
has a ready group (R42). Of two teams with open chains that are both ready, which no rule orders, the one of the lower
number is picked (DESIGN CHOICE, log 74). -/
def pickTeam (s : State) (core pipe : Nat) : Option Nat :=
  let here := s.teams.filter fun (_, t) => t.core == core && t.pipe == pipe && selecting t
  let able := here.filter fun (k, _) => s.ready k != []
  match List.find? (fun (x : Nat × Team) => x.2.chain.isSome) able with
  | some (k, _) => some k
  | none =>
    let last := ((s.core core).pipes.get {} pipe).last
    let place := fun (t : Team) => (t.slot + 15 - last) % 16
    (sortBy (fun (a b : Nat × Team) => decide (place a.2 < place b.2)) able).head?.map (·.1)

/-- The first pipe slot of a cluster from a place on that issues, and the team it picks. -/
def firstPick (s : State) (rq turn : Nat) : Option (Nat × Nat) :=
  ((List.range 16).drop turn).findSome? fun k => (s.pickTeam (4 * rq + k / 4) (k % 4)).map fun t => (k, t)

/-- The next slot of the cycle that issues: the clusters still to go, the place after it, and the team. -/
def scan (s : State) : List Nat → Nat → Option (List Nat × Nat × Nat)
  | [], _ => none
  | rq :: rest, turn => match s.firstPick rq turn with
    | some (k, t) => some (rq :: rest, k + 1, t)
    | none => s.scan rest 0

end State

end Sys2Proof.Machine
end

