-- ==== Sys2Proof/Machine/Access.lean ====
section
/-!
DEFINITION. Accesses to memory: the order of checks (11 R257), what a load delivers (11 R258, R259), how a store, an
atomic or a reduction is performed (11 R259-R263, 10 R231), and scratchpad accesses with guard granules and full/empty
bits (08 R176, R182-R185).
-/

namespace Sys2Proof.Machine

/-- The segment register of a space: `.g` 0, `.s` 1, `.c` 2, `.k` 3 (R80, R171). -/
def segOf (sp : Nat) : Nat := if sp = 3 then 4 else sp

/-- Whether a space is translated (R257 step 6). -/
def isGlobal (sp : Nat) : Bool := sp == 0 || sp == 3

namespace State

/-- Whether a workgroup lacks a write token that `n` bytes at a global byte need (R235). -/
def tokenLacking (s : State) (wg : Nat) (ga n : Nat) : Bool :=
  let w := s.wg wg
  let part := gaPart ga
  s.regions.any fun (k, r) => k / 65536 == part && r.bindings.any fun (_, lo, len, line, guarded) =>
    guarded && decide (lo < gaVa ga + n) && decide (gaVa ga < lo + len)
      && (s.syncs.get {} (gaOf part (128 * line) / 128)).excl != some (w.gang, w.wgid)

/-- The links that hold up, in this cycle, the reads that a weak store makes of the rest of a word (R189, R299). -/
def fillShut (s : State) (core : Nat) (writes : List (Nat × Nat × List Byte)) : Option State :=
  writes.findSome? fun (_, ga, bs) =>
    if s.storeFills core ga bs.length then s.readShut (coreDie core) ga bs.length else none

/-- Removes the words that an access touches from its own core's L1, after writing back the dirty ones (R231). -/
def dropOwn (s : State) (core ga n : Nat) : State :=
  let m := wordMask (ga % 128) n
  (s.writeBackWords core (ga / 128) m).dropWords core (ga / 128) m

/-- The bytes of a weak load at a core: valid words of the L1, otherwise the die copy or the home (R230). -/
def weakBytes (s : State) (core ga n : Nat) : List Byte :=
  let line := ga / 128
  let x := s.l1 core line
  lineBytes (overlay (s.lineSeen core line) (wordBytes x.valid) x.data) (ga % 128) n

/-- Whether the words of `n` bytes are valid in the L1 of a core. -/
def l1Hit (s : State) (core ga n : Nat) : Bool :=
  let m := wordMask (ga % 128) n
  (s.l1 core (ga / 128)).valid &&& m == m

/-- Whether a strong access of a core to a line has still to be performed: a weak access of that core waits for it
(R230). -/
def strongOn (s : State) (core line : Nat) : Bool :=
  s.msgs.any fun (_, m) => match m.body with
    | .strong c l _ _ _ _ _ => c == s.unit core && l == line
    | _ => false

/-- Of some missing lines, in their order, those that can be allocated: in whose set a way is left that has no fill of
another line outstanding (R233). -/
def allocLines (s : State) (core : Nat) (lines : List Nat) : List Nat :=
  lines.foldl (fun taken line =>
    let same := taken.filter fun l => s.slice core l == s.slice core line && s.setOf core l == s.setOf core line
    if ((s.filling core line ++ same).eraseDups.filter (· != line)).length < 8 then taken ++ [line] else taken) []

end State

/-! What a load delivers. -/

/-- The value of bytes of a load as a number, little-endian. -/
def loadNat (bs : List Byte) : Nat := (ofBytes 128 bs).toNat

/-- The halves of a load of 16 bytes, the lower address first (R260). -/
def Load.lower (d : Load) : Load := { d with n := 8 }
def Load.upper (d : Load) : Load :=
  { d with n := 8, latch := none, addrs := d.addrs.map (fun (l, a) => (l, a + 8)), offs := d.offs.map (fun (l, a) => (l, a + 8)),
           dest := match d.dest with | .vec r => .vec (r + 2) | x => x }

namespace State

/-- Delivers the lanes' bytes of a load to its destination (R57-R59, R258, R259). A latch takes them only in the chain in
which the load was issued (R98). -/
def deliver (s : State) (d : Load) (bytes : Nat → List Byte) : State :=
  let signed := d.ty.isS
  let nb := 8 * d.n
  s.updTeam d.team fun t =>
    let t := match d.dest with
      | .vec r => (lanesOf d.lanes).foldl (fun t l =>
          let x := loadNat (bytes l)
          if d.n = 16 then
            (List.range 4).foldl (fun t i => t.writeV (r + i) l (BitVec.ofNat 32 (x / 2 ^ (32 * i)))) t
          else t.writeDst (.v (BitVec.ofNat 8 r)) nb signed signed l x) t
      | .scalar r => match lowest d.lanes with
        | some l => t.writeDst (.s (BitVec.ofNat 6 r)) nb signed signed l (loadNat (bytes l))
        | none => t
      | .none => t
    let mine := match t.chain with | some ch => decide (ch.since ≤ d.since) | none => false
    match d.latch with
    | some b =>
      if mine then (lanesOf d.lanes).foldl (fun t l => t.writeLatch (BitVec.ofNat 2 b) nb signed l (loadNat (bytes l))) t
      else t
    | none => t

/-- The register codes that a load holds until its values return (R21). -/
def loadCodes (d : Load) : List Nat :=
  (match d.dest with
    | .vec r => (List.range (spanOf (8 * d.n))).map fun i => codeV (r + i)
    | .scalar r => [codeS r]
    | .none => []) ++ (match d.latch with | some b => [344 + b] | none => [])

/-- Issues an outstanding load: its registers are interlocked until it returns. -/
def issueLoad (s : State) (d : Load) : Nat × State :=
  let (n, s) := s.draw
  let (id, s) := s.newId
  let s := { s with loads := s.loads.put id { d with since := s.cycle, due := s.cycle + 1 + n } }
  (id, s.updTeam d.team fun t => { t with locks := t.locks ++ (loadCodes d).map fun r => (r, id) })

/-- Ends an outstanding load: its interlocks go, and lanes that were held for it issue again. -/
def endLoad (s : State) (id : Nat) : State :=
  match s.loads.find? id with
  | none => s
  | some d =>
    { s with loads := s.loads.erase id }.updTeam d.team fun t =>
      { t.mapLanes (fun _ => true) (fun _ x => if x.hold = some (Hold.fill id) then { x with hold := none } else x) with
        locks := t.locks.filter fun (_, k) => k != id }

/-- The cells that a lane of a full/empty load reaches, by the segment base of its issue (R176, R184, R380). -/
def feCells (s : State) (d : Load) (l : Nat) : List (Nat × Nat) :=
  let w := s.teamWg d.team
  (List.range d.n).filterMap fun k =>
    (s.spadByte w d.clus d.base (d.offs.get 0 l + k)).map fun (core, a, _) => (core, spadCell a d.col)

/-- Whether every granule that the load reaches is full (R185). -/
def feFull (s : State) (d : Load) : Bool :=
  (lanesOf d.lanes).all fun l => (s.feCells d l).all fun (core, cell) => s.seenFull core cell

/-- Where the k-th byte of a lane of a scratchpad load stands (R182). -/
def spadPlace (s : State) (d : Load) (l k : Nat) : Option (Nat × Nat × Bool) :=
  s.spadByte (s.teamWg d.team) d.clus d.base (d.offs.get 0 l + k)

/-- The bytes that a lane of a scratchpad load reads; guard bytes read as zero (R176, R182). -/
def spadBytes (s : State) (d : Load) (l : Nat) : List Byte :=
  (List.range d.n).map fun k => match s.spadPlace d l k with
    | some (core, a, false) => s.spadGet core (spadCell a d.col)
    | _ => 0

/-- A full/empty load is performed (R182, R185): its lanes read their data, `.fec` clears each granule once, and touches of
guard granules are recorded. -/
def feDone (s : State) (d : Load) : State :=
  let t := s.team d.team
  let at_ := s.spadPlace d
  let s1 := s.deliver d (s.spadBytes d)
  let s1 := if d.fe = 2 then
      ((lanesOf d.lanes).flatMap (s.feCells d)).foldl (fun s (core, cell) => s.setFull core cell false) s1
    else s1
  (lanesOf d.lanes).foldl (fun s l =>
    match (List.range d.n).findSome? fun k => match at_ l k with
      | some (_, a, true) => some (d.offs.get 0 l + k, a)
      | _ => none with
    | some (o, a) => s.touch t.wg o a t.teamid d.pc (d.lanes.setWidth 64)
    | none => s) s1

/-- Load hits make some lines of a core's L1 the most recently used of their sets (R188). -/
def touchLines (s : State) (core : Nat) (lines : List Nat) : State := lines.foldl (fun s l => s.touchLine core l) s

/-- Whether a load of a team is outstanding that reads, in a lane that stores, bytes which that lane stores: it must not
return the later store (R230). -/
def ownLoad (s : State) (team : Nat) (writes : List (Nat × Nat × List Byte)) : Bool :=
  s.loads.any fun (_, d) => d.team == team && writes.any fun (l, ga, bs) =>
    match d.addrs.find? l with
    | some a => decide (a < ga + bs.length) && decide (ga < a + d.n)
    | none => false

/-- The page of an address that missed, by the first of its addresses over 64 KiB: of any size, where one maps it (R283). -/
def missPage (s : State) (part va : Nat) : Nat :=
  match s.walk part va with
  | .leaf _ shift _ => va / 2 ^ shift * 2 ^ shift / 65536
  | .fault _ _ => va / 65536

/-- The walks of a cluster under way or waiting, oldest first, with their partitions and pages; and the one of a page
(R283). -/
def walks (s : State) (rq : Nat) : List (Nat × Nat × Nat) :=
  s.msgs.filterMap fun (k, m) => match m.body with
    | .walk q part page => if q = rq then some (k, part, page) else none
    | _ => none
def walkOf (s : State) (rq part page : Nat) : Option Nat :=
  ((s.walks rq).find? fun x => x.2 == (part, page)).map (·.1)

/-- Lanes of a team miss some addresses: each page joins the walk of its cluster that is under way or waits, or asks for one;
where the miss queue has no room for them all, the lanes are held until it has, which no rule says of several misses at once
(R283; DESIGN CHOICE, log 74). -/
def askWalks (s : State) (tk : Nat) (lanes : Mask) (write : Bool) (word : IWord) (want : List (Nat × Mask))
    (away : List Nat) : State :=
  let part := s.teamPart tk
  let rq := coreRq (s.team tk).core
  let pages := (away.map (s.missPage part)).eraseDups
  let new := pages.filter fun p => (s.walkOf rq part p).isNone
  if (s.walks rq).length + new.length > 272 then s.updTeam tk fun t => t.holdOn lanes .missRoom
  else
    let s := new.foldl (fun s p => s.send .request none part (.walk rq part p)) s
    let left := pages.filterMap (s.walkOf rq part)
    s.updTeam tk fun t => t.holdOn lanes (.walk left want write word)

/-- Asks the home for the lines of a load that its die does not hold (R230, R245). -/
def askLines (s : State) (core load : Nat) (lines : List Nat) : State :=
  lines.foldl (fun s line =>
    if (s.copyOf (coreDie core) line).isSome then s
    else s.send .request none (gaPart (128 * line)) (.copyRead (coreDie core) core line load)) s

/-- A weak load of a core, or half of one, with the load that is then outstanding (R189, R230, R233): where `now` and every
word stands valid in the L1 it delivers at its issue, a time of an L1 load that R433 leaves open (DESIGN CHOICE, log 74);
otherwise it is outstanding, and what its die lacks is asked for. Lines that hit are used (R188). -/
def weakPart (s : State) (d : Load) (now : Bool) : Option Nat × State :=
  let core := d.core
  let ls := lanesOf d.lanes
  let addr := fun l => d.addrs.get 0 l
  let hits := ls.filter fun l => s.l1Hit core (addr l) d.n
  let lines := ((ls.filter fun l => !s.l1Hit core (addr l) d.n).map fun l => addr l / 128).eraseDups
  let fills := s.allocLines core lines
  let s := s.touchLines core (hits.map fun l => addr l / 128).eraseDups
  if now && lines == [] then (none, s.deliver d fun l => s.weakBytes core (addr l) d.n)
  else
    let (id, s) := s.issueLoad { d with weak := true, lines := lines, fills := fills }
    (some id, s.askLines core id lines)

end State

namespace Ctx

def base (c : Ctx) (sp : Nat) : Nat := (c.t.seg (segOf sp)).base.toNat
def limit (c : Ctx) (sp : Nat) : Nat := (c.t.seg (segOf sp)).limit.toNat

/-- The segment check (R172). -/
def inSeg (c : Ctx) (sp : Nat) (off : Int) (n : Nat) : Bool := decide (0 ≤ off) && decide (off + n ≤ (c.limit sp : Int))

/-- The address that a frame names: a virtual address, or a segment offset (R397). -/
def frameAddr (c : Ctx) (sp : Nat) (off : Int) : Nat :=
  (BitVec.ofInt 64 (if isGlobal sp then c.base sp + off else off)).toNat

/-- The virtual address of an offset that has passed the segment check. -/
def va (c : Ctx) (sp : Nat) (off : Int) : Nat := c.base sp + off.toNat

/-- The global byte of an offset. -/
def gaddr (c : Ctx) (sp : Nat) (off : Int) : Nat := gaOf c.part (c.va sp off)

/-- The context in which lanes have gone Off and the rest stay active (R172). -/
def keep (c : Ctx) (rest off : Mask) : Ctx :=
  let s := c.s.teamOff c.is.team off
  { c with s := s, t := s.team c.is.team, active := rest }

/-- Every active lane goes Off, and the group goes on. -/
def allOff (c : Ctx) : Eff := let c' := c.keep 0 c.active; .go (c'.advance c'.s)

/-- Steps 3 and 4 of R257: alignment of every active lane, then the segment check, which tells the lanes that pass from
those that go Off. Nothing has changed yet. -/
def prep (c : Ctx) (sp n : Nat) (off : Nat → Int) (k : Mask → Mask → Eff) : Eff :=
  let bad := maskBy fun l => c.active.getLsbD l && (c.base sp + off l) % (n : Int) != 0
  if bad != 0 then
    .trap { c.fault 4 0 with mask := bad, addr := c.frameAddr sp (off ((lowest bad).getD 0)) }
  else
    let rest := maskBy fun l => c.active.getLsbD l && c.inSeg sp (off l) n
    k rest (c.active &&& ~~~rest)

/-- The translation fault of the lowest sub-cause among some pages with the lanes that reach them, or none (R281). -/
def transFault (c : Ctx) (res : List (Nat × Mask × State.Trans)) (k : Eff) : Eff :=
  let subs := res.filterMap fun (_, _, r) => match r with | .fault sub => some sub | _ => none
  match subs.min? with
  | none => k
  | some sub =>
    let hit := res.filter fun (_, _, r) => r == .fault sub
    let m := hit.foldl (fun (acc : Mask) x => acc ||| x.2.1) 0
    let low := (lowest m).getD 0
    let va := ((hit.find? fun (_, x, _) => x.getLsbD low).map (·.1)).getD 0
    .trapIn (c.s.recordWalk c.t.core c.part va sub)
      { c.fault 5 sub with mask := m, addr := va, d0 := c.s.ownerDetail c.part va }

/-- The context in which the TLB entries of some addresses have been used (R283). -/
def touched (c : Ctx) (want : List (Nat × Mask)) : Ctx :=
  { c with s := want.foldl (fun s (va, _) => s.tlbTouch c.t.core c.part va) c.s }

/-- A group that misses some addresses waits for their walks (R283). It waits whole while the queue has no room for
all of them (DESIGN CHOICE, log 74). -/
def miss (c : Ctx) (write : Bool) (want : List (Nat × Mask)) (away : List Nat) : Eff :=
  .again (c.s.askWalks c.is.team c.is.lanes write c.is.word want away)

/-- Step 6 of R257 over virtual addresses with the lanes that reach them (R281, R283): the group waits for walks while
a page is in no TLB. -/
def xlate (c : Ctx) (write : Bool) (want : List (Nat × Mask)) (k : Ctx → Eff) : Eff :=
  let res := want.map fun (va, m) => (va, m, c.s.translate c.t.core c.part va write)
  match res.filter fun (_, _, r) => r == .miss with
  | [] => c.transFault res (k (c.touched want))
  | away => c.miss write want (away.map (·.1))

/-- Step 7 of R257: the token check of writes to `.g` (R235). -/
def tokens (c : Ctx) (sub : Nat) (writes : List (Nat × Nat × Mask)) (k : Eff) : Eff :=
  let hit := writes.filter fun (ga, n, _) => c.s.tokenLacking c.t.wg ga n
  match hit with
  | [] => k
  | _ =>
    let m := hit.foldl (fun (acc : Mask) x => acc ||| x.2.2) 0
    let low := (lowest m).getD 0
    let ga := ((hit.find? fun (_, _, x) => x.getLsbD low).map (·.1)).getD 0
    .trap { c.fault 6 sub with mask := m, addr := gaVa ga, d0 := c.s.ownerDetail (gaPart ga) (gaVa ga) }

/-- The outstanding-load record of a word (R258). -/
def loadOf (c : Ctx) (lanes : Mask) : Load :=
  { team := c.is.team, core := c.t.core, lanes := lanes, ty := c.f.ty, n := c.f.ty.width / 8,
    dest := match c.f.d.dst with | some (.v r) => .vec r.toNat | some (.s r) => .scalar r.toNat | _ => .none,
    latch := c.f.d.lat.map (·.toNat), pc := c.is.pc, port := c.is.port, since := c.s.cycle }

/-! Scratchpad accesses. -/

/-- One byte of `.s` or `.c` at a segment offset: core, address in the array, and whether it is a guard byte. -/
def spadAt (c : Ctx) (sp off : Nat) : Option (Nat × Nat × Bool) := c.s.spadByte c.w (sp == 2) (c.base sp) off

/-- The first guard byte that an access touches: offset and array address (R182). -/
def guardAt (c : Ctx) (sp off n : Nat) : Option (Nat × Nat) :=
  (List.range n).findSome? fun k => match c.spadAt sp (off + k) with
    | some (_, a, true) => some (off + k, a)
    | _ => none

/-- Reads bytes in row or column orientation; guard bytes read as zero (R176, R182). -/
def spadRead (c : Ctx) (s : State) (sp off n : Nat) (col : Bool) : List Byte :=
  (List.range n).map fun k => match c.spadAt sp (off + k) with
    | some (core, a, false) => s.spadGet core (spadCell a col)
    | _ => 0

/-- The cells that a store of bytes reaches, and what it puts there; guard bytes are discarded (R182). -/
def spadCells (c : Ctx) (sp off : Nat) (col : Bool) (bs : List Byte) : List (Nat × Nat × Byte) :=
  ((List.range bs.length).zip bs).filterMap fun (k, b) => match c.spadAt sp (off + k) with
    | some (core, a, false) => some (core, spadCell a col, b)
    | _ => none

/-- Writes bytes; guard bytes are discarded (R182). -/
def spadWrite (c : Ctx) (s : State) (sp off : Nat) (col : Bool) (bs : List Byte) : State :=
  ((List.range bs.length).zip bs).foldl (fun s (k, b) => match c.spadAt sp (off + k) with
    | some (core, a, false) => s.spadPut core (spadCell a col) b
    | _ => s) s

/-- Records a guard touch of one lane's access (R182). -/
def spadTouch (c : Ctx) (s : State) (sp off n : Nat) : State :=
  match c.guardAt sp off n with
  | some (o, a) => s.touch c.t.wg o a c.t.teamid c.is.pc (c.active.setWidth 64)
  | none => s

end Ctx

/-! Stores, atomics and reductions. -/

/-- The new value of an atomic operation, and its flags (R263). -/
def atomCalc (op : Nat) (t : Ty) (old x cmp : Nat) : Nat × BitVec 5 :=
  let w := t.width
  if t == .f32 then
    match op with
    | 0 => addF fp32 0 (fp32.value old) (fp32.value x)
    | 1 => minmaxF fp32 false old x
    | _ => minmaxF fp32 true old x
  else
    let i := fun (n : Nat) => if t.isS then toS w n else (n : Int)
    (match op with
      | 0 => (old + x) % 2 ^ w
      | 1 => if i x < i old then x else old
      | 2 => if i old < i x then x else old
      | 3 => old &&& x
      | 4 => old ||| x
      | 5 => old ^^^ x
      | 6 => x
      | _ => if old = cmp then x else old, 0)

/-- Sends a strong access of some lanes to the home of a line; one of 16 bytes goes as two halves of 8, the lower address
first, between which another access may fall (R260). -/
def State.sendStrong (s : State) (core line team load : Nat) (write : Bool) (atom : Option (Nat × Ty))
    (ls : List StrongLane) : State :=
  let one := fun (s : State) (ls : List StrongLane) =>
    s.send .request (some (core, line)) (gaPart (128 * line)) (.strong core line team load write atom ls)
  if ls.all (·.n ≤ 8) then one s ls
  else
    one (one s (ls.map fun x => { x with n := 8, bytes := x.bytes.take 8 }))
      (ls.map fun x => { x with addr := x.addr + 8, n := 8, bytes := x.bytes.drop 8 })

/-- A number as `n` bytes. -/
def natBytes (n x : Nat) : List Byte := bytesOf n (BitVec.ofNat (8 * n) x)

namespace State

/-- Performs a store whose pledge stands: a weak one in the L1, in ascending lane order, of 16 bytes the first half; a strong
one, an atomic or a reduction leaves for the homes of its lines, one message a line (R189, R230, R231, R260, R263). -/
def performStore (s : State) (r : StoreReq) : State :=
  let s := s.teamOff r.team r.off
  let s := match r.cursor with
    | some (d, x) => s.updTeam r.team fun t => t.writeS d x
    | none => s
  if !r.strong then
    let s := r.writes.foldl (fun s (_, ga, bs) => s.l1Store r.core ga (bs.take 8)) s
    { s with halves := s.halves ++ r.writes.filterMap fun (_, ga, bs) =>
        if bs.length ≤ 8 then none else some { team := r.team, core := r.core, ga := ga + 8, bytes := bs.drop 8 } }
  else
    let lanesAt := fun (line : Nat) => (List.range r.writes.length).filterMap fun i =>
      match r.writes[i]? with
      | some (l, ga, bs) =>
        if ga / 128 = line then
          some ({ lane := l, addr := ga, n := bs.length, bytes := bs, cmp := r.cmp.getD i [] } : StrongLane)
        else none
      | none => none
    let atom := r.atom.map fun (op, ty, _) => (op, ty)
    let lines := (r.writes.map fun (_, ga, _) => ga / 128).eraseDups
    let s := r.writes.foldl (fun s (_, ga, bs) => s.dropOwn r.core ga bs.length) s
    let (load, s) := match r.atom with
      | some (_, ty, some vd) =>
        s.issueLoad { team := r.team, core := r.core, lanes := r.stores, ty := ty, n := ty.width / 8, dest := .vec vd,
                      pc := r.pc,
                      addrs := r.writes.foldl (fun (m : Tbl Nat) (w : Nat × Nat × List Byte) => m.put w.1 w.2.1) [] }
      | _ => (0, s)
    lines.foldl (fun s line => s.sendStrong (s.unit r.core) line r.team load true atom (lanesAt line)) s

/-- The blocks in which a store's bytes fall, by first appearance. -/
def storeBlocks (r : StoreReq) : List Nat :=
  (r.writes.flatMap fun (_, ga, bs) => [ga / 512, (ga + bs.length - 1) / 512]).eraseDups

end State

namespace Ctx

/-- Waits for room; the instruction issues again. -/
def retry (c : Ctx) : Eff := .again (c.s.updTeam c.is.team fun t => t.holdOn c.is.lanes .room)

/-- Waits while earlier accesses are outstanding; the instruction issues again. -/
def later (c : Ctx) (sync : Bool) : Eff := .again (c.s.updTeam c.is.team fun t => t.holdOn c.is.lanes (.earlier sync))

/-- Step 8 of R257 and the store itself, once no load of an own lane to the same bytes is outstanding (R230): performed at
once where every block is marked at the core; otherwise the group is held for the pledge decision (R207-R209, R264). -/
def store (c : Ctx) (rest off : Mask) (r : StoreReq) : Eff :=
  let r := { r with off := off, stores := rest, lanes := c.is.lanes, word := c.is.word, pc := c.is.pc,
                    chain := c.ownChain.map fun ch => (ch.pc0, ch.len) }
  if r.writes = [] then .go (c.advance (c.s.performStore r))
  else if c.s.ownLoad c.is.team r.writes || (!r.strong && r.writes.any fun (_, ga, _) => c.s.strongOn c.t.core (ga / 128))
  then c.later false
  else match (if r.strong then none else c.s.fillShut r.core r.writes) with
  | some s => { c with s := s }.later false
  | none =>
    let ks := State.storeBlocks r
    let marked := (c.s.core (c.s.unit c.t.core)).pledges
    if ks.all fun k => marked.contains k then .go (c.advance (c.s.performStore r))
    else
      let (id, s) := c.s.post .request none c.part (.pledge ks r)
      .go (s.updTeam c.is.team fun t => t.holdOn c.is.lanes (.pledge id))

/-- A data operand as `n` bytes (R258); a short float stands in an IEEE type as that type's code, and elsewhere as the
sign-extended pattern of 32 bits (R85; log 56). -/
def dataBytes (c : Ctx) (x : Src) (n l : Nat) : List Byte :=
  match x with
  | .v r =>
    if n = 16 then (List.range 4).flatMap fun i => bytesOf 4 (c.t.readV (r.toNat + i) l)
    else bytesOf n (c.src x (n == 8) l)
  | .int i => bytesOf n (i.signExtend 128)
  | .flt i =>
    if c.f.ty.isIEEE then bytesOf n (BitVec.ofNat 32 (c.fcode x c.f.ty l))
    else bytesOf n ((i ++ 0#21 : BitVec 32).signExtend 128)
  | y => bytesOf n (c.src y false l)

/-- A weak load of `.g` or `.k`: at once where every word stands valid in the L1; otherwise its missing lines are
asked for and its destination is interlocked (R189, R230, R233). One of 16 bytes is two of 8, the lower address first (R260).
That words which stand in the L1 arrive at the issue is the model's own (R433; DESIGN CHOICE, log 74). -/
def weakLoad (c : Ctx) (sp : Nat) (off : Nat → Int) : Eff :=
  let d := c.loadOf c.active
  let core := c.t.core
  let addr := fun l => c.gaddr sp (off l)
  if c.lanes.any fun l => c.s.strongOn core (addr l / 128) then c.later false
  else
    let d := { d with addrs := c.lanes.map fun l => (l, addr l), ro := c.f.ro }
    .go (c.advance (if d.n = 16 then
        let (low, s) := c.s.weakPart d.lower true
        (s.weakPart { d.upper with after := low } false).2
      else (c.s.weakPart d true).2))

/-- A strong load: the words leave the core's L1, and each line is read at its home (R231). -/
def strongLoad (c : Ctx) (off : Nat → Int) : Eff :=
  let core := c.s.unit c.t.core
  let n := c.f.ty.width / 8
  let acc := c.lanes.map fun l => (l, c.gaddr 0 (off l))
  let s := acc.foldl (fun s (_, ga) => s.dropOwn core ga n) c.s
  let (id, s) := s.issueLoad { c.loadOf c.active with addrs := acc }
  let lines := (acc.map fun (_, ga) => ga / 128).eraseDups
  .go (c.advance (lines.foldl (fun s line =>
    let ls := acc.filterMap fun (l, ga) =>
      if ga / 128 = line then some ({ lane := l, addr := ga, n := n, bytes := [] } : StrongLane) else none
    s.sendStrong core line c.is.team id false none ls) s))

/-- A scratchpad load. Accesses of one cycle are performed in ascending core, pipe and port order, so that none falls between
the halves of 16 bytes (R177, R182, R259, R260). -/
def spadLoad (c : Ctx) (sp : Nat) (off : Nat → Int) : Eff :=
  let n := c.f.ty.width / 8
  let s := c.s.deliver (c.loadOf c.active) fun l => c.spadRead c.s sp (off l).toNat n c.f.col
  .go (c.advance (c.lanes.foldl (fun s l => c.spadTouch s sp (off l).toNat n) s))

/-- A `.fe` or `.fec` load: its lanes wait for their granules, unless all of them are full (R185). -/
def feLoad (c : Ctx) (sp : Nat) (off : Nat → Int) : Eff :=
  let d := { c.loadOf c.active with fe := c.f.fe, col := c.f.col, clus := sp == 2,
                                    base := c.base sp,
                                    offs := c.lanes.map fun l => (l, (off l).toNat) }
  if c.s.feFull d then .go (c.advance (c.s.feDone d))
  else
  let (id, s) := c.s.issueLoad d
  .go (s.updTeam c.is.team fun t => (t.advance (c.is.lanes &&& ~~~c.active)).await c.active fun _ => .fe id)

end Ctx

namespace State

/-- Whether a team has loads outstanding, other than waiting full/empty loads and prefetches. -/
def loadsOut (s : State) (t : Nat) : Bool :=
  s.loads.any fun (_, d) => d.team == t && d.fe == 0 && (d.dest != .none || d.latch.isSome)

/-- Whether a strong access, atomic or reduction of a team has not been performed. -/
def strongOut (s : State) (t : Nat) : Bool :=
  s.msgs.any fun (_, m) => match m.body with
    | .strong _ _ u _ _ _ _ => u == t
    | _ => false

end State

end Sys2Proof.Machine
end

