-- ==== Sys2Proof/Machine/Pages.lean ====
section
/-!
DEFINITION. What a home does with whole pages and with strong accesses (10 R231, R245, R249, R252; 09 R213, R215), and
the pinning of a region's hardware pages (18 R391, 16 R355).
-/

namespace Sys2Proof.Machine

namespace State

/-- Whether an older message of the same core to the same line has still to be served (R231). -/
def olderOnChan (s : State) (id : Nat) : Bool :=
  match s.msgs.find? id with
  | some m => m.chan.isSome && s.msgs.any fun (k, x) => k < id && x.chan == m.chan
  | none => false

/-- A write-back, an engine's write or a strong access that writes arrives at the home of its line, in the order of arrival
(R245). -/
def arriveHome (s : State) (id : Nat) : State :=
  match s.msgs.find? id with
  | some m =>
    let writes := match m.body with
      | .merge _ _ _ _ => true
      | .landing _ _ _ => true
      | .strong _ _ _ _ w _ _ => w
      | _ => false
    if writes && m.arrived == 0 then
      let (n, s) := s.newId
      { s with msgs := s.msgs.updIf id fun x => { x with arrived := n } }
    else s
  | none => s

/-- Why a write from die p cannot merge into a line yet: an older message of its core to the line, a write that
arrived before it, or what any write waits for (R231, R245). The message then stands for the next cycle. -/
def mergeWait (s : State) (id p line : Nat) : Option State :=
  if s.olderOnChan id then some (s.requeue id)
  else
    let s := s.arriveHome id
    if s.laterThan id line then some (s.requeue id) else (s.lineWait p line).map (State.requeue · id)

/-- Frames that the pages of a port hold (R193, R197). -/
def framesHeld (s : State) (port : Nat) : Nat :=
  s.pages.foldl (fun n (k, r) => if k / 2 ^ 38 = port then n + bitsOf r.word 40 36 else n) 0

/-- Frames that the page of a line holds (R198). -/
def pageFrames (s : State) (line : Nat) : Nat := ((s.pageAt (128 * line)).map fun x => bitsOf x.2.word 40 36).getD 0

/-- Whether the home port of a line has the frames that its page needs more of in s' than in s (R220). -/
def hasFrames (s s' : State) (line : Nat) : Bool :=
  let old := s.pageFrames line
  let new := s'.pageFrames line
  let port := s.homePort line
  decide (new ≤ old) || decide (s.framesHeld port + (new - old) ≤ portFrames port)

/-- A write-back that finds no frame waits at its home port, which writes an error record (R220; log 68). -/
def frameWait (s : State) (msg line : Nat) : State :=
  let port := s.homePort line
  (s.errorRecord (portDie port) port 0 0 3 0xFFFF (gaVa (128 * line)) (((s.ownerOf (line / 4)).getD 0xFFFF) % 65536)).requeue msg

/-- A write-back is merged and settled at its home (R210, R245); a store of hardware settles no mark (R391). -/
def mergeBack (s : State) (msg core line : Nat) (mask : BitVec 128) (data : LineData) : State :=
  let hw := ((s.msgs.find? msg).map (·.hw)).getD false
  ((s.dropMsg msg).mergeAt (coreDie core) line mask data).settleFor (if hw then none else some core) (line / 4)

/-- The lanes of a strong access at the home, in ascending order: the line, the values that they find, and the flags
of an atomic (R231, R263). -/
def strongLanes (write : Bool) (atom : Option (Nat × Ty)) (line : LineData) :
    List StrongLane → LineData × Tbl (List Byte) × BitVec 5
  | [] => (line, [], 0)
  | x :: xs =>
    let off := x.addr % 128
    let old := lineBytes line off x.n
    let (new, fl) := match atom with
      | some (op, ty) =>
        let (v, fl) := atomCalc op ty (loadNat old) (loadNat x.bytes) (loadNat x.cmp)
        (natBytes x.n v, fl)
      | none => (x.bytes, 0)
    let line := if write then putBytes line off new else line
    let (line, vals, fl2) := strongLanes write atom line xs
    (line, Tbl.put vals x.lane old, fl ||| fl2)

/-- Performs a strong access at its home, whatever waits: the lanes' values go to the load that waits for them, and a
write merges and settles (R210, R231, R261). -/
def performStrong (s : State) (core line load : Nat) (write : Bool) (atom : Option (Nat × Ty)) (ls : List StrongLane) :
    State :=
  let s := s.repair (128 * line)
  let (new, vals, fl) := strongLanes write atom (s.homeLine line) ls
  let mask := ls.foldl (fun (m : BitVec 128) x =>
    m ||| ((BitVec.allOnes 128 >>> (128 - x.n)) <<< (x.addr % 128))) 0
  let s := if write then (s.mergeAt (coreDie core) line mask new).settleFor (some core) (line / 4)
           else ((s.dirTouch line).dirRead (coreDie core) line).heatPage (128 * line)
  { s with loads := s.loads.updIf load fun d =>
      { d with vals := vals.foldl (fun m (l, b) => Tbl.upd [] m l (· ++ b)) d.vals, flags := d.flags ||| fl } }

/-- Changes every engine command, in the queues and in save records. -/
def mapCmds (s : State) (f : Cmd → Cmd) : State :=
  { s with
    cores := s.cores.map fun (k, c) =>
      (k, { c with copyQ := c.copyQ.map f,
                   matrix := { c.matrix with q0 := c.matrix.q0.map f, q1 := c.matrix.q1.map f } })
    wgs := s.wgs.map fun (k, w) => (k, { w with imgCmds := w.imgCmds.map f }) }

/-- The pledges that stand on the blocks of a page, in sectors: marks and command pledges (R212, R215). -/
def pagePledges (s : State) (k0 : Nat) : Nat :=
  (List.range 128).foldl (fun n i =>
    let k := k0 + i
    let e := s.blockEntry k
    n + ((if entPledged e then 1 else 0) + s.cmdPledgesOn k) * (8 - entSect e)) 0

/-- A page leaves its region: strong accesses under way to it are performed, every cached copy of its lines is discarded, its
pledges are released, commands and copy packets write it no more, its sectors return, and it is unmapped (R212, R215,
R249, R384). The number is the rise of available. -/
def surrenderPage (s : State) (key : Nat) : Nat × State :=
  match s.pages.find? key with
  | none => (0, s)
  | some r =>
    if r.surr then (0, s) else
    let ga := gaOf r.part (65536 * r.page)
    let k0 := ga / 512
    let mine := fun (line : Nat) => decide (ga / 128 ≤ line) && decide (line < ga / 128 + 512)
    let mineK := fun (k : Nat) => decide (k0 ≤ k) && decide (k < k0 + 128)
    -- strong accesses under way are performed before the surrender
    let s : State := s.msgs.foldl (fun s (id, m) => match m.body with
      | .strong core line _ load write atom ls =>
        if mine line then (s.performStrong core line load write atom ls).dropMsg id else s
      | _ => s) s
    -- loads under way take the values that stand now
    let s : State := { s with loads := s.loads.map fun (id, d) =>
      if d.fe = 0 && d.weak && (d.lines.any mine || d.addrs.any fun (_, a) => mine (a / 128)) then
        (id, { d with lines := d.lines.filter (!mine ·), fills := d.fills.filter (!mine ·),
                      vals := d.addrs.foldl (fun m (l, a) =>
                        if mine (a / 128) then Tbl.put m l (s.weakBytes d.core a d.n) else m) d.vals })
      else (id, d) }
    let rise := s.pagePledges k0
    let sect := (s.pages.get r key).sect
    let s := s.reserve r.owner fun g =>
      { g with rsvp := g.rsvp - rise, rsvh := g.rsvh - sect }
    let page := ga / 65536
    let s := s.mapCmds fun c =>
      { c with pledged := c.pledged.filter (!mineK ·), landings := c.landings.filter fun (k, _) => !mineK k,
               gone := if c.gone.contains page then c.gone else c.gone ++ [page] }
    -- a grant under way gives no hold any more
    let s : State := { s with msgs := s.msgs.map fun (k, m) => (k, match m.body with
      | .grant l r => if mine l then { m with body := .grant l { r with stage := 0 } } else m
      | _ => m) }
    let s : State := { s with
      msgs := s.msgs.filter fun (_, m) => match m.body with
        | .merge _ l _ _ => !mine l
        | .invalidate _ l => !mine l
        | .backInv _ l => !mine l
        | .ownerChange k _ => !mineK k
        | .takeback _ l => !mine l
        | .surrender _ l _ => !mine l
        | .surrenderAck _ l _ => !mine l
        | _ => true
      cores := s.cores.map fun (k, c) =>
        (k, { c with l1 := c.l1.filter fun (l, _) => !mine l, fcopy := c.fcopy.filter fun (l, _) => !mine l,
                     pledges := c.pledges.filter (!mineK ·), holds := c.holds.filter fun (l, _) => !mine l })
      wgs := s.wgs.map fun (k, w) =>
        (k, { w with asm := w.asm.map fun a => { a with pledged := a.pledged.filter (!mineK ·), gone := a.gone ++ [page] } })
      rings := s.rings.map fun (k, g) =>
        (k, { g with copies := g.copies.map fun c => { c with pledged := c.pledged.filter (!mineK ·), gone := c.gone ++ [page] } })
      launches := s.launches.map fun (k, l) => (k, { l with signalPledge := l.signalPledge.filter (!mineK ·), gone := l.gone ++ [page] })
      copies := s.copies.filter fun (k, _) => !mine (k % 2 ^ 64)
      dir := s.dir.filter fun (k, _) => !mine (k % 2 ^ 64)
      leases := s.leases.filter fun (k, _) => !mine k
      syncs := s.syncs.map fun (k, m) => (k, if mine k then { queue := m.queue.map fun r => { r with stage := 0 } } else m)
      cmdPledges := s.cmdPledges.filter fun (k, _) => !mineK k
      poisoned := s.poisoned.filter fun (k, _) => !mineK k
      halves := s.halves.filter fun h => !mine (h.ga / 128)
      mem := s.mem.filter fun (a, _) => !(decide (ga ≤ a) && decide (a < ga + 65536)) }
    let s := match s.walk r.part (65536 * r.page) with
      | .leaf pte _ pk => { s with ptes := s.ptes.put pk (setBits pte 50 50 1) }
      | .fault _ _ => s
    let w := setBits (setBits (setBits r.word 28 18 0) 40 36 0) 30 30 1
    let s : State := { s with pages := s.pages.put key { r with word := setBits w 29 29 0, blocks := [], frames := [] }
                              migs := s.migs.erase key }
    (sect + rise, s.tlbDrop r.part (some (65536 * r.page)))

/-- The sectors that the pinning of a range of blocks would add to RSVH: 8 − Sectors(k) for each block (R355, R391). -/
def pinCost (s : State) (ks : List Nat) : Nat := ks.foldl (fun acc k => acc + (8 - s.sectors k)) 0

/-- Makes blocks raw, 8 sectors each, as the home mends their records (R200, R355, R391); a pledge that stands on one
stands for nothing from then on (R204, R212; log 22). -/
def pinRaw (s : State) (r : Nat) (ks : List Nat) : State :=
  let cost := s.pinCost ks
  let freed := ks.foldl (fun acc k =>
    acc + ((if entPledged (s.blockEntry k) then 1 else 0) + s.cmdPledgesOn k) * (8 - s.sectors k)) 0
  let s := ks.foldl (fun s k => s.repair (512 * k)) s
  let s := ks.foldl (fun s k => s.setEntry k (setBits (setBits (setBits (s.blockEntry k) 63 32 0) 31 30 2) 29 26 8)) s
  s.reserve r fun g => { g with rsvh := g.rsvh + cost, rsvp := g.rsvp - freed }

/-- Whether a page holds its region's save area or counter block (R384, R314). -/
def hardwarePage (s : State) (r va : Nat) : Bool :=
  let g := s.region r
  (g.saveSize != 0 && decide (g.saveBase.toNat < va + 65536) && decide (va < g.saveBase.toNat + g.saveSize.toNat))
    || (g.counters != 0 && g.counters.toNat / 65536 == va / 65536)

/-- Completes a region's balloon request: RSVG falls by SECTORS in one step, and the request and BALLOON are cleared
(R219). -/
def balloonDone (s : State) (r : Nat) : State :=
  let word := (s.region r).balloon
  let n := bitsOf word 47 16
  let s := s.reserve r fun g => { g with rsvg := g.rsvg - n, balloon := 0, balloonAt := 0 }
  (s.regionTeams r).foldl (fun s t => s.clearNotice t 1) s

end State

end Sys2Proof.Machine
end

