-- ==== Sys2Proof/Machine/Tiles.lean ====
section
/-!
DEFINITION. Walkers and traversal (12 R291-R295, 15 R347): the order of tile indices, draws, splits, and which walker a
core is bound to.
-/

namespace Sys2Proof.Machine

/-- ORDER, HEAT, SPLIT and FUSE of a launch's control word (R289). -/
def Launch.order? (l : Launch) : Nat := bitsOf l.ctrl 45 44
def Launch.heat (l : Launch) : Nat := bitsOf l.ctrl 35 34
def Launch.gangSize (l : Launch) : Nat := bitsOf l.ctrl 37 36 + 1
def Launch.splitOk (l : Launch) : Bool := l.ctrl.getLsbD 33
def Launch.fuse (l : Launch) : Bool := l.ctrl.getLsbD 32
/-- The size below which a walker is not split; 0 acts as 1 (R288). -/
def Launch.minSize (l : Launch) : Nat := max 1 l.minsplit

/-- qd of R292, for the dimensions from d on. -/
def quotients : List Nat → Nat → List Nat
  | [], _ => []
  | _ :: ns, i =>
    let rest := ns.foldl (· * ·) 1
    (i / rest) :: quotients ns i

/-- Row-major coordinates. -/
def rowMajor (ns : List Nat) (i : Nat) : List Nat := ((quotients ns i).zip ns).map fun (q, n) => q % n

/-- Serpentine coordinates. -/
def serpentine (ns : List Nat) (i : Nat) : List Nat :=
  let qs := quotients ns i
  (List.range ns.length).map fun d =>
    let n := ns.getD d 1
    let c := qs.getD d 0 % n
    if d = 0 ∨ qs.getD (d - 1) 0 % 2 = 0 then c else n - 1 - c

/-- How many tuples below the bounds have the given high parts, with so many low bits of each still free. -/
def mortonCount (ns hi free : List Nat) : Nat :=
  (List.range ns.length).foldl (fun acc d =>
    let k := 2 ^ free.getD d 0
    acc * min k (ns.getD d 0 - hi.getD d 0 * k)) 1

/-- The tuple of rank i by Morton code: bits are settled from the highest code position down (R292). -/
def mortonFrom (ns : List Nat) : List Nat → List Nat → List Nat → Nat → List Nat
  | [], hi, _, _ => hi
  | d :: ds, hi, free, i =>
    let free := free.set d (free.getD d 0 - 1)
    let zero := hi.set d (2 * hi.getD d 0)
    let n := mortonCount ns zero free
    if i < n then mortonFrom ns ds zero free i
    else mortonFrom ns ds (hi.set d (2 * hi.getD d 0 + 1)) free (i - n)

/-- The coordinates of a tile index (R292). -/
def tileCoords (order : Nat) (ns : List Nat) (i : Nat) : List Nat :=
  match order with
  | 0 => rowMajor ns i
  | 1 => (rowMajor ns.reverse i).reverse
  | 2 => serpentine ns i
  | _ =>
    let dims := (List.range ns.length).reverse
    mortonFrom ns ((List.range 33).flatMap fun _ => dims) (ns.map fun _ => 0) (ns.map fun _ => 33) i

namespace State

/-- The walker of a launch that a core is bound to, which holds work and was not stopped by a kill (R347, R410). -/
def boundWalker (s : State) (launch core : Nat) : Option Nat :=
  (s.launches.find? launch).bind fun l =>
    (List.find? (fun (x : Nat × Walker) => x.2.core == some core && !x.2.killed && decide (x.2.next < x.2.stop)) l.walkers).map (·.1)

/-- Binds a core of a launch that has no unfinished walker to the lowest walker that is bound to no core and still
holds work (R347). -/
def bindWalker (s : State) (launch core : Nat) : State :=
  if (s.boundWalker launch core).isSome then s
  else s.updLaunch launch fun l =>
    match List.find? (fun (x : Nat × Walker) => x.2.core.isNone && !x.2.killed && decide (x.2.next < x.2.stop)) l.walkers with
    | some (k, w) => { l with walkers := l.walkers.put k { w with core := some core } }
    | none => l

/-- Draws the next index of a walker (R291). -/
def draw? (s : State) (launch slot : Nat) : Option (Nat × State) :=
  (s.launches.find? launch).bind fun l => (l.walkers.find? slot).bind fun w =>
    if w.next < w.stop ∧ ¬ w.killed then
      some (w.next, s.updLaunch launch fun l => { l with walkers := l.walkers.put slot { w with next := w.next + 1 } })
    else none

/-- The walker with the greatest range, ties by the lowest slot, if it can be split (R293). -/
def splittable (l : Launch) : Option (Nat × Walker) :=
  let best := l.walkers.foldl (fun (b : Option (Nat × Walker)) x =>
    if x.2.killed then b
    else match b with
    | some y => if y.2.stop - y.2.next < x.2.stop - x.2.next then some x else b
    | none => some x) none
  match best with
  | some (k, w) => if w.stop - w.next ≥ 2 * l.minSize && w.stop - w.next ≥ 2 then some (k, w) else none
  | none => none

/-- The lowest free slot of a save array: none, or that of a finished walker (R291, R293). -/
def freeSlot (l : Launch) : Option Nat :=
  (List.range l.slots).find? fun k => match l.walkers.find? k with
    | none => true
    | some w => decide (w.stop ≤ w.next)

/-- Splits a launch's largest walker for a thief core (R293). -/
def split (s : State) (launch core : Nat) : Option State :=
  (s.launches.find? launch).bind fun l =>
    if !l.splitOk then none
    else match splittable l, freeSlot l with
      | some (k, w), some j =>
        let n := w.stop - w.next
        let m := w.next + (n + 1) / 2
        let thief : Walker := { next := m, stop := w.stop, core := some core }
        some (s.updLaunch launch fun l => { l with walkers := (l.walkers.put k { w with stop := m }).put j thief })
      | _, _ => none

/-- Hands an index to a gang: GANGID and TILEIDX0-3 (R66, R292). -/
def giveTile (s : State) (gang i : Nat) : State :=
  match s.gangs.find? gang with
  | none => s
  | some g =>
    match s.launches.find? g.launch with
    | none => s
    | some l =>
      let cs := tileCoords l.order? l.dims i
      s.updGang gang fun g =>
        { g with gangid := BitVec.ofNat 64 i
                 tile := (List.range 4).foldl (fun m d => Tbl.store 0 m d (BitVec.ofNat 32 (cs.getD d 0))) [] }

end State

end Sys2Proof.Machine
end

