-- ==== Sys2Proof/Machine/SystemIns.lean ====
section
/-!
DEFINITION. The sync and system family: opcodes 0x300-0x312 (17 R364-R390).
-/

namespace Sys2Proof.Machine

namespace Ctx

/-- An instruction that acts once per issue, on behalf of its team, and only when a lane is active (R366). -/
def once (c : Ctx) (k : Eff) : Eff := if c.active = 0 then .go (c.advance c.s) else k

/-- The active lanes wait, and the others advance. -/
def waitFor (c : Ctx) (s : State) (w : Nat → Wait) : Eff :=
  .go (s.updTeam c.is.team fun t => (t.advance (c.is.lanes &&& ~~~c.active)).await c.active w)

/-- The word of a phase barrier (R371, R372): alignment and segment check, then core and address of the word, or none
where it stands in a guard granule, whose touch is recorded (R182). -/
def phaseWord (c : Ctx) (k : State → Option (Nat × Nat) → Eff) : Eff :=
  let sp := c.f.space
  let off := c.offset c.low
  if off % 4 != 0 then .trap { c.fault 4 0 with addr := c.frameAddr sp off }
  else if !c.inSeg sp off 4 then c.allOff
  else
    let o := off.toNat
    match c.spadAt sp o with
    | some (core, a, false) => k c.s (some (core, a))
    | _ => k (c.spadTouch c.s sp o 4) none

end Ctx

namespace State

/-- The word of a phase barrier in a core's array. -/
def phaseGet (s : State) (core a : Nat) : BitVec 32 := ofBytes 32 ((List.range 4).map fun i => s.spadGet core (a + i))

/-- One arrival at a phase barrier (R370, R371). -/
def phaseArrive (s : State) (core a n : Nat) : State :=
  let w := s.phaseGet core a
  let c := bitsOf w 15 0 + 1
  let new : BitVec 32 :=
    if c ≥ n then (if w.getLsbD 31 then 0 else 0x80000000) else (w &&& 0x80000000) ||| BitVec.ofNat 32 c
  ((List.range 4).zip (bytesOf 4 new)).foldl (fun s (i, b) => s.spadPut core (a + i) b) s

/-- The dirty words of a core's L1 leave for their homes, but for a fused cluster, where no step is needed (R242). -/
def releaseAll (s : State) (core : Nat) : State :=
  if (s.cluster (coreRq core)).fused then s else s.writeBackAll core

/-- Whether a write-back of a core older than a number is on its way. -/
def drained (s : State) (core upTo : Nat) : Bool :=
  !(s.msgs.any fun (id, m) => match m.body with
    | .merge k _ _ _ => k == core && decide (id < upTo)
    | _ => false)

end State

/-- Whether an access of some lanes of a team has not been performed, for which a release by those threads waits: a load
has not returned, or a strong access is on its way (R225, R242). -/
def State.lanesOut (s : State) (t : Nat) (m : Mask) : Bool :=
  (s.loads.any fun (_, d) => d.team == t && d.fe == 0 && (d.dest != .none || d.latch.isSome) && d.lanes &&& m != 0)
    || s.msgs.any fun (_, x) => match x.body with
      | .strong _ _ u _ _ _ ls => u == t && ls.any fun y => m.getLsbD y.lane
      | _ => false

/-- `bar`: an arrival is a release by the thread (R242, R367). -/
def execBar (f : Form) (s : State) : Res :=
  wordIns .bar f s fun c =>
    if c.s.lanesOut c.is.team c.active then c.later false else c.waitFor c.s fun _ => .bar

/-- `bar.gang`: an arrival is a release by the thread (R242), and counts once the core's dirty words have been written back
(R369). -/
def execBarGang (f : Form) (s : State) : Res :=
  wordIns .barGang f s fun c =>
    if c.active = 0 then .go (c.advance c.s)
    else if c.s.lanesOut c.is.team c.active then c.later false
    else
      let s := c.s.releaseAll c.t.core
      c.waitFor s fun _ => .barGang s.nextId

/-- `pbar.arrive` (R371): under `.c` the core's dirty words are written back before the word is read. -/
def execPbarArrive (f : Form) (s : State) : Res :=
  wordIns .pbarArrive f s fun c => c.once <|
    let n := c.u32 f.c c.low
    if n = 0 || n > 65535 then .trap (c.fault 2 16)
    else c.phaseWord fun s at_ =>
      if s.lanesOut c.is.team c.active then c.later false
      else
        let core := s.unit c.t.core
        let s := if f.space = 2 then s.releaseAll c.t.core else s
        match at_ with
        | none => .go (c.advance s)
        | some (owner, a) =>
          if f.space = 2 && !s.drained core s.nextId then
            .go (s.updTeam c.is.team fun t => t.holdOn c.is.lanes (.arrive core s.nextId owner a n c.is.port))
          else .go (c.advance (s.phaseArrive owner a n))

/-- `pbar.wait` (R372) -/
def execPbarWait (f : Form) (s : State) : Res :=
  wordIns .pbarWait f s fun c => c.once <|
    c.phaseWord fun s at_ =>
      let core := match at_ with | some (k, _) => k | none => c.t.core
      c.waitFor s fun _ => .pbar core (at_.map (·.2)) ((c.sc f.c).getLsbD 0) (f.space == 2)

/-- `sleep` (R374) -/
def execSleep (f : Form) (s : State) : Res :=
  wordIns .sleep f s fun c =>
    let n := c.u32 f.a c.low
    if n = 0 || c.active = 0 then .go (c.advance c.s)
    else
      c.waitFor c.s fun _ => .sleep (c.t.run + BitVec.ofNat 64 n) c.t.noticeRose

namespace Ctx

/-- The firmware-service request of `trap` with code 240: the group is held for firmware's answer (R376). A team has one
request outstanding: a second of its groups issues again until the first has ended (R364). -/
def service (c : Ctx) : Eff :=
  let a := (c.sc c.f.b).toNat
  let n := (c.sc c.f.c).toNat
  if a % 65536 != 0 || n = 0 || n > 4096 then .trap (c.fault 2 16)
  else if a + 65536 * n > c.limit 0 then c.allOff
  else if c.t.holders (fun h => match h with | .service _ _ _ => true | _ => false) != 0 then c.later false
  else
    let d := match c.f.d.dst with | some (.s r) => some r.toNat | _ => none
    .go (c.s.updTeam c.is.team fun t => t.holdOn c.is.lanes (.service d (c.base 0 + a) n))

/-- `trap` (R375, R376) -/
def trapIt (c : Ctx) : Eff :=
  c.once <|
    let code := (c.sc c.f.a).toNat % 256
    if code = 240 then c.service
    else if code > 240 then .trap (c.fault 2 16)
    else if c.t.masked && c.t.priv != 1 then .go (c.s.doubleFault c.is.team c.is.lanes 15 code)
    else .soft { c.fault 15 code with pc := some (c.is.pc + 1) }

end Ctx

/-- `trap` with a code of 0-239, or one read at run time (R375, R376) -/
def execTrap (f : Form) (s : State) : Res := wordIns .trap f s fun c => c.trapIt
/-- `trap` with the service code 240 (R376) -/
def execTrapService (f : Form) (s : State) : Res := wordIns .trapService f s fun c => c.once c.service

namespace State

/-- Whether an access of a team has not been performed: a load, with the full/empty loads of lanes that run, a strong
access, a store that waits for its pledge, or an access of lanes that run which issues again (R413). -/
def accessOut (s : State) (t : Nat) : Bool :=
  s.loads.any (fun (_, d) => d.team == t && (d.dest != .none || d.latch.isSome)
      && (d.fe == 0 || (lanesOf d.lanes).any fun l => !(s.team t).parked l))
    || s.strongOut t
    || (s.msgs.any fun (_, m) => match m.body with
      | .pledge _ r => r.team == t
      | _ => false)
    || (lanesOf (s.team t).live).any fun l => !(s.team t).parked l && ((s.team t).lane l).retry

/-- A gang's halt begins: its teams stop at their next issue slots, at once unless one of them has MASK set (R388,
R406, R408). -/
def beginHalt (s : State) (g : Nat) : State :=
  (s.updGang g fun x => { x with req := x.req.map fun r => { r with halting := true } }).stopPending g

end State

/-- `rett` (R377, R404, R413): what it reads waits for the links to the slot's home (R299), and a halt that waits for MASK
takes effect before any team of the gang issues again (R408). -/
def execRett (f : Form) (s : State) : Res :=
  wordIns .rett f s fun c => c.once <|
    if c.s.accessOut c.is.team then c.later false
    else match c.s.readShut (coreDie c.t.core) (gaOf c.part c.t.slotVa) 384 with
    | some s => { c with s := s }.later false
    | none => .go ((c.s.returnFromHandler c.is.team).stopPending c.w.gang)

/-- COREID of a place (R67). -/
def coreIdOf (core pipe : Nat) : Nat := core / 48 * 256 + core / 4 % 12 * 16 + core % 4 * 4 + pipe

/-- CLK as the work of a partition reads it: while a replay repeats an interval, as it was read in it (R66, R429). -/
def State.clkSeen (s : State) (part : Nat) : DWord :=
  match s.jobs.find? part with
  | some j => if s.clk < j.replayUntil then s.clk - j.replayBack else s.clk
  | none => s.clk

/-- The value of a system register in a lane (R65-R68). -/
def Ctx.sysReg (c : Ctx) (n l : Nat) : DWord :=
  let g := c.s.gangs.get { launch := 0 } c.w.gang
  let launch := c.s.launches.find? g.launch
  let r := c.s.region c.region
  match n with
  | 0x000 => BitVec.ofNat 64 l
  | 0x001 => BitVec.ofNat 64 c.t.teamid
  | 0x002 => BitVec.ofNat 64 c.w.wgid
  | 0x003 => g.gangid
  | 0x004 => (g.tile.get 0 0).setWidth 64
  | 0x005 => (g.tile.get 0 1).setWidth 64
  | 0x006 => (g.tile.get 0 2).setWidth 64
  | 0x007 => (g.tile.get 0 3).setWidth 64
  | 0x008 => BitVec.ofNat 64 c.t.role
  | 0x009 => BitVec.ofNat 64 (coreIdOf c.t.core c.t.pipe)
  | 0x00A => BitVec.ofNat 64 (c.region % 65536)
  | 0x00B => BitVec.ofNat 64 ((launch.map (·.lid)).getD 0)
  | 0x00C => c.t.priv.setWidth 64
  | 0x010 => c.s.clkSeen (c.region / 65536)
  | 0x011 => c.t.run
  | 0x012 => c.t.tmrcmp
  | 0x013 => c.t.notice.setWidth 64
  | 0x014 => c.t.fmask.setWidth 64
  | 0x015 => c.t.trapmask.setWidth 64
  | 0x016 => c.t.fairctl.setWidth 64
  | 0x017 => c.t.fpstat.setWidth 64
  | 0x018 => BitVec.ofNat 64 ((launch.map (·.heat)).getD 0)
  | 0x020 => BitVec.ofInt 64 r.rsvg
  | 0x021 => BitVec.ofInt 64 r.rsvh
  | 0x022 => BitVec.ofInt 64 r.rsvp
  | _ => 0

/-- The number of the system register that a source names. -/
def sysOf (x : Src) : Nat := match x with | .sys n => n.toNat | _ => 0

/-- `sread` (R378): a wider register supplies its low bits to a vector register. -/
def execSread (f : Form) (s : State) : Res :=
  wordIns .sread f s fun c =>
    let n := match f.d.dst with | some (.s _) => 64 | _ => 32
    .go (c.advance (c.write c.s n false false fun l => (c.sysReg (sysOf f.a) l).toNat % 2 ^ n))

/-- `swrite` (R379, R65, R67): reserved bits are ignored (R7). A write to CLK stands until the end of the cycle, since every
team reads the value that the cycle began with (R378). A halt that waits for MASK takes effect before any team of the gang
issues again (R408). -/
def execSwrite (f : Form) (s : State) : Res :=
  wordIns .swrite f s fun c => c.once <|
    let x : DWord := match f.b with
      | .v n => (c.t.readV n.toNat c.low).setWidth 64
      | y => c.sc y
    let put := fun (g : Team → Team) => Eff.go (c.advance (c.s.updTeam c.is.team g))
    match sysOf f.a with
    | 0x010 => .go (c.advance { c.s with clkNext := some x })
    | 0x012 => put fun t => { State.unnoticed t 0 with tmrcmp := x }
    | 0x015 =>
      let mask := x.getLsbD 0
      if c.t.priv = 0 && mask != c.t.masked then .trap { cause := 3, sub := 0, mask := c.is.lanes }
      else
        let s := c.s.updTeam c.is.team fun t => { t with trapmask := BitVec.ofNat 32 (bitsOf x 7 4 * 16 + (if mask then 1 else 0)) }
        .go ((c.advance s).stopPending c.w.gang)
    | 0x016 => put fun t => { t with fairctl := BitVec.ofNat 32 (bitsOf x 11 0) }
    | _ => put fun t => { t with fpstat := BitVec.ofNat 32 (bitsOf x 4 0) }

/-- The size of the save slot of a role of budget V (R396). -/
def slotSize (v : Nat) : Nat := alignUp (4096 + 128 * (8 * ((v + 7) / 8))) 4096

/-- The bound of a segment register: the values that dispatch gave, base and limit (R62, R380). -/
def Ctx.segBound (c : Ctx) (i : Nat) : Nat × Nat :=
  let g := c.s.gangs.get { launch := 0 } c.w.gang
  match i with
  | 0 => (c.w.globBase.toNat, c.w.globLimit.toNat)
  | 1 => (c.w.spadBase, c.w.spadSize)
  | 2 => (c.s.clusBase c.w.gang, g.wgs.length * c.w.spadSize)
  | 3 => (4096 * c.w.obufFirst, 4096 * c.w.obufCount)
  | 4 => (((c.s.launches.find? g.launch).map (·.karg)).getD 0, c.w.kargLimit.toNat)
  | _ => (c.t.slotVa, slotSize c.t.vregs)

/-- `segld` (R380) -/
def execSegld (f : Form) (s : State) : Res :=
  wordIns .segld f s fun c => c.once <|
    let i := (c.sc f.a).toNat
    let (b, l) := c.pair f.b
    if i > 5 then .trap (c.fault 2 16)
    else
      let (lo, n) := c.segBound i
      if b.toNat < lo || b.toNat + l.toNat > lo + n then .trap (c.fault 2 19)
      else .go (c.advance (c.s.updTeam c.is.team fun t => { t with segs := Tbl.put t.segs i { base := b, limit := l } }))

/-- `tlbinv` (R381) -/
def execTlbinv (f : Form) (s : State) : Res :=
  wordIns .tlbinv f s fun c => c.once <|
    let p := (c.sc f.b).toNat
    if p > 19 || !c.s.parts.has p then .trap (c.fault 2 16)
    else .go (c.advance (c.s.tlbDrop p (if f.top then none else some (c.sc f.a).toNat)))

/-- `rsv.read` (R382) -/
def execRsvRead (f : Form) (s : State) : Res :=
  wordIns .rsvRead f s fun c => c.once <|
    let d := match f.d.dst with | some (.s r) => r.toNat | _ => 0
    if d > 61 then .trap (c.fault 2 16)
    else
      let r := c.s.region c.region
      .go (c.advance (c.s.updTeam c.is.team fun t =>
        ((t.writeS d (BitVec.ofInt 64 r.rsvg)).writeS (d + 1) (BitVec.ofInt 64 r.rsvh)).writeS (d + 2)
          (BitVec.ofInt 64 r.rsvp)))

/-- The parent of a region, as a key. -/
def Region.parentKey (r : Region) (part : Nat) : Option Nat :=
  if r.level = 0 ∨ r.parent = 0xFFFF then none else some (part * 65536 + r.parent)

/-- What an ask moves from a parent (R205, R383). -/
def askAmount (parent child : Region) (a : Nat) : Int :=
  let m := min (a : Int) (max 0 parent.available)
  if child.rsvmax = 0 then m else min m (max 0 ((child.rsvmax.toNat : Int) - child.rsvg))

/-- Of `a` sectors asked for, those that there are move from a region's parent to the region, and their number is written
(R205, R383). -/
def Ctx.askNow (c : Ctx) (p a : Nat) : State :=
  let k := c.region
  let n := askAmount (c.s.region p) (c.s.region k) a
  let s := (c.s.reserve p fun g => { g with rsvg := g.rsvg - n }).reserve k fun g => { g with rsvg := g.rsvg + n }
  c.complete (c.writeScalar s (BitVec.ofInt 64 n))

/-- `rsv.ask` (R383): it reads its operand at issue (R45), and holds its group until the parent's reserve unit has
served it, after the issues of the cycle; a root region receives 0. -/
def execRsvAsk (f : Form) (s : State) : Res :=
  wordIns .rsvAsk f s fun c => c.once <|
    match (c.s.region c.region).parentKey c.part with
    | none => .go (c.advance (c.writeScalar c.s 0))
    | some _ => .go (c.s.updTeam c.is.team fun t => t.holdOn c.is.lanes (.ask (c.sc f.a).toNat c.is.word))

/-- The reserve unit serves a held `rsv.ask` (R206, R383). -/
def State.askServed (s : State) (tk : Nat) (m : Mask) (a : Nat) (word : IWord) : State :=
  match decodeRaw (Raw.ofWord word) with
  | .error _ => s
  | .ok (o, f) =>
    let c := ctxOf o f s { team := tk, lanes := m, pc := ((s.team tk).lane ((lowest m).getD 0)).pc, word := word, port := 1 }
    match (s.region c.region).parentKey c.part with
    | none => c.complete (c.writeScalar s 0)
    | some p => c.askNow p a

/-- The first failing check of a page that `pgsurr` names: cause and sub-cause (R384). -/
def Ctx.surrFault (c : Ctx) (va : Nat) : Option (Nat × Nat) :=
  match c.s.translateNow c.part (some (coreRq c.t.core)) va false false with
  | some sub => some (5, sub)
  | none =>
    match c.s.walk c.part va with
    | .fault sub _ => some (5, sub)
    | .leaf pte shift _ =>
      if shift != 16 then some (2, 17)
      else if (c.s.pages.get { part := 0, page := 0, word := 0 } (leafPage pte shift va).2).owner != c.region then some (2, 18)
      else if c.s.hardwarePage c.region va then some (2, 20)
      else none

/-- Surrenders the pages of a range one at a time, in ascending address, and sums the rise of available. -/
def State.surrenderRange (s : State) (part : Nat) : Nat → Nat → Nat × State
  | 0, _ => (0, s)
  | n + 1, va =>
    match s.walk part va with
    | .leaf pte shift _ =>
      let (x, s) := s.surrenderPage (leafPage pte shift va).2
      let (y, s) := s.surrenderRange part n (va + 65536)
      (x + y, s)
    | .fault _ _ => s.surrenderRange part n (va + 65536)

/-- `pgsurr` (R384, R215); a page under migration it waits for (R203). -/
def execPgsurr (f : Form) (s : State) : Res :=
  wordIns .pgsurr f s fun c => c.once <|
    let a := (c.sc f.a).toNat
    let n := (c.sc f.b).toNat
    if a % 65536 != 0 || n = 0 || n > 4096 then .trap (c.fault 2 16)
    else if a + 65536 * n > c.limit 0 then c.allOff
    else
      let va0 := c.base 0 + a
      let bad := (List.range n).findSome? fun i =>
        (c.surrFault (va0 + 65536 * i)).map fun (cause, sub) => (va0 + 65536 * i, cause, sub)
      match bad with
      | some (va, 5, sub) =>
        .trapIn (c.s.recordWalk c.t.core c.part va sub)
          { c.fault 5 sub with addr := va, d0 := c.s.ownerDetail c.part va }
      | some (va, cause, sub) => .trap { c.fault cause sub with addr := va }
      | none =>
        if (List.range n).any fun i => c.s.migrating (gaOf c.part (va0 + 65536 * i)) then c.later false
        else
        let (x, s) := c.s.surrenderRange c.part n va0
        .go (c.advance (c.writeScalar s (BitVec.ofNat 64 x)))

/-- `notice.ack.balloon` (R218, R219, R385) -/
def execNoticeAckBalloon (f : Form) (s : State) : Res :=
  wordIns .noticeAckBalloon f s fun c => c.once <|
    let seq := bitsOf (c.s.region c.region).balloon 63 48
    .go (c.advance (if seq != 0 && (c.sc f.a).toNat % 65536 == seq then c.s.balloonDone c.region else c.s))

/-- `notice.ack.timer` (R385) -/
def execNoticeAckTimer (f : Form) (s : State) : Res :=
  wordIns .noticeAckTimer f s fun c => c.once <| .go (c.advance (c.s.clearNotice c.is.team 0))

/-- `endwg` (R386) -/
def execEndwg (f : Form) (s : State) : Res :=
  wordIns .endwg f s fun c => c.once <| .go (c.s.stopWorkgroup c.t.wg 1 ((c.sc f.a).toNat % 256) 0 0)

namespace State

/-- A team stops at a task boundary, and issues nothing while the halt waits for MASK (R408). -/
def stopAtTask (s : State) (t : Nat) : State := (s.stopTeam t).updTeam t fun x => { x with atTask := true }

/-- Whether a soft request stands on a gang, PREEMPT with it, be its halt pending or not (R387, R388, R406, R408); a
checkpoint posts none (R428). -/
def softPending (s : State) (g : Nat) : Bool :=
  match (s.gangs.get { launch := 0 } g).req with | some r => !r.inPlace | none => false

end State


/-- The draw of a `tile.next`: the next index of the walker bound to the gang's core becomes the gang's, and the guard
is set; where there is none it is cleared (R387). -/
def Ctx.drawTile (c : Ctx) (s : State) : State :=
  let g := c.w.gang
  let gang := s.gangs.get { launch := 0 } g
  match (s.boundWalker gang.launch gang.core).bind fun k => s.draw? gang.launch k with
  | some (i, s) => c.complete (c.writeGuard (s.giveTile g i) fun _ => true)
  | none => c.complete (c.writeGuard s fun _ => false)

/-- A `tile.next` whose gang's core had no unfinished walker: its dispatcher splits one where there is still none and it can,
after the issues of the cycle and one at a time, and the draw follows (R293, R294, R387). -/
def State.splitNext (s : State) (tk : Nat) (m : Mask) (word : IWord) : State :=
  match decodeRaw (Raw.ofWord word) with
  | .error _ => s
  | .ok (o, f) =>
    let c := ctxOf o f s { team := tk, lanes := m, pc := ((s.team tk).lane ((lowest m).getD 0)).pc, word := word, port := 1 }
    let gang := s.gangs.get { launch := 0 } c.w.gang
    c.drawTile (if (s.boundWalker gang.launch gang.core).isSome then s else (s.split gang.launch gang.core).getD s)

/-- `tile.next` (R387) -/
def execTileNext (f : Form) (s : State) : Res :=
  wordIns .tileNext f s fun c => c.once <|
    let g := c.w.gang
    if c.s.softPending g then
      .again ((c.s.beginHalt g).stopAtTask c.is.team)
    else
      let gang := c.s.gangs.get { launch := 0 } g
      let fail := Eff.go (c.advance (c.writeGuard c.s fun _ => false))
      match c.s.launches.find? gang.launch with
      | none => fail
      | some l =>
        if l.persist = 0 then fail
        else if (c.s.boundWalker gang.launch gang.core).isSome then .go (c.drawTile c.s)
        else .go (c.s.updTeam c.is.team fun t => t.holdOn c.is.lanes (.split c.is.word))

/-- `yieldpoint` (R388) -/
def execYieldpoint (f : Form) (s : State) : Res :=
  wordIns .yieldpoint f s fun c => c.once <|
    let s := c.advance c.s
    if s.softPending c.w.gang then
      .go ((s.beginHalt c.w.gang).stopAtTask c.is.team)
    else .go s

/-- Port and slot that a `kslot` names (R390). -/
def Ctx.keySlot (c : Ctx) (k : Nat → Nat → Eff) : Eff :=
  let x := c.sc c.f.a
  let port := bitsOf x 5 0
  if port > 39 || (port ≥ 32 && !Config.boardPresent) then .trap (c.fault 2 16) else k port (bitsOf x 12 8)

namespace State

/-- Writes a key slot, and every requester's copy of its STATE (R301). -/
def setKey (s : State) (port slot : Nat) (k : KeySlot) : State :=
  { s with keys := s.keys.put (port * 32 + slot) k
           keyCopies := Tbl.store 0 s.keyCopies (port * 32 + slot) (k.word.extractLsb' 62 2) }

/-- Leaves the data of some blocks out of a checkpoint, with the save records that lie in them and what a copy packet
has read of them (R421). -/
def keepBlocks (x : Snap) (good : Nat → Bool) : Snap :=
  let part := fun (g : Nat) => ((x.gangs.find? g).bind fun y => (x.launches.find? y.launch).map (·.part)).getD 0
  let lost := x.wgs.filterMap fun (_, w) => if (blocksOf (gaOf (part w.gang) w.save) w.saveSize).all good then none else some w.gang
  let ts := x.wgs.flatMap fun (_, w) => if lost.contains w.gang then w.teams else []
  let kept := fun (r : Ring) (c : QCopy) => match c.hand with
    | some (j, bs) =>
      let from_ := c.src + (max c.dst (512 * j) - c.dst)
      if c.srcHost || (blocksOf (gaOf r.ref.part from_) bs.length).all good then c
      else { c with hand := none, left := (j, 1) :: c.left }
    | none => c
  { x with
    gangs := x.gangs.filter fun (k, _) => !lost.contains k
    wgs := x.wgs.filter fun (_, w) => !lost.contains w.gang
    teams := x.teams.filter fun (k, _) => !ts.contains k
    loads := x.loads.filter fun (_, d) => !ts.contains d.team
    rings := x.rings.map fun (k, r) => (k, { r with copies := r.copies.map (kept r) })
    image := x.image.filter fun (k, _) => good k
    copies := x.copies.filter fun (k, _) => good (k % 2 ^ 64 / 4)
    msgs := x.msgs.filter fun (_, m) => match m.body with | .merge _ l _ _ => good (l / 4) | _ => true
    cores := x.cores.map fun (k, c) => (k, { c with l1 := c.l1.filter fun (l, _) => good (l / 4)
                                                    fcopy := c.fcopy.filter fun (l, _) => good (l / 4) }) }

/-- No checkpoint holds data under a key slot that is revoked (R421). -/
def forgetSlot (s : State) (port slot : Nat) : State :=
  let clean := fun (x : Snap) => keepBlocks x fun k => !((s.pages ++ x.pages).any fun (key, r) =>
    key / 2 ^ 38 == port && r.kslot == slot && gaOf r.part (65536 * r.page) / 512 == k / 128 * 128)
  { s with jobs := s.jobs.map fun (k, j) => (k, { j with ckpt := j.ckpt.map clean, capSnap := j.capSnap.map clean }) }

/-- The page records of a port whose KSLOT names a slot and whose pages are mapped (R302). -/
def slotPages (s : State) (port slot : Nat) : List Nat :=
  (List.filter (fun (x : Nat × PageRec) => x.1 / 2 ^ 38 == port && x.2.kslot == slot && !x.2.surr) s.pages).map (·.1)

/-- Starts the revocation of an active slot (R302, R421); with no page to scrub it ends at once. -/
def revokeKey (s : State) (port slot : Nat) : State :=
  let k := s.keys.get {} (port * 32 + slot)
  let n := (s.slotPages port slot).length
  let w := setBits (setBits k.word 63 62 (if n = 0 then 0 else 2)) 31 0 n
  (s.setKey port slot { word := w, key := [] }).forgetSlot port slot

end State

/-- `kslot.load` (R390, R301): the key is read by a strong load, so the core's own dirty words of it reach the home first
(R231), and it waits for migrations and links (R203, R299). -/
def execKslotLoad (f : Form) (s : State) : Res :=
  wordIns .kslotLoad f s fun c => c.once <| c.keySlot fun port slot =>
    let va := (c.sc f.b).toNat
    let k := c.s.keys.get {} (port * 32 + slot)
    if k.word.extractLsb' 62 2 != 0 then .go (c.advance (c.writeScalar c.s 1))
    else
      c.xlate false [(va, c.active), (va + 63, c.active)] fun c =>
        let ga := gaOf c.part va
        let core := c.s.unit c.t.core
        let s := (State.splitLines ga (List.replicate 64 0)).foldl (fun s (line, off, b) =>
          s.dropOwn c.t.core (128 * line + off) b.length) c.s
        if s.inFlight core (ga / 512) || s.inFlight core ((ga + 63) / 512) || s.migrating ga || s.migrating (ga + 63) then
          { c with s := s }.later false
        else match s.readShut (coreDie c.t.core) ga 64 with
        | some s => { c with s := s }.later false
        | none =>
          let key := s.homeLoad ga 64
          let w := setBits (setBits k.word 63 62 1) 55 32 (bitsOf k.word 55 32 + 1)
          .go (c.advance (c.writeScalar ((s.hwHeat ga 64).setKey port slot { word := w, key := key }) 0))

/-- `kslot.revoke` (R390, R302) -/
def execKslotRevoke (f : Form) (s : State) : Res :=
  wordIns .kslotRevoke f s fun c => c.once <| c.keySlot fun port slot =>
    let k := c.s.keys.get {} (port * 32 + slot)
    if k.word.extractLsb' 62 2 != 1 then .go (c.advance (c.writeScalar c.s 1))
    else .go (c.advance (c.writeScalar (c.s.revokeKey port slot) 0))

end Sys2Proof.Machine
end

