-- ==== Sys2Proof/Machine/Engine.lean ====
section
/-!
DEFINITION. What the engine family shares (14 R321-R342): descriptors, the checks of R323 in their order, coordinate
programs, reservation records, and the enqueue of commands.
-/

namespace Sys2Proof.Machine

/-! Descriptors (R178-R181). -/

/-- The sub-cause of a malformed descriptor (R180). -/
def descFault (d0 d1 : DWord) : Option Nat :=
  if bitsOf d0 54 21 != 0 || bitsOf d1 63 40 != 0 then some 24
  else if bitsOf d0 20 0 % 16 != 0 || bitsOf d1 39 20 % 16 != 0 || bitsOf d1 19 0 % 4 != 0 then some 25
  else none

/-- The descriptor of two words; `seg` is the base of the segment that it names. -/
def descOf (d0 d1 : DWord) (seg : Nat) : Desc where
  clus := d0.getLsbD 63
  col := d0.getLsbD 62
  rot := bitsOf d0 57 55
  seg := seg
  base := bitsOf d0 20 0
  tpitch := bitsOf d1 39 20
  rpitch := bitsOf d1 19 0

/-- The offset of a byte of a row (R178). -/
def Desc.off (d : Desc) (t r k : Nat) : Nat := d.base + t * d.tpitch + r * d.rpitch + k

/-- The end of an extent of so many tiles and rows of `n` bytes. -/
def Desc.endOf (d : Desc) (tiles rows n : Nat) : Nat := d.off (tiles - 1) (rows - 1) n

namespace Ctx

/-- A source that is a descriptor pair. -/
def isPair (x : Src) : Bool := match x with | .pair _ _ => true | _ => false

/-- The descriptor that a pair of scalars holds now. -/
def desc (c : Ctx) (x : Src) : Desc :=
  let (d0, d1) := c.pair x
  descOf d0 d1 (c.t.seg (if d0.getLsbD 63 then 2 else 1)).base.toNat

/-- The descriptor faults of some sources (R180, R323 step 3). -/
def descs (c : Ctx) (xs : List Src) (k : Eff) : Eff :=
  let subs := (xs.filter isPair).filterMap fun x => let (d0, d1) := c.pair x; descFault d0 d1
  match subs.min? with
  | some sub => .trap (c.fault 2 sub)
  | none => k

/-- Whether a scratchpad extent lies in its segment; the offsets are those before rotation (R173, R178, R181). -/
def descIn (c : Ctx) (d : Desc) (tiles rows n : Nat) : Bool :=
  decide (d.endOf tiles rows n ≤ c.limit (if d.clus then 2 else 1))

/-- A command of a team that acts once per issue, if the word's formats are legal (R144, R323). -/
def onceFmt (c : Ctx) (k : Eff) : Eff := c.withFmt (c.once k)

/-- The own illegal-operand sub-causes that hold, lowest first (R323 step 4). -/
def own (c : Ctx) (conds : List (Nat × Bool)) (k : Eff) : Eff :=
  match conds.find? fun x => x.2 with
  | some (sub, _) => .trap (c.fault 2 sub)
  | none => k

end Ctx

/-- The first byte of each page that a run of bytes reaches. -/
def pagesOf (lo n : Nat) : List Nat :=
  (List.range ((lo + n - 1) / 65536 + 1 - lo / 65536)).map fun i => max lo ((lo / 65536 + i) * 65536)

/-- The blocks of an extent, by first appearance. -/
def extBlocks (ext : List (Nat × Nat)) : List Nat := (ext.flatMap fun (ga, n) => blocksOf ga n).eraseDups

namespace State

/-- Takes command pledges on some blocks: each stands for 8 − Sectors (R212). -/
def pledgeCmd (s : State) (ks : List Nat) : State :=
  let s := s.addPledges ks
  ks.foldl (fun s k => { s with cmdPledges := s.cmdPledges.store 0 k (s.cmdPledgesOn k + 1) }) s

/-- Bytes as an engine reads them: at a die copy or the home (R239). -/
def engineByte (s : State) (die ga : Nat) : Byte :=
  match s.copyOf die (ga / 128) with
  | some c => c.data.extractLsb' (8 * (ga % 128)) 8
  | none => (s.homeLoad ga 1).headD 0
def engineBytes (s : State) (die ga n : Nat) : List Byte := (List.range n).map fun i => s.engineByte die (ga + i)

/-- The home serves an engine's read of each line that the engine's die does not hold (R354, R415). -/
def engineHeat (s : State) (die ga n : Nat) : State :=
  (List.range ((ga + n - 1) / 128 + 1 - ga / 128)).foldl (fun s i =>
    if (s.copyOf die (ga / 128 + i)).isSome then s else s.readHome (128 * (ga / 128 + i))) s

/-- The links that hold up, in this cycle, an engine's read of some bytes that its die does not hold, each noted as waiting
(R299, R300). -/
def engineShut (s : State) (die ga n : Nat) : Option State :=
  (List.range ((ga + n - 1) / 128 + 1 - ga / 128)).findSome? fun i =>
    if (s.copyOf die (ga / 128 + i)).isSome then none else s.readShut die (128 * (ga / 128 + i)) 1

/-- The workgroup, other than one, that holds a sync line exclusively. -/
def exclOther (s : State) (w line : Nat) : Bool :=
  match (s.syncs.get {} line).excl with
  | some who => who != ((s.wg w).gang, (s.wg w).wgid)
  | none => false

end State

namespace Ctx

/-- Steps 6 to 8 of R323 over a read extent and a write extent of virtual addresses, and a sync object that is
acquired or released; a read of a poisoned block fails its translation (R425). -/
def globalChecks (c : Ctx) (reads writes : List (Nat × Nat)) (obj : Option (Nat × Bool)) (k : Ctx → Eff) : Eff :=
  let pages := fun (ext : List (Nat × Nat)) => (ext.flatMap fun (va, n) => pagesOf va n).map fun va => (va, c.active)
  c.xlate true (pages writes) fun c =>
    let bad := (reads.flatMap fun (va, n) => c.s.poisonIn c.part va n).map fun va => (va, c.active)
    c.xlate false (pages reads ++ bad ++ (match obj with | some (va, _) => [(va, c.active)] | none => [])) fun c =>
      let token := fun (va : Nat) =>
        Eff.trap { c.fault 6 1 with addr := va, d0 := c.s.ownerDetail c.part va }
      match obj with
      | some (va, true) =>
        if c.s.exclOther c.t.wg (gaOf c.part va / 128) then token va else rest c
      | _ => rest c
where
  /-- The token check and the decision on the pledge. -/
  rest (c : Ctx) : Eff :=
    c.tokens 1 (writes.map fun (va, n) => (gaOf c.part va, n, c.active)) <|
      match c.s.uncovered (extBlocks (writes.map fun (va, n) => (gaOf c.part va, n))) with
      | some (r, need, avail) =>
        .trap { c.fault 7 1 with addr := (writes.headD (0, 0)).1, d0 := BitVec.ofNat 64 (r % 65536),
                                 d1 := BitVec.ofNat 64 need, d2 := BitVec.ofInt 64 avail }
      | none => k c

/-- The matrix unit or half of the workgroup: without one the word is illegal (R53, R92). -/
def unit (c : Ctx) (k : Eff) : Eff :=
  if c.w.matrix == .none then .trap { c.fault 1 4 with mask := c.is.lanes } else k

/-- Whether the workgroup holds a half (R50, R51). -/
def split (c : Ctx) : Bool := match c.w.matrix with | .half _ => true | _ => false

/-- Rows M of an operation, and blocks of an accumulator (R337, R341). -/
def rowsM (c : Ctx) : Nat := if c.split then 32 else 64
def blocksQ (c : Ctx) : Nat := if c.split then 2 else 4

/-- A record that is valid in the workgroup (R335, R339). -/
def record (c : Ctx) (i : Nat) : Option ObRec :=
  match (c.s.core c.t.core).recs.find? i with
  | some r => if i < 64 ∧ r.wg = c.t.wg then some r else none
  | none => none

end Ctx

/-! Fields of a record (R297). -/

def ObRec.first (r : ObRec) : Nat := bitsOf r.w0 57 52
def ObRec.count (r : ObRec) : Nat := bitsOf r.w0 51 45
def ObRec.type (r : ObRec) : Nat := bitsOf r.w0 44 39
def ObRec.fmtv (r : ObRec) : BitVec 32 := r.w0.extractLsb' 7 32
def ObRec.soff (r : ObRec) : Nat := bitsOf r.w1 63 46
def ObRec.spitch (r : ObRec) : Nat := bitsOf r.w1 45 28

/-- A record of these fields, TYPE, FMTV and layout (R297, R334). -/
def obRecOf (wg team first count : Nat) (ty : Ty) (fmtv : BitVec 32) (layout : DWord) : ObRec where
  wg := wg
  w0 := BitVec.ofNat 64 (((((2 ^ 5 + team) * 2 ^ 6 + first) * 2 ^ 7 + count) * 2 ^ 6 + ty.code.toNat) * 2 ^ 32
    + fmtv.toNat) <<< 7
  w1 := BitVec.ofNat 64 (bitsOf layout 35 18 * 2 ^ 18 + bitsOf layout 17 0) <<< 28

namespace Ctx

/-- A record that can serve as the accumulator (R339). -/
def accRec (c : Ctx) (x : Src) : Option ObRec :=
  match c.record (c.sc x).toNat with
  | some r => if r.type = Ty.f32.code.toNat ∧ c.blocksQ ≤ r.count then some r else none
  | none => none

/-- A new command of the team: its number among the workgroup's commands (R182) is taken at enqueue. -/
def cmd (c : Ctx) (body : CmdBody) : Cmd :=
  { id := 0, number := 0, wg := c.t.wg, teams := [c.is.team], pc := c.is.pc, lanes := c.active, body := body }

/-- An operation of the matrix queue with its captured record (R61, R341). -/
def matCmd (c : Ctx) (i : Nat) (r : ObRec) (m : MatOp) : Cmd :=
  c.cmd (.mat m i r.first r.count r.soff r.spitch r.fmtv)

end Ctx

namespace State

/-- Numbers a command of a workgroup. -/
def number (s : State) (x : Cmd) (id : Nat) : Cmd × State :=
  ({ x with id := id, number := (s.wg x.wg).nextCmd }, s.updWg x.wg fun w => { w with nextCmd := w.nextCmd + 1 })

/-- Puts an operation at the end of its workgroup's matrix queue. -/
def matPush (s : State) (x : Cmd) : State :=
  let w := s.wg x.wg
  s.updCore w.core fun c =>
    { c with matrix := match w.matrix with
        | .half 1 => { c.matrix with q1 := c.matrix.q1 ++ [x] }
        | _ => { c.matrix with q0 := c.matrix.q0 ++ [x] } }

/-- Puts a command at the end of its core's copy queue. -/
def copyPush (s : State) (x : Cmd) : State := s.updCore (s.wg x.wg).core fun c => { c with copyQ := c.copyQ ++ [x] }

/-- A command joins the open batch of a team (R331). -/
def joinBatch (s : State) (t id : Nat) : State :=
  s.updTeam t fun t => { t with openBatch := { t.openBatch with cmds := t.openBatch.cmds ++ [id] } }

end State

namespace Ctx

/-- Step 9 of R323 for one operation of the matrix queue: room, then the enqueue. -/
def matGo (c : Ctx) (x : Cmd) (k : Nat → State → State) : Eff :=
  if !c.s.matrixRoom c.is.team then c.retry
  else
    let (id, s) := c.s.newId
    let (x, s) := s.number x id
    let s := s.pledgeCmd x.pledged
    .go (c.advance (k id ((s.matPush x).joinBatch c.is.team id)))

end Ctx

/-! Coordinate programs (R329, R330). -/

/-- One micro-operation. -/
structure Micro where
  op : Nat
  level : Nat
  gcnt : Nat
  value : Nat
  rest : Nat
deriving DecidableEq, Repr

/-- A micro-operation of its word. -/
def microOf (w : DWord) : Micro :=
  { op := bitsOf w 63 60, level := bitsOf w 59 58, gcnt := bitsOf w 57 50, value := bitsOf w 31 0, rest := bitsOf w 49 32 }

/-- The micro-operations of a 64-byte block. -/
def microsOf (bs : List Byte) : List Micro :=
  (List.range 8).map fun i => microOf (ofBytes 64 ((bs.drop (8 * i)).take 8))

/-- Well-formedness from a micro-operation on: the open levels, whether a `loop` or an `emit` has stood, whether an
`emit` has stood (R330). -/
def programOk : List Micro → List Nat → Bool → Bool → Bool
  | [], _, _, _ => false
  | m :: ms, levels, body, emitted =>
    m.rest == 0 &&
    match m.op with
    | 0 =>
      m.level == 0 && m.gcnt == 0 && m.value == 0 &&
        (match levels with | [] => emitted | _ :: up => programOk ms up body emitted)
    | 1 =>
      m.gcnt == 0 && decide (1 ≤ m.value) && decide (m.value ≤ 2 ^ 24) && !levels.contains m.level
        && programOk ms (m.level :: levels) true emitted
    | 2 => m.gcnt == 0 && !body && programOk ms levels body emitted
    | 3 => m.gcnt == 0 && !body && decide (1 ≤ m.value) && decide (m.value ≤ 65535) && programOk ms levels body emitted
    | 4 => m.level == 0 && !body && programOk ms levels body emitted
    | 5 =>
      m.level == 0 && m.gcnt == 0 && decide (1 ≤ m.value) && decide (m.value ≤ 4096) && programOk ms levels true true
    | _ => false

/-- Splits after the `end` that closes the innermost open level: the body and what follows. -/
def splitEnd : List Micro → Nat → List Micro × List Micro
  | [], _ => ([], [])
  | m :: ms, depth =>
    if m.op = 0 ∧ depth = 0 then ([], ms)
    else
      let (a, b) := splitEnd ms (if m.op = 0 then depth - 1 else if m.op = 1 then depth + 1 else depth)
      (m :: a, b)

/-- The runs of global elements of one pass, from an offset on; `step` is S_L × D_L (R330). -/
def passRuns (step : Nat → Int) : Nat → List Micro → Int → List (Int × Nat)
  | 0, _, _ => []
  | _, [], _ => []
  | n + 1, m :: ms, p =>
    match m.op with
    | 0 => []
    | 1 =>
      let (body, after) := splitEnd ms 0
      ((List.range m.value).flatMap fun (i : Nat) => passRuns step n body (p + i * step m.level)) ++ passRuns step n after p
    | 5 => (p, m.value) :: passRuns step n ms p
    | _ => passRuns step n ms p

/-- The micro-operations of a program before the `end` that ends its pass: what follows is no part of it (R330). -/
def programBody : List Micro → Nat → List Micro
  | [], _ => []
  | m :: ms, depth =>
    if m.op = 0 ∧ depth = 0 then [] else m :: programBody ms (if m.op = 0 then depth - 1 else if m.op = 1 then depth + 1 else depth)

/-- The runs of global elements that a well-formed program emits: first element and length. -/
def programRuns (ms : List Micro) : List (Int × Nat) :=
  let ms := programBody ms 0
  let last := fun (p : Micro → Bool) => List.find? p ms.reverse
  let step := fun (l : Nat) =>
    let s : Int := match last fun m => m.op == 2 && m.level == l with | some m => toS 32 m.value | none => 0
    let d : Int := match last fun m => m.op == 3 && m.level == l with | some m => m.value | none => 1
    s * d
  let (g, gp) : Nat × Int := match last fun m => m.op == 4 with
    | some m => (m.gcnt + 1, toS 32 m.value)
    | none => (1, 0)
  (List.range g).flatMap fun (i : Nat) => passRuns step 9 ms (i * gp)

end Sys2Proof.Machine
end

