-- ==== Sys2Proof/Machine/EngineIns.lean ====
section
/-!
DEFINITION. The engine family: opcodes 0x280-0x28B (14 R321-R346). What a command does when it runs stands with the
engines.
-/

namespace Sys2Proof.Machine

/-! Copies. -/

/-- The control word of a slice (R324). -/
def cwOut (cw : DWord) : Bool := cw.getLsbD 63
def cwObuf (cw : DWord) : Bool := cw.getLsbD 62
def cwE (cw : DWord) : Nat := 2 ^ bitsOf cw 61 60
def cwRows (cw : DWord) : Nat := bitsOf cw 59 48 + 1
def cwCols (cw : DWord) : Nat := bitsOf cw 47 36 + 1
def cwTiles (cw : DWord) : Nat := bitsOf cw 35 28 + 1

namespace Ctx

/-- The program block of a `copy.gen` where it lies in its segment: `.k` through the homes, which a migration of its
page or a link's slot holds (R203, R299), `.s` in the array (R324, R329). A guard byte of a block in `.s` reads as zero
and records no touch, of which no rule speaks (DESIGN CHOICE, log 74). -/
def program (c : Ctx) (cw : DWord) (k : Ctx → Option (List Byte) → Eff) : Eff :=
  let p := bitsOf cw 26 8
  if cw.getLsbD 27 then
    if c.inSeg 3 p 64 then
      c.xlate false [(c.va 3 p, c.active), (c.va 3 (p + 63), c.active)] fun c =>
        if c.s.migrating (c.gaddr 3 p) || c.s.migrating (c.gaddr 3 (p + 63)) then c.later false
        else match c.s.engineShut (coreDie c.t.core) (c.gaddr 3 p) 64 with
        | some s => { c with s := s }.later false
        | none =>
        let bs := c.s.engineBytes (coreDie c.t.core) (c.gaddr 3 p) 64
        k { c with s := c.s.engineHeat (coreDie c.t.core) (c.gaddr 3 p) 64 } (some bs)
    else k c none
  else if c.inSeg 1 p 64 then k c (some (c.spadRead c.s 1 p 64 false))
  else k c none

/-- Contributes a slice of global runs (offset in `sg.glob` and bytes) with its extent; the checks of R323 from step 5
on (R325-R328). Its pledge is its own: a block that two slices of one command reach is pledged, and its pledge ends,
once for each, where R212 does not say (DESIGN CHOICE, log 74). -/
def contribute (c : Ctx) (m : Mask) (cw : DWord) (runs ext : List (Int × Nat)) : Eff :=
  let (d0, _) := c.pair c.f.a
  let obuf := cwObuf cw
  let seg := if obuf then 3 else if d0.getLsbD 63 then 2 else 1
  let d := { c.desc c.f.a with seg := (c.t.seg seg).base.toNat, clus := !obuf && d0.getLsbD 63 }
  let rowBytes := cwCols cw * cwE cw
  let localOk := decide (d.endOf (cwTiles cw) (cwRows cw) rowBytes ≤ (c.t.seg seg).limit.toNat)
  if !localOk || ext.any fun (o, n) => !c.inSeg 0 o n then c.allOff
  else
    let out := cwOut cw
    let vas := ext.map fun (o, n) => (c.va 0 o, n)
    let wide := c.f.cScope ≥ 2
    let objOff := match c.f.c with | .pair _ b => some (c.t.readS b.toNat) | _ => none
    let objVa := objOff.map fun o => (c.base 0 + o.toNat) / 128 * 128
    c.globalChecks (if out then [] else vas) (if out then vas else []) (objVa.map fun va => (va, c.f.cRel && wide)) fun c =>
      let gas := vas.map fun (va, n) => (gaOf c.part va, n)
      let inst := c.openInst m
      let missing := c.missing m
      if !c.copyRoom m then c.retry
      else
        let slice : Slice :=
          { team := c.is.team, teamid := c.t.teamid, pc := c.is.pc, toGlobal := out, obuf := obuf, e := cwE cw,
            rows := cwRows cw, cols := cwCols cw, tiles := cwTiles cw,
            runs := runs.map fun (o, n) => (c.gaddr 0 o, n), ext := gas, desc := d }
        let ks := if out then extBlocks gas else []
        let (id, s) := match inst with | some a => (a.id, c.s) | none => c.s.newId
        let s := (s.pledgeCmd ks).joinBatch c.is.team id
        let a : AsmInst := match inst with
          | some a => { a with missing := missing, slices := a.slices ++ [slice], pledged := a.pledged ++ ks }
          | none => { id := id, q := c.f.q, mask := m, obj := objOff, missing := missing, slices := [slice],
                      pledged := ks }
        let others := c.w.asm.filter fun x => x.id != id
        if missing.isEmpty then
          let slices := sortBy (fun (x y : Slice) => decide (x.teamid < y.teamid)) a.slices
          let x := { c.cmd (.copy slices c.f.cAcq c.f.cRel c.f.cScope (objVa.map fun va => gaOf c.part va / 128)) with
            teams := slices.map (·.team)
            pc := (slices.head?.map (·.pc)).getD c.is.pc
            pledged := a.pledged
            gone := a.gone
            ext := slices.flatMap fun y => if y.toGlobal then y.ext else [] }
          let (x, s) := s.number x id
          .go (c.advance ((s.updWg c.t.wg fun w => { w with asm := others }).copyPush x))
        else
          let asm := if inst.isSome then c.w.asm.map fun x => if x.id = id then a else x else others ++ [a]
          .go (c.advance (s.updWg c.t.wg fun w => { w with asm := asm }))

/-- The conditions of sub-causes 16, 17 and 22 of a slice (R323, R324, R326). -/
def copyConds (c : Ctx) (m : Mask) : Bool × Bool × Bool :=
  let (d0, _) := c.pair c.f.a
  let (_, cw) := c.pair c.f.b
  let obj := match c.f.c with | .pair _ b => some (c.t.readS b.toNat) | _ => none
  (!(c.named m).contains c.t.teamid,
   match c.openInst m with | some a => a.q != c.f.q || a.obj != obj | none => false,
   cwObuf cw && bitsOf d0 63 55 != 0)

end Ctx

/-- `copy` (R324-R326) -/
def execCopy (f : Form) (s : State) : Res :=
  wordIns .copy f s fun c => c.once <| c.descs [f.a] <|
    let m := c.copyMask
    let (g, cw) := c.pair f.b
    let (c16, c17, c22) := c.copyConds m
    c.own [(16, c16), (17, c17), (22, c22)] <|
      let pitch := bitsOf cw 27 0
      let runs : List (Int × Nat) := (List.range (cwTiles cw * cwRows cw)).map fun i =>
        ((g.toNat + i * pitch : Nat), cwCols cw * cwE cw)
      c.contribute m cw runs runs

/-- `copy.gen` (R329, R330): a program that cannot be read is found out after every sub-cause of the instruction's own (R323
steps 4 and 6). The extent runs from the lowest byte that its program reaches to the highest. -/
def execCopyGen (f : Form) (s : State) : Res :=
  wordIns .copyGen f s fun c => c.once <| c.descs [f.a] <|
    let m := c.copyMask
    let (g, cw) := c.pair f.b
    let (c16, c17, c22) := c.copyConds m
    let bad22 := c22 || bitsOf cw 7 0 != 0
    let p := bitsOf cw 26 8
    let unread := cw.getLsbD 27 && c.inSeg 3 p 64 && [c.va 3 p, c.va 3 (p + 63)].any fun va =>
      (c.s.translateNow c.part (some (coreRq c.t.core)) va false false).isSome
    c.own [(16, c16), (17, c17), (18, p % 64 != 0), (22, bad22 && unread)] <|
      c.program cw fun c prog => match prog with
        | none => c.own [(22, bad22)] c.allOff
        | some bs =>
          let ms := microsOf bs
          let ok := programOk ms [] false false
          let elems := programRuns ms
          let total := elems.foldl (fun n (_, k) => n + k) 0
          c.own [(18, !ok), (19, total != cwTiles cw * cwRows cw * cwCols cw), (22, bad22)] <|
            let e := cwE cw
            let runs : List (Int × Nat) := elems.map fun (p, n) => ((g.toNat : Int) + p * e, n * e)
            let lo := runs.foldl (fun (a : Int) (o, _) => min a o) (runs.headD (0, 0)).1
            let hi := runs.foldl (fun (a : Int) (o, n) => max a (o + n)) lo
            c.contribute m cw runs [(lo, (hi - lo).toNat)]

/-! Batches. -/

/-- `copy.seal` (R331) -/
def execCopySeal (f : Form) (s : State) : Res :=
  wordIns .copySeal f s fun c => c.once <|
    let n := c.t.nextBatch
    let s := c.s.updTeam c.is.team fun t =>
      { t with sealed := t.sealed ++ [{ t.openBatch with number := n }], openBatch := { number := 0 },
               nextBatch := (n + 1) % 65536 }
    .go (c.advance (c.writeScalar s (BitVec.ofNat 64 n)))

namespace State

/-- A team observes its finished batches: the clean words of their global write extents leave its core's L1 (R241,
R332). -/
def observeBatches (s : State) (t : Nat) : State :=
  let x := s.team t
  let rest := unfinished x.sealed
  let done := x.sealed.take (x.sealed.length - rest.length)
  (s.dropCleanAll x.core (done.flatMap (·.extents))).updTeam t fun x => { x with sealed := rest }

/-- The same for its finished `coll` commands (R346). -/
def observeColls (s : State) (t : Nat) : State :=
  let x := s.team t
  let rest := unfinished x.collCmds
  let done := x.collCmds.take (x.collCmds.length - rest.length)
  (s.dropCleanAll x.core (done.flatMap (·.extents))).updTeam t fun x => { x with collCmds := rest }

end State

/-- `copy.wait` (R332) -/
def execCopyWait (f : Form) (s : State) : Res :=
  wordIns .copyWait f s fun c => c.once <|
    let n := c.u32 f.a c.low
    if (State.unfinished c.t.sealed).length ≤ n then .go (c.advance (c.s.observeBatches c.is.team))
    else c.waitFor c.s fun _ => .copyWait n

/-! Reservations. -/

/-- The lowest run of free granules of a workgroup (R334). -/
def freeRun (c : Ctx) (n : Nat) : Option Nat :=
  let mine := (c.s.core c.t.core).recs.filter fun (_, r) => r.wg == c.t.wg
  let used := fun (g : Nat) => mine.any fun (_, r) => decide (r.first ≤ g) && decide (g < r.first + r.count)
  (List.range (c.w.obufCount + 1 - n)).find? fun g => (List.range n).all fun i => !used (g + i)

/-- `obres` (R334) -/
def execObres (f : Form) (s : State) : Res :=
  wordIns .obres f s fun c => c.onceFmt <|
    let n := (c.sc f.b).toNat
    let layout := c.sc f.c
    c.own [(23, n = 0 || decide (64 < n) || bitsOf layout 63 36 != 0)] <|
      match freeRun c n, (c.s.core c.t.core).recs.freeKey 64 with
      | some g, some i =>
        let r := obRecOf c.t.wg c.t.teamid g n f.ty (c.fmtOf f.ty) layout
        let s := c.s.updCore c.t.core fun x => { x with recs := x.recs.put i r }
        .go (c.advance (c.writeScalar s (BitVec.ofNat 64 i)))
      | _, _ => .go (c.advance (c.writeScalar c.s (BitVec.allOnes 64)))

namespace State

/-- Whether a command in the matrix queues of a core names a record of a workgroup (R335). -/
def recordBusy (s : State) (core w i : Nat) : Bool :=
  let m := (s.core core).matrix
  (m.q0 ++ m.q1).any fun x => x.wg == w && match x.body with
    | .mat _ j _ _ _ _ _ => j == i
    | _ => false

/-- Clears a record that is valid in a workgroup (R335). -/
def clearRecord (s : State) (core w i : Nat) : State :=
  s.updCore core fun c => match c.recs.find? i with
    | some r => if r.wg = w then { c with recs := c.recs.erase i } else c
    | none => c

end State

/-- `obrel` (R335) -/
def execObrel (f : Form) (s : State) : Res :=
  wordIns .obrel f s fun c => c.once <|
    let i := (c.sc f.a).toNat
    if (c.record i).isNone then .go (c.advance c.s)
    else if c.s.recordBusy c.t.core c.t.wg i then
      .go (c.s.updTeam c.is.team fun t => t.holdOn c.is.lanes (.record c.t.core i))
    else .go (c.advance (c.s.clearRecord c.t.core c.t.wg i))

/-- `obfmt` (R336) -/
def execObfmt (f : Form) (s : State) : Res :=
  wordIns .obfmt f s fun c => c.onceFmt <|
    let i := (c.sc f.a).toNat
    let layout := c.sc f.c
    c.own [(21, (c.record i).isNone), (23, bitsOf layout 63 36 != 0)] <|
      let s := c.s.updCore c.t.core fun x =>
        { x with recs := x.recs.updIf i fun r =>
            obRecOf r.wg (bitsOf r.w0 62 58) r.first r.count f.ty (c.fmtOf f.ty) layout }
      .go (c.advance s)

/-! Matrix operations. -/

/-- The width class of an operand under a type: bits of a container (R146, R337). -/
def contBits (ty : Ty) (v : BitVec 32) : Nat := if ty.isFmt then fmtContainer v else 16
/-- K of an operation (R337). -/
def depthK (bits : Nat) : Nat := if bits = 16 then 32 else if bits = 8 then 64 else 128
/-- Block length of a format, and whether it is scaled (R143). -/
def fmtBlock (v : BitVec 32) : Nat := 16 * 2 ^ bitsOf v 25 24
def fmtScaled (v : BitVec 32) : Bool := v.getLsbD 26

namespace Ctx

/-- The vector registers of a source, as a program's 32 lanes hold them: register i of the range, lane l at
32 i + l (R338). -/
def regRange (c : Ctx) (x : Src) (n : Nat) : Tbl Word :=
  match x with
  | .v va => (List.range n).foldl (fun m i => allLanes.foldl (fun m l =>
      Tbl.store 0 m (32 * i + l) (c.t.readV (va.toNat + i) l)) m) []
  | _ => []

/-- Whether a register range lies beyond the program registers (R23, R337, R341). -/
def beyond (c : Ctx) (x : Src) (n : Nat) : Bool :=
  match x with | .v va => decide (va.toNat + n > c.t.vregs - c.t.depth) | _ => false

/-- The narrow format of an operand: of its descriptor, or of the type (R179, R337). -/
def operandFmt (c : Ctx) (x : Src) : BitVec 32 :=
  if !c.f.ty.isFmt then 0
  else match x with
    | .pair a _ => c.w.fmt (bitsOf (c.t.readS a.toNat) 61 58)
    | _ => c.fmtOf c.f.ty

/-- An operand of `mma` as it is captured (R338). -/
def operand (c : Ctx) (x : Src) (n : Nat) : Sum (Tbl Word) Desc :=
  if isPair x then .inr (c.desc x) else .inl (c.regRange x n)

/-- The operation that an `mma` enqueues with the registers of now. -/
def mmaOp (c : Ctx) : MatOp :=
  .mma c.f.ty (c.operandFmt c.f.a) (c.operandFmt c.f.b) (c.operand c.f.a (if c.split then 16 else 32)) (c.operand c.f.b 32)

end Ctx

/-- The same operation with its register operands read anew (R338, R340). -/
def reread (c : Ctx) (x : Cmd) : Cmd :=
  match x.body with
  | .mat (.mma ty fa fb a b) i first count soff spitch fmtv =>
    let again := fun (y : Src) (n : Nat) (o : Sum (Tbl Word) Desc) => match o with
      | .inl _ => Sum.inl (c.regRange y n)
      | d => d
    let m : MatOp := .mma ty fa fb (again c.f.a (if c.split then 16 else 32) a) (again c.f.b 32 b)
    { x with body := .mat m i first count soff spitch fmtv }
  | _ => x

/-- `mma` (R49, R53, R323, R337-R340). That the unit is there comes before an illegal format of a type: R92 counts
sub-cause 4 among the faults of the word, and R93 and R144 do not order the two (DESIGN CHOICE, log 74). -/
def execMma (f : Form) (s : State) : Res :=
  wordIns .mma f s fun c => c.unit <| c.onceFmt <|
    let fa := c.operandFmt f.a
    let fb := c.operandFmt f.b
    let narrow := f.ty.isFmt
    match if narrow then (illegalFmt fa).orElse fun _ => illegalFmt fb else none with
    | some sub => .trap { c.fault 10 sub with mask := c.is.lanes }
    | none => c.descs [f.a, f.b] <|
      let k := depthK (contBits f.ty fa)
      let i := (c.sc f.c).toNat
      let r := (c.accRec f.c).getD { wg := 0, w0 := 0, w1 := 0 }
      let rows := c.rowsM
      let scaleOut := fun (v : BitVec 32) (row : Nat) =>
        narrow && fmtScaled v &&
          decide (r.soff + r.spitch * row + (k + fmtBlock v - 1) / fmtBlock v > 4096 * r.count)
      c.own [(20, contBits f.ty fa != contBits f.ty fb || c.beyond f.a (if c.split then 16 else 32) || c.beyond f.b 32),
             (21, (c.accRec f.c).isNone), (23, scaleOut fa (rows - 1) || scaleOut fb 127)] <|
        let bytes := k * contBits f.ty fa / 8
        let ok := fun (x : Src) (n : Nat) => !Ctx.isPair x || c.descIn (c.desc x) 1 n bytes
        if !(ok f.a rows && ok f.b 64) then c.allOff
        else if !c.s.matrixRoom c.is.team then c.retry
        else
          let n := c.lanes.length
          let first := c.s.nextId
          let s := { c.s with nextId := first + n }
          let s := (List.range n).foldl (fun s j => s.joinBatch c.is.team (first + j)) s
          let x := c.matCmd i r c.mmaOp
          let now := min n (8 - (s.matrixQueue c.w).length)
          let s := (List.range now).foldl (fun s j => let (y, s) := s.number x (first + j); s.matPush y) s
          if now = n then .go (c.advance s)
          else .go (s.updTeam c.is.team fun t => t.await c.is.lanes fun _ => .mma now first c.active c.is.word x)

/-- `accld.get` (R341) -/
def execAccldGet (f : Form) (s : State) : Res :=
  wordIns .accldGet f s fun c => c.unit <| c.once <|
    let vd := match f.d.dst with | some (.v r) => r.toNat | _ => 0
    let q := (c.sc f.b).toNat
    c.own [(20, decide (vd + 32 > c.t.vregs - c.t.depth)), (21, (c.accRec f.c).isNone), (23, decide (c.blocksQ ≤ q))] <|
      match c.accRec f.c with
      | none => .trap (c.fault 2 21)
      | some r =>
        c.matGo (c.matCmd (c.sc f.c).toNat r (.get c.is.team c.active vd q)) fun id s =>
          s.updTeam c.is.team fun t => { t with locks := t.locks ++ (List.range 32).map fun i => (codeV (vd + i), id) }

/-- `accld.put` (R341) -/
def execAccldPut (f : Form) (s : State) : Res :=
  wordIns .accldPut f s fun c => c.unit <| c.once <| c.descs [f.a] <|
    let q := (c.sc f.b).toNat
    let reg := !Ctx.isPair f.a
    c.own [(20, c.beyond f.a 32), (21, (c.accRec f.c).isNone), (23, reg && decide (c.blocksQ ≤ q))] <|
      match c.accRec f.c with
      | none => .trap (c.fault 2 21)
      | some r =>
        if !reg && !c.descIn (c.desc f.a) 1 c.rowsM 256 then c.allOff
        else
          let m : MatOp := if reg then .putReg c.active (c.regRange f.a 32) q else .putDesc (c.desc f.a)
          c.matGo (c.matCmd (c.sc f.c).toNat r m) fun _ s => s

/-- `accld.zero` (R341) -/
def execAccldZero (f : Form) (s : State) : Res :=
  wordIns .accldZero f s fun c => c.unit <| c.once <|
    match c.accRec f.c with
    | none => .trap (c.fault 2 21)
    | some r => c.matGo (c.matCmd (c.sc f.c).toNat r .zero) fun _ s => s

/-- Bytes of a row of 64 elements of a type (R146, R342). -/
def storeRow (ty : Ty) (v : BitVec 32) : Nat := 64 * (if ty.isFmt then fmtContainer v else ty.width) / 8

/-- `accst` (R342); a narrow type into the scratchpad takes the format that its descriptor names (R179). Its unit
comes before an illegal format, as for `mma` (DESIGN CHOICE, log 74). -/
def execAccst (f : Form) (s : State) : Res :=
  wordIns .accst f s fun c => c.unit <| c.onceFmt <|
    match if Ctx.isPair f.a && f.ty.isFmt then illegalFmt (c.operandFmt f.a) else none with
    | some sub => .trap { c.fault 10 sub with mask := c.is.lanes }
    | none => c.descs [f.a] <|
    match c.accRec f.c with
    | none => .trap (c.fault 2 21)
    | some r =>
      let v := if Ctx.isPair f.a then c.operandFmt f.a else c.fmtOf f.ty
      let row := storeRow f.ty v
      let i := (c.sc f.c).toNat
      let m := c.rowsM
      if Ctx.isPair f.a then
        if !c.descIn (c.desc f.a) 1 m row then c.allOff
        else c.matGo (c.matCmd i r (.storeSpad f.ty v f.q2 f.ovf (c.desc f.a))) fun _ s => s
      else
        let g : Int := (c.sc f.a).toNat
        let pitch := (c.sc f.b).toInt
        let far := g + (m - 1 : Nat) * pitch
        let lo := min g far
        let n := (max g far + row - lo).toNat
        if !c.inSeg 0 lo n then c.allOff
        else
          c.globalChecks [] [(c.va 0 lo, n)] none fun c =>
            let ga := c.gaddr 0 lo
            let x := c.matCmd i r (.storeGlobal f.ty v f.q2 f.ovf (gaOf c.part (c.base 0) + g) pitch)
            c.matGo { x with pledged := extBlocks [(ga, n)], ext := [(ga, n)] } fun _ s => s

/-! Collectives. -/

/-- Whether a group record is malformed (R343). -/
def groupBad (bs : List Byte) (limit : Nat) : Bool :=
  let p := (ofBytes 32 (bs.take 4) : BitVec 32).toNat
  let rank := (ofBytes 32 ((bs.drop 4).take 4) : BitVec 32).toNat
  let table := (ofBytes 64 ((bs.drop 8).take 8) : DWord).toNat
  p = 0 || decide (1024 < p) || decide (p ≤ rank) || decide (limit < table + 8 * p) || (bs.drop 40).any (· != 0)

/-- `coll` (R323, R343, R344): the record's SEQ is read and raised at issue, once no migration of its page stands, the
links to it let it be read, and an earlier `coll`'s rise has reached the home (R203, R252, R299). It reads source and
member table. -/
def execColl (f : Form) (s : State) : Res :=
  wordIns .coll f s fun c => c.once <|
    let (a, b) := c.pair f.a
    let (cnt, group) := c.pair f.b
    let count := cnt.toNat % 2 ^ 32
    let r := group.toNat
    if r % 64 != 0 then .trap (c.fault 2 26)
    else if !c.inSeg 0 r 64 then c.allOff
    else
      c.xlate false [(c.va 0 r, c.active)] fun c =>
        if c.s.migrating (c.gaddr 0 r) || c.s.hwOut (c.gaddr 0 r) 64 then c.later false
        else match c.s.engineShut (coreDie c.t.core) (c.gaddr 0 r) 64 with
        | some s => { c with s := s }.later false
        | none =>
        let die := coreDie c.t.core
        let bs := c.s.engineBytes die (c.gaddr 0 r) 64
        let c := { c with s := c.s.engineHeat die (c.gaddr 0 r) 64 }
        let p := (ofBytes 32 (bs.take 4) : BitVec 32).toNat
        let rank := (ofBytes 32 ((bs.drop 4).take 4) : BitVec 32).toNat
        let seq : DWord := ofBytes 64 ((bs.drop 16).take 8)
        let tag : DWord := ofBytes 64 ((bs.drop 32).take 8)
        c.own [(26, groupBad bs (c.limit 0))] <|
          let n := count * (f.ty.width / 8)
          if !c.inSeg 0 a.toNat n || !c.inSeg 0 b.toNat n then c.allOff
          else
            let src := (c.va 0 a.toNat, n)
            let dst := (c.va 0 b.toNat, n)
            let status := (c.va 0 (r + 16), 16)
            let table := loadNat ((bs.drop 8).take 8)
            c.globalChecks ((if n = 0 then [] else [src]) ++ [(c.va 0 table, 8 * p)]) ((if n = 0 then [] else [dst]) ++ [status]) none fun c =>
              let core := c.s.core c.t.core
              if core.copyQ.length ≥ 32 || (State.unfinished c.t.collCmds).length ≥ 32 then c.retry
              else
                let ga := fun (x : Nat × Nat) => (gaOf c.part x.1, x.2)
                let ext := (if n = 0 then [] else [ga dst]) ++ [ga status]
                let x := { c.cmd (.coll f.q2 f.ty count (ga src).1 (ga dst).1 (c.gaddr 0 r) seq p rank tag
                    (c.gaddr 0 table)) with
                  pledged := extBlocks ext, ext := ext }
                let (id, s) := c.s.newId
                let (x, s) := s.number x id
                let s := s.pledgeCmd x.pledged
                let s := s.hwStore c.t.core (c.gaddr 0 (r + 16)) (bytesOf 8 (seq + 1))
                let s := s.updTeam c.is.team fun t =>
                  { t with collCmds := t.collCmds ++ [{ number := id, cmds := [id] }] }
                .go (c.advance (s.copyPush x))

/-- `coll.wait` (R346) -/
def execCollWait (f : Form) (s : State) : Res :=
  wordIns .collWait f s fun c => c.once <|
    let n := c.u32 f.a c.low
    if (State.unfinished c.t.collCmds).length ≤ n then .go (c.advance (c.s.observeColls c.is.team))
    else c.waitFor c.s fun _ => .collWait n

end Sys2Proof.Machine
end

