-- ==== Sys2Proof/Machine/Completion.lean ====
section
/-!
DEFINITION. How waits and holds of lanes end (06 R127, R131-R136; 08 R185; 10 R230; 14 R49, R332, R346; 17 R367-R376;
19 R401; 03 R68), and the illegal-instruction fault (04 R91). An event that is not due leaves the state as it is.
-/

namespace Sys2Proof.Machine

/-! Convergence. -/

namespace State

/-- The lanes that take part with a lane in convergence: those of its team that are neither Off nor Exited, and inside a
handler those of the trapping group alone (R127, R136). -/
def partners (t : Team) : Mask :=
  match t.handler with
  | some h => t.live &&& h.lanes
  | none => t.live

/-- Whether a lane is a member of a close instance: it holds k or more open levels that match (R127). -/
def closeMember (t : Team) (k : Nat) (opener : BitVec 24) (outer : List Word) (l : Nat) : Bool :=
  decide (k ≤ (t.lane l).level) && (t.presents l).take (k - 1) == outer && (t.token k l).extractLsb' 8 24 == opener

end State

/-- A close instance completes when every member waits at a `conv.close` with exactly k levels (R127). -/
def execConvCloseCompletion (team lane : Nat) (s : State) : Res :=
  let t := s.team team
  let x := t.lane lane
  match x.wait with
  | some (.close opener outer) =>
    let k := x.level
    let members := maskBy fun l => (State.partners t).getLsbD l && State.closeMember t k opener outer l
    let there := t.waiters fun w => w == .close opener outer
    let whole := (lanesOf members).all fun l => there.getLsbD l && (t.lane l).level == k
    if members != 0 && whole && there.getLsbD lane then
      .next (s.updTeam team fun t =>
        (t.mapLanes (members.getLsbD ·) fun _ y => { y with level := k - 1 }).advance members)
    else .next s
  | _ => .next s

/-! Group-collectives. -/

/-- The source lane of `shfl` (R135). -/
def shflFrom (mode : Nat) (wrap : Bool) (b : Nat) (l : Nat) : Nat :=
  let j : Int := match mode with
    | 0 => (b % 32 : Nat)
    | 1 => (l : Int) - b
    | 2 => (l : Int) + b
    | _ => (l ^^^ (b % 32) : Nat)
  if wrap then (j % 32).toNat else if 0 ≤ j ∧ j < 32 then j.toNat else l

/-- One step of `redux` (R134): the value and its flags. -/
def reduxStep (op : Nat) (t : Ty) (x y : Nat) : Nat × BitVec 5 :=
  let n := t.width
  let i := fun (z : Nat) => if t.isS then toS n z else (z : Int)
  if t == .f32 then
    match op with
    | 0 => addF fp32 0 (fp32.value x) (fp32.value y)
    | 1 => minmaxF fp32 false x y
    | _ => minmaxF fp32 true x y
  else
    (match op with
      | 0 => (x + y) % 2 ^ n
      | 1 => if i y < i x then y else x
      | 2 => if i x < i y then y else x
      | 3 => x &&& y
      | 4 => x ||| y
      | _ => x ^^^ y, 0)

namespace CollInst

/-- What lane l contributed. -/
def val (i : CollInst) (l : Nat) : Nat := (i.vals.get 0 l).toNat
/-- The lowest contributor. -/
def first (i : CollInst) : Nat := (lowest i.contrib).getD 0
/-- The contributors whose guard is set. -/
def set (i : CollInst) : List Nat := (lanesOf i.contrib).filter fun l => i.val l % 2 = 1

/-- `redux` over the contributors in ascending lane order (R134). -/
def redux (i : CollInst) : Nat × BitVec 5 :=
  match lanesOf i.contrib with
  | [] => (0, 0)
  | l :: ls => ls.foldl (fun acc k =>
      let r := reduxStep i.form.q3 i.form.ty acc.1 (i.val k)
      (r.1, acc.2 ||| r.2)) (start i.form.ty (i.val l), 0)
where
  /-- The value with which the combination starts: a NaN as the canonical one, which is the result of a single contributor
  (R141). -/
  start (t : Ty) (x : Nat) : Nat := if t == .f32 && (fp32.value x).isNan && (lanesOf i.contrib).length = 1 then (nanF fp32 0).1 else x

/-- The value that a contributor, or the scalar destination, receives (R133). -/
def result (i : CollInst) (l : Nat) : Nat :=
  let n := (lanesOf i.contrib).length
  let yes := i.set.length
  let bit := fun (b : Bool) => if b then 1 else 0
  match i.op with
  | .vote => match i.form.q2 with
    | 0 => bit (yes != 0)
    | 1 => bit (yes == n)
    | 2 => bit (yes == 0 || yes == n)
    | _ => bit (yes % 2 == 1)
  | .ballot => i.set.foldl (fun x l => x + 2 ^ l) 0
  | .elect => bit (l == i.first)
  | .matchLanes => bit (i.val l == i.val i.first)
  | .bcast =>
    let j := (i.lanes.get 0 i.first).toNat % 32
    if i.contrib.getLsbD j then i.val j else 0
  | .shfl =>
    let j := shflFrom i.form.q2 i.form.wrap (i.lanes.get 0 l).toNat l
    if i.contrib.getLsbD j then i.val j else i.val l
  | _ => i.redux.1

/-- The width at which the result is written. -/
def resultBits (i : CollInst) : Nat :=
  match i.op with
  | .vote | .elect | .matchLanes => 1
  | .ballot => 64
  | _ => i.form.ty.width

end CollInst

namespace State

/-- Whether every lane that the instance names has arrived or presents another token (R131, R136). -/
def collWhole (t : Team) (i : CollInst) : Bool :=
  i.handler == t.handler.isSome && t.resident && !t.halted && !t.stopping &&
    (lanesOf (i.mask &&& partners t)).all fun l => i.arrived.getLsbD l || t.presents l != i.token

end State

/-- A group-collective completes (R131, R132): its result goes to its contributors, and every arrived lane runs on. -/
def execCollectiveCompletion (team inst : Nat) (s : State) : Res :=
  let t := s.team team
  match t.colls.find? inst with
  | none => .next s
  | some i =>
    if !State.collWhole t i then .next s
    else
      let is : Issue := { team := team, lanes := i.arrived, pc := i.pc, word := 0, port := 1 }
      let c := { ctxOf i.op i.form s is with active := i.contrib }
      let s := c.write s i.resultBits i.form.ty.isS false i.result
      let s := if i.op = .redux then s.updTeam team fun t => t.gather i.redux.2 else s
      let there := t.waiters fun w => w == .coll inst
      .next (s.updTeam team fun t => { t with colls := t.colls.erase inst }.advance there)

/-! Loads. -/

namespace State

/-- The order of full/empty loads that could complete in one cycle: the longest wait, then core, pipe, port. R185 orders the
`.fec` loads alone; that `.fe` loads stand in the one order with them is the model's own (DESIGN CHOICE, log 74). -/
def feBefore (s : State) (a b : Load) : Bool :=
  let key := fun (d : Load) => ((d.since * 256 + d.core) * 4 + (s.team d.team).pipe) * 4 + d.port
  decide (key a < key b)

end State

/-- A waiting `.fe` or `.fec` load completes: its lanes read their data, `.fec` clears each granule once, and the lanes
run on (R185). -/
def execFeLoadCompletion (load : Nat) (s : State) : Res :=
  match s.loads.find? load with
  | none => .next s
  | some d =>
    let there := (s.team d.team).waiters fun w => w == .fe load
    if d.fe = 0 || there = 0 || !s.feFull d then .next s
    else
      .next (((s.feDone d).endLoad load).updTeam d.team fun t => (t.advance there).readyFrom there (s.cycle + 1))

namespace State

/-- The lines of a weak load that neither the L1 nor a die copy holds yet. -/
def missingLines (s : State) (d : Load) : List Nat :=
  d.lines.filter fun line =>
    (s.l1 d.core line).valid != BitVec.allOnes 32 && (s.copyOf (coreDie d.core) line).isNone

/-- Whether the values of a load can return: a strong load's or an atomic's from the home, a weak load's once its lines
are at hand and no strong access of its core to them has still to be performed (R230, R231); the upper half of 16 bytes
returns after the lower (R260). -/
def loadReady (s : State) (d : Load) : Bool :=
  d.fe == 0 && decide (d.due ≤ s.cycle) && (d.after.map fun k => !s.loads.has k).getD true &&
    (if d.weak then
      (s.missingLines d).isEmpty && !((d.lines ++ d.addrs.map fun (x : Nat × Nat) => x.2 / 128).any fun line => s.strongOn d.core line)
     else (lanesOf d.lanes).all fun l => decide (d.n ≤ (d.vals.get [] l).length))

end State

/-- Load data returns: it fills the invalid words of its lines in the L1, and the waiting registers take their values
(R189, R230, R233, R263). -/
def execLoadDataReply (load : Nat) (s : State) : Res :=
  match s.loads.find? load with
  | none => .next s
  | some d =>
    if !s.loadReady d then .next s
    else
      let s1 := d.fills.foldl (fun (s : State) line => match s.copyOf (coreDie d.core) line with
        | some c => s.fillLine d.core line (s.ownSeen d.core line c.data) d.ro
        | none => s) s
      let s2 := s1.deliver d fun l => match d.vals.find? l with
        | some b => b
        | none => s1.weakBytes d.core (d.addrs.get 0 l) d.n
      .next ((s2.updTeam d.team fun t => t.gather d.flags).endLoad load)

/-! Waits on engines. -/

/-- A `copy.wait` completes (R332). -/
def execCopyWaitCompletion (team : Nat) (s : State) : Res :=
  let t := s.team team
  let n := (State.unfinished t.sealed).length
  let there := t.waiters fun w => match w with | .copyWait k => decide (n ≤ k) | _ => false
  if there = 0 then .next s else .next ((s.observeBatches team).updTeam team fun t => t.advance there)

/-- A `coll.wait` completes (R346). -/
def execCollWaitCompletion (team : Nat) (s : State) : Res :=
  let t := s.team team
  let n := (State.unfinished t.collCmds).length
  let there := t.waiters fun w => match w with | .collWait k => decide (n ≤ k) | _ => false
  if there = 0 then .next s else .next ((s.observeColls team).updTeam team fun t => t.advance there)

/-- A waiting `mma` enqueues further operations while there is room, with the registers of now; when the last is
enqueued its group runs on (R49, R338). Their formats and descriptors are those of the first enqueue, which no rule says
(DESIGN CHOICE, log 74). -/
def execMmaEnqueueResume (team : Nat) (s : State) : Res :=
  let t := s.team team
  let pending := (lanesOf (t.waiters fun w => match w with | .mma _ _ _ _ _ => true | _ => false)).head?.bind fun l =>
    (t.lane l).wait.map fun w => (l, w)
  match pending with
  | some (l, .mma done first active word x) =>
    let there := t.waiters fun w => w == .mma done first active word x
    let n := (lanesOf active).length
    let room := 8 - (s.matrixQueue (s.wg t.wg)).length
    if room = 0 then .next s
    else match decodeRaw (Raw.ofWord word) with
    | .error _ => .next s
    | .ok (o, f) =>
      let c := ctxOf o f s { team := team, lanes := there, pc := (t.lane l).pc, word := word, port := 1 }
      let k := min (n - done) room
      let s := (List.range k).foldl (fun s j =>
        let (y, s) := s.number (reread c x) (first + done + j)
        s.matPush y) s
      .next (s.updTeam team fun t =>
        if done + k ≥ n then t.advance there
        else t.mapLanes (there.getLsbD ·) fun _ y => { y with wait := some (.mma (done + k) first active word x) })
  | _ => .next s

/-! Barriers. -/

namespace State

/-- Whether every lane of some teams that is neither Off nor Exited waits as described, and one does (R367). -/
def allWait (s : State) (ts : List Nat) (p : Team → Wait → Bool) : Bool :=
  let here := fun (k : Nat) => let t := s.team k; t.waiters (p t)
  ts.all (fun k => here k == (s.team k).live) && ts.any fun k => here k != 0

/-- The guard trap of a workgroup whose barrier completes with a record that is not clear (R183, R368, R399), which is
no fault of an instruction that another's could put off (R402): `met` are its teams that had a lane waiting there,
already advanced, with those lanes. Of several groups of the chosen team the one of the lowest PC traps (log 18). -/
def guardTrap (s : State) (w : Nat) (met : List (Nat × Mask)) : State :=
  match (s.wg w).guardRec with
  | none => s
  | some g =>
    let chosen := match met.find? fun (k, _) => (s.team k).teamid == g.team with
      | some x => some x
      | none => (sortBy (fun (a b : Nat × Mask) => decide ((s.team a.1).teamid < (s.team b.1).teamid)) met).head?
    match chosen with
    | none => s
    | some (k, m) =>
      let t := s.team k
      let pcs := sortBy (fun (a b : Word) => decide (a < b)) ((lanesOf m).map fun l => (t.lane l).pc)
      let pc := pcs.headD 0
      let lanes := maskBy fun l => m.getLsbD l && (t.lane l).pc == pc
      let d0 : DWord := BitVec.ofNat 64 (g.offset % 2 ^ 32 + g.bank * 2 ^ 32 + g.count * 2 ^ 40)
      let d1 : DWord := BitVec.ofNat 64 (g.pc.toNat + g.team * 2 ^ 32)
      let word := s.wordAt k (pc - 1)
      let s := s.updWg w fun x => { x with guardRec := none }
      s.raise k lanes pc word { cause := 13, sub := 0, mask := lanes, addr := g.offset, d0 := d0, d1 := d1, d2 := g.who } false

/-- The waiting lanes of some teams run on past their barrier, and each workgroup's guard record is reported. -/
def leaveBarrier (s : State) (ws : List Nat) (p : Team → Wait → Bool) : State :=
  let met := fun (w : Nat) => ((s.wg w).teams.map fun k => let t := s.team k; (k, t.waiters (p t))).filter fun x => x.2 != 0
  let s1 := ws.foldl (fun s w => (met w).foldl (fun s (k, m) => s.updTeam k fun t => t.advance m) s) s
  ws.foldl (fun s' w => s'.guardTrap w (met w)) s1

/-- Invalidates every valid clean global word of a core's L1, but for a fused cluster (R192, R242). -/
def acquireAll (s : State) (core : Nat) : State :=
  if (s.cluster (coreRq core)).fused then s
  else (s.l1Lines core).foldl (fun s line =>
    let x := s.l1 core line
    s.dropWords core line (x.valid &&& ~~~x.dirty)) s

end State

/-- The workgroup barrier completes (R367, R368). -/
def execBarCompletion (wg : Nat) (s : State) : Res :=
  let p := fun (_ : Team) (w : Wait) => w == .bar
  if s.allWait (s.wg wg).teams p then .next (s.leaveBarrier [wg] p) else .next s

/-- The gang barrier completes once every arrival counts, and each core of the gang invalidates its clean global words
(R369). -/
def execBarGangCompletion (gang : Nat) (s : State) : Res :=
  let ws := (s.gangs.get { launch := 0 } gang).wgs
  let p := fun (t : Team) (w : Wait) => match w with
    | .barGang upTo => s.drained (s.unit t.core) upTo
    | _ => false
  if s.allWait (s.gangTeams gang) p then
    let s1 := (ws.map fun w => (s.wg w).core).eraseDups.foldl (fun s c => s.acquireAll c) s
    .next (s1.leaveBarrier ws p)
  else .next s

/-- A phase wait completes for the lanes whose word has another phase (R372). -/
def execPbarWaitCompletion (team : Nat) (s : State) : Res :=
  let t := s.team team
  let p := fun (c : Bool) (w : Wait) => match w with
    | .pbar core addr phase clus =>
      clus == c && (match addr with | some a => (s.phaseGet core a).getLsbD 31 | none => false) != phase
    | _ => false
  let near := t.waiters (p false)
  let far := t.waiters (p true)
  if near ||| far = 0 then .next s
  else
    let s1 := if far = 0 then s else s.acquireAll t.core
    .next (s1.updTeam team fun t => (t.advance (near ||| far)).readyFrom (near ||| far) (s.cycle + 1))

/-! Time and notices. -/

/-- Lanes stop sleeping: at their deadline, or when a bit of NOTICE has risen (R374). -/
def execSleepEnd (team : Nat) (s : State) : Res :=
  let t := s.team team
  let there := t.waiters fun w => match w with
    | .sleep d n => decide (d ≤ t.run) || t.noticeRose != n
    | _ => false
  if there = 0 then .next s else .next (s.updTeam team fun t => t.advance there)

/-- RUN has reached TMRCMP in a resident cycle (R68, R69). -/
def execNoticeTimer (team : Nat) (s : State) : Res :=
  let t := s.team team
  if t.resident && decide (t.tmrcmp ≤ t.run) then .next (s.setNotice team 0) else .next s

/-- A notice traps the team before its next issue (R68, R400): the group that R44 would have put on port 1 enters the
handler, and the team's sleepers wake (R374), unless the team only stops, for a sibling's trap (R401). -/
def execNoticeTrap (team : Nat) (s : State) : Res :=
  let t := s.team team
  if !State.noticeDue t || !State.selecting t then .next s
  else match orderGroups t (s.teamWg team).fpp (s.ready team) with
    | [] => .next s
    | (pc, m) :: _ =>
      let word := s.wordAt team pc
      let bits := t.notice.setWidth 4 &&& BitVec.ofNat 4 t.nten
      let sub := ((List.range 4).find? fun i => bits.getLsbD i).getD 0
      let sleepers := t.waiters fun w => match w with | .sleep _ _ => true | _ => false
      let s := if t.haltDue.isSome then s else s.updTeam team fun t => t.advance sleepers
      .next (s.raise team m pc word { cause := 14, sub := sub, mask := m, d0 := t.notice.setWidth 64 } false)

/-- A sibling of a trapping team stops, unless it is inside a chain (R401). -/
def execHaltBroadcast (team : Nat) (s : State) : Res :=
  let t := s.team team
  if t.haltDue.isSome && t.chain.isNone && t.resident then .next (s.stopSibling team) else .next s

/-! Firmware's answers. -/

/-- Firmware answers a service request with the number of pages that it migrated, also where its lanes are stopped by now
(R376). -/
def execFirmwareServiceAnswer (team count : Nat) (s : State) : Res :=
  let t := s.team team
  let asked := (lanesOf t.live).findSome? fun l => match (t.lane l).hold with
    | some (.service d off n) => some (d, off, n)
    | _ => none
  match asked with
  | none => .next s
  | some (d, off, n) =>
    let m := t.holders fun h => h == .service d off n
    .next (s.updTeam team fun t =>
      let t := match d with | some r => t.writeS r (BitVec.ofNat 64 count) | none => t
      t.complete m)

namespace State

/-- No checkpoint keeps a block of a page whose key is revoked (R421). -/
def dropImage (s : State) (page : Nat) : State :=
  match s.pages.find? page with
  | none => s
  | some r =>
    let k0 := gaOf r.part (65536 * r.page) / 512
    let mine := fun (k : Nat) => decide (k0 ≤ k) && decide (k < k0 + 128)
    let cut := fun (x : Snap) => { x with image := x.image.filter fun (k, _) => !mine k }
    { s with jobs := s.jobs.updIf r.part fun j =>
        { j with dirtied := j.dirtied.filter (!mine ·), ckpt := j.ckpt.map cut, capSnap := j.capSnap.map cut } }

end State

/-- A port scrubs one page of a revoked slot; with the last the slot is empty (R302). -/
def execKeyScrubPage (port slot : Nat) (s : State) : Res :=
  let k := s.keys.get {} (port * 32 + slot)
  if k.word.extractLsb' 62 2 != 2 then .next s
  else match s.slotPages port slot with
    | [] => .next (s.setKey port slot { word := setBits (setBits k.word 63 62 0) 31 0 0, key := [] })
    | page :: more =>
      let (_, s) := s.surrenderPage page
      let s := s.dropImage page
      let w := setBits (setBits k.word 31 0 more.length) 63 62 (if more.isEmpty then 0 else 2)
      .next (s.setKey port slot { word := w, key := [] })

/-! Words that are no instruction. -/

/-- The illegal-instruction fault of what stands at an issue port (R40, R91, R92). -/
def execIllegalInstructionWord (why : BadWord) (s : State) : Res :=
  match s.issue with
  | none => .next s
  | some is =>
    let sub := match why with | .fetchRange => 3 | .unassigned => 0 | .reserved => 1 | .unaccepted => 2
    let t := s.team is.team
    .next ((s.countIssueOf (s.regionOf t.wg) t.core).raise is.team is.lanes is.pc is.word { cause := 1, sub := sub, mask := is.lanes } true)

end Sys2Proof.Machine
end

