-- ==== Sys2Proof/Machine/Dies.lean ====
section
/-!
DEFINITION. Reads at a home (10 R244-R252): which die supplies a line, and the state that the reader's die copy enters.
-/

namespace Sys2Proof.Machine

namespace State

/-- A remote package's reader: a die number beyond the package's own (R250). -/
def remoteDie (q : Nat) : Bool := decide (4 ≤ q)

/-- The home or an owner die supplies a line to die q, which keeps a copy (R245, R247, R250). An owner in M becomes O;
a copy in E becomes S, since it is no longer alone. A remote copy takes a lease. -/
def readLine (s : State) (q line : Nat) : State :=
  if (s.copyOf q line).isSome || !s.mapped line then s
  else
    let s := ((s.repair (128 * line)).needEntry line).heatPage (128 * line)
    let others := (s.holders line).filter (· != q)
    let told := fun (s : State) => others.foldl (fun (s : State) d =>
      { s with copies := s.copies.updIf (copyKey d line) fun c =>
          { c with st := match c.st with | .m => .o | .e => .s | x => x } }) s
    if remoteDie q then
      let t := s.clk + BitVec.ofNat 64 s.leaseLen
      let s := told s
      { s.putCopy q line { st := .s, data := s.homeLine line, expiry := some t, used := s.cycle } with
               leases := s.leases.put line (if (s.leases.get 0 line) < t then t else s.leases.get 0 line) }
    else
      let s := told (s.dirRead q line)
      s.setCopy q line (if others.isEmpty then .e else .s) (s.homeLine line)

/-- The lines of some runs of bytes. -/
def runLines (runs : List (Nat × Nat)) : List Nat :=
  (runs.flatMap fun (ga, n) => if n = 0 then [] else (List.range ((ga + n - 1) / 128 + 1 - ga / 128)).map (ga / 128 + ·)).eraseDups

/-- The lines of some runs that a die does not hold, which an engine of the die has still to fetch (R239). -/
def away (s : State) (q : Nat) (runs : List (Nat × Nat)) : List Nat :=
  (runLines runs).filter fun line => (s.copyOf q line).isNone && s.mapped line

/-- An engine of a die asks the homes for the lines that it lacks and that have not been asked for (R239, R319). -/
def askRuns (s : State) (core : Nat) (runs : List (Nat × Nat)) : State :=
  let q := coreDie core
  let asked := fun (line : Nat) => s.msgs.any fun (_, m) => match m.body with
    | .copyRead die _ l _ => die == q && l == line
    | .fwdRead _ die _ l _ => die == q && l == line
    | _ => false
  s.askLines core 0 ((s.away q runs).filter fun line => !asked line)

/-- The bytes of some runs as a queue engine of a die reads them, which fetches the lines that the die does not hold
(R239). -/
def fetchRuns (s : State) (q : Nat) (runs : List (Nat × Nat)) : State :=
  (runLines runs).foldl (fun s line => s.readLine q line) s

/-- The global ranges bound to the sync object of a line, in its partition (R223, R296). -/
def boundRanges (s : State) (line : Nat) : List (Nat × Nat) :=
  let part := gaPart (128 * line)
  s.regions.flatMap fun (k, r) =>
    if k / 65536 == part then
      r.bindings.filterMap fun (_, lo, n, l, _) =>
        if gaOf part (128 * l) / 128 == line then some (gaOf part lo, n) else none
    else []

/-- The words of a line that lie in some ranges. -/
def wordsIn (within : List (Nat × Nat)) (l : Nat) : BitVec 32 :=
  (List.range 32).foldl (fun (m : BitVec 32) i =>
    let a := 128 * l + 4 * i
    if within.any fun (lo, n) => decide (a < lo + n) && decide (lo < a + 4) then m ||| (1#32 <<< i) else m) 0

/-- Surrender (R28): the dirty words of a core that lie in ranges bound to the object of a line leave for their homes. -/
def surrenderWords (s : State) (core line : Nat) : State :=
  let within := s.boundRanges line
  (s.l1Lines core).foldl (fun s l => s.writeBackWords core l (wordsIn within l)) s

/-- Whether a core owes words to the object of a line: dirty ones of its bound ranges, in its L1 or on their way (R227). -/
def owesWords (s : State) (core line : Nat) : Bool :=
  let within := s.boundRanges line
  (s.l1Lines core).any (fun l => (s.l1 core l).dirty &&& wordsIn within l != 0)
    || s.msgs.any fun (_, m) => match m.body with
      | .merge c l mask _ => c == core && !m.hw && mask &&& wordBytes (wordsIn within l) != 0
      | _ => false

end State

end Sys2Proof.Machine
end

