-- ==== Sys2Proof/Machine/Link.lean ====
section
/-!
DEFINITION. The coding of values that cross Pallum and inter-die links (14 R345): blocks of up to 16 FP32 patterns, each
block from a new flit of 64 bytes on (23 R420), fields least significant bit first.
-/

namespace Sys2Proof.Machine

/-- The `n` low bits of a number, least significant first. -/
def toBits (n x : Nat) : List Bool := (List.range n).map x.testBit

/-- The number of some bits, least significant first. -/
def fromBits : List Bool → Nat
  | [] => 0
  | b :: bs => (if b then 1 else 0) + 2 * fromBits bs

/-- Sign, exponent and mantissa of an FP32 pattern. -/
def fpSign (x : Word) : Bool := x.getLsbD 31
def fpExp (x : Word) : Nat := (x.extractLsb' 23 8).toNat
def fpMan (x : Word) : Nat := (x.extractLsb' 0 23).toNat
def fpOf (sign : Bool) (e m : Nat) : Word := (if sign then 1#1 else 0#1) ++ BitVec.ofNat 8 e ++ BitVec.ofNat 23 m

/-- A later value of a block, after one with exponent `prev`. -/
def codeNext (prev : Nat) (x : Word) : List Bool :=
  let e := fpExp x
  let c := e + 7 - prev
  let near := decide (prev ≤ e + 7) && decide (c ≤ 14)
  [fpSign x] ++ (if near then toBits 4 c else toBits 4 15 ++ toBits 8 e) ++ toBits 23 (fpMan x)

/-- The later values of a block. -/
def codeRest (prev : Nat) : List Word → List Bool
  | [] => []
  | x :: xs => codeNext prev x ++ codeRest (fpExp x) xs

/-- The bits of a block. -/
def codeBlock : List Word → List Bool
  | [] => []
  | x :: xs => toBits 32 x.toNat ++ codeRest (fpExp x) xs

/-- A later value of a block and the bits after it. -/
def readNext (prev : Nat) (bs : List Bool) : Word × List Bool :=
  let sign := bs.headD false
  let c := fromBits ((bs.drop 1).take 4)
  let bs := bs.drop 5
  let (e, bs) := if c ≤ 14 then ((prev + c + 249) % 256, bs) else (fromBits (bs.take 8), bs.drop 8)
  (fpOf sign e (fromBits (bs.take 23)), bs.drop 23)

/-- So many later values of a block, and the bits after them. -/
def readRest (prev : Nat) : Nat → List Bool → List Word × List Bool
  | 0, bs => ([], bs)
  | n + 1, bs =>
    let (x, bs) := readNext prev bs
    let (xs, bs) := readRest (fpExp x) n bs
    (x :: xs, bs)

/-- A block of `n` values, and the bits after it. -/
def readBlock (n : Nat) (bs : List Bool) : List Word × List Bool :=
  match n with
  | 0 => ([], bs)
  | n + 1 =>
    let x : Word := BitVec.ofNat 32 (fromBits (bs.take 32))
    let (xs, bs) := readRest (fpExp x) n (bs.drop 32)
    (x :: xs, bs)

/-- The bits of some flits. -/
def flitBits (fs : List (BitVec 512)) : List Bool := fs.flatMap fun f => toBits 512 f.toNat

/-- Some bits packed into flits, the last filled with zeros. -/
def packFlits (bs : List Bool) : List (BitVec 512) :=
  (List.range ((bs.length + 511) / 512)).map fun i => BitVec.ofNat 512 (fromBits ((bs.drop (512 * i)).take 512))

/-- The values that flits carry, `fuel` blocks at most. -/
def readFlits : Nat → Nat → List (BitVec 512) → List Word
  | 0, _, _ => []
  | fuel + 1, n, fs =>
    if n = 0 then []
    else
      let k := min n 16
      let bits := flitBits fs
      let (xs, rest) := readBlock k bits
      let used := (bits.length - rest.length + 511) / 512
      xs ++ readFlits fuel (n - k) (fs.drop used)

/-- The values of `n` elements as their flits carry them (R345). -/
def linkValues (n : Nat) (fs : List (BitVec 512)) : List Word := readFlits (n / 16 + 1) n fs

/-- The flits in which values cross the links (R345). -/
def linkFlits : Nat → List Word → List (BitVec 512)
  | 0, _ => []
  | fuel + 1, xs => if xs.isEmpty then [] else packFlits (codeBlock (xs.take 16)) ++ linkFlits fuel (xs.drop 16)

end Sys2Proof.Machine
end

