-- ==== Sys2Proof/Machine/MemoryIns.lean ====
section
/-!
DEFINITION. The memory family: opcodes 0x200-0x20F (11 R254-R276).
-/

namespace Sys2Proof.Machine

/-- `ld` (R259) -/
def execLd (f : Form) (s : State) : Res :=
  wordIns .ld f s fun c =>
    let sp := f.space
    c.prep sp (f.ty.width / 8) c.offset fun rest off =>
      if isGlobal sp then
        c.xlate false (((lanesOf rest).map fun l => (c.va sp (c.offset l), 1#32 <<< l))) fun c =>
          let d := c.keep rest off
          if f.strong then d.strongLoad c.offset else d.weakLoad sp c.offset
      else
        let d := c.keep rest off
        if f.fe = 0 then d.spadLoad sp c.offset else d.feLoad sp c.offset

/-- `st` (R259, R260). -/
def execSt (f : Form) (s : State) : Res :=
  wordIns .st f s fun c =>
    let sp := f.space
    let n := f.ty.width / 8
    c.prep sp n c.offset fun rest off =>
      if isGlobal sp then
        let ls := lanesOf rest
        c.xlate true (ls.map fun l => (c.va sp (c.offset l), 1#32 <<< l)) fun c =>
          c.tokens 0 (ls.map fun l => (c.gaddr sp (c.offset l), n, 1#32 <<< l)) <|
            c.store rest off
              { team := c.is.team, core := c.t.core, lanes := c.is.lanes, strong := f.strong,
                writes := ls.map fun l => (l, c.gaddr sp (c.offset l), c.dataBytes f.c n l) }
      else
        let d := c.keep rest off
        let s := d.lanes.foldl (fun s l =>
          let o := (c.offset l).toNat
          d.spadTouch (d.spadWrite s sp o f.col (c.dataBytes f.c n l)) sp o n) d.s
        .go (d.advance s)

namespace Ctx

/-- The value of an operand of an atomic in a lane (R262). -/
def atomVal (c : Ctx) (x : Src) (l : Nat) : Nat := c.fcode x c.f.ty l

/-- `atom` and `red` (R262, R263): in the array for a scratchpad space, at the home for `.g`, which reads as well as writes
(R425). -/
def atomic (c : Ctx) (ret : Bool) : Eff :=
  let op := c.f.atomOp
  let sp := c.f.atomSpace
  let n := c.f.ty.width / 8
  let off := fun l => if op = 7 then c.offsetA l else c.offset l
  let cmp := fun l => if op = 7 then c.atomVal c.f.b l else 0
  c.prep sp n off fun rest gone =>
    if isGlobal sp then
      let ls := lanesOf rest
      let want := ls.map fun l => (c.va sp (off l), 1#32 <<< l)
      c.xlate true want fun c => c.xlate false want fun c =>
        c.tokens 0 (ls.map fun l => (c.gaddr sp (off l), n, 1#32 <<< l)) <|
          c.store rest gone
            { team := c.is.team, core := c.t.core, lanes := c.is.lanes, strong := true,
              writes := ls.map fun l => (l, c.gaddr sp (off l), natBytes n (c.atomVal c.f.c l)),
              cmp := ls.map fun l => natBytes n (cmp l),
              atom := some (op, c.f.ty, if ret then (match c.f.d.dst with | some (.v r) => some r.toNat | _ => none)
                                        else none) }
    else
      let d := c.keep rest gone
      let (s, fl) := d.lanes.foldl (fun (acc : State × BitVec 5) l =>
        let o := (off l).toNat
        let oldB := d.spadRead acc.1 sp o n false
        let (new, fl) := atomCalc op c.f.ty (loadNat oldB) (c.atomVal c.f.c l) (cmp l)
        let s := d.spadTouch (d.spadWrite acc.1 sp o false (natBytes n new)) sp o n
        let s := if ret then s.deliver { d.loadOf (1#32 <<< l) with n := n } fun _ => oldB else s
        (s, acc.2 ||| fl)) (d.s, 0)
      .go (d.advance (if ret then s.updTeam c.is.team fun t => t.gather fl else s))

end Ctx

/-- `atom` (R263) -/
def execAtom (f : Form) (s : State) : Res := wordIns .atom f s fun c => c.atomic true
/-- `red` (R263) -/
def execRed (f : Form) (s : State) : Res := wordIns .red f s fun c => c.atomic false

/-- Puts a request of some lanes of a team into the queue of a sync line's home and holds them for it (R225, R226). -/
def State.syncAsk (s : State) (tk : Nat) (lanes : Mask) (line va : Nat) (excl release : Bool) (word : IWord) : State :=
  let t := s.team tk
  let w := s.wg t.wg
  let r : SyncReq :=
    { core := s.unit t.core, team := some tk, lanes := lanes, launch := w.gang, widx := w.wgid,
      excl := excl, release := release, va := va, word := word, since := s.cycle,
      away := (s.gate (coreDie t.core) line).isSome }
  { s with syncs := Tbl.upd {} s.syncs line fun m => { m with queue := m.queue ++ [r] } }.updTeam tk fun t =>
    t.holdOn lanes (.sync line)

namespace Ctx

/-- The line of a sync object, with the segment check and the translation of R265. -/
def syncLine (c : Ctx) (k : Ctx → Nat → Nat → Eff) : Eff :=
  if c.active = 0 then .go (c.advance c.s)
  else
    let off := c.offset c.low
    let a := (c.base 0 : Int) + off
    let line := a / 128
    if !(c.inSeg 0 (128 * line - c.base 0) 128) then c.allOff
    else
      let va := 128 * line.toNat
      c.xlate false [(va, c.active)] fun c => k c (gaOf c.part va / 128) a.toNat

/-- Puts a request of the group into the queue of a sync line's home. -/
def syncAsk (c : Ctx) (line va : Nat) (excl release : Bool) : Eff :=
  .go (c.s.syncAsk c.is.team c.is.lanes line va excl release c.is.word)

/-- Whether the group's core holds a sync line. -/
def holdsLine (c : Ctx) (line : Nat) : Bool := (c.s.core (c.s.unit c.t.core)).holds.any (·.1 == line)

end Ctx

namespace State

/-- Records a release of a sync line by a core that holds it; a release by the exclusive holder's workgroup ends the
exclusive hold (R225, R234). -/
def recordRelease (s : State) (core line : Nat) (who : Nat × Nat) : State :=
  let s := s.updCore core fun c =>
    { c with holds := c.holds.map fun (l, r) => (l, r || l == line) }
  { s with syncs := s.syncs.updIf line fun m => if m.excl = some who then { m with excl := none } else m }

/-- A release by some lanes of a team whose earlier accesses have been performed (R225, R234): at `.team` and `.wg` there is
nothing to do; a core that holds the line records it, but for a token fault; another core asks the home. -/
def release (s : State) (tk : Nat) (lanes : Mask) (line va scope : Nat) (word : IWord) : Sum FaultInfo State :=
  let t := s.team tk
  let w := s.wg t.wg
  let core := s.unit t.core
  let who := (w.gang, w.wgid)
  let goOn := fun (s : State) => s.updTeam tk fun t => t.complete lanes
  let other := match (s.syncs.get {} line).excl with | some x => x != who | none => false
  if scope < 2 then .inr (goOn s)
  else if !((s.core core).holds.any (·.1 == line)) then .inr (s.syncAsk tk lanes line va false true word)
  else if other then
    let part := gaPart (128 * line)
    .inl { cause := 6, sub := 2, mask := lanes, addr := va, d0 := s.ownerDetail part va }
  else .inr (goOn (s.recordRelease core line who))

/-- A release that waits is performed once the accesses before it have been (R225, R266); one that would fault in lanes
that are stopped issues again (R401). -/
def releaseNow (s : State) (tk : Nat) (m : Mask) (line va scope : Nat) (word : IWord) : State :=
  if s.loadsOut tk || s.strongOut tk then s
  else match s.release tk m line va scope word with
    | .inr s => s
    | .inl fi =>
      if (lanesOf m).any (s.team tk).parked then s.updTeam tk fun t => t.unhold m
      else s.raise tk m ((s.team tk).lane ((lowest m).getD 0)).pc word { fi with mask := s.activeIn tk m word } true

end State

/-- Whether the grant of an acquire by a workgroup is on its way to its core, which has still to invalidate its clean words
(R226, R228). -/
def State.granting (s : State) (line : Nat) (who : Nat × Nat) : Bool :=
  s.msgs.any fun (_, m) => match m.body with
    | .grant l r => l == line && !r.release && (r.launch, r.widx) == who
    | _ => false

/-- `acq` (R224, R226, R234, R265, R266): at `.team` and `.wg` it orders the accesses of the core alone. -/
def execAcq (f : Form) (s : State) : Res :=
  wordIns .acq f s fun c => c.syncLine fun c line va =>
    if f.q3 < 2 then
      if c.s.loadsOut c.is.team then c.later true else .go (c.advance c.s)
    else if f.top then
      if (c.s.syncs.get {} line).excl = some (c.w.gang, c.w.wgid) then
        if c.s.granting line (c.w.gang, c.w.wgid) then c.later true else .go (c.advance c.s)
      else c.syncAsk line va true false
    else if c.holdsLine line then .go (c.advance c.s)
    else c.syncAsk line va false false

/-- `rel` (R225, R234, R265, R266): the group is held while the thread's earlier accesses are outstanding, and a halt
waits for it; where the core holds the line, the release is recorded there. -/
def execRel (f : Form) (s : State) : Res :=
  wordIns .rel f s fun c => c.syncLine fun c line va =>
    if c.s.loadsOut c.is.team || c.s.strongOut c.is.team then
      .go (c.s.updTeam c.is.team fun t => t.holdOn c.is.lanes (.release line va f.q3 c.is.word))
    else match c.s.release c.is.team c.is.lanes line va f.q3 c.is.word with
      | .inr s => .go s
      | .inl fi => .trap { fi with mask := c.active }

/-- `bind` (R268) -/
def execBind (f : Form) (s : State) : Res :=
  wordIns .bind f s fun c =>
    if c.active = 0 then .go (c.advance c.s)
    else
      let a := (c.sc f.a).toNat
      let b := (c.sc f.b).toNat
      let o := (c.sc f.c).toNat
      if a % 128 != 0 || b % 128 != 0 || b == 0 then .trap (c.fault 2 16)
      else if a + b > c.limit 0 || o + 1 > c.limit 0 then c.allOff
      else
        let va := (c.base 0 + o) / 128 * 128
        c.xlate false [(va, c.active)] fun c =>
          let r := c.s.region c.region
          match r.bindings.freeKey 4096 with
          | none => .trap (c.fault 12 0)
          | some i =>
            let s := c.s.updRegion c.region fun g =>
              { g with bindings := g.bindings.put i (c.base 0 + a, b, va / 128, f.top) }
            .go (c.advance (c.writeScalar s (BitVec.ofNat 64 i)))

/-- `unbind` (R269) -/
def execUnbind (f : Form) (s : State) : Res :=
  wordIns .unbind f s fun c =>
    if c.active = 0 then .go (c.advance c.s)
    else
      let i := (c.sc f.a).toNat
      if i > 4095 then .trap (c.fault 2 16)
      else .go (c.advance (c.s.updRegion c.region fun g => { g with bindings := g.bindings.erase i }))

/-- `fence`: the group is held until the thread's earlier strong accesses have been performed, and at `.team` and `.wg`
until its loads have returned (R232, R270). -/
def execFence (f : Form) (s : State) : Res :=
  wordIns .fence f s fun c =>
    if c.active = 0 then .go (c.advance c.s)
    else if c.s.strongOut c.is.team || (f.q3 < 2 && c.s.loadsOut c.is.team) then
      .go (c.s.updTeam c.is.team fun t => t.holdOn c.is.lanes (.team f.q3))
    else .go (c.advance c.s)

/-- `pref`: lines are asked for; a lane that fails a check does nothing (R271). Where a page that it may read is in no
TLB the group waits for its walk (R283). The segment check is made for 1 byte, which no rule says (DESIGN CHOICE, log
74). -/
def execPref (f : Form) (s : State) : Res :=
  wordIns .pref f s fun c =>
    let sp := f.space
    let core := c.t.core
    let ok := fun l => c.inSeg sp (c.offset l) 1 &&
      (c.s.translateNow c.part (some (coreRq core)) (c.va sp (c.offset l)) false false).isNone
    let vas := (c.lanes.filter ok).map fun l => c.va sp (c.offset l)
    match vas.filter fun va => c.s.translate core c.part va false == .miss with
    | _ :: _ => c.miss false [] (vas.filter fun va => c.s.translate core c.part va false == .miss)
    | [] =>
      let lines := (vas.map fun va => gaOf c.part va / 128).eraseDups
      let c := c.touched (vas.map fun va => (va, 0))
      if f.ro then .go (c.advance (c.s.askLines core 0 lines))
      else
        let want := c.s.allocLines core (lines.filter fun line => (c.s.l1 core line).valid != BitVec.allOnes 32)
        let s := want.foldl (fun s line =>
          let (id, s) := s.issueLoad { team := c.is.team, core := core, lanes := 0, ty := .none, n := 1, dest := .none,
                                       weak := true, lines := [line], fills := [line] }
          s.askLines core id [line]) c.s
        .go (c.advance s)

namespace Ctx

/-- The active lanes of a cache-control instruction that pass the segment check for `n` bytes, and those that go Off;
and the lines that the passing ones name on mapped pages (R271, R272). R271 gives no number of bytes for the check: `n` is 1
for `cwb`, `cinv` and `pref`, and the 12 of a word for `icinv` (DESIGN CHOICE, log 74). -/
def cacheLines (c : Ctx) (n : Nat) : Mask × List Nat :=
  let rest := maskBy fun l => c.active.getLsbD l && c.inSeg 0 (c.offset l) n
  let lines := ((lanesOf rest).flatMap fun l =>
    let ga := c.gaddr 0 (c.offset l)
    [ga / 128, (ga + n - 1) / 128]).eraseDups.filter fun line => (c.s.pageAt (128 * line)).isSome
  (rest, lines)

/-- Holds the group until the write-backs of its core have merged and settled (R271), or goes on at once. -/
def drain (c : Ctx) (s : State) (h : Hold) : Eff :=
  let core := c.s.unit c.t.core
  let out := s.msgs.any fun (_, m) => match m.body with
    | .merge k _ _ _ => k == core
    | _ => false
  match h with
  | .code _ _ lines =>
    if out then .go (s.updTeam c.is.team fun t => t.holdOn c.is.lanes h)
    else .go (c.advance { s with cores := s.cores.map fun (k, x) =>
      (k, if (s.part c.part).clusters.contains (coreRq k) then
            { x with fcopy := x.fcopy.filter fun (l, _) => !lines.contains l } else x) })
  | _ => if out then .go (s.updTeam c.is.team fun t => t.holdOn c.is.lanes h) else .go (c.advance s)

/-- `cwb` and `cinv` (R271). -/
def cache (c : Ctx) (inv : Bool) : Eff :=
  if c.active = 0 then .go (c.advance c.s)
  else
    let core := c.t.core
    let (rest, lines) := if c.f.top then (c.active, c.s.l1Lines core) else c.cacheLines 1
    let d := c.keep rest (c.active &&& ~~~rest)
    let s := lines.foldl (fun s l => s.writeBack core l) d.s
    let s := if inv then lines.foldl (fun s l => s.dropWords core l (BitVec.allOnes 32)) s else s
    d.drain s (.drain (c.s.unit core) s.nextId)

end Ctx

/-- `cwb` (R271) -/
def execCwb (f : Form) (s : State) : Res := wordIns .cwb f s fun c => c.cache false
/-- `cinv`: the words are written back, then invalid (R271). -/
def execCinv (f : Form) (s : State) : Res := wordIns .cinv f s fun c => c.cache true

/-- `icinv`: dirty code words are written back, then the fetch copies are discarded (R272). -/
def execIcinv (f : Form) (s : State) : Res :=
  wordIns .icinv f s fun c =>
    if c.active = 0 then .go (c.advance c.s)
    else
      let core := c.t.core
      let (rest, lines) := c.cacheLines 12
      let d := c.keep rest (c.active &&& ~~~rest)
      let s := lines.foldl (fun s l => s.writeBack core l) d.s
      d.drain s (.code (c.s.unit core) s.nextId lines)

/-- `bsize`: after the core's write-backs and strong writes of the blocks, and the migration of their pages (R203, R273). -/
def execBsize (f : Form) (s : State) : Res :=
  wordIns .bsize f s fun c =>
    c.prep 0 1 c.offset fun rest off =>
      c.xlate false ((lanesOf rest).map fun l => (c.va 0 (c.offset l), 1#32 <<< l)) fun c =>
        let d := c.keep rest off
        let k := fun l => c.gaddr 0 (c.offset l) / 512
        if d.lanes.any fun l => c.s.inFlight (c.s.unit c.t.core) (k l) || c.s.migrating (512 * k l) then c.later false
        else
          .go (d.advance (d.write d.s 32 false false fun l =>
            let e := c.s.blockEntry (k l)
            (if entPledged e then 64 else 0) + entType e * 16 + entSect e))

/-! Sparse records (R274-R276). -/

/-- The element size of a record. -/
def sparseSize (t : Ty) : Nat := t.width / 8

/-- `st.sparse` (R275): a translation fault names every active lane, whichever value slots lie on the page that fails, which
no rule says (DESIGN CHOICE, log 74). -/
def execStSparse (f : Form) (s : State) : Res :=
  wordIns .stSparse f s fun c =>
    if c.active = 0 then .go (c.advance c.s)
    else
      let sp := f.space
      let d := match f.d.dst with | some (.s n) => n.toNat | _ => 0
      let cur := c.t.readS d
      let len := bitsOf cur 63 48
      let cap := bitsOf cur 47 32
      let k := bitsOf cur 31 16
      let e0 := bitsOf cur 15 0
      let n := sparseSize f.ty
      if len = 0 || len > 65504 || e0 % 32 != 0 || e0 ≥ len || k > cap then .trap (c.fault 2 16)
      else
        let rec0 := c.offset c.low
        if rec0 % 4 != 0 then .trap { c.fault 4 1 with addr := c.frameAddr sp rec0 }
        else
          let v0 := 4 + 4 * ((len + 31) / 32)
          if !c.inSeg sp rec0 (v0 + n * cap) then c.allOff
          else
            let r := rec0.toNat
            let val := fun l => c.bits f.c (8 * n) l
            let list := c.lanes.filter fun l => e0 + l < len && val l != 0
            let full := k + list.length
            if full > cap then
              let m := (list.drop (cap - k)).foldl (fun (acc : Mask) l => acc ||| (1#32 <<< l)) 0
              .trap { c.fault 8 0 with mask := m, addr := c.frameAddr sp (r + v0 + n * cap), d0 := cur,
                                       d1 := BitVec.ofNat 64 d }
            else
              let mask := list.foldl (fun (acc : Mask) l => acc ||| (1#32 <<< l)) 0
              let writes : List (Nat × Nat × List Byte) :=
                ((List.range list.length).zip list).map (fun (j, l) => (l, r + v0 + n * (k + j), natBytes n (val l)))
                  ++ [(c.low, r + 4 + 4 * (e0 / 32), bytesOf 4 mask), (c.low, r, natBytes 4 (len + full * 65536))]
              let new : DWord := BitVec.ofNat 64 (((len * 65536 + cap) * 65536 + full) * 65536 + (e0 + 32) % 65536)
              if isGlobal sp then
                let at_ := writes.map fun (l, o, bs) => (l, c.gaddr sp o, bs)
                let lane := fun l => if list.contains l then 1#32 <<< l else c.active
                c.xlate true (at_.map fun (_, ga, _) => (gaVa ga, c.active)) fun c =>
                  c.tokens 0 (at_.map fun (l, ga, bs) => (ga, bs.length, if bs.length = n then lane l else c.active)) <|
                    c.store c.active 0
                      { team := c.is.team, core := c.t.core, lanes := c.is.lanes, writes := at_, cursor := some (d, new) }
              else
                let s := writes.foldl (fun s (_, o, bs) => c.spadTouch (c.spadWrite s sp o f.col bs) sp o bs.length) c.s
                .go (c.advance (s.updTeam c.is.team fun t => t.writeS d new))

namespace Ctx

/-- Weak reads of several runs of bytes of a record; where a word is not valid in the L1, its lines are asked for and
the instruction issues again (R189, R276). -/
def recordRead (c : Ctx) (sp : Nat) (runs : List (Nat × Nat)) (k : Ctx → Eff) : Eff :=
  if !isGlobal sp then k c
  else
    let core := c.t.core
    let words := runs.flatMap fun (o, n) => (List.range ((n + 3) / 4)).map fun (i : Nat) => c.gaddr sp (o + 4 * i)
    let lines := ((words.filter fun ga => !c.s.l1Hit core ga 1).map (· / 128)).eraseDups
    let used := c.s.touchLines core ((words.filter fun ga => c.s.l1Hit core ga 1).map (· / 128)).eraseDups
    if words.any fun ga => c.s.strongOn core (ga / 128) then c.later false
    else match c.s.allocLines core lines with
    | [] => k { c with s := used }
    | want =>
      let (id, s) := used.issueLoad { team := c.is.team, core := core, lanes := 0, ty := .none, n := 1, dest := .none,
                                      weak := true, lines := want, fills := want, ro := c.f.ro }
      let s := s.askLines core id want
      .again (s.updTeam c.is.team fun t => t.holdOn c.is.lanes (.fill id))

/-- Bytes of a record as a load of its space reads them. -/
def recordBytes (c : Ctx) (sp o n : Nat) : List Byte :=
  if isGlobal sp then
    (List.range n).flatMap fun (i : Nat) => c.s.weakBytes c.t.core (c.gaddr sp (o + i)) 1
  else c.spadRead c.s sp o n c.f.col

end Ctx

/-- `ld.expand` (R276) -/
def execLdExpand (f : Form) (s : State) : Res :=
  wordIns .ldExpand f s fun c =>
    if c.active = 0 then .go (c.advance c.s)
    else
      let sp := f.space
      let n := sparseSize f.ty
      let e0 := (c.sc f.c).toNat
      let rec0 := c.offset c.low
      if e0 % 32 != 0 then .trap (c.fault 2 16)
      else if rec0 % 4 != 0 then .trap { c.fault 4 1 with addr := c.frameAddr sp rec0 }
      else if !c.inSeg sp rec0 4 then c.allOff
      else
        let r := rec0.toNat
        let tr := fun (c : Ctx) (want : List (Nat × Mask)) (k : Ctx → Eff) => if isGlobal sp then c.xlate false want k else k c
        tr c [(c.va sp r, c.active)] fun c => c.recordRead sp [(r, 4)] fun c =>
          let len := (ofBytes 16 (c.recordBytes sp r 2)).toNat
          let touch := fun (x : Ctx) (s : State) (runs : List (Nat × Nat)) =>
            if isGlobal sp then s else runs.foldl (fun s (o, m) => x.spadTouch s sp o m) s
          if e0 ≥ len then
            .go (c.advance (touch c (c.s.deliver { c.loadOf c.active with n := n } fun _ => natBytes n 0) [(r, 4)]))
          else
            let nw := e0 / 32 + 1
            if !c.inSeg sp (r + 4) (4 * nw) then c.allOff
            else
              let pages := ((List.range nw).map fun (j : Nat) => c.va sp (r + 4 + 4 * j) / 512).eraseDups.map fun b =>
                (max (512 * b) (c.va sp (r + 4)), c.active)
              tr c pages fun c => c.recordRead sp [(r + 4, 4 * nw)] fun c =>
                let word := fun j => (ofBytes 32 (c.recordBytes sp (r + 4 + 4 * j) 4) : BitVec 32)
                let k := (List.range (e0 / 32)).foldl (fun a j => a + (lanesOf (word j)).length) 0
                let mw := word (e0 / 32)
                let v0 := 4 + 4 * ((len + 31) / 32)
                let slot := fun l => r + v0 + n * (k + (lanesOf (mw &&& ((1#32 <<< l) - 1))).length)
                let named := fun l => e0 + l < len && mw.getLsbD l
                let bad := maskBy fun l => c.active.getLsbD l && named l && !c.inSeg sp (slot l) n
                let ls := c.lanes.filter fun l => named l && !bad.getLsbD l
                tr c (ls.map fun l => (c.va sp (slot l), 1#32 <<< l)) fun c =>
                  c.recordRead sp (ls.map fun l => (slot l, n)) fun c =>
                    let d := c.keep (c.active &&& ~~~bad) bad
                    let s := d.s.deliver { d.loadOf d.active with n := n } fun l =>
                      if named l then c.recordBytes sp (slot l) n else natBytes n 0
                    .go (d.advance (touch d s ([(r, 4), (r + 4, 4 * nw)] ++ ls.map fun l => (slot l, n))))

end Sys2Proof.Machine
end

