-- ==== Sys2Proof/Machine/Engines.lean ====
section
/-!
DEFINITION. What the engines do (14 R325-R345, 10 R239-R241, 08 R182, R184, 09 R212): copies, operations of the matrix
queue, collectives, the landing of their global writes, and the release of a copy's sync object.
-/

namespace Sys2Proof.Machine

namespace State

/-- A command of a core's queues. -/
def findCmd (s : State) (core id : Nat) : Option Cmd :=
  let c := s.core core
  (c.copyQ ++ c.matrix.q0 ++ c.matrix.q1).find? fun x => x.id == id

/-- Changes a command of a core's queues. -/
def updCmd (s : State) (core id : Nat) (f : Cmd → Cmd) : State :=
  let g := fun (x : Cmd) => if x.id = id then f x else x
  s.updCore core fun c =>
    { c with copyQ := c.copyQ.map g, matrix := { c.matrix with q0 := c.matrix.q0.map g, q1 := c.matrix.q1.map g } }

/-- A command is complete (R331). -/
def cmdComplete (s : State) (core id : Nat) : State :=
  match s.findCmd core id with
  | none => s
  | some x => ((s.endPledges x.pledged).dropCmds core fun y => y.id == id).cmdDone id x.ext

/-- The release of a copy's sync object, once its last write has landed (R225, R240, R328): recorded where the core
holds the line; in the queue of the line's home where it does not; and waiting while another workgroup holds the object
exclusively. -/
def cmdRelease (s : State) (core : Nat) (x : Cmd) (line : Nat) : State :=
  let u := s.unit core
  let w := s.wg x.wg
  if s.exclOther x.wg line then s.updCmd core x.id fun y => { y with st := .releasing }
  else if (s.core u).holds.any (·.1 == line) then (s.recordRelease u line (w.gang, w.wgid)).cmdComplete core x.id
  else
    let r : SyncReq := { core := u, team := none, lanes := 0, launch := w.gang, widx := w.wgid, excl := false,
                         release := true, cmd := some x.id, since := s.cycle, away := (s.gate (coreDie core) line).isSome }
    { s with syncs := Tbl.upd {} s.syncs line fun m => { m with queue := m.queue ++ [r] } }.updCmd core x.id
      fun y => { y with st := .releasing }

/-- What follows a command's last landing (R328, R331). -/
def cmdEnd (s : State) (core id : Nat) : State :=
  match s.findCmd core id with
  | none => s
  | some x =>
    match x.body with
    | .copy _ _ true sc (some line) => if sc ≥ 2 then s.cmdRelease core x line else s.cmdComplete core id
    | _ => s.cmdComplete core id

/-- A command has computed its writes: the global ones land block by block, those to a page that was unmapped since its
enqueue are discarded, and pledges on other blocks end (R212). -/
def land (s : State) (core id : Nat) (wr : Tbl Byte) : State :=
  match s.findCmd core id with
  | none => s
  | some x =>
    let wr := wr.filter fun (ga, _) => !x.gone.contains (ga / 65536)
    let blocks := (wr.map fun (ga, _) => ga / 512).eraseDups
    let parts := blocks.map fun k => (k, wr.filter fun (ga, _) => ga / 512 == k)
    let s := s.endPledges (x.pledged.filter fun k => !blocks.contains k)
    let s := s.updCmd core id fun y =>
      { y with st := .landing, landings := parts, pledged := y.pledged.filter (blocks.contains ·) }
    let s := blocks.foldl (fun s k => s.send .request none (gaPart (512 * k)) (.landing core id k)) s
    if blocks.isEmpty then s.cmdEnd core id else s

/-- Charges engine bytes (R352, R355). -/
def engineMoved (s : State) (w n : Nat) : State :=
  let r := s.regionOf w
  (s.updRegion r fun g => { g with bytesMoved := min (g.bytesMoved + n) (2 ^ 64 - 1) }).charge r
    (n * energyOf s (coreDie (s.wg w).core) 2)

/-! Local operands. -/

/-- A byte of a descriptor's operand: its core, its cell, and whether it is a guard byte (R176, R178, R181, R182). -/
def descByte (s : State) (w : Wg) (d : Desc) (t r k : Nat) : Option (Nat × Nat × Bool) :=
  (s.spadByte w d.clus d.seg (d.off t r k)).map fun (core, a, g) => (core, spadCell (spadRotate a d.rot r) d.col, g)

/-- Bytes of a row of a descriptor's operand, from an offset within the row on; guard bytes read as zero. -/
def descRead (s : State) (w : Wg) (d : Desc) (t r k n : Nat) : List Byte :=
  (List.range n).map fun i => match s.descByte w d t r (k + i) with
    | some (core, cell, false) => s.spadGet core cell
    | _ => 0

/-- Writes bytes of a row; guard bytes are discarded. -/
def descWrite (s : State) (w : Wg) (d : Desc) (t r k : Nat) (bs : List Byte) : State :=
  ((List.range bs.length).zip bs).foldl (fun s (i, b) => match s.descByte w d t r (k + i) with
    | some (core, cell, false) => s.spadPut core cell b
    | _ => s) s

/-- Records a touch of a guard granule by a command's access of some bytes of a row (R182): a copy's with its number, that of
an operation of the matrix queue with the active lanes of its issue (log 70). -/
def descTouch (s : State) (x : Cmd) (teamid : Nat) (w : Wg) (d : Desc) (t r k n : Nat) : State :=
  let hit := (List.range n).findSome? fun i =>
    let o := d.off t r (k + i)
    match s.spadByte w d.clus d.seg o with
    | some (_, a, true) => some (o, a)
    | _ => none
  match hit with
  | some (o, a) => s.touch x.wg o a teamid x.pc (match x.body with
      | .mat _ _ _ _ _ _ _ => x.lanes.setWidth 64
      | _ => 1#1 ++ Config.commandNumber x.number)
  | none => s

/-- A byte of a core's operand buffer. -/
def obGet (s : State) (core a : Nat) : Byte := (s.core core).obuf.get 0 a
def obPut (s : State) (core a : Nat) (b : Byte) : State :=
  s.updCore core fun c => { c with obuf := c.obuf.store 0 a b }

end State

/-! Copies. -/

/-- A copy under way: the state, the global bytes it has read the values of, and the cells it has written. -/
structure CopyRun where
  s : State
  wr : Tbl Byte
  cells : Tbl Bool

/-- The number of a local cell in `cells`: the operand buffer stands above the scratchpad. -/
def cellKey (core cell : Nat) : Nat := core * 2 ^ 32 + cell

/-- Where a byte of a local element stands; cells of the operand buffer count from 2^31 (R325). -/
def Slice.place (x : Slice) (s : State) (w : Wg) (i k : Nat) : Option (Nat × Nat × Bool) :=
  let t := i / (x.rows * x.cols)
  let r := i / x.cols % x.rows
  let o := i % x.cols * x.e + k
  if x.obuf then some (w.core, 2 ^ 31 + x.desc.seg + x.desc.off t r o, false) else s.descByte w x.desc t r o

namespace State

/-- Reads and writes a local cell of a copy. -/
def cellGet (s : State) (core cell : Nat) : Byte :=
  if cell ≥ 2 ^ 31 then s.obGet core (cell - 2 ^ 31) else s.spadGet core cell
def cellPut (s : State) (core cell : Nat) (b : Byte) : State :=
  if cell ≥ 2 ^ 31 then s.obPut core (cell - 2 ^ 31) b else s.spadPut core cell b

/-- A global byte as a command reads it: what an earlier command of its queue has still to land, or the die copy or the
home (R239, R327). -/
def copySource (s : State) (core ga : Nat) : Byte :=
  let k := ga / 512
  let pending := (s.core core).copyQ.filterMap fun x =>
    ((x.landings.find? fun l => l.1 == k).bind fun l => l.2.find? fun b => b.1 == ga).map (·.2)
  pending.getLast?.getD (s.engineByte (coreDie core) ga)

/-- A choice that the architecture leaves open: of a byte that the command also writes, the value before the command or
the value that it has written (R325; log 3). -/
def either (s : State) (a b : Byte) : Byte × State :=
  let (n, s) := s.draw
  (if n % 2 = 0 then a else b, s)

end State

/-- Moves one byte of an element of a slice (R325). -/
def copyByte (base : State) (core : Nat) (w : Wg) (x : Slice) (i ga : Nat) (r : CopyRun) (k : Nat) : CopyRun :=
  match x.place base w i k with
  | some (owner, cell, false) =>
    if x.toGlobal then
      let now := r.s.cellGet owner cell
      let (b, s) := if r.cells.has (cellKey owner cell) then r.s.either (base.cellGet owner cell) now else (now, r.s)
      { r with s := s, wr := r.wr.put (ga + k) b }
    else
      let old := base.copySource core (ga + k)
      let (b, s) := match r.wr.find? (ga + k) with | some y => r.s.either old y | none => (old, r.s)
      { r with s := s.cellPut owner cell b, cells := r.cells.put (cellKey owner cell) x.obuf }
  | _ => if x.toGlobal then { r with wr := r.wr.put (ga + k) 0 } else r

/-- Moves the elements of a slice in ascending order, with the touches of guard granules (R182, R325). -/
def copySlice (base : State) (core : Nat) (x : Cmd) (w : Wg) (first : Nat) (r : CopyRun) (y : Slice) : CopyRun :=
  let elems := y.runs.flatMap fun (ga, n) => (List.range (n / y.e)).map fun j => ga + j * y.e
  elems.zipIdx.foldl (fun r (ga, i) =>
    let r := if y.obuf then r else
      { r with s := r.s.descTouch x first w y.desc (i / (y.rows * y.cols)) (i / y.cols % y.rows) (i % y.cols * y.e) y.e }
    (List.range y.e).foldl (copyByte base core w y i ga) r) r

namespace State

/-- The global bytes that a copy reads. -/
def copyReads (slices : List Slice) : List (Nat × Nat) := slices.flatMap fun y => if y.toGlobal then [] else y.runs

/-- Runs a copy command whose global lines are at hand: its reads, its local writes with their full bits, and the global
writes that are to land (R184, R239, R325). -/
def runCopy (s : State) (core : Nat) (x : Cmd) (slices : List Slice) : State :=
  let w := s.wg x.wg
  let first := (slices.head?.map (·.teamid)).getD 0
  let r := slices.foldl (copySlice s core x w first) { s := s, wr := [], cells := [] }
  let s := r.cells.foldl (fun s (key, obuf) => if obuf then s else s.setFull (key / 2 ^ 32) (key % 2 ^ 32) true) r.s
  let n := slices.foldl (fun n y => n + y.e * y.rows * y.cols * y.tiles) 0
  (s.engineMoved x.wg n).land core x.id r.wr

/-- The global bytes that a command reads or writes. -/
def reaches (x : Cmd) : List (Nat × Nat) :=
  match x.body with
  | .copy slices _ _ _ _ => slices.flatMap fun y => y.ext
  | .coll _ ty count src dst grp _ _ _ _ _ => [(src, count * (ty.width / 8)), (dst, count * (ty.width / 8)), (grp, 64)]
  | _ => []

/-- Whether two lists of runs of bytes meet. -/
def meet (a b : List (Nat × Nat)) : Bool :=
  a.any fun (x, n) => b.any fun (y, m) => decide (x < y + m) && decide (y < x + n)

/-- The command of a copy queue that is next to run: no earlier one stands unstarted, and no earlier collective that has
still to run reaches its bytes (R318, R327). -/
def nextCopy : List Cmd → List Cmd → Option Cmd
  | [], _ => none
  | x :: xs, before =>
    let busy := x.st == .queued || x.st == .acquiring || x.st == .running
    match x.body with
    | .copy _ _ _ _ _ =>
      if busy then (if before.any fun y => meet (reaches y) (reaches x) then none else some x) else nextCopy xs before
    | .coll _ _ _ _ _ _ _ _ _ _ _ =>
      if x.st = .queued then none else if busy then nextCopy xs (x :: before) else nextCopy xs before
    | _ => nextCopy xs before

/-- Whether a strong access of one of some teams has still to be performed. -/
def teamsStrongOut (s : State) (ts : List Nat) : Bool := ts.any fun t => s.strongOut t

/-- The acquire of a copy before its first read (R240): a surrender of the issuing core's own owed words where it is the
last releaser, and, at a scope beyond the core's, a request to the home where it does not hold the line. -/
def copyAcquire (s : State) (core : Nat) (x : Cmd) (line : Nat) (wide : Bool) : State :=
  let u := s.unit core
  let owed := (s.core u).holds.any (fun h => h.1 == line && h.2) || (s.syncs.get {} line).last == some u
  let w := s.wg x.wg
  if !wide || (s.core u).holds.any (·.1 == line) then
    let s := if owed then s.surrenderWords u line else s
    s.updCmd core x.id fun y => { y with st := .acquiring, busyUntil := s.nextId }
  else
    let r : SyncReq := { core := u, team := none, lanes := 0, launch := w.gang, widx := w.wgid, excl := false,
                         release := false, cmd := some x.id, since := s.cycle, away := (s.gate (coreDie core) line).isSome }
    { s with syncs := Tbl.upd {} s.syncs line fun m => { m with queue := m.queue ++ [r] } }.updCmd core x.id
      fun y => { y with st := .acquiring, busyUntil := 0 }

end State

/-- A core that has surrendered what it owed an object to a copy of its own is its last releaser no longer, unless it
owes words anew (R226, R240). -/
def State.copyAcquired (s : State) (core line : Nat) : State :=
  let u := s.unit core
  if s.owesWords u line then s
  else { s.updCore u fun c => { c with holds := c.holds.map fun (l, r) => (l, r && l != line) } with
    syncs := s.syncs.updIf line fun m => if m.last = some u then { m with last := none } else m }

/-- The copy engine runs the next copy of a core's queue (R240, R325): its acquire first, then, once it has fetched the
global lines that it reads, its reads and writes (R239). -/
def execCopyExecution (core : Nat) (s : State) : Res :=
  match State.nextCopy (s.core core).copyQ [] with
  | none => .next s
  | some x =>
    match x.body with
    | .copy slices acq _ sc obj =>
      let run : Res :=
        let reads := State.copyReads slices
        if s.away (coreDie core) reads = [] then .next (s.runCopy core x slices) else .next (s.askRuns core reads)
      match x.st, acq with
      | .queued, true =>
        if s.teamsStrongOut x.teams then .next s
        else match obj with
          | some line => .next (s.copyAcquire core x line (sc ≥ 2))
          | none => run
      | .acquiring, _ =>
        if x.busyUntil ≠ 0 ∧ s.drained (s.unit core) x.busyUntil then
          let s := match obj with | some line => s.copyAcquired core line | none => s
          .next (s.updCmd core x.id fun y => { y with st := .running })
        else .next s
      | _, _ => run
    | _ => .next s

/-- A copy's release that waited for another workgroup's exclusive hold is recorded when the hold has ended (R328). -/
def execReleaseFlagRecord (core cmd : Nat) (s : State) : Res :=
  match s.findCmd core cmd with
  | some x =>
    match x.st, x.body with
    | .releasing, .copy _ _ true _ (some line) =>
      let asked := (s.syncs.get {} line).queue.any fun r => r.cmd == some cmd
      if asked || s.exclOther x.wg line then .next s else .next (s.cmdRelease core x line)
    | _, _ => .next s
  | none => .next s

/-! The matrix unit. -/

namespace State

/-- The address in the operand buffer at which an operation's record begins (R297). -/
def recBase (w : Wg) (first : Nat) : Nat := 4096 * (w.obufFirst + first)

/-- Element (m, n) of an accumulator (R339). -/
def accGet (s : State) (w : Wg) (base m n : Nat) : Nat :=
  ((ofBytes 32 ((List.range 4).map fun i => s.obGet w.core (base + 4 * (64 * m + n) + i)) : BitVec 32)).toNat
def accPut (s : State) (w : Wg) (base m n x : Nat) : State :=
  ((List.range 4).zip (natBytes 4 x)).foldl (fun s (i, b) => s.obPut w.core (base + 4 * (64 * m + n) + i) b) s

/-- The code of element (r, k) of an operand of `mma` (R338). -/
def matCode (s : State) (w : Wg) (bits : Nat) (o : Sum (Tbl Word) Desc) (r k : Nat) : Nat :=
  match o with
  | .inl regs =>
    let j := 32 / bits
    (regs.get 0 (32 * (16 * (r / 32) + k / j) + r % 32)).toNat / 2 ^ (bits * (k % j)) % 2 ^ bits
  | .inr d =>
    if bits = 4 then ((s.descRead w d 0 r (k / 2) 1).headD 0).toNat / 2 ^ (4 * (k % 2)) % 16
    else loadNat (s.descRead w d 0 r (k * bits / 8) (bits / 8))

/-- The block scale of an operand's row for k: 0 for an operand without scales (R339). -/
def matScale (s : State) (w : Wg) (ty : Ty) (v : BitVec 32) (base soff spitch row k : Nat) : Int :=
  if ty.isFmt && fmtScaled v then toS 8 (s.obGet w.core (base + soff + spitch * row + k / fmtBlock v)).toNat else 0

end State

/-- An element under its block's scale: +0 in a block of scale −128 (R147, R340). -/
def matValue (ty : Ty) (v : BitVec 32) (code : Nat) (σ : Int) : FVal :=
  let f := if ty.isFmt then narrowFmt v else ieeeFmt ty
  if σ = -128 then .zero false else (f.value (code % 2 ^ f.width)).scale σ

namespace State

/-- One `mma` operation (R169, R340). Where both descriptors reach guard bytes, A is read before B and the record is
of A's; no rule orders the two (DESIGN CHOICE, log 74). -/
def runMma (s : State) (x : Cmd) (ty : Ty) (fa fb : BitVec 32) (a b : Sum (Tbl Word) Desc) (first soff spitch : Nat) :
    State :=
  let w := s.wg x.wg
  let base := recBase w first
  let bits := contBits ty fa
  let rows := match w.matrix with | .half _ => 32 | _ => 64
  let kk := depthK bits
  let va := fun (m k : Nat) => matValue ty fa (s.matCode w bits a m k) (s.matScale w ty fa base soff spitch m k)
  let vb := fun (n k : Nat) => matValue ty fb (s.matCode w bits b n k) (s.matScale w ty fb base soff spitch (64 + n) k)
  let cell := fun (m n : Nat) => (List.range (kk / 8)).foldl (fun (acc : Nat × BitVec 5) g =>
    let ps := (List.range 8).map fun i => (va m (8 * g + i), vb n (8 * g + i))
    let (y, fl) := dotF ps (fp32.value acc.1)
    (y, acc.2 ||| fl)) (s.accGet w base m n, 0)
  let out := (List.range rows).flatMap fun m => (List.range 64).map fun n => (m, n, cell m n)
  let id := (s.team (x.teams.headD 0)).teamid
  let touchAll := fun (s : State) (o : Sum (Tbl Word) Desc) (rows : Nat) => match o with
    | .inl _ => s
    | .inr d =>
      let e := max 1 (bits / 8)
      (List.range rows).foldl (fun s r => (List.range (kk * bits / 8 / e)).foldl (fun s i =>
        s.descTouch x id w d 0 r (i * e) e) s) s
  let s := touchAll (touchAll s a rows) b 64
  let s := out.foldl (fun s (m, n, y, _) => s.accPut w base m n y) s
  s.updWg x.wg fun w => { w with mflags := out.foldl (fun fl (_, _, _, f) => fl ||| f) w.mflags }

/-- A unit or a half counts a completed operation of its queue, and so does the region of its workgroup (R349, R357). -/
def countOp (s : State) (core half w : Nat) : State :=
  (s.updCore core fun c =>
    { c with matrix := if half = 1 then { c.matrix with ops1 := sat64 (c.matrix.ops1 + 1) }
                       else { c.matrix with ops0 := sat64 (c.matrix.ops0 + 1) } }).updRegion (s.regionOf w) fun g =>
    { g with matOps := sat64 (g.matOps + 1) }

/-- Removes the operation at the head of a matrix queue when it has completed. -/
def matDone (s : State) (core : Nat) (x : Cmd) : State := s.cmdComplete core x.id

/-- The operation at the head of a unit's or a half's queue. -/
def matHead (s : State) (core half : Nat) : Option Cmd :=
  let m := (s.core core).matrix
  (if half = 1 then m.q1 else m.q0).head?

/-- Whether an operation has had its cycles in the unit (R337). -/
def ripe (s : State) (x : Cmd) : Bool := x.st == .running && decide (x.busyUntil ≤ s.cycle)

end State

/-- The matrix unit completes the operation at the head of its queue (R337, R340, R352, R357). -/
def execMatrixOperation (core half : Nat) (s : State) : Res :=
  match s.matHead core half with
  | some x =>
    match x.body with
    | .mat (.mma ty fa fb a b) _ first _ soff spitch _ =>
      if s.ripe x then
        let s := ((s.runMma x ty fa fb a b first soff spitch).matDone core x).countOp core half x.wg
        .next (s.charge (s.regionOf x.wg) (energyOf s (coreDie core) 1))
      else .next s
    | _ => .next s
  | none => .next s

namespace State

/-- The rows of an accumulator converted for `accst`: bytes by row, and flags (R164, R342). -/
def accRows (s : State) (w : Wg) (base rows : Nat) (ty : Ty) (v : BitVec 32) (rm ovf : Nat) : List (List Byte) × BitVec 5 :=
  let f := if ty.isFmt then narrowFmt v else ieeeFmt ty
  let bits := if ty.isFmt then fmtContainer v else ty.width
  let conv := fun (m n : Nat) => match convF f rm ovf (fp32.value (s.accGet w base m n)) with
    | .ok y fl => (y, fl)
    | .trap _ => (0, 0)
  let codes := (List.range rows).map fun m => (List.range 64).map fun n => conv m n
  (codes.map fun row =>
    let x := row.zipIdx.foldl (fun (acc : Nat) (y, n) => acc + y.1 * 2 ^ (bits * n)) 0
    natBytes (64 * bits / 8) x,
   codes.foldl (fun fl row => row.foldl (fun fl y => fl ||| y.2) fl) 0)

/-- A transfer of an accumulator (R341, R342). -/
def runTransfer (s : State) (core : Nat) (x : Cmd) (m : MatOp) (first : Nat) : State :=
  let w := s.wg x.wg
  let base := recBase w first
  let rows := match w.matrix with | .half _ => 32 | _ => 64
  let id := (s.team (x.teams.headD 0)).teamid
  let block := (List.range 32).flatMap fun i => allLanes.map fun l => (i, l)
  match m with
  | .get t lanes vd q =>
    let s := s.updTeam t fun y => block.foldl (fun y (i, l) =>
      if lanes.getLsbD l then
        y.writeV (vd + i) l (BitVec.ofNat 32 (s.accGet w base (16 * q + i / 2) (32 * (i % 2) + l)))
      else y) y
    s.matDone core x
  | .putReg lanes vals q =>
    let s := block.foldl (fun s (i, l) =>
      if lanes.getLsbD l then
        s.accPut w base (16 * q + i / 2) (32 * (i % 2) + l) (vals.get 0 (32 * i + l)).toNat
      else s) s
    s.matDone core x
  | .putDesc d =>
    let vals := (List.range rows).flatMap fun r => (List.range 64).map fun n =>
      (r, n, loadNat (s.descRead w d 0 r (4 * n) 4))
    let s := vals.foldl (fun s (r, n, y) => (s.descTouch x id w d 0 r (4 * n) 4).accPut w base r n y) s
    s.matDone core x
  | .zero =>
    let s := (List.range rows).foldl (fun s r => (List.range 64).foldl (fun s n => s.accPut w base r n 0) s) s
    s.matDone core x
  | .storeSpad ty v rm ovf d =>
    let (out, fl) := s.accRows w base rows ty v rm ovf
    let e := max 1 (storeRow ty v / 64)
    let s := out.zipIdx.foldl (fun s (bs, r) =>
      let s := (List.range (bs.length / e)).foldl (fun s i => s.descTouch x id w d 0 r (i * e) e) s
      s.descWrite w d 0 r 0 bs) s
    (s.updWg x.wg fun w => { w with mflags := w.mflags ||| fl }).matDone core x
  | .storeGlobal ty v rm ovf g pitch =>
    let (out, fl) := s.accRows w base rows ty v rm ovf
    let wr := out.zipIdx.foldl (fun (t : Tbl Byte) (bs, r) =>
      bs.zipIdx.foldl (fun t (b, i) => t.put (g + r * pitch + i).toNat b) t) []
    (s.updWg x.wg fun w => { w with mflags := w.mflags ||| fl }).land core x.id wr
  | .mma _ _ _ _ _ => s

end State

/-- The matrix queue runs the transfer at its head (R341, R342). -/
def execAccumulatorTransfer (core half : Nat) (s : State) : Res :=
  match s.matHead core half with
  | some x =>
    match x.body with
    | .mat (.mma _ _ _ _ _) _ _ _ _ _ _ => .next s
    | .mat m _ first _ _ _ _ =>
      if s.ripe x then .next ((s.runTransfer core x m first).countOp core half x.wg) else .next s
    | _ => .next s
  | none => .next s

/-! Collectives. -/

/-- An element of a collective, widened to FP32 (R344). -/
def collWiden (ty : Ty) (x : Nat) : Word := if ty = .bf16 then BitVec.ofNat 32 (x * 65536) else BitVec.ofNat 32 x

/-- One combination of a collective (R344, R159). -/
def collCombine (op : Nat) (x y : Word) : Word :=
  BitVec.ofNat 32 (match op with
    | 0 => (addF fp32 0 (fp32.value x.toNat) (fp32.value y.toNat)).1
    | 1 => (minmaxF fp32 false x.toNat y.toNat).1
    | _ => (minmaxF fp32 true x.toNat y.toNat).1)

/-- The result of an element over the ranks in ring order (R344); one that is not a number is the canonical NaN, of a
group of one member too (R141). -/
def collResult (op : Nat) (ty : Ty) (xs : List Word) : Nat :=
  let x := match xs with | [] => 0 | y :: ys => ys.foldl (collCombine op) y
  let x := if (fp32.value x.toNat).isNan then BitVec.ofNat 32 (nanF fp32 0).1 else x
  if ty = .bf16 then (deliverF fbf16 0 (fp32.value x.toNat)).1 else x.toNat

/-- Whether what the other members bring is a whole instance: one part of every other rank (R343). -/
def partsWhole (p rank : Nat) (parts : List CollPart) : Bool :=
  parts.length + 1 == p && (List.range p).all fun j => j == rank || (parts.filter fun x => x.rank == j).length == 1

/-- The write of STATUS into a collective's group record (R343). -/
def statusAt (grp n : Nat) : Tbl Byte := (natBytes 8 n).zipIdx.foldl (fun (t : Tbl Byte) (b, i) => t.put (grp + 24 + i) b) []

/-- The elements of a rank of a collective as far as its member has them: its own, those that it has been brought, and for a
rank that is lost open ones (R344; log 15). -/
def State.collColumn (s : State) (core : Nat) (x : Cmd) (j : Nat) : List Word :=
  match x.body with
  | .coll _ ty count src _ _ _ _ rank _ _ =>
    let w := ty.width / 8
    if j = rank then match x.brings with
      | some (y, _) => linkValues count y.flits
      | none => (List.range count).map fun i => collWiden ty (loadNat ((List.range w).map fun k => s.copySource core (src + w * i + k)))
    else match x.got.find? fun y => y.rank == j && !y.lost with
      | some y => linkValues count y.flits
      | none => (List.range count).map fun i => BitVec.ofNat 32 (Config.free (s.fresh + 1024 * i + j))
  | _ => []

/-- A collective with a lost member ends with STATUS 2, and each byte of its destination keeps its value or takes that of its
result, which is open where a lost rank's elements are (R333, R344; log 15). -/
def State.collLost (s : State) (core : Nat) (x : Cmd) : State :=
  match x.body with
  | .coll op ty count _ dst grp _ p _ _ _ =>
    let w := ty.width / 8
    let columns := (List.range p).map (s.collColumn core x)
    let result := (List.range count).flatMap fun i => natBytes w (collResult op ty (columns.map fun v => v.getD i 0))
    let (wr, s) := result.zipIdx.foldl (fun (acc : Tbl Byte × State) (b, i) =>
      let (n, s) := acc.2.draw
      (if n % 2 = 0 then acc.1 else acc.1.put (dst + i) b, s))
      (statusAt grp 2, { s with fresh := s.fresh + 1024 * count })
    s.land core x.id wr
  | _ => s

namespace State

/-- Whether a collective of a queue may be executed as far as the commands before it go: none that has still to run reaches
its bytes (R327). -/
def collClear : List Cmd → Cmd → List Cmd → Bool
  | [], _, _ => true
  | y :: ys, x, before =>
    if y.id = x.id then !(before.any fun z => meet (reaches z) (reaches x))
    else collClear ys x (if y.st == .queued || y.st == .acquiring || y.st == .running then y :: before else before)

/-- The running collectives of a copy queue that nothing before them holds back. -/
def collsReady (q : List Cmd) : List Cmd :=
  q.filter fun x => x.st == .running && (match x.body with | .coll _ _ _ _ _ _ _ _ _ _ _ => true | _ => false) && collClear q x []

/-- Whether some parts decide a collective: they are a whole instance, or one of them shows that the members do not
agree on P or TAG (R344). -/
def collDecides (p rank : Nat) (seq tag : DWord) (parts : List CollPart) : Bool :=
  partsWhole p rank parts || parts.any fun y => y.seq == seq && (y.p != p || y.tag != tag)

/-- The collective that some parts are for: the one of their TAG and SEQ, or else, where the members do not agree, the first
that has been brought them, or the first that they decide (R344). -/
def collPick (q : List Cmd) (parts : List CollPart) : Option Cmd :=
  let fits := fun (more : Cmd → DWord → DWord → Bool) (x : Cmd) => match x.body with
    | .coll _ _ _ _ _ _ seq p rank tag _ => collDecides p rank seq tag parts && more x seq tag
    | _ => false
  let named := fits fun _ seq tag => parts.all fun y => y.tag == tag && y.seq == seq
  let brought := fits fun x _ _ => parts.all (x.got.contains ·)
  (((collsReady q).find? named).orElse fun _ => (collsReady q).find? brought).orElse fun _ =>
    (collsReady q).find? (fits fun _ _ _ => true)

/-- Whether a part shows that its member does not agree with a collective (R344). -/
def partDiffers (p : Nat) (tag : DWord) (op : Nat) (ty : Ty) (count : Nat) (y : CollPart) : Bool :=
  y.p != p || y.tag != tag || y.op != op || y.ty != ty || y.count != count

/-- The members of a collective have been found to disagree, which those that come to it later find too (R344). -/
def markBad (s : State) (part : Nat) (tag seq : DWord) : State :=
  { s with collBad := if s.collBad.contains (part, tag, seq) then s.collBad else s.collBad ++ [(part, tag, seq)] }

end State

/-- The lowest Pallum egress of a die, on which what cannot leave the die is recorded to wait (R300; log 29). -/
def firstEgress (die : Nat) : Nat := 16 + ((List.range 18).find? fun k => State.pallumDie k == die).getD 0

/-- A collective reduces over its members in ring order and its result lands at this member (R344); the parts that come from
other packages cross a trained Pallum link in a slot of the partition (R299, R420): STATUS 2 and open
destination bytes when a member is lost, STATUS 1 and nothing else when the members disagree. -/
def execCollExecution (core : Nat) (parts : List CollPart) (s : State) : Res :=
  match State.collPick (s.core core).copyQ parts with
  | none => .next s
  | some x =>
    match x.body with
    | .coll op ty count src dst grp seq p _ tag _ =>
      if s.teamsStrongOut x.teams then .next s
      else if x.brings.isNone ∧ s.away (coreDie core) [(src, count * (ty.width / 8))] ≠ [] then
        .next (s.askRuns core [(src, count * (ty.width / 8))])
      else if parts.any (fun y => !y.lost && !x.got.contains y) && !s.mayLeave (coreDie core) (gaPart grp) then
        .next (s.noteWait (firstEgress (coreDie core)) (gaPart grp))
      else
        let w := ty.width / 8
        let status := statusAt grp
        let put := fun (t : Tbl Byte) (i : Nat) (bs : List Byte) =>
          bs.zipIdx.foldl (fun t (b, j) => Tbl.put t (dst + w * i + j) b) t
        if parts.any (·.lost) then .next (s.collLost core x)
        else if parts.any (State.partDiffers p tag op ty count) then
          .next ((s.markBad (s.regionOf x.wg / 65536) tag seq).land core x.id (status 1))
        else
          let mine := match x.brings with
            | some (y, _) => linkValues count y.flits
            | none => (List.range count).map fun i =>
              collWiden ty (loadNat ((List.range w).map fun j => s.copySource core (src + w * i + j)))
          let column := (List.range p).map fun j =>
            match parts.find? fun y => y.rank == j with
            | some y => linkValues count y.flits
            | none => mine
          let wr := (List.range count).foldl (fun t i =>
            put t i (natBytes w (collResult op ty (column.map fun v => v.getD i 0)))) (status 0)
          .next ((s.engineMoved x.wg (count * w)).land core x.id wr)
    | _ => .next s

/-! Landings. -/

/-- A part of an engine's writes lands: one block, but after an earlier command's bytes of that
block; it merges and settles, and the command's pledge on the block ends (R210, R212, R245, R327). -/
def execEngineWriteLanding (msg : Nat) (s : State) : Res :=
  match s.msgs.find? msg with
  | some m =>
    match m.body with
    | .landing core id k =>
      match s.findCmd core id with
      | none => .next (s.dropMsg msg)
      | some x =>
        match Tbl.find? x.landings k with
        | none =>
          -- it was discarded with its page (R212)
          let s := s.dropMsg msg
          .next (if x.st = .landing ∧ x.landings = [] then s.cmdEnd core id else s)
        | some bs =>
          let earlier := ((s.core core).copyQ.takeWhile fun y => y.id != id).any fun y => y.landings.any (·.1 == k)
          let p := coreDie core
          let lines := (bs.map fun b => b.1 / 128).eraseDups
          if earlier && (s.core core).copyQ.any (·.id == id) then .next (s.requeue msg)
          else match lines.findSome? fun l => s.mergeWait msg p l with
          | some s => .next s
          | none =>
            let s := s.dropMsg msg
            let s := lines.foldl (fun s l =>
              let here := bs.filter fun b => b.1 / 128 == l
              let mask := here.foldl (fun (m : BitVec 128) b => m ||| (1#128 <<< (b.1 % 128))) 0
              let data := here.foldl (fun (d : LineData) b => putBytes d (b.1 % 128) [b.2]) 0
              s.mergeAt p l mask data) s
            let s := s.settle k false false
            let s := s.endPledges (x.pledged.filter (· == k))
            let s := s.updCmd core id fun y =>
              { y with pledged := y.pledged.filter (· != k), landings := y.landings.filter (·.1 != k) }
            .next (if x.landings.length ≤ 1 then s.cmdEnd core id else s)
    | _ => .next s
  | none => .next s

end Sys2Proof.Machine
end

