-- ==== Sys2Proof/Machine/Protocol.lean ====
section
/-!
DEFINITION. What homes, reserve units and cores do with the messages of the protocol (09 R207-R213; 10 R225-R252; 12
R281, R283). An event whose message is not there, or cannot be served yet, leaves the state as it is or the message
standing.
-/

namespace Sys2Proof.Machine

namespace State

/-- Whether some lanes of a team are stopped, so that an instruction of theirs that has not been performed issues again
instead (R400, R401). -/
def stopped (s : State) (t : Nat) (m : Mask) : Bool := (lanesOf m).any fun l => (s.team t).parked l

/-- The channel of the control messages of a core about a sync line. -/
def syncChan (core line : Nat) : Option (Nat × Nat) := some (core, 2 ^ 80 + line)

/-- The request at the head of a sync line's queue reaches a stage. -/
def syncStage (s : State) (line n : Nat) : State :=
  { s with syncs := s.syncs.updIf line fun m => { m with queue := match m.queue with
      | r :: rs => { r with stage := n } :: rs
      | [] => [] } }

/-- The same for a request that stands at the stage before, for which alone the message was. -/
def syncNext (s : State) (line from_ n : Nat) : State :=
  match (s.syncs.get {} line).queue with
  | r :: _ => if r.stage = from_ then s.syncStage line n else s
  | [] => s

/-- Takes the request at the head of a sync line's queue out of it. -/
def syncPop (s : State) (line : Nat) : State :=
  { s with syncs := s.syncs.updIf line fun m => { m with queue := m.queue.drop 1 } }

/-- The hold of a core goes back to the home with the core's releases (R226, R229). -/
def holdBack (s : State) (core line : Nat) : State :=
  let released := (s.core core).holds.any fun h => h.1 == line && h.2
  { s.updCore core (fun c => { c with holds := c.holds.filter (·.1 != line) }) with
    syncs := s.syncs.updIf line fun m =>
      { m with hold := if m.hold = some core then none else m.hold, last := if released then some core else m.last } }

/-- A core takes a hold; of more than 256 the one it took longest ago goes back to its home (R229). -/
def takeHold (s : State) (core line : Nat) : State :=
  let c := s.core core
  if c.holds.any (·.1 == line) then s
  else
    let s := if c.holds.length ≥ 256 then (match c.holds with | (l, _) :: _ => s.holdBack core l | [] => s) else s
    s.updCore core fun c => { c with holds := c.holds ++ [(line, false)] }

end State

/-! Pledges. -/

namespace State

/-- The lanes of a waiting store that write to a page that has been unmapped since it was translated (R215). -/
def unmappedLanes (s : State) (r : StoreReq) : Mask :=
  r.writes.foldl (fun (m : Mask) (l, ga, _) => if s.mapped (ga / 128) then m else m ||| (1#32 <<< l)) 0

/-- The decision on a pledge with every block free of other cores' marks (R28, R207, R213): where it stands, the store is
performed, and the chain that it ends closes (R97). A store to a page that has left its region raises the translation fault
(R215). -/
def decidePledge (s : State) (msg : Nat) (ks : List Nat) (r : StoreReq) : State :=
  let core := s.unit r.core
  let new := ks.filter fun k => !(s.core core).pledges.contains k
  let s := s.dropMsg msg
  let gone := s.unmappedLanes r
  if gone ≠ 0 then
    let low := (lowest gone).getD 0
    let ga := ((r.writes.find? fun w => w.1 == low).map (·.2.1)).getD 0
    let part := gaPart ga
    let sub := (s.translateNow part (some (coreRq r.core)) (gaVa ga) true false).getD 1
    (s.recordWalk r.core part (gaVa ga) sub).raise r.team r.lanes r.pc r.word
      { cause := 5, sub := sub, mask := gone, addr := gaVa ga, d0 := s.ownerDetail part (gaVa ga), chain := r.chain } true
  else match s.uncovered new with
  | some (owner, need, avail) =>
    let low := (lowest r.stores).getD 0
    let va := gaVa (((r.writes.find? fun w => w.1 == low).map (·.2.1)).getD ((r.writes.head?.map (·.2.1)).getD 0))
    s.raise r.team r.lanes r.pc r.word
      { cause := 7, sub := 0, mask := r.stores, addr := va, d0 := BitVec.ofNat 64 (owner % 65536),
        d1 := BitVec.ofNat 64 need, d2 := BitVec.ofInt 64 avail, chain := r.chain } true
  | none =>
    let s := new.foldl (fun s k => s.markBlock core k) (s.addPledges new)
    (((s.performStore r).endHalves (·.team == r.team)).updTeam r.team fun t =>
      t.advance (t.holders fun h => h == .pledge msg)).closeChain r.team r.lanes

end State

/-- A pledge decision (R203, R207-R209, R213): it waits for a migration of a page, and for the links over which its store
reads the rest of a word (R189, R299); blocks marked at other cores change owner
first, and a full pledge table makes room first: the block whose mark it took longest ago is written back. -/
def execPledgeRequest (msg : Nat) (s : State) : Res :=
  match s.msgs.find? msg with
  | some m =>
    match m.body with
    | .pledge ks r =>
      let core := s.unit r.core
      if s.stopped r.team r.lanes then
        .next ((s.dropMsg msg).updTeam r.team fun t => t.unhold (t.holders fun h => h == .pledge msg))
      else
        let away := ks.filter fun k => let e := s.blockEntry k; entPledged e && entOwner e != core
        let new := ks.filter fun k => !(s.core core).pledges.contains k
        if ks.any fun k => s.migrating (512 * k) then .next (s.requeue msg)
        else match (if r.strong then none else s.fillShut r.core r.writes) with
        | some s => .next (s.requeue msg)
        | none =>
        if away != [] then
          .next ((away.foldl (fun (s : State) k =>
            if s.msgs.any fun (_, x) => match x.body with | .ownerChange j _ => j == k | _ => false then s
            else s.send .control none (gaPart (512 * k)) (.ownerChange k (entOwner (s.blockEntry k)))) s).requeue msg)
        else if (s.core core).pledges.length + new.length > 512 then
          match (s.core core).pledges.head? with
          | some k => .next ((s.writeBackBlock core k).requeue msg)
          | none => .next (s.requeue msg)
        else .next (s.decidePledge msg ks r)
    | _ => .next s
  | none => .next s

/-- The core that holds a block's mark writes back its dirty words of the block; the settlement clears the mark
(R208). -/
def execPledgeOwnerChange (msg : Nat) (s : State) : Res :=
  match s.msgs.find? msg with
  | some m =>
    match m.body with
    | .ownerChange k core =>
      let e := s.blockEntry k
      let s := s.dropMsg msg
      if !(entPledged e && entOwner e == core) then .next s
      else if s.holdsDirty core k then .next (s.writeBackBlock core k)
      else
        let s := match s.ownerOf k with
          | some r => s.reserve r fun g => { g with rsvp := g.rsvp - (8 - (entSect e : Int)) }
          | none => s
        .next (s.clearMark k)
    | _ => .next s
  | none => .next s

/-! Writes and strong accesses at the home. -/

/-- The home merges a write-back, encodes and settles its block; one that finds no frame waits (R210, R220, R245). -/
def execMerge (msg : Nat) (s : State) : Res :=
  match s.msgs.find? msg with
  | some m =>
    match m.body with
    | .merge core line mask data =>
      match s.mergeWait msg (coreDie core) line with
      | some s => .next s
      | none =>
        let s' := s.mergeBack msg core line mask data
        .next (if s.hasFrames s' line then s' else s.frameWait msg line)
    | _ => .next s
  | none => .next s

/-- The home performs a strong access, an atomic or a reduction in its total order (R231, R261, R263). -/
def execHomeStrongAccess (msg : Nat) (s : State) : Res :=
  match s.msgs.find? msg with
  | some m =>
    match m.body with
    | .strong core line _ load write atom ls =>
      let wait := if write then s.mergeWait msg (coreDie core) line
                  else if s.olderOnChan msg || s.migrating (128 * line) then some (s.requeue msg) else none
      match wait with
      | some s => .next s
      | none => .next ((s.dropMsg msg).performStrong core line load write atom ls)
    | _ => .next s
  | none => .next s

/-! Sync objects. -/

namespace State

/-- A request of a team ends in a fault (R225, R234, R249), unless its lanes are stopped; then it issues again. -/
def syncFault (s : State) (line : Nat) (r : SyncReq) (cause sub : Nat) : State :=
  match r.team with
  | none => s
  | some t =>
    let m := (s.team t).holders (fun h => h == .sync line) &&& r.lanes
    if m = 0 then s
    else if s.stopped t m then s.updTeam t fun x => x.unhold m
    else
      let pc := ((s.team t).lane ((lowest m).getD 0)).pc
      let part := gaPart (128 * line)
      s.raise t m pc r.word
        { cause := cause, sub := sub, mask := s.activeIn t m r.word, addr := r.va, d0 := s.ownerDetail part r.va } true

/-- Serves the request at the head of a sync line's queue as far as it can go now (R226, R234). Where the page of the object
was surrendered after an engine command had queued its acquire or release, the request is granted: R249 gives the
translation fault, which a command cannot take (DESIGN CHOICE, log 74). -/
def serveSync (s : State) (line : Nat) (m : SyncMeta) (r : SyncReq) : State :=
  let other := match m.excl with | some who => who != (r.launch, r.widx) | none => false
  if (s.pageAt (128 * line)).isNone then
    match r.cmd with
    | some _ => (s.syncPop line).send .reply (syncChan r.core line) (gaPart (128 * line)) (.grant line { r with stage := 0 })
    | none => (s.syncPop line).syncFault line r 5 1
  else if other then
    if !r.release then s
    else if r.cmd.isSome then s.syncPop line
    else (s.syncPop line).syncFault line r 6 2
  else
    let part := gaPart (128 * line)
    match r.stage with
    | 0 =>
      match m.hold with
      | some h =>
        if h = r.core then s.syncStage line 2
        else (s.syncStage line 1).send .control (syncChan h line) part (.takeback h line)
      | none => s.syncStage line 2
    | 2 =>
      match m.last with
      | some c =>
        if c = r.core ∧ (r.cmd.isNone ∨ r.release) then s.syncStage line 4
        else (s.syncStage line 3).send .control (syncChan c line) part (.surrender c line none)
      | none => s.syncStage line 4
    | 4 =>
      let s := s.syncPop line
      let s : State := { s with syncs := s.syncs.updIf line fun m =>
        { m with hold := some r.core, excl := if r.excl then some (r.launch, r.widx) else m.excl } }
      s.send .reply (syncChan r.core line) part (.grant line r)
    | _ => s

end State

/-- The home serves the oldest request for a sync line (R226). -/
def execAcquireRequest (line : Nat) (s : State) : Res :=
  match s.syncs.find? line with
  | some m => match m.queue with
    | r :: _ => .next (if r.away then s else s.serveSync line m r)
    | [] => .next s
  | none => .next s

/-- A core gives its hold back with the releases that it recorded (R226). -/
def execHoldTakeback (msg : Nat) (s : State) : Res :=
  match s.msgs.find? msg with
  | some m =>
    match m.body with
    | .takeback core line =>
      if s.olderOnChan msg then .next (s.requeue msg)
      else .next (((s.dropMsg msg).holdBack core line).syncNext line 1 2)
    | _ => .next s
  | none => .next s

/-- A core writes back the dirty words that it owes a sync object, and acknowledges once they have merged and settled
(R28, R226, R227, R249). -/
def execSurrender (msg : Nat) (s : State) : Res :=
  match s.msgs.find? msg with
  | some m =>
    match m.body with
    | .surrender core line none =>
      if s.olderOnChan msg then .next (s.requeue msg)
      else
        let s := s.surrenderWords core line
        .next ({ s with msgs := s.msgs.updIf msg fun x =>
                  { x with body := .surrender core line (some s.nextId) } }.requeue msg)
    | .surrender core line (some upTo) =>
      if !s.drained core upTo then .next (s.requeue msg)
      else .next ((s.dropMsg msg).send .reply none (gaPart (128 * line)) (.surrenderAck core line upTo))
    | _ => .next s
  | none => .next s

/-- The acknowledgement of a surrender sinks at the home (R226, R320). -/
def execSurrenderAck (msg : Nat) (s : State) : Res :=
  match s.msgs.find? msg with
  | some m =>
    match m.body with
    | .surrenderAck _ line _ =>
      let s : State := { s.dropMsg msg with syncs := s.syncs.updIf line fun x => { x with last := none } }
      .next (s.syncNext line 3 4)
    | _ => .next s
  | none => .next s

/-- A grant of a line whose page has been unmapped, its stage no longer 4: the core takes no hold; a team's request
ends in the translation fault, and a command goes on (R249; log 74). -/
def State.grantLost (s : State) (line : Nat) (r : SyncReq) : State :=
  match r.team, r.cmd with
  | some _, _ => s.syncFault line r 5 1
  | none, some id => match s.cores.keys.find? fun c => s.unit c == r.core && (s.findCmd c id).isSome with
    | some c => if r.release then s.cmdComplete c id else s.updCmd c id fun x => { x with st := .running }
    | none => s
  | none, none => s

/-- A grant sinks at its core (R225, R226, R240, R320): an acquire invalidates the clean words of the ranges bound to the
object, a release is recorded, and the group or the command that asked goes on. -/
def execAcquireGrant (msg : Nat) (s : State) : Res :=
  match s.msgs.find? msg with
  | some m =>
    match m.body with
    | .grant line r =>
      let s := s.dropMsg msg
      if r.stage ≠ 4 then .next (s.grantLost line r)
      else
      let s := s.takeHold r.core line
      let s := if r.release then s.recordRelease r.core line (r.launch, r.widx)
               else s.dropCleanAll r.core (s.boundRanges line)
      match r.team, r.cmd with
      | some t, _ =>
        .next (s.updTeam t fun x =>
          x.complete (x.holders (fun h => h == .sync line) &&& r.lanes))
      | none, some id =>
        let core := s.cores.keys.find? fun c => s.unit c == r.core && (s.findCmd c id).isSome
        match core with
        | some c => .next (if r.release then s.cmdComplete c id
                           else s.updCmd c id fun x => { x with st := .running })
        | none => .next s
      | none, none => .next s
    | _ => .next s
  | none => .next s

/-! Die copies. -/

/-- The home serves a die's read, or forwards it to the owner die, once there is a directory entry for the line and no
migration of its page (R203, R245, R248). -/
def execDieCopyRead (msg : Nat) (s : State) : Res :=
  match s.msgs.find? msg with
  | some m =>
    match m.body with
    | .copyRead die core line load =>
      match if (s.copyOf die line).isSome || !s.mapped line then none
            else if s.migrating (128 * line) then some s else s.entryWait line with
      | some s => .next (s.requeue msg)
      | none => match s.ownerDie line with
      | some o =>
        if o = die ∨ (s.copyOf die line).isSome then .next (((s.dropMsg msg).dirTouch line).readLine die line)
        else .next ((s.dropMsg msg).send .request none m.part (.fwdRead o die core line load))
      | none => .next (((s.dropMsg msg).dirTouch line).readLine die line)
    | _ => .next s
  | none => .next s

/-- The owner die sends the line to the reader; without an owner by now the home does (R245). A migration of the page is
waited for (R203). -/
def execForwardedRead (msg : Nat) (s : State) : Res :=
  match s.msgs.find? msg with
  | some m =>
    match m.body with
    | .fwdRead _ die _ line _ => .next (if s.migrating (128 * line) then s.requeue msg else (s.dropMsg msg).readLine die line)
    | _ => .next s
  | none => .next s

/-- A die drops its copy at the home's request (R245). -/
def execDieCopyInvalidate (msg : Nat) (s : State) : Res :=
  match s.msgs.find? msg with
  | some m =>
    match m.body with
    | .invalidate die line => .next ((s.dropMsg msg).dropCopy die line)
    | _ => .next s
  | none => .next s

/-- A die drops its copy because the line's directory entry is reused; no L1 word changes (R233, R248), though R170 lists
back-invalidation among what changes L1 lines (log 74). -/
def execBackInvalidation (msg : Nat) (s : State) : Res :=
  match s.msgs.find? msg with
  | some m =>
    match m.body with
    | .backInv die line => .next ((s.dropMsg msg).dropCopy die line)
    | _ => .next s
  | none => .next s

/-- A copy in M or O leaves its L2; the line has no owner and no data moves (R245). -/
def execOwnerEvictionNotice (die line : Nat) (s : State) : Res :=
  match s.copies.find? (State.copyKey die line) with
  | some c => .next (if c.st = .m ∨ c.st = .o then s.dropCopy die line else s)
  | none => .next s

/-- A remote copy expires (R251). -/
def execRemoteCopyExpiry (die line : Nat) (s : State) : Res :=
  match s.copies.find? (State.copyKey die line) with
  | some c => .next (match c.expiry with
    | some t => if t.toNat ≤ s.clk.toNat + s.leaseMargin then s.dropCopy die line else s
    | none => s)
  | none => .next s

/-- The latest lease of a line has expired, and merges into it proceed (R252). -/
def execLeaseWaitEnd (line : Nat) (s : State) : Res :=
  match s.leases.find? line with
  | some t => .next (if t ≤ s.clk then { s with leases := s.leases.erase line } else s)
  | none => .next s

/-! Translation. -/

namespace State

/-- Whether a walk is one of the 16 that its cluster runs; the others wait in the miss queue (R283). -/
def walkRuns (s : State) (rq msg : Nat) : Bool := ((s.walks rq).take 16).any fun x => x.1 == msg

/-- The groups of a cluster that wait for a walk: team, lanes and hold. -/
def walkWaiters (s : State) (rq msg : Nat) : List (Nat × Mask × Hold) :=
  s.teams.flatMap fun (k, t) =>
    if coreRq t.core != rq then []
    else
      ((allLanes.filterMap fun l => (t.lane l).hold).eraseDups.filter fun h => match h with
        | .walk left _ _ _ => left.contains msg
        | _ => false).map fun h => (k, t.holders (· == h), h)

/-- The entry of a page that passes every check but those of permission (R283). -/
def pageEntry (s : State) (rq part va : Nat) : Option TlbEnt :=
  match s.walk part va with
  | .leaf pte shift _ =>
    if (leafFault s part (some rq) pte shift va false false).isNone then
      some { part := part, shift := shift, lead := va / 2 ^ shift, leaf := pte }
    else none
  | .fault _ _ => none

/-- A chain whose next word cannot be fetched closes (R97; log 74). -/
def closeLook (s : State) (t : Nat) : State :=
  s.updTeam t fun x => match x.chain with | some ch => if ch.look then { x with chain := none } else x | none => x

/-- The last walk of a group has ended: its instruction issues again, or the translation fault is raised with the lowest
sub-cause among its lanes (R281). A group that waited for its word has the word 0 here, as at every fetch that faults. -/
def walksOver (s : State) (tk : Nat) (m : Mask) (want : List (Nat × Mask)) (write : Bool) (word : IWord) : State :=
  let t := s.team tk
  let part := s.teamPart tk
  let found := want.map fun (va, l) => (va, l, s.walkPage t.core part va write)
  let subs := found.filterMap fun (_, _, r) => match r with | .inl sub => some sub | .inr _ => none
  match subs.min? with
  | none => s.updTeam tk fun t => t.unhold m
  | some sub =>
    if s.stopped tk m then s.updTeam tk fun t => t.unhold m
    else
      let hit := found.filter fun (_, _, r) => match r with | .inl x => x == sub | .inr _ => false
      let mask := hit.foldl (fun (acc : Mask) x => acc ||| x.2.1) 0
      let low := (lowest mask).getD 0
      let va := ((hit.find? fun (_, x, _) => x.getLsbD low).map (·.1)).getD 0
      let pc := (t.lane ((lowest m).getD 0)).pc
      ((s.recordWalk t.core part va sub).closeLook tk).raise tk m pc word
        { cause := 5, sub := sub, mask := mask, addr := va, d0 := s.ownerDetail part va } true

/-- A walk that a group waited for has ended. -/
def walkEnded (s : State) (msg tk : Nat) (m : Mask) (h : Hold) : State :=
  match h with
  | .walk left want write word =>
    match left.filter (· != msg) with
    | [] => s.walksOver tk m want write word
    | rest => s.updTeam tk fun t => t.mapLanes (m.getLsbD ·) fun _ x => { x with hold := some (.walk rest want write word) }
  | _ => s

end State

/-- A walk ends (R281, R283): where groups wait for it, its page fills the TLBs of their cores and of the cluster, and
what else they wait for decides how they go on; where none does any more, its result is discarded. -/
def execTlbWalk (msg : Nat) (s : State) : Res :=
  match s.msgs.find? msg with
  | some m =>
    match m.body with
    | .walk rq part page =>
      if !s.walkRuns rq msg then .next (s.requeue msg)
      else
        let waiters := s.walkWaiters rq msg
        let s := s.dropMsg msg
        let s := match s.pageEntry rq part (65536 * page) with
          | some e => (waiters.map fun (k, _, _) => (s.team k).core).eraseDups.foldl (fun s c => s.tlbFill c e) s
          | none => s
        .next (waiters.foldl (fun s (k, m, h) => s.walkEnded msg k m h) s)
    | _ => .next s
  | none => .next s

end Sys2Proof.Machine
end

