-- ==== Sys2Proof/Machine/Rings.lean ====
section
/-!
DEFINITION. Rings as their queue engines serve them (13 R303-R313, R315, R436): the descriptor, the packet at READ, packet
faults, consumption and completion, the writes that a queue engine makes, and the entries of capture mode (23 R430).
-/

namespace Sys2Proof.Machine

/-- The ring descriptor (R304, R305). -/
structure RingDesc where
  base : Nat
  cw : DWord
  read : Nat
  faultRec : Nat
  freeBase : Nat
  freeRd : Nat
  freeWr : Nat
  dropped : Nat
  consumed : Nat
  reserved : Bool
deriving DecidableEq, Repr

namespace RingDesc

/-- Fields of the control word (R305). -/
def logSize (d : RingDesc) : Nat := bitsOf d.cw 63 59
def growing (d : RingDesc) : Bool := d.cw.getLsbD 58
def priv (d : RingDesc) : Bool := d.cw.getLsbD 57
def stop (d : RingDesc) : Bool := d.cw.getLsbD 56
def die (d : RingDesc) : Nat := bitsOf d.cw 55 54
def part (d : RingDesc) : Nat := bitsOf d.cw 53 49
def freeLog (d : RingDesc) : Nat := bitsOf d.cw 48 44
def vector (d : RingDesc) : Nat := bitsOf d.cw 43 32

end RingDesc

/-- A packet as read: its ring, the descriptor, the address of its slot and its 64 bytes. -/
structure Pkt where
  d : RingDesc
  addr : Nat
  bytes : List Byte
deriving DecidableEq, Repr

namespace Pkt

/-- `n` bytes from an offset on, as a number. -/
def n (p : Pkt) (off k : Nat) : Nat := loadNat ((p.bytes.drop off).take k)
def op (p : Pkt) : Nat := p.n 0 1
def hostInt (p : Pkt) : Bool := (p.n 2 1).testBit 1
def bar (p : Pkt) : Bool := (p.n 2 1).testBit 0

/-- Sub-causes 1 and 2 of every packet: a reserved bit of the header or a body byte outside `used`, LEN other than 1
(R311, R313). -/
def basic (p : Pkt) (used : List (Nat × Nat)) : Option Nat :=
  let stray := (List.range 56).any fun i =>
    let o := i + 8
    !(used.any fun (lo, k) => decide (lo ≤ o) && decide (o < lo + k)) && p.n o 1 != 0
  if p.n 0 8 / 2 ^ 18 != 0 || stray then some 1 else if p.n 1 1 != 1 then some 2 else none

end Pkt

namespace State

def ring (s : State) (k : Nat) : Ring := s.rings.get { ref := { host := true, part := 0, addr := 0 } } k
def updRing (s : State) (k : Nat) (f : Ring → Ring) : State := { s with rings := s.rings.updIf k f }

/-- Bytes of the memory that a ring stands in: host memory, or the home (R304). -/
def ringBytes (s : State) (r : RingRef) (a n : Nat) : List Byte :=
  if r.host then memReadBytes s.hostMem a n else s.homeLoad (gaOf r.part a) n

/-- The descriptor of a ring (R304). -/
def ringDesc (s : State) (r : RingRef) : RingDesc :=
  let w := fun (o : Nat) => loadNat (s.ringBytes r (r.addr + o) 8)
  { base := w 0, cw := BitVec.ofNat 64 (w 8), read := w 16, faultRec := w 32, freeBase := w 40, freeRd := w 48,
    freeWr := w 56, dropped := w 64, consumed := w 72,
    reserved := w 8 % 2 ^ 32 != 0 || (s.ringBytes r (r.addr + 80) 48).any (· != 0) }

/-- The owner partition of a ring, whose addresses its packets name (R305, R312). -/
def ringPart (s : State) (k : Nat) : Nat := (s.ringDesc (s.ring k).ref).part

/-- A write that a queue engine of a die makes at the home, once nothing makes it wait there (`homeWait`); it merges and
settles as it lands, and bytes of a page that is not mapped are discarded (R212, R215, R245, R436). -/
def qeStore (s : State) (die ga : Nat) (bs : List Byte) : State :=
  (splitLines ga bs).foldl (fun s (line, off, b) =>
    if (s.pageAt (128 * line)).isNone then s
    else
      let m : BitVec 128 := (BitVec.allOnes 128 >>> (128 - b.length)) <<< off
      (s.mergeAt die line m ((ofBytes 1024 b) <<< (8 * off))).settleFor none (line / 4)) s

/-- The same with a pledge of its own, which ends with the write (R436): whether it has been made. It is not where the pledge
is refused or the write waits at the home (R252). -/
def qeWrite (s : State) (die ga : Nat) (bs : List Byte) : Bool × State :=
  let ks := blocksOf ga bs.length
  if (s.uncovered ks).isSome then (false, s)
  else match s.homeWait die ga bs.length with
    | some s => (false, s)
    | none => (true, ((s.pledgeCmd ks).qeStore die ga bs).endPledges ks)

/-- Adds a ring to a partition, whose descriptor, with PART as the partition's number, firmware writes where an image
of its 128 bytes is given: into host memory at once, into the partition's own memory once its page is mapped
(R303-R305; `writeImage`). -/
def newRing (s : State) (part k : Nat) (r : RingRef) (image : List Byte) : State :=
  let cw : DWord := ofBytes 64 ((image.drop 8).take 8)
  let bs := if image.length = 128 then image.take 8 ++ bytesOf 8 (setBits cw 53 49 part) ++ image.drop 16 else []
  { s with
    hostMem := if r.host then memWriteBytes s.hostMem r.addr bs else s.hostMem
    rings := s.rings.put k { ref := { r with part := part }, image := if r.host then [] else bs } }

/-- Firmware writes the descriptor of a device ring that is still owed, where its page is mapped and nothing makes the
write wait (R207, R303, R304). -/
def writeImage (s : State) (k : Nat) : State :=
  let g := s.ring k
  let ga := gaOf g.ref.part g.ref.addr
  if g.image = [] || (s.pageAt ga).isNone then s
  else match s.qeWrite (portDie (s.homePort (ga / 128))) ga g.image with
    | (true, s) => s.updRing k fun g => { g with image := [] }
    | (false, s) => s

/-- The bookkeeping writes of a ring, in order: into host memory at once; on a device ring each pledges when it is made,
and from the first that is refused or waits at the home on they are held, behind those held already (R252, R436). -/
def bookkeep (s : State) (k : Nat) : List (Nat × List Byte) → State
  | [] => s
  | (a, bs) :: ws =>
    let r := (s.ring k).ref
    if r.host then ({ s with hostMem := memWriteBytes s.hostMem a bs } : State).bookkeep k ws
    else if (s.ring k).held != [] then s.updRing k fun g => { g with held := g.held ++ (a, bs) :: ws }
    else match s.qeWrite (s.ringDesc r).die (gaOf r.part a) bs with
      | (true, s) => s.bookkeep k ws
      | (false, s) => s.updRing k fun g => { g with held := (a, bs) :: ws }

/-- Raises the ring's MSI-X vector (host rings only: R311, R313). -/
def raiseHost (s : State) (k : Nat) : State :=
  let r := (s.ring k).ref
  if r.host then { s with msix := s.msix ++ [(s.ringDesc r).vector] } else s

/-- The address of the slot that stands at READ (R307, R309). -/
def slotAddr (d : RingDesc) (g : Ring) : Nat :=
  if d.growing then g.seg.getD d.base + 64 * g.slot else d.base + 64 * (d.read % 2 ^ d.logSize)

/-- Whether a ring's own memory translates for its queue engine (R281). -/
def ringReach (s : State) (r : RingRef) (a : Nat) : Bool := r.host || (s.translateNow r.part none a false false).isNone

/-- Whether the page of a part of a ring's memory is under migration (R203). -/
def ringMoves (s : State) (r : RingRef) (a : Nat) : Bool := !r.host && s.migrating (gaOf r.part a)

/-- The links that an access of a queue engine to some bytes crosses before it is made: on the walks of their pages, and
where it reads, to their homes (R278, R299). -/
def pathLinks (s : State) (die part va n : Nat) (read : Bool) : List Nat :=
  ((pagesOf va n).flatMap fun a => s.walkLinks die part a)
    ++ (if read then s.legs die ((List.range ((va + n - 1) / 128 + 1 - va / 128)).map fun i => gaOf part va / 128 + i) else [])

/-- The same of a read of a ring's own memory. -/
def ringLinks (s : State) (r : RingRef) (a n : Nat) : List Nat :=
  if r.host then [] else s.pathLinks (s.ringDesc r).die r.part a n true

/-- A queue engine's access is made once each link on its way has been crossed, one after another, in a slot of the
partition; until then it is tried again in each cycle (R299, R300). What has been crossed stands until the packet is done
with. -/
def crossThen (s : State) (k : Nat) (links : List Nat) (go : State → State) : State :=
  let part := s.ringPart k
  let left := links.filter fun l => !(s.ring k).crossed.contains l
  match s.shut part left with
  | none => go s
  | some l => (s.noteWait l part).updRing k fun g =>
      { g with crossed := g.crossed ++ left.filter fun l => s.mayCross l part, asked := true }

/-- The packet that a queue engine has read waits for a page or a home, and is tried again in the next cycle. -/
def awaits (s : State) (k : Nat) : State := s.updRing k fun g => { g with asked := g.seen }

/-- The home counts a queue engine's read of its ring's memory (R354). -/
def ringHeat (s : State) (r : RingRef) (a n : Nat) : State := if r.host then s else s.hwHeat (gaOf r.part a) n

/-- The packet at READ that the queue engine has read: none where the ring is stopped, holds a write, has a reserved bit
set, or its slot is empty (R304, R307, R313, R436). -/
def packet? (s : State) (k : Nat) : Option Pkt :=
  match s.rings.find? k with
  | none => none
  | some g =>
    if g.held != [] || !g.seen then none
    else
      let d := s.ringDesc g.ref
      let a := slotAddr d g
      if d.reserved || d.stop then none
      else
        let p : Pkt := { d := d, addr := a, bytes := s.ringBytes g.ref a 64 }
        if p.op = 0 then none else some p

/-- Sets or clears STOP in a ring's descriptor (R305). -/
def setStop (s : State) (k : Nat) (b : Bool) : State :=
  let r := (s.ring k).ref
  let cw := setBits (s.ringDesc r).cw 56 56 (if b then 1 else 0)
  s.bookkeep k [(r.addr + 8, bytesOf 8 cw)]

/-- The doorbell resume: STOP is cleared, and the packet at READ is read again from the start (R306, R313). -/
def resumeRing (s : State) (k : Nat) : State := (s.setStop k false).updRing k fun g => { g with seen := false, crossed := [] }

/-- A packet fault: the ring stops at the packet, the record is written, and a host ring raises its vector (R313). -/
def packetFault (s : State) (k : Nat) (p : Pkt) (sub need : Nat) : State :=
  let r := (s.ring k).ref
  let bytes := p.bytes.take 8 ++ bytesOf 8 (BitVec.ofNat 64 p.d.read) ++ bytesOf 8 (BitVec.ofNat 64 r.addr)
    ++ bytesOf 2 (BitVec.ofNat 16 sub) ++ [BitVec.ofNat 8 p.d.die, 0] ++ bytesOf 4 (BitVec.ofNat 32 need)
  let cw := setBits p.d.cw 56 56 1
  let s := s.bookkeep k [(r.addr + 8, bytesOf 8 cw), (p.d.faultRec, bytes)]
  (s.updRing k fun g => { g with waitFrom := none, seen := false, asked := false, crossed := [] }).raiseHost k

/-! Capture (R430). -/

/-- Writes the entries of a job's capture ring that are held, oldest first, as far as the homes take them now; one
whose pledge is refused is left unwritten (R252, R430; log 21). -/
def captureWrites (s : State) (job : Nat) : List (Nat × List Byte) → State
  | [] => { s with jobs := s.jobs.updIf job fun j => { j with capHeld := [] } }
  | (ga, e) :: es =>
    if (s.uncovered (blocksOf ga e.length)).isSome then s.captureWrites job es
    else match s.qeWrite 0 ga e with
      | (true, s) => s.captureWrites job es
      | (false, s) => { s with jobs := s.jobs.updIf job fun j => { j with capHeld := (ga, e) :: es } }

/-- The next slot of the capture ring, written by a copy's rules; at the last one an entry of kind 4 is written instead
and capture ends. -/
def captureEntry (s : State) (job : Nat) (e : List Byte) : State :=
  let j := s.jobs.get {} job
  match j.capture with
  | none => s
  | some c =>
    let last := decide ((j.capNext + 1) * 64 ≥ c.size)
    let e := if last then bytesOf 2 (4 : BitVec 16) ++ bytesOf 6 (0 : BitVec 48) ++ bytesOf 8 s.clk ++ bytesOf 48 (0 : BitVec 384)
             else e
    let a := c.base + 64 * j.capNext
    let s : State :=
      if (j.capNext + 1) * 64 > c.size then s
      else if c.host then { s with hostMem := memWriteBytes s.hostMem a e }
      else s.captureWrites job (j.capHeld ++ [(gaOf c.part a, e)])
    { s with jobs := s.jobs.updIf job fun j =>
        { j with capNext := j.capNext + 1, capture := if last then none else j.capture } }

/-- An entry of a kind (R430). -/
def captureRecord (s : State) (job kind die lid index : Nat) (sum : List Byte) : State :=
  s.captureEntry job (bytesOf 2 (BitVec.ofNat 16 kind) ++ bytesOf 2 (BitVec.ofNat 16 die) ++ bytesOf 4 (BitVec.ofNat 32 lid)
    ++ bytesOf 8 s.clk ++ bytesOf 8 (BitVec.ofNat 64 index) ++ (sum ++ List.replicate 32 0).take 32
    ++ bytesOf 8 (0 : BitVec 64))

/-- The completion of a launch under capture or at a re-run: its output's checksum is recorded, and compared with what was
captured for the same launch (R430). -/
def captureLaunch (s : State) (id : Nat) (l : Launch) : State :=
  match s.jobs.find? l.part with
  | none => s
  | some j =>
    let ranges := sortBy (fun (a b : Nat × Nat) => decide (a.1 < b.1)) ((j.outputs.get [] l.record).take 16)
    let sum := shake (ranges.flatMap fun (va, n) => s.homeLoad (gaOf l.part va) n) 32
    let s := if j.capture.isSome || j.rerun != [] then ranges.foldl (fun s (va, n) => s.hwHeat (gaOf l.part va) n) s else s
    let key := if l.capKey.1 = 0 then (0, id) else l.capKey
    let s := if j.capture.isSome then s.captureRecord l.part 3 l.die l.lid 0 sum else s
    let s : State := { s with jobs := s.jobs.updIf l.part fun j =>
      { j with sums := if j.capture.isSome then j.sums ++ [(key, sum)] else j.sums } }
    match j.rerun.find? fun x => x.1 == key with
    | none => s
    | some (_, want) =>
      let s : State := { s with jobs := s.jobs.updIf l.part fun j => { j with rerun := j.rerun.filter fun x => x.1 != key } }
      if want = sum then s else s.errorRecord l.die 0 0 2 9 0xFFFF l.lid (l.region % 65536)

/-! Consumption. -/

/-- Asks for an examination of a ring's next slot. -/
def askPoll (s : State) (k : Nat) : State :=
  if s.agenda.contains (.ringPoll k) then s else { s with agenda := s.agenda ++ [.ringPoll k] }

/-- A packet is consumed: its header is emptied, READ and CONSUMED rise, and unless it is complete it stands among the
packets begun (R307, R315). -/
def consume (s : State) (k : Nat) (p : Pkt) (done : Bool) : State :=
  let g := s.ring k
  let s := match s.jobs.find? p.d.part with
    | some j => if j.capture.isSome then
        (s.captureRecord p.d.part 2 p.d.die 0 k []).captureEntry p.d.part p.bytes else s
    | none => s
  let s := s.bookkeep k [(p.addr, bytesOf 8 (0 : BitVec 64)),
    (g.ref.addr + 16, bytesOf 8 (BitVec.ofNat 64 (p.d.read + 1))),
    (g.ref.addr + 72, bytesOf 8 (BitVec.ofNat 64 (p.d.consumed + 1)))]
  let s := s.updRing k fun g =>
    { g with waitFrom := none, slot := g.slot + 1, seen := false, asked := false, crossed := [],
             open_ := if done then g.open_ else g.open_ ++ [(p.d.read, p.hostInt)] }
  (if done && p.hostInt then s.raiseHost k else s).askPoll k

/-- A packet that was consumed before is complete (R311, R312, R315). -/
def packetDone (s : State) (k index : Nat) : State :=
  match (s.ring k).open_.find? fun x => x.1 == index with
  | none => s
  | some (_, int) =>
    let s := s.updRing k fun g => { g with open_ := g.open_.filter fun x => x.1 != index }
    (if int then s.raiseHost k else s).askPoll k

/-- The sub-cause with which a queue engine's read of a run of bytes fails its translation, and where (R281, R425). -/
def readFault (s : State) (part va n : Nat) : Option (Nat × Nat) :=
  ((pagesOf va n).findSome? fun a => (s.translateNow part none a false false).map fun sub => (sub, a)).orElse fun _ =>
    (s.poisonIn part va n).head?.map fun a => (4, a)

/-- A packet's access fails its translation: the ring stops with sub-cause 9, beside the error record that the failure writes
(R281, R298, R313, R425). Its requester is named as that of cluster 0 of the queue engine's die, since no rule gives a queue
engine a port (DESIGN CHOICE, log 74). -/
def walkFault (s : State) (k : Nat) (p : Pkt) (x : Nat × Nat) : State :=
  (s.recordWalk (48 * p.d.die) p.d.part x.2 x.1).packetFault k p 9 0

/-- Serves the packet at READ of a ring if it is of a kind: the checks of R313, then BAR, then what the kind does. -/
def servePacket (s : State) (k op : Nat) (used : List (Nat × Nat)) (barred : Bool) (check : Pkt → Option Nat)
    (go : Pkt → State) : State :=
  match s.packet? k with
  | none => s
  | some p =>
    if p.op != op then s
    else match p.basic used with
      | some sub => s.packetFault k p sub 0
      | none => match check p with
        | some sub => s.packetFault k p sub 0
        | none => if (barred || p.bar) && (s.ring k).open_ != [] then s else go p

/-- The event of the packet kind at READ, or the sub-cause with which no kind takes it (R312-R314). -/
def packetEvent (k : Nat) (p : Pkt) : Sum Instr Nat :=
  match p.op with
  | 1 => .inl (.nopPacket k)
  | 2 => .inl (.launchPacket k)
  | 3 => .inl (.waitValuePacket k)
  | 4 => .inl (.signalPacket k)
  | 5 => .inl (.copyPacket k)
  | 6 => match p.n 8 2 with
    | 0 => .inl (.regionCreate k)
    | 1 => .inl (.regionDestroy k)
    | 2 => .inl (.regionFieldWrite k)
    | 3 => .inl (.mapPages k)
    | 4 => .inl (.unmapPages k)
    | 5 => .inl (.grantSectors k)
    | _ => .inr 1
  | 7 => .inl (.fencePacket k)
  | 8 => .inl (.linkPacket k)
  | 9 => .inl (.timestampPacket k)
  | _ => .inr 0

/-- The packet that a queue engine has read is to be served; one whose opcode no kind has is a fault (R312, R313). -/
def planPacket (s : State) (k : Nat) : State :=
  match s.packet? k with
  | some p => match packetEvent k p with
    | .inl e => if s.agenda.contains e then s else { s with agenda := s.agenda ++ [e] }
    | .inr sub => s.packetFault k p sub 0
  | none => s

/-- A queue engine has read a descriptor, and the slot at READ where it can be served: a packet that stands there is to be
served, and a reserved bit of the descriptor writes an error record (R304, R306). -/
def readSlot (s : State) (k : Nat) (g : Ring) (slot : Bool) : State :=
  let d := s.ringDesc g.ref
  let s := (s.updRing k fun g => { g with crossed := [] }).ringHeat g.ref g.ref.addr 128
  if d.reserved then s.errorRecord d.die 0 0 2 7 0xFFFF g.ref.addr 0xFFFF
  else if !slot then s
  else
    let s := s.ringHeat g.ref (slotAddr d g) 64
    let s1 := s.updRing k fun g => { g with seen := true }
    if (s1.packet? k).isSome then s1.planPacket k else s

/-- A queue engine examines the slot at READ (R306): it reads the descriptor and the slot, once no page of theirs is under
migration and every link on the way has been crossed, or goes on with the packet that it has read. A descriptor whose page
does not translate is looked at again when the ring is next examined, and the queue engine of a die in reset reads nothing
(R422). -/
def examine (s : State) (k : Nat) : State :=
  match s.rings.find? k with
  | none => s
  | some g =>
    let s := s.updRing k fun g => { g with polled := s.clk, asked := false }
    let d := s.ringDesc g.ref
    let a := slotAddr d g
    let slot := !d.reserved && !d.stop && s.ringReach g.ref a
    if g.held != [] || !(s.die d.die).booted then s
    else if g.seen then s.planPacket k
    else if !s.ringReach g.ref g.ref.addr then s
    else if s.ringMoves g.ref g.ref.addr || (slot && s.ringMoves g.ref a) then s.updRing k fun g => { g with asked := true }
    else s.crossThen k (s.ringLinks g.ref g.ref.addr 128 ++ (if slot then s.ringLinks g.ref a 64 else [])) fun s =>
      s.readSlot k g slot

/-! Completion of a launch. -/

/-- Whether a page of the output of a launch, which capture or a re-run reads as the launch completes, is under migration
(R203, R430). -/
def outputMoves (s : State) (l : Launch) : Bool :=
  match s.jobs.find? l.part with
  | none => false
  | some j => (j.capture.isSome || j.rerun != []) && ((j.outputs.get [] l.record).take 16).any fun (va, n) =>
      (pagesOf va n).any fun a => s.migrating (gaOf l.part a)

/-- A launch is complete: the completion signal rises by 1, or by 1 + 2^63 after a kill; its pledge ends, and its packet
completes (R316, R410, R436). -/
def completeLaunch (s : State) (id : Nat) : State :=
  match s.launches.find? id with
  | none => s
  | some l =>
    let ga := gaOf l.part l.signal
    let s :=
      if l.signal = 0 || l.gone.contains (ga / 65536) then s
      else
        let x := loadNat (s.homeLoad ga 8) + 1 + (if l.killed then 2 ^ 63 else 0)
        s.qeStore l.die ga (bytesOf 8 (BitVec.ofNat 64 x))
    let s := (s.endPledges l.signalPledge).updRegion l.region fun r => { r with queue := r.queue.filter (· != id) }
    let s := s.captureLaunch id l
    let s : State := { s with launches := s.launches.erase id }
    s.packetDone l.ring l.packet

end State

/-- A write to a ring's doorbell: the slot at READ is examined; with bit 63 the ring resumes first (R306). -/
def execRingDoorbell (ring : Nat) (value : DWord) (s : State) : Res :=
  .next ((if value.getLsbD 63 then s.resumeRing ring else s).examine ring)

/-- The doorbell resume: STOP is cleared and the packet is read again from the start (R306, R313). -/
def execDoorbellResume (ring : Nat) (s : State) : Res := .next ((s.resumeRing ring).examine ring)

/-- The examination of an unstopped ring (R306). -/
def execRingPoll (ring : Nat) (s : State) : Res := .next (s.examine ring)

/-- The held bookkeeping writes of a device ring are tried again (R436). -/
def execBookkeepingWriteRetry (ring : Nat) (s : State) : Res :=
  match s.rings.find? ring with
  | some g => .next (((s.updRing ring fun g => { g with held := [] }).bookkeep ring g.held).askPoll ring)
  | none => .next s

end Sys2Proof.Machine
end

