-- ==== Sys2Proof/Machine/Work.lean ====
section
/-!
DEFINITION. Units of work as the dispatcher and the queue engine see them: effective region values (12 R286), budgets'
paths (12 R287), what a code object's workgroup needs (01 R24, 02 R36, 08 R175, 19 R395, R396), and the save array of a
launch (12 R295).
-/

namespace Sys2Proof.Machine

namespace State

/-- The region whose own field gives a region its effective value of the item of a bit of INH (R286). -/
def effFrom (s : State) (bit : Nat) : Nat → Nat → Nat
  | 0, r => r
  | n + 1, r =>
    let g := s.region r
    if g.inh.getLsbD bit then match g.parentKey (r / 65536) with
      | some p => s.effFrom bit n p
      | none => r
    else r

/-- The same; a region lies at most 8 levels deep (R285). -/
def effective (s : State) (bit r : Nat) : Region := s.region (s.effFrom bit 9 r)

/-- A region and its ancestors. -/
def lineage (s : State) : Nat → Nat → List Nat
  | 0, r => [r]
  | n + 1, r => match (s.region r).parentKey (r / 65536) with
    | some p => r :: s.lineage n p
    | none => [r]

end State

end Sys2Proof.Machine

namespace Sys2Proof

open Sys2Proof.Machine

/-- The whole scratchpad allocation, guard granules included (R24). -/
def CodeHdr.alloc (h : CodeHdr) : Nat := alignUp h.spad 64 + 128 * h.guard
/-- Whole bands that the allocation takes (R175). -/
def CodeHdr.bands (h : CodeHdr) : Nat := (h.alloc + 16383) / 16384
/-- The roles of the teams in TEAMID order (R38). -/
def CodeHdr.teamRoles (h : CodeHdr) : List RoleDecl := h.roles.flatMap fun r => List.replicate r.teams r
/-- Registers that a team of a budget takes of its pipe (R36). -/
def teamRegs (v : Nat) : Nat := (v + 7) / 8 * 8

end Sys2Proof

namespace Sys2Proof.Machine

/-- Bytes of the full/empty bits of an allocation (R184, R395). -/
def fullBytes (alloc : Nat) : Nat := (alloc / 16 + 7) / 8

/-- The size of a workgroup's save record (R395). -/
def recordSize (roles : List RoleDecl) (alloc obuf : Nat) : Nat :=
  16384 + (roles.map fun r => slotSize r.vregs).foldl (· + ·) 0 + alignUp alloc 4096 + alignUp (fullBytes alloc) 4096
    + 4096 * obuf

/-- Bytes of a save array: a header of 64 and 16 a slot (R295). -/
def saveArrBytes (slots : Nat) : Nat := 64 + 16 * slots

namespace State

/-- A strong store by hardware into pageable memory, which settles, but for the bytes of some pages (R210, R212, R295). -/
def hwPut (s : State) (gone : List Nat) (die ga : Nat) (bs : List Byte) : State :=
  (splitLines ga bs).foldl (fun s (line, off, b) =>
    if gone.contains (line / 512) then s else s.qeStore die (128 * line + off) b) s

/-- The save array is written: header and slots (R295). The launch's pledge covers it (R207; log 34). -/
def writeSaveArr (s : State) (id : Nat) : State :=
  match s.launches.find? id with
  | none => s
  | some l =>
    let word := fun (x : Nat) => bytesOf 8 (BitVec.ofNat 64 x)
    let head := word l.tiles ++ word l.retired ++ bytesOf 4 (BitVec.ofNat 32 l.lid) ++ bytesOf 4 (BitVec.ofNat 32 l.slots)
      ++ List.replicate 40 0
    let slots := (List.range l.slots).flatMap fun j =>
      let w := l.walkers.get { next := 0, stop := 0 } j
      word w.next ++ word w.stop
    s.hwPut l.gone l.die (gaOf l.part l.saveArr) (head ++ slots)

/-- Why the write of a launch's save array waits at the homes (R245, R252, R295). -/
def saveArrWait (s : State) (id : Nat) : Option State :=
  match s.launches.find? id with
  | some l => s.homeWait l.die (gaOf l.part l.saveArr) (saveArrBytes l.slots)
  | none => none

/-- Whether a launch has issued all its work and no gang of it is left (R290, R316, R410). -/
def launchOver (s : State) (id : Nat) : Bool :=
  match s.launches.find? id with
  | none => false
  | some l =>
    !(s.gangs.any fun (_, g) => g.launch == id) &&
      (if l.persist = 0 then l.walkers.all fun (_, w) => w.killed || decide (w.stop ≤ w.next)
       else decide (l.persist ≤ l.persistPlaced))

end State

end Sys2Proof.Machine
end

