-- ==== Sys2Proof/Machine/Queues.lean ====
section
/-!
DEFINITION. The packets of rings and queues (13 R306-R316, R436; 12 R288-R291).
-/

namespace Sys2Proof.Machine

namespace Pkt

/-- Address and part of the packet's 8-byte operand word at an offset. -/
def word (p : Pkt) (off : Nat) : Nat := p.n off 8

end Pkt

/-- Nothing beyond the checks of every packet. -/
def noCheck (_ : Pkt) : Option Nat := none

/-- Sub-cause 4 of an address that is not aligned (R313). -/
def aligned (off n : Nat) (p : Pkt) : Option Nat := if p.word off % n != 0 then some 4 else none

/-- `nop` (R312) -/
def execNopPacket (ring : Nat) (s : State) : Res :=
  .next (s.servePacket ring 1 [] false noCheck fun p => s.consume ring p true)

/-- `fence` (R312): it completes when every earlier packet of the ring has completed. -/
def execFencePacket (ring : Nat) (s : State) : Res :=
  .next (s.servePacket ring 7 [] true noCheck fun p => s.consume ring p true)

/-- `link` (R309, R310): consumption goes on in the next segment, and the drained one goes to the free list. -/
def execLinkPacket (ring : Nat) (s : State) : Res :=
  .next (s.servePacket ring 8 [(8, 8)] false
    (fun p => if !p.d.growing || p.word 8 % 65536 != 0 then some 4 else none) fun p =>
      let g := s.ring ring
      let drained := g.seg.getD p.d.base
      let s := s.consume ring p true
      let s := s.updRing ring fun g => { g with seg := some (p.word 8), slot := 0 }
      if p.d.freeWr - p.d.freeRd = 2 ^ p.d.freeLog then
        s.bookkeep ring [(g.ref.addr + 64, bytesOf 8 (BitVec.ofNat 64 (p.d.dropped + 1)))]
      else
        s.bookkeep ring [(p.d.freeBase + 8 * (p.d.freeWr % 2 ^ p.d.freeLog), bytesOf 8 (BitVec.ofNat 64 drained)),
          (g.ref.addr + 56, bytesOf 8 (BitVec.ofNat 64 (p.d.freeWr + 1)))])

/-! wait-value. -/

/-- Whether the condition of a wait-value packet holds of a memory word (R312). -/
def Pkt.waitHolds (p : Pkt) (x : Nat) : Bool :=
  let a : DWord := BitVec.ofNat 64 x &&& BitVec.ofNat 64 (p.word 24)
  let b : DWord := BitVec.ofNat 64 (p.word 16) &&& BitVec.ofNat 64 (p.word 24)
  match p.n 32 1 with
  | 0 => a == b
  | 1 => a != b
  | 2 => decide (b ≤ a)
  | 3 => decide (a < b)
  | 4 => decide (b.toInt ≤ a.toInt)
  | _ => decide (a.toInt < b.toInt)

/-- The checks of a wait-value packet before its load (R313). -/
def waitCheck (p : Pkt) : Option Nat := if p.n 32 1 > 5 then some 1 else aligned 8 8 p

/-- The body bytes of a wait-value packet. -/
def waitBody : List (Nat × Nat) := [(8, 25), (36, 4)]

/-- The strong load of a wait-value packet: it consumes the packet where the condition holds, and `els` follows where it does
not. It waits for a page under migration and for a slot of each link on its way (R203, R299, R312, R313). -/
def State.waitRead (s : State) (ring : Nat) (p : Pkt) (els : State → State) : State :=
  let part := s.ringPart ring
  let ga := gaOf part (p.word 8)
  s.crossThen ring (s.pathLinks p.d.die part (p.word 8) 8 true) fun s =>
    match s.readFault part (p.word 8) 8 with
    | some x => s.walkFault ring p x
    | none =>
      if s.migrating ga then s.awaits ring
      else
        let s := (s.updRing ring fun g => { g with crossed := [] }).hwHeat ga 8
        if p.waitHolds (loadNat (s.homeLoad ga 8)) then s.consume ring p true else els s

/-- `wait-value` (R312, R315): consumed once its condition holds at a strong load; its timeout runs from its first
examination here. -/
def execWaitValuePacket (ring : Nat) (s : State) : Res :=
  .next (s.servePacket ring 3 waitBody false waitCheck fun p =>
    let s := s.updRing ring fun g => { g with waitFrom := some (g.waitFrom.getD s.clk) }
    s.waitRead ring p fun s => s)

/-- The timeout of a wait-value packet ends: its word is read once more, and where the condition does not hold the packet
faults (R315). -/
def execWaitValueTimeout (ring : Nat) (s : State) : Res :=
  .next (s.servePacket ring 3 waitBody false waitCheck fun p =>
    match (s.ring ring).waitFrom with
    | some t =>
      if p.n 36 4 ≠ 0 ∧ t.toNat + 2000 * p.n 36 4 ≤ s.clk.toNat then s.waitRead ring p fun s => s.packetFault ring p 10 0
      else s
    | none => s)

/-! signal and timestamp. -/

namespace State

/-- One 8-byte write of a signal or timestamp packet: translation, then the pledge, then the write at the home, where it may
have to wait (R252, R313, R436). -/
def packetWrite (s : State) (ring : Nat) (p : Pkt) (va : Nat) (x : Nat → Nat) : State :=
  let part := s.ringPart ring
  let ga := gaOf part va
  s.crossThen ring (s.pathLinks p.d.die part va 8 false) fun s =>
    match s.translateNow part none va true false with
    | some sub => s.walkFault ring p (sub, va)
    | none => match s.uncovered (blocksOf ga 8) with
      | some (_, need, _) => s.packetFault ring p 7 need
      | none =>
        match s.qeWrite p.d.die ga (bytesOf 8 (BitVec.ofNat 64 (x (loadNat (s.homeLoad ga 8))))) with
          | (true, s) => s.consume ring p true
          | (false, s) => s.awaits ring

end State

/-- `signal` (R312) -/
def execSignalPacket (ring : Nat) (s : State) : Res :=
  .next (s.servePacket ring 4 [(8, 17)] true
    (fun p => if p.n 24 1 > 1 then some 1 else aligned 8 8 p) fun p =>
      s.packetWrite ring p (p.word 8) fun old => if p.n 24 1 = 0 then p.word 16 else old + p.word 16)

/-- `timestamp` (R312) -/
def execTimestampPacket (ring : Nat) (s : State) : Res :=
  .next (s.servePacket ring 9 [(8, 8)] true (aligned 8 8) fun p =>
    s.packetWrite ring p (p.word 8) fun _ => s.clk.toNat)

/-! copy. -/

/-- Takes the k-th chunk out of runs of chunks. -/
def takeChunk : List (Nat × Nat) → Nat → Option (Nat × List (Nat × Nat))
  | [], _ => none
  | (lo, n) :: rs, k =>
    if k < n then
      some (lo + k, (if k = 0 then [] else [(lo, k)]) ++ (if k + 1 = n then [] else [(lo + k + 1, n - k - 1)]) ++ rs)
    else (takeChunk rs (k - n)).map fun (c, rest) => (c, (lo, n) :: rest)

namespace State

/-- A copy packet whose next transfer waits for a slot of a link: since when stands as long as it waits there (R299,
R300). -/
def copyWaits (c : QCopy) (link now : Nat) : QCopy :=
  { c with wait := some (link, match c.wait with | some (l, t) => if l = link then t else now | none => now) }

/-- A copy packet's signal is performed once its last chunk has landed, and it completes (R312). -/
def copyDone (s : State) (ring : Nat) (c : QCopy) : State :=
  let die := (s.ringDesc (s.ring ring).ref).die
  let ga := gaOf (s.ringPart ring) c.signal
  match if c.signal = 0 then none else s.homeWait die ga 8 with
  | some s => s
  | none =>
    let s := if c.signal = 0 || c.gone.contains (ga / 65536) then s
      else s.qeStore die ga (bytesOf 8 (BitVec.ofNat 64 (loadNat (s.homeLoad ga 8) + 1)))
    let s := (s.endPledges c.pledged).updRing ring fun g => { g with copies := g.copies.filter fun x => x.index != c.index }
    s.packetDone ring c.index

/-- A copy packet reads the chunk for the block j of its destination: from host memory, or once no page is under
migration, its lines have directory entries and every link that they cross is in a slot of the partition (R203, R239,
R248, R299, R312). -/
def copyFetch (s : State) (ring : Nat) (c : QCopy) (j : Nat) (rest : List (Nat × Nat)) : QCopy × State :=
  let part := s.ringPart ring
  let die := (s.ringDesc (s.ring ring).ref).die
  let lo := max c.dst (512 * j)
  let n := min (c.dst + c.count) (512 * (j + 1)) - lo
  let src := c.src + (lo - c.dst)
  let c := { c with left := (j, 1) :: rest }
  let took := fun (bs : List Byte) => { c with left := rest, hand := some (j, bs), wait := none }
  if c.srcHost then (took (memReadBytes s.hostMem src n), s)
  else
    let runs := [(gaOf part src, n)]
    let lines := s.away die runs
    if lines.any fun l => s.migrating (128 * l) then (c, s)
    else match lines.findSome? s.entryWait with
    | some s => (c, s)
    | none => match s.shut part (s.legs die lines) with
      | some l => (copyWaits c l s.clk.toNat, s)
      | none =>
        let s := s.fetchRuns die runs
        (took (s.engineBytes die (gaOf part src) n), s)

/-- The chunk in hand lands: in host memory, or at the home, once its link is in a slot of the partition and nothing
makes the write wait there; with its block the pledge on it ends, and bytes of a page that was unmapped are discarded
(R203, R212, R252, R299, R312). -/
def copyLand (s : State) (ring : Nat) (c : QCopy) (j : Nat) (bs : List Byte) : QCopy × State :=
  let part := s.ringPart ring
  let die := (s.ringDesc (s.ring ring).ref).die
  let lo := max c.dst (512 * j)
  let done := { c with hand := none, wait := none }
  if c.dstHost then (done, { s with hostMem := memWriteBytes s.hostMem lo bs })
  else
    let ga := gaOf part lo
    let k := ga / 512
    if c.gone.contains (ga / 65536) then (done, s)
    else match s.shut part (s.legs die [ga / 128]) with
    | some l => (copyWaits c l s.clk.toNat, s)
    | none => match s.homeWait die ga bs.length with
      | some s => (c, s)
      | none =>
        let mine := c.pledged.contains k && !(c.signal ≠ 0 && (blocksOf (gaOf part c.signal) 8).contains k)
        let s := s.qeStore die ga bs
        let s := if mine then s.endPledges [k] else s
        ({ done with pledged := if mine then c.pledged.filter (· != k) else c.pledged }, s)

/-- A copy packet under way moves one of the chunks that are left, whichever comes first: the bytes of one 512-byte block of
its destination are read, and then they land (R312). -/
def copyChunk (s : State) (ring : Nat) (c : QCopy) : State :=
  let total := c.left.foldl (fun n x => n + x.2) 0
  let put := fun (r : QCopy × State) => r.2.updRing ring fun g =>
    { g with copies := g.copies.map fun x => if x.index = c.index then r.1 else x }
  match c.hand with
  | some (j, bs) => put (s.copyLand ring c j bs)
  | none =>
    if total = 0 then s.copyDone ring c
    else
      let (n, s) := s.draw
      match takeChunk c.left (if c.wait.isSome then 0 else n % total) with
      | none => s
      | some (j, rest) => put (s.copyFetch ring c j rest)

/-- A copy packet begins: translation, write tokens, then the pledge of its whole global destination and of its signal
(R207, R235, R312, R313, R436). -/
def copyBegin (s : State) (ring : Nat) (p : Pkt) : State :=
  let part := s.ringPart ring
  let src := p.word 8
  let dst := p.word 16
  let n := p.word 24
  let sig := p.word 40
  let srcHost := (p.n 32 1).testBit 0
  let dstHost := (p.n 32 1).testBit 1
  let writes := fun (va : Nat) => (s.translateNow part none va true false).map fun sub => (sub, va)
  let bad := ((if srcHost then none else s.readFault part src n).orElse fun _ =>
    if dstHost then none else (pagesOf dst n).findSome? writes).orElse fun _ => if sig = 0 then none else writes sig
  let guarded := !dstHost && s.regions.any fun (k, r) => k / 65536 == part && r.bindings.any fun (_, lo, len, _, g) =>
    g && decide (lo < dst + n) && decide (dst < lo + len)
  let ks := ((if dstHost then [] else blocksOf (gaOf part dst) n)
    ++ (if sig = 0 then [] else blocksOf (gaOf part sig) 8)).eraseDups
  let path := fun (va n : Nat) => s.pathLinks p.d.die part va n false
  let walks := (if srcHost then [] else path src n) ++ (if dstHost then [] else path dst n) ++ (if sig = 0 then [] else path sig 8)
  s.crossThen ring walks fun s =>
  match bad with
  | some x => s.walkFault ring p x
  | none =>
  if guarded then s.packetFault ring p 8 0
  else match s.uncovered ks with
    | some (_, need, _) => s.packetFault ring p 7 need
    | none =>
      let s := (s.pledgeCmd ks).consume ring p false
      let c : QCopy := { index := p.d.read, src := src, dst := dst, count := n, srcHost := srcHost, dstHost := dstHost,
                         signal := sig, left := [(dst / 512, (dst + n - 1) / 512 + 1 - dst / 512)], pledged := ks }
      s.updRing ring fun g => { g with copies := g.copies ++ [c] }

/-- The checks of a copy packet (R312, R313). -/
def copyCheck (p : Pkt) : Option Nat :=
  let flags := p.n 32 1
  if flags > 2 || p.word 24 = 0 || p.word 24 > 2 ^ 40 then some 1 else aligned 40 8 p

end State

/-- `copy` (R312): the packet at READ begins, or a copy under way goes on; which comes first is not fixed. -/
def execCopyPacket (ring : Nat) (s : State) : Res :=
  let begin_ := fun (s : State) => s.servePacket ring 5 [(8, 25), (40, 8)] false State.copyCheck fun p => s.copyBegin ring p
  let stands := match s.packet? ring with
    | some p => p.op == 5
    | none => false
  let copies := (s.ring ring).copies
  let (n, s1) := s.draw
  match copies[n % copies.length]? with
  | none => .next (begin_ s)
  | some c => if stands && n / 64 % 2 = 0 then .next (begin_ s1) else .next (s1.copyChunk ring c)

/-! launch. -/

namespace State

/-- The launch record's fields that make up a launch (R288, R289), its tile counts and tile total. -/
def launchDims (b : List Byte) (ndim : Nat) : List Nat :=
  (List.range ndim).map fun d =>
    let e := loadNat ((b.drop (32 + 4 * d)).take 4)
    let t := loadNat ((b.drop (48 + 2 * d)).take 2)
    (e + t - 1) / t

/-- Whether a launch is refused: R290's conditions, or a save record beyond the save area (R395). A launch whose code
object is not there is refused as well (log 6). -/
def launchRefused (s : State) (part : Nat) (b : List Byte) : Bool :=
  let f := fun (o n : Nat) => loadNat ((b.drop o).take n)
  let cw : DWord := BitVec.ofNat 64 (f 64 8)
  let nd := bitsOf cw 47 46 + 1
  let w := bitsOf cw 43 38 + 1
  let reg := part * 65536 + bitsOf cw 63 48
  let dims := (List.range 4)
  (b.drop 80).any (· != 0) || f 60 4 != 0 || bitsOf cw 31 0 != 0
    || dims.any (fun d => decide (nd ≤ d) && (f (32 + 4 * d) 4 != 0 || f (48 + 2 * d) 2 != 0))
    || dims.any (fun d => decide (d < nd) && f (48 + 2 * d) 2 == 0)
    || decide ((launchDims b nd).foldl (· * ·) 1 > 2 ^ 48)
    || decide (f 76 4 < w) || decide (f 76 4 > 4096)
    || !s.regions.has reg
    || (match s.codes.find? (gaOf part (f 0 8)) with
        | none => true
        | some h => decide (recordSize h.teamRoles h.alloc h.obuf + 4096 > (s.region reg).saveSize.toNat))

/-- The launch that a record describes (R288-R291). -/
def launchOf? (part die ring index id record : Nat) (b : List Byte) (pledged : List Nat) : Launch :=
  let f := fun (o n : Nat) => loadNat ((b.drop o).take n)
  let cw : DWord := BitVec.ofNat 64 (f 64 8)
  let nd := bitsOf cw 47 46 + 1
  let w := bitsOf cw 43 38 + 1
  let dims := launchDims b nd
  let t := dims.foldl (· * ·) 1
  { region := part * 65536 + bitsOf cw 63 48, part := part, die := die, lid := (Config.launchNumber id).toNat, record := record,
    code := f 0 8, karg := f 8 8, signal := f 16 8, saveArr := f 24 8,
    ext := (List.range nd).map fun d => f (32 + 4 * d) 4, tileShape := (List.range nd).map fun d => f (48 + 2 * d) 2,
    minsplit := f 56 4, ctrl := cw, persist := f 72 4, slots := f 76 4, dims := dims, tiles := t,
    walkers := (List.range w).map fun j => (j, { next := j * t / w, stop := (j + 1) * t / w }),
    order := id, ring := ring, packet := index, signalPledge := pledged }

/-- A launch packet begins (R290, R295, R316, R436), once its record has been read (R203, R299). A full dispatch queue
makes it wait (R303). The blocks of the save array are pledged with the signal's, where a region owns them, and both
pledges stand until the launch is complete (log 34). No rule says what a save array that is not 64-byte aligned does:
its address is used as it stands (DESIGN CHOICE, log 74). -/
def launchBegin (s : State) (ring : Nat) (p : Pkt) : State :=
  let part := s.ringPart ring
  let va := p.word 8
  s.crossThen ring (s.pathLinks p.d.die part va 128 true) fun s =>
  match s.readFault part va 128 with
  | some x => s.walkFault ring p x
  | none =>
  if s.migrating (gaOf part va) then s.awaits ring
  else
    let s := s.hwHeat (gaOf part va) 128
    let b := s.homeLoad (gaOf part va) 128
    if s.launchRefused part b then s.packetFault ring p 5 0
    else
      let sig := loadNat ((b.drop 16).take 8)
      let arr := gaOf part (loadNat ((b.drop 24).take 8))
      let size := saveArrBytes (loadNat ((b.drop 76).take 4))
      let ks := ((if sig = 0 then [] else blocksOf (gaOf part sig) 8) ++ blocksOf arr size).eraseDups
      match s.uncovered ks with
      | some (_, need, _) => s.packetFault ring p 7 need
      | none =>
        let (id, s1) := s.newId
        let (owned, rest) := ks.partition fun k => (s.ownerOf k).isSome
        let l := { launchOf? part p.d.die ring p.d.read id va b owned with
          gone := (rest.map (· / 128)).eraseDups
          capKey := (ring + 1, (s.jobs.get {} part).capCounts.get 0 ring) }
        let empty := l.tiles == 0
        let wait := (s.homeWait p.d.die arr size).orElse fun _ =>
          if empty && l.signal ≠ 0 then s.homeWait p.d.die (gaOf part l.signal) 8 else none
        if (s.region l.region).queue.length ≥ 4096 || (empty && s.outputMoves l) then s.awaits ring
        else match wait with
        | some s => s.awaits ring
        | none =>
          let s := (s1.pledgeCmd owned).consume ring p false
          let s : State := { s with launches := s.launches.put id l,
                                    jobs := s.jobs.updIf part fun j => { j with capCounts := j.capCounts.upd 0 ring (· + 1) } }
          let s := (s.updRegion l.region fun r => { r with queue := r.queue ++ [id] }).writeSaveArr id
          if empty then s.completeLaunch id else s

end State

/-- `launch` (R290, R312) -/
def execLaunchPacket (ring : Nat) (s : State) : Res :=
  .next (s.servePacket ring 2 [(8, 8)] false (aligned 8 128) fun p => s.launchBegin ring p)

end Sys2Proof.Machine
end

