-- ==== Sys2Proof/Machine/RegionOps.lean ====
section
/-!
DEFINITION. Region-operation packets, which firmware performs (13 R314; 12 R284-R287; 09 R201, R215; 16 R355; 18 R391).
-/

namespace Sys2Proof.Machine

namespace State

/-- Whether a run of a region's addresses lies in its global segment, on mapped pages that the region owns
(R355, R391; log 22). -/
def ownRange (s : State) (r va n : Nat) : Bool :=
  let g := s.region r
  decide (g.globBase.toNat ≤ va) && decide (va + n ≤ g.globBase.toNat + g.globLimit.toNat)
    && (pagesOf va n).all fun a => s.ownerOf (gaOf (r / 65536) a / 512) == some r

/-- Whether a region's available covers a rise of RSVH (R355, R391). -/
def covers (s : State) (r : Nat) (ks : List Nat) : Bool :=
  let n := s.pinCost ks
  n == 0 || decide ((n : Int) ≤ (s.region r).available)

/-- Sets a region's save area, whose blocks become raw; none where it is refused (R391). -/
def setSave (s : State) (r base size : Nat) : Option State :=
  let s1 := s.updRegion r fun g => { g with saveBase := BitVec.ofNat 64 base, saveSize := BitVec.ofNat 64 size }
  if base % 65536 ≠ 0 then none
  else if size = 0 then some s1
  else
    let ks := blocksOf (gaOf (r / 65536) base) size
    if size % 65536 = 0 ∧ s.ownRange r base size ∧ s.covers r ks then some (s1.pinRaw r ks) else none

/-- Sets a region's counters pointer: its block becomes raw and the counter block zero; none where it is refused (R355). -/
def setCounters (s : State) (r va : Nat) : Option State :=
  let s1 := s.updRegion r fun g => { g with counters := BitVec.ofNat 64 va, cbSeq := 0 }
  if va = 0 then some s1
  else
    let ga := gaOf (r / 65536) va
    if va % 256 = 0 ∧ s.ownRange r va 256 ∧ s.covers r [ga / 512] then
      some ((s1.pinRaw r [ga / 512]).qeStore (portDie (s.homePort (ga / 128))) ga (List.replicate 256 0))
    else none

/-- Writes one field of a region control block; none where the packet is refused: a reserved field or bit that is not
zero, a count, or a value that its rule forbids (R284-R286, R314, R355, R391). -/
def setField (s : State) (r off : Nat) (v : DWord) : Option State :=
  let put := fun (f : Region → Region) => some ((s.updRegion r f).reserve r id)
  let g := s.region r
  match off with
  | 0 =>
    let inh := v.extractLsb' 48 8
    if bitsOf v 39 0 ≠ 0 ∨ bitsOf v 63 60 > 8 ∨ inh.extractLsb' 6 2 ≠ 0 ∨ (g.level = 0 ∧ inh ≠ 0) then none
    else put fun g =>
      { g with prio := bitsOf v 59 56, inh := inh, kslot := bitsOf v 47 43, fpp := v.getLsbD 42, mhalf := v.getLsbD 41 }
  | 8 =>
    if bitsOf v 15 0 ≠ 0 then none
    else put fun g => { g with parent := bitsOf v 63 48, child := bitsOf v 47 32, sibling := bitsOf v 31 16 }
  | 16 => put fun g => { g with globBase := v }
  | 24 => put fun g => { g with globLimit := v }
  | 32 => put fun g => { g with handlerObj := v }
  | 40 => if bitsOf v 63 32 ≠ 0 then none else put fun g => { g with handlerPc := v.extractLsb' 0 32 }
  | 48 => s.setSave r v.toNat g.saveSize.toNat
  | 56 => s.setSave r g.saveBase.toNat v.toNat
  | 64 => if bitsOf v 23 0 ≠ 0 then none else put fun g => { g with budgets := v }
  | 72 => put fun g => { g with rsvmax := v }
  | 80 => put fun g => { g with energyBudget := v }
  | 88 => put fun g => { g with lowMark := v }
  | 128 => s.setCounters r v.toNat
  | 136 => put fun g => { g with queueAddr := v }
  | 144 => put fun g => { g with bindAddr := v }
  | _ => if 96 ≤ off ∧ off ≤ 120 then none else if v = 0 then some s else none

/-- The fields of a control-block image, in the order in which creation takes them: the save area last, as one. -/
def imageFields : List Nat := [0, 16, 24, 32, 40, 64, 72, 80, 88, 136, 144]

/-- Creates a region from a control-block image; none where it is refused (R284-R287, R314). Its links follow from its
parent. No rule lists the number 0xFFFF, a number that exists, or a parent that does not among what is refused (DESIGN
CHOICE, log 74). -/
def createRegion (s : State) (part n parent : Nat) (img : List Byte) : Option State :=
  let r := part * 65536 + n
  let word := fun (o : Nat) => (ofBytes 64 ((img.drop o).take 8) : DWord)
  let up := part * 65536 + parent
  let level := if parent = 0xFFFF then 0 else (s.region up).level + 1
  let stray := (img.drop 96).take 32 ++ (img.drop 152) ++ (img.drop 8).take 2
  if s.regions.has r || n = 0xFFFF || (parent ≠ 0xFFFF && !s.regions.has up) || level > 8 || stray.any (· != 0) then none
  else
    let g : Region := { level := level, parent := parent, sibling := if parent = 0xFFFF then 0xFFFF else (s.region up).child }
    let s : State := { s with regions := s.regions.put r g }
    let s := if parent = 0xFFFF then s else s.updRegion up fun g => { g with child := n }
    (imageFields.foldl (fun (acc : Option State) o => acc.bind fun s => s.setField r o (word o)) (some s)).bind fun s =>
      (s.setSave r (word 48).toNat (word 56).toNat).bind fun s => s.setCounters r (word 128).toNat

/-- Takes a region out of its parent's chain of children. -/
def unlinkRegion (s : State) (part n : Nat) : State :=
  let next := (s.region (part * 65536 + n)).sibling
  { s with regions := s.regions.map fun (k, g) =>
      if k / 65536 = part then
        (k, { g with child := if g.child = n then next else g.child,
                     sibling := if g.sibling = n then next else g.sibling })
      else (k, g) }

/-- Whether a region has children, resident workgroups or queued launches (R287). -/
def regionBusy (s : State) (r : Nat) : Bool :=
  s.regions.any (fun (k, g) => k != r && k / 65536 == r / 65536 && g.level != 0 && g.parent == r % 65536)
    || s.launches.any fun (_, l) => l.region == r

/-- Why a write of a region's save area or counters pointer waits: a page of the area is under migration, or the write of the
counter block waits at its home (R203, R252, R355, R391). -/
def fieldWait (s : State) (r off v : Nat) : Option State :=
  let g := s.region r
  let moving := fun (base size : Nat) => (pagesOf base size).any fun va => s.migrating (gaOf (r / 65536) va)
  match off with
  | 48 => if moving v g.saveSize.toNat then some s else none
  | 56 => if moving g.saveBase.toNat v then some s else none
  | 128 =>
    let ga := gaOf (r / 65536) v
    if v = 0 then none else s.homeWait (portDie (s.homePort (ga / 128))) ga 256
  | _ => none

/-- The same of a whole control-block image. -/
def imageWait (s : State) (r : Nat) (img : List Byte) : Option State :=
  let word := fun (o : Nat) => loadNat ((img.drop o).take 8)
  if (pagesOf (word 48) (word 56)).any fun va => s.migrating (gaOf (r / 65536) va) then some s
  else s.fieldWait r 128 (word 128)

/-- Serves a region-operation packet: PRIV, then the links that it crosses to read an image and what the operation waits for,
then the operation; where that is refused, packet-fault sub-cause 6 (R299, R313, R314). Firmware acknowledges at once
(log 10). -/
def regionOp (s : State) (ring code : Nat) (used : List (Nat × Nat)) (check : Pkt → Option Nat) (links : Pkt → List Nat)
    (wait : State → Pkt → Nat → Option State) (go : State → Pkt → Nat → Option State) : State :=
  match s.packet? ring with
  | none => s
  | some p =>
    if p.op = 6 && p.n 8 2 != code then s
    else s.servePacket ring 6 ((8, 4) :: used) false (fun p => if !p.d.priv then some 3 else check p) fun p =>
      let r := s.ringPart ring * 65536 + p.n 10 2
      s.crossThen ring (links p) fun s =>
        match wait s p r with
        | some s => s.awaits ring
        | none => match go s p r with
          | some s' => s'.consume ring p true
          | none => s.packetFault ring p 6 0

end State

/-- Creates a region (R314). -/
def execRegionCreate (ring : Nat) (s : State) : Res :=
  let part := s.ringPart ring
  .next (s.regionOp ring 0 [(12, 2), (16, 8)] noCheck (fun p => s.pathLinks p.d.die part (p.word 16) 256 true)
    (fun s p r => match s.readFault part (p.word 16) 256 with
      | some x => some (s.walkFault ring p x)
      | none =>
        if (pagesOf (p.word 16) 256).any fun a => s.migrating (gaOf part a) then some s
        else s.imageWait r (s.homeLoad (gaOf part (p.word 16)) 256))
    fun s p r => (s.hwHeat (gaOf part (p.word 16)) 256).createRegion (r / 65536) (r % 65536) (p.n 12 2)
      (s.homeLoad (gaOf part (p.word 16)) 256))

/-- Destroys a region without children or work (R287, R296, R314). Its grant goes with it, and the pages it owns stay
mapped with their records: a region made again under its number owns them, with counts that begin at 0 (DEDUCED, log
35). -/
def execRegionDestroy (ring : Nat) (s : State) : Res :=
  .next (s.regionOp ring 1 [] noCheck (fun _ => []) (fun _ _ _ => none) fun s _ r =>
    if !s.regions.has r || s.regionBusy r then none
    else
      let s := s.unlinkRegion (r / 65536) (r % 65536)
      some { s with regions := s.regions.erase r })

/-- Writes a field of a region control block (R284, R314). -/
def execRegionFieldWrite (ring : Nat) (s : State) : Res :=
  .next (s.regionOp ring 2 [(12, 2), (16, 8)] noCheck (fun _ => []) (fun s p r => s.fieldWait r (p.n 12 2) (p.word 16)) fun s p r =>
    if !s.regions.has r then none else s.setField r (p.n 12 2) (BitVec.ofNat 64 (p.word 16)))

namespace State

/-- The table that an entry names, by port and offset (R278). -/
def tableOf (e : DWord) : Nat := ptePort e * 2 ^ 38 + pteOff e / 16384 * 16384

/-- The lowest multiple of a size on a port, from an offset on, that no page record and no page table takes (log 23). -/
def freeMeta (s : State) (port lo size : Nat) : Nat :=
  let tables := (s.ptes.filter fun (_, e) => pteV e && !pteLeaf e).map fun (_, e) => tableOf e
  let used := s.pages.keys ++ s.ptes.keys ++ tables ++ s.parts.map fun (_, p) => tableOf p.ptRoot
  let free := fun (o : Nat) =>
    let key := port * 2 ^ 38 + o
    !(used.any fun k => decide (key ≤ k) && decide (k < key + size))
  ((List.range (used.length + 1)).find? fun i => free (lo + size * i)).map (fun i => lo + size * i) |>.getD lo

/-- The table that an entry points to, made where there is none: table keys from the root down to level 3 (R278, R280). -/
def needTable (s : State) (port va : Nat) : Nat → Nat → Nat → Nat × State
  | 0, _, table => (table, s)
  | fuel + 1, level, table =>
    if level ≥ 3 then (table, s)
    else
      let key := table + 8 * (va / 2 ^ (49 - 11 * level) % 2048)
      let e := s.ptes.get 0 key
      if pteV e then needTable s port va fuel (level + 1) (tableOf e)
      else
        let off := s.freeMeta port (2 ^ 37) 16384
        let e : DWord := setBits (setBits (setBits 0 63 63 1) 56 51 port) 37 7 (off / 128)
        needTable { s with ptes := s.ptes.put key e } port va fuel (level + 1) (port * 2 ^ 38 + off)

/-- Maps one 64 KiB page for a region: a leaf and a page record of constant-zero blocks (R193, R198, R201). -/
def mapPage (s : State) (r va port : Nat) : State :=
  let part := r / 65536
  let root := (s.part part).ptRoot
  let kslot := (s.effective 2 r).kslot
  let old := (s.pages.filter fun (_, x) => x.part == part && x.page == va / 65536).map (·.1)
  let s : State := { s with pages := s.pages.filter fun (k, _) => !old.contains k }
  let off := s.freeMeta port 0 1152
  let (table, s) := s.needTable port va 4 0 (tableOf root)
  let leaf : DWord := setBits (setBits (setBits (setBits 0 63 60 15) 56 51 port) 49 45 kslot) 37 7 (off / 128)
  let word : DWord := setBits (setBits (setBits (setBits 0 63 48 (r % 65536)) 47 42 port) 41 41 (if port ≥ 32 then 1 else 0))
    35 31 kslot
  { s with mem := s.mem.filter fun (a, _) => !(decide (gaOf part (va / 65536 * 65536) ≤ a) && decide (a < gaOf part (va / 65536 * 65536) + 65536))
           ptes := s.ptes.put (table + 8 * (va / 65536 % 2048)) leaf
           pages := s.pages.put (port * 2 ^ 38 + off) { part := part, page := va / 65536, word := word } }

/-- Mapped pages of a partition. -/
def mappedPages (s : State) (part : Nat) : Nat := (s.pages.filter fun (_, x) => x.part == part && !x.surr).length

/-- The pages that a partition may map (R201). -/
def mappable (s : State) (part : Nat) : Nat :=
  let p := s.part part
  p.expansion * (p.ports.map portSectors).foldl (· + ·) 0 / 1024

end State

/-- Maps pages for a region, which owns them (R201, R314). -/
def execMapPages (ring : Nat) (s : State) : Res :=
  .next (s.regionOp ring 3 [(16, 8), (24, 4), (28, 1)] (aligned 16 65536) (fun _ => []) (fun _ _ _ => none) fun s p r =>
    let part := r / 65536
    let va := p.word 16
    let n := p.n 24 4
    let port := p.n 28 1
    let vas := (List.range n).map fun i => va + 65536 * i
    let mapped := fun (a : Nat) => match s.walk part a with | .leaf _ _ _ => true | .fault _ _ => false
    if !s.regions.has r || !(s.part part).ports.contains port || (port ≥ 32 && !Config.boardPresent)
        || decide (va + 65536 * n > 2 ^ 60) || vas.any mapped
        || decide (s.mappedPages part + n > s.mappable part) then none
    else some (vas.foldl (fun s a => s.mapPage r a port) s))

/-- Unmaps a region's pages; their bytes are discarded as `pgsurr` does (R215, R314). -/
def execUnmapPages (ring : Nat) (s : State) : Res :=
  .next (s.regionOp ring 4 [(16, 8), (24, 4)] (aligned 16 65536) (fun _ => []) (fun s p r =>
      if (List.range (p.n 24 4)).any fun i => s.migrating (gaOf (r / 65536) (p.word 16 + 65536 * i)) then some s else none) fun s p r =>
    let part := r / 65536
    let vas := (List.range (p.n 24 4)).map fun i => p.word 16 + 65536 * i
    let bad := fun (a : Nat) => s.ownerOf (gaOf part a / 512) != some r || s.hardwarePage r a
    if !s.regions.has r || vas.any bad then none
    else some (vas.foldl (fun s a => match s.pageAt (gaOf part a) with
      | some (key, _) => (s.surrenderPage key).2
      | none => s) s))

/-- Grants sectors to a root region (R205, R314). -/
def execGrantSectors (ring : Nat) (s : State) : Res :=
  .next (s.regionOp ring 5 [(16, 8)] noCheck (fun _ => []) (fun _ _ _ => none) fun s p r =>
    if !s.regions.has r || (s.region r).level != 0 then none
    else some (s.reserve r fun g => { g with rsvg := g.rsvg + p.word 16 }))

end Sys2Proof.Machine
end

