-- ==== Sys2Proof/Machine/Placement.lean ====
section
/-!
DEFINITION. The dispatchers of the dies (02 R34-R38, R50-R53; 08 R170, R175, R191, R192; 12 R286, R287, R293; 13 R317; 15
R347; 19 R395): where a gang fits, which gang is placed next on a core, and what a workgroup starts with (03 R62, R66).
-/

namespace Sys2Proof.Machine

/-- What one workgroup of a gang needs of a core: the budgets of its teams, allocation, granules, and whether it takes a
matrix unit or half (R35, R53). -/
structure Needs where
  region : Nat
  vregs : List Nat
  alloc : Nat
  obuf : Nat
  matrix : Bool
  half : Bool
  /-- Record indices that must be free (R187). -/
  recs : List Nat := []
  /-- Commands that enter the copy queue and the matrix queue anew, for which there must be room (R50, R303, R318). -/
  copies : Nat := 0
  mats : Nat := 0
  /-- An `mma` that has enqueued some of its operations only (R49). -/
  begun : Bool := false
deriving DecidableEq, Repr

/-- The place that a workgroup takes on a core: pipe and slot of each team, band base, first granule, matrix hold. -/
structure Seat where
  core : Nat
  pipes : List (Nat × Nat)
  spad : Nat
  obuf : Nat
  matrix : MatrixHold
deriving DecidableEq, Repr

/-- The gang that a launch would place on a core next: a gang that waits for its restore, a persistent gang, or the next
index of a walker (R317, R347). -/
inductive Pick where
  | restore (gang : Nat)
  | persistent
  | tile (slot : Nat)
deriving DecidableEq, Repr

/-- The pipe with the most free registers, the lower on a tie, among those with room and a free slot (R37). -/
def bestPipe (ps : List (Nat × List Nat)) (need : Nat) : Option Nat :=
  (ps.zipIdx.foldl (fun (b : Option (Nat × Nat)) ((free, slots), i) =>
    if free < need ∨ slots = [] then b
    else match b with
      | some (f, _) => if f < free then some (free, i) else b
      | none => some (free, i)) none).map (·.2)

/-- Seats teams one after another (R37): `ps` holds each pipe's free registers and free slots. -/
def seatTeams : List Nat → List (Nat × List Nat) → Option (List (Nat × Nat))
  | [], _ => some []
  | v :: vs, ps =>
    match bestPipe ps (teamRegs v) with
    | none => none
    | some i =>
      let (free, slots) := ps.getD i (0, [])
      (seatTeams vs (ps.set i (free - teamRegs v, slots.drop 1))).map ((i, slots.headD 0) :: ·)

/-- The lowest run of `n` units, of `total`, that meets no taken run. -/
def lowestRun (taken : List (Nat × Nat)) (total n : Nat) : Option Nat :=
  (List.range (total + 1 - n)).find? fun b => !(taken.any fun (lo, k) => decide (b < lo + k) && decide (lo < b + n))

namespace State

/-- The workgroups that hold resources of a core. -/
def onCore (s : State) (core : Nat) : List Wg :=
  (s.wgs.filter fun (_, w) => w.resident && !w.ended && w.core == core).map (·.2)

/-- The region of a workgroup's record. -/
def wgRegion (s : State) (w : Wg) : Nat :=
  match s.gangs.find? w.gang with
  | some g => ((s.launches.find? g.launch).map (·.region)).getD (65536 * fwPart)
  | none => 65536 * fwPart

/-- Free registers and free slots of each pipe of a core (R36, R37). -/
def pipesOf (s : State) (core : Nat) : List (Nat × List Nat) :=
  (List.range 4).map fun p =>
    let ts := s.teams.filter fun (_, t) => t.resident && t.core == core && t.pipe == p
    (1024 - ts.foldl (fun n (_, t) => n + teamRegs t.vregs) 0,
     (List.range 16).filter fun k => !(ts.any fun (_, t) => t.slot == k))

/-- The matrix unit or half that a workgroup gets (R51, R53); none where it must wait. -/
def seatMatrix (s : State) (core : Nat) (n : Needs) : Option MatrixHold :=
  if !n.matrix then some .none
  else
    let hs := (s.onCore core).filter fun w => w.matrix != .none
    if n.half then
      if hs.any fun w => w.matrix == .whole || s.wgRegion w == n.region then none
      else if !(hs.any fun w => w.matrix == .half 0) then some (.half 0)
      else if !(hs.any fun w => w.matrix == .half 1) then some (.half 1)
      else none
    else if hs.any fun w => w.matrix != .whole || s.wgRegion w != n.region then none
    else some .whole

/-- Whether the engine queues of a core have room for a restored workgroup's unstarted commands, between which and the
rest of an `mma` no other operation enters (R49, R50, R303, R318; log 31). -/
def queueRoom (s : State) (core : Nat) (n : Needs) (m : MatrixHold) : Bool :=
  let c := s.core core
  decide (c.copyQ.length + n.copies ≤ 32)
    && decide ((match m with | .half 1 => c.matrix.q1 | _ => c.matrix.q0).length + n.mats ≤ 8)
    && ((n.mats == 0 && !n.begun) || !s.mmaOpen core m)

/-- Where a workgroup fits on a core (R30, R31, R35, R175, R187). -/
def seat (s : State) (part core : Nat) (n : Needs) : Option Seat :=
  let ws := s.onCore core
  if core % 48 = 0 || !(s.part part).clusters.contains (coreRq core) then none
  else if n.recs.any fun i => (s.core core).recs.has i then none
  else
    (seatTeams n.vregs (s.pipesOf core)).bind fun ps =>
    (lowestRun (ws.map fun w => (w.spadBase / 16384, (w.spadSize + 16383) / 16384)) 32 ((n.alloc + 16383) / 16384)).bind fun b =>
    (lowestRun (ws.map fun w => (w.obufFirst, w.obufCount)) 64 n.obuf).bind fun o =>
    ((s.seatMatrix core n).filter (s.queueRoom core n)).map fun m =>
      { core := core, pipes := ps, spad := 16384 * b, obuf := o, matrix := m }

/-- Whether every budget on a region's path has room for some workgroups (R287). -/
def budgetOk (s : State) (ns : List Needs) : Bool :=
  match ns with
  | [] => true
  | n :: _ =>
    let k := ns.length
    let bands := (ns.map fun n => (n.alloc + 16383) / 16384).foldl (· + ·) 0
    let grans := (ns.map (·.obuf)).foldl (· + ·) 0
    let live := (s.wgs.filter fun (_, w) => w.resident && !w.ended).map (·.2)
    (s.lineage 9 n.region).all fun r =>
      let mine := live.filter fun w => (s.lineage 9 (s.wgRegion w)).contains r
      let b := (s.region r).budgets
      decide (mine.length + k ≤ bitsOf b 63 56)
        && decide ((mine.map fun w => (w.spadSize + 16383) / 16384).foldl (· + ·) 0 + bands ≤ bitsOf b 55 40)
        && decide ((mine.map fun w => w.obufCount).foldl (· + ·) 0 + grans ≤ bitsOf b 39 24)

/-- The lowest address at which a save record of a size fits, beside some records just taken (R395). -/
def freeRecord (s : State) (r size : Nat) (taken : List (Nat × Nat)) : Option Nat :=
  let g := s.region r
  let base := g.saveBase.toNat
  let held := taken ++ (s.wgs.filter fun (_, w) => !w.ended && s.wgRegion w == r).map fun (_, w) => (w.save, w.saveSize)
  ((List.range (g.saveSize.toNat / 4096)).map fun i => base + 4096 * (i + 1)).find? fun a =>
    decide (a + size ≤ base + g.saveSize.toNat)
      && !(held.any fun (lo, n) => decide (a < lo + n) && decide (lo < a + size))

/-- Save records for `k` workgroups of one size. -/
def freeRecords (s : State) (r size : Nat) : Nat → List (Nat × Nat) → Option (List Nat)
  | 0, _ => some []
  | k + 1, taken => (s.freeRecord r size taken).bind fun a => (s.freeRecords r size k ((a, size) :: taken)).map (a :: ·)

/-- What a workgroup of a launch needs, from its code object (R22, R35, R51, R53). -/
def needsNew (s : State) (l : Launch) (h : CodeHdr) : Needs :=
  { region := l.region, vregs := h.teamRoles.map (·.vregs), alloc := h.alloc, obuf := h.obuf, matrix := h.matrix,
    half := (s.effective 4 l.region).mhalf }

/-- What a saved workgroup needs (R187, R318, R407). -/
def needsOld (s : State) (w : Wg) : Needs :=
  { region := s.wgRegion w, vregs := w.teams.map fun t => (s.team t).vregs, alloc := w.spadSize, obuf := w.obufCount,
    matrix := w.matrix != .none, half := (match w.matrix with | .half _ => true | _ => false), recs := w.imgRecs.keys,
    copies := (w.imgCmds.filter fun c => !c.isMat).length, mats := (w.imgCmds.filter (·.isMat)).length
    begun := w.teams.any fun t => (s.team t).lanes.any fun (_, x) => match x.wait with | some (.mma _ _ _ _ _) => true | _ => false }

/-- What the workgroups of a pick need, by their place in the gang; an ended workgroup needs nothing. -/
def needsOf (s : State) (l : Launch) (p : Pick) : Option (List (Option Needs)) :=
  match p with
  | .restore g => (s.gangs.find? g).map fun g => g.wgs.map fun w => if (s.wg w).ended then none else some (s.needsOld (s.wg w))
  | _ => (s.codes.find? (gaOf l.part l.code)).map fun h => List.replicate l.gangSize (some (s.needsNew l h))

/-- The seats of a gang on consecutive cores of one cluster, budgets included (R34, R35, R287). -/
def seatGang (s : State) (part core : Nat) (ns : List (Option Needs)) : Option (List (Option Seat)) :=
  if core % 4 + ns.length > 4 || !s.budgetOk (ns.filterMap id) then none
  else ns.zipIdx.foldr (fun (n, i) (acc : Option (List (Option Seat))) =>
    acc.bind fun rest => match n with
      | none => some (none :: rest)
      | some n => (s.seat part (core + i) n).map fun x => some x :: rest) (some [])

/-- Whether a cluster holds no workgroup on its cores, nor waits for a gang that a checkpoint has halted and restores
in place; firmware on a core of its own is none (R30, R32, R192, R428). -/
def clusterEmpty (s : State) (rq : Nat) : Bool :=
  ((List.range 4).all fun i => (4 * rq + i) % 48 == 0 || (s.onCore (4 * rq + i)).isEmpty)
    && !(s.gangs.any fun (_, g) => g.cluster == rq && !g.resident && ((g.req.map (·.inPlace)).getD false))

/-- Whether a gang of a launch fits at a core, save records included; fusion aside. -/
def fits (s : State) (l : Launch) (p : Pick) (core : Nat) : Bool :=
  match s.needsOf l p with
  | none => false
  | some ns =>
    (s.seatGang l.part core ns).isSome && match p, s.codes.find? (gaOf l.part l.code) with
      | .restore _, _ => true
      | _, some h => (s.freeRecords l.region (recordSize h.teamRoles h.alloc h.obuf) l.gangSize []).isSome
      | _, none => false

/-- The cores of a launch's die, by number. -/
def dieCores (l : Launch) : List Nat := (List.range 48).map (48 * l.die + ·)

/-- Whether fusion lets a launch's gang run in a cluster (R191, R192): a fused cluster takes fusion-requesting launches
only; such a launch takes a cluster that is not fused only where no fused one can be provided. -/
def fusionOk (s : State) (l : Launch) (p : Pick) (core : Nat) : Bool :=
  let rq := coreRq core
  if (s.cluster rq).fused then l.fuse
  else !l.fuse || (dieCores l).all fun c =>
    let q := coreRq c
    !(q % 12 != 0 && ((s.cluster q).fused || s.clusterEmpty q) && s.fits l p c)

/-- The picks of a launch for a core, in the order in which they are tried: its pre-empted gangs go before its
unissued tiles, which the walkers go on to issue where none of those fits (R317, R295, R347). -/
def picks (s : State) (id : Nat) (l : Launch) (core : Nat) : List Pick :=
  let waiting := s.gangs.filter fun (_, g) => g.launch == id && !g.resident && g.retiring.isNone
    && !((g.req.map (·.inPlace)).getD false)
  let saved := (sortBy (fun (a b : Nat × Gang) => decide (a.2.placed < b.2.placed)) waiting).map fun (k, _) => Pick.restore k
  let fresh := if l.persist ≠ 0 then (if l.persistPlaced < l.persist then [Pick.persistent] else [])
    else match s.boundWalker id core with
      | some k => [Pick.tile k]
      | none =>
        match List.find? (fun (x : Nat × Walker) => x.2.core.isNone && !x.2.killed && decide (x.2.next < x.2.stop)) l.walkers with
        | some (k, _) => [Pick.tile k]
        | none => []
  saved ++ fresh

/-- The gang of a launch that would be placed on a core (R317). -/
def option (s : State) (id : Nat) (l : Launch) (core : Nat) : Option Pick :=
  (s.picks id l core).find? fun p => s.fits l p core && s.fusionOk l p core

/-- The cost of a heat class (R317, R351). -/
def heatCost (c : Nat) : Nat := match c with | 0 => 0 | 1 => 1 | 2 => 2 | _ => 4

/-- Whether the die's headroom admits a heat class; class 0 always (R317, R351). -/
def heatOk (s : State) (die c : Nat) : Bool :=
  c == 0 || decide ((heatCost c : Int) ≤ (s.die die).hcap.toNat - (s.die die).used)

/-- Whether a region's energy budget of this period is spent (R317, R352). -/
def energySpent (s : State) (r : Nat) : Bool :=
  let g := s.region r
  g.energyBudget != 0 && decide (g.energyBudget.toNat ≤ g.energy)

/-- Regions in round-robin order after the one that was served last (R317). -/
def roundRobin (rs : List Nat) (last : Nat) : List Nat :=
  let sorted := sortBy (fun (a b : Nat) => decide (a < b)) rs.eraseDups
  sorted.filter (decide <| last < ·) ++ sorted.filter (decide <| · ≤ last)

/-- The launches of the highest priority that have a gang which fits on a core, in the order in which a die's dispatcher
takes them (R317). Nothing of a job is placed while it halts for a checkpoint (R428). -/
def inTurn (s : State) (die core : Nat) : List (Nat × Launch × Pick) :=
  let all := s.launches.filterMap fun (id, l) =>
    if l.die = die ∧ !s.energySpent l.region ∧ !(s.jobs.get {} l.part).halting then (s.option id l core).map fun p => (id, l, p) else none
  let ordered := sortBy (fun (a b : Nat × Launch × Pick) => decide (a.2.1.order < b.2.1.order)) all
  let prio := fun (x : Nat × Launch × Pick) => (s.effective 0 x.2.1.region).prio
  let top := ordered.foldl (fun n x => max n (prio x)) 0
  let level := ordered.filter fun x => prio x == top
  let rs := roundRobin (level.map fun x => x.2.1.region) (s.die die).rrRegion
  rs.flatMap fun r => level.filter fun x => x.2.1.region == r

/-- The gang that a die's dispatcher places next on a core (R317): launch and pick. -/
def chosen (s : State) (die core : Nat) : Option (Nat × Pick) :=
  let inOrder := s.inTurn die core
  match inOrder with
  | [] => none
  | (id, l, p) :: _ =>
    if s.heatOk die l.heat then some (id, p)
    else (inOrder.find? fun x => decide (x.2.1.heat < l.heat) && s.heatOk die x.2.1.heat).map fun x => (x.1, x.2.2)

/-- The round-robin turn of a die passes to the region of a gang that was placed on a core, unless that gang took the place
of one passed over for its heat, which keeps its place (R317). `s` is the state in which it was chosen. -/
def passTurn (s s' : State) (die core id region : Nat) : State :=
  match s.inTurn die core with
  | (first, _, _) :: _ => if first = id then s'.updDie die fun d => { d with rrRegion := region } else s'
  | [] => s'

/-! What a workgroup starts with. -/

/-- The segment registers of a team at dispatch (R62); `clus` is the first byte of the allocation of WGID 0 in the cluster
scratchpad (log 24). -/
def startSegs (l : Launch) (r : Region) (h : CodeHdr) (seat : Seat) (clus size slotVa vregs : Nat) : Tbl Seg :=
  [(0, { base := r.globBase, limit := r.globLimit }),
   (1, { base := BitVec.ofNat 64 seat.spad, limit := BitVec.ofNat 64 size }),
   (2, { base := BitVec.ofNat 64 clus, limit := BitVec.ofNat 64 (l.gangSize * size) }),
   (3, { base := BitVec.ofNat 64 (4096 * seat.obuf), limit := BitVec.ofNat 64 (4096 * h.obuf) }),
   (4, { base := BitVec.ofNat 64 l.karg, limit := BitVec.ofNat 64 (alignUp h.kSize 128) }),
   (5, { base := BitVec.ofNat 64 slotVa, limit := BitVec.ofNat 64 (slotSize vregs) })]

/-- NOTICE.BALLOON and NOTICE.RSVLOW as the region stands (R68, R217). -/
def freshNotice (r : Region) : BitVec 32 :=
  (if bitsOf r.balloon 63 48 != 0 then 2 else 0) ||| (if r.available < (r.lowMark.toNat : Int) then 8 else 0)

/-- Cells of the whole bands that an allocation takes (R175). -/
def bandCells (alloc : Nat) : Nat := 16384 * ((alloc + 16383) / 16384)

/-- A workgroup takes its cells of the core's arrays, whole bands of the scratchpad, which are zeroed, and its matrix unit or
half (R50, R51, R170, R175, R184, R321, R349). -/
def takeCells (s : State) (x : Seat) (alloc obuf : Nat) : State :=
  let held := fun (m : MatrixHold) => (s.onCore x.core).any fun w => w.matrix == m
  let idle := !((s.onCore x.core).any fun w => w.matrix != .none)
  s.updCore x.core fun c =>
    { c with
      spad := c.spad.filter fun (a, _) => !(decide (x.spad ≤ a) && decide (a < x.spad + bandCells alloc))
      full := c.full.filter fun (g, _) => !(decide (x.spad / 16 ≤ g) && decide (g < (x.spad + bandCells alloc) / 16))
      obuf := c.obuf.filter fun (a, _) => !(decide (4096 * x.obuf ≤ a) && decide (a < 4096 * (x.obuf + obuf)))
      matrix := match x.matrix with
        | .none => c.matrix
        | .whole => if held .whole then c.matrix else { c.matrix with split := false, ops0 := 0, busy0 := 0 }
        | .half h =>
          let m := if idle then { c.matrix with split := true } else c.matrix
          if h = 1 then { m with ops1 := 0, busy1 := 0 } else { m with ops0 := 0, busy0 := 0 } }

/-- Places one workgroup of a gang (R37, R38, R62, R66, R286, R395). -/
def placeWg (s : State) (l : Launch) (h : CodeHdr) (gang wgid clus : Nat) (x : Seat) (save : Nat) : Nat × State :=
  let r := s.region l.region
  let eff := s.effective 1 l.region
  let (w, s) := s.newId
  let roles := h.teamRoles
  let s := s.takeCells x h.alloc h.obuf
  let (ts, _, s) := (roles.zip x.pipes).zipIdx.foldl (fun (acc : List Nat × Nat × State) ((d, pipe, slot), i) =>
    let (ts, va, s) := acc
    let (t, s) := s.newId
    let team : Team :=
      { wg := w, teamid := i, role := d.role, vregs := d.vregs, depth := d.depth, core := x.core, pipe := pipe,
        slot := slot, placed := s.cycle, slotVa := va, code := l.code, notice := freshNotice r,
        segs := startSegs l r h x clus h.alloc va d.vregs, lanes := allLanes.map fun k => (k, { pc := d.entry }) }
    (ts ++ [t], va + slotSize d.vregs, { s with teams := s.teams.put t team })) ([], save + 16384, s)
  let wg : Wg :=
    { gang := gang, wgid := wgid, core := x.core, teams := ts, spadBase := x.spad, spadSize := h.alloc,
      spadGuard := h.guard, obufFirst := x.obuf, obufCount := h.obuf, matrix := x.matrix, save := save,
      saveSize := recordSize roles h.alloc h.obuf, fpp := (s.effective 3 l.region).fpp,
      handlerObj := eff.handlerObj.toNat, handlerPc := eff.handlerPc, globBase := r.globBase, globLimit := r.globLimit,
      kargLimit := BitVec.ofNat 64 (alignUp h.kSize 128) }
  (w, { s with wgs := s.wgs.put w wg })

/-- Places a new gang whole (R34, R66, R291, R347, R351). -/
def placeGang (s : State) (id : Nat) (l : Launch) (p : Pick) (core : Nat) : State :=
  match s.codes.find? (gaOf l.part l.code), (s.needsOf l p).bind (s.seatGang l.part core) with
  | some h, some seats =>
    match s.freeRecords l.region (recordSize h.teamRoles h.alloc h.obuf) l.gangSize [] with
    | none => s
    | some saves =>
      let (g, s) := s.newId
      let gang : Gang := { launch := id, die := l.die, cluster := coreRq core, core := core, placed := g,
                           gangid := BitVec.ofNat 64 (2 ^ 63 + l.persistPlaced) }
      let s : State := { s with gangs := s.gangs.put g gang }
      let s := s.bindWalker id core
      let s := match p with
        | .tile _ => match (s.boundWalker id core).bind fun k => s.draw? id k with
          | some (i, s) => s.giveTile g i
          | none => s
        | _ => s.updLaunch id fun l => { l with persistPlaced := l.persistPlaced + 1 }
      let clus := match seats.filterMap fun x => x with | x :: _ => x.core % 4 * 2 ^ 19 + x.spad | [] => 0
      let (ws, s) := ((seats.filterMap fun x => x).zip saves).zipIdx.foldl (fun (acc : List Nat × State) ((x, save), i) =>
        let (w, s) := acc.2.placeWg l h g i clus x save
        (acc.1 ++ [w], s)) ([], s)
      let s := s.updGang g fun g => { g with wgs := ws }
      s.updDie l.die fun d => { d with used := d.used + heatCost l.heat }
  | _, _ => s

end State

/-- The dispatcher of a die places the next chosen gang whole on a core of a cluster (R317). -/
def execGangPlacement (die cluster core : Nat) (s : State) : Res :=
  let c := (die * 12 + cluster) * 4 + core
  if cluster ≥ 12 || core ≥ 4 then .next s
  else match s.chosen die c with
    | some (id, p) =>
      match p, s.launches.find? id with
      | .restore _, _ => .next s
      | p, some l => .next (s.passTurn (s.placeGang id l p c) die c id l.region)
      | _, none => .next s
    | none => .next s

/-- A dispatcher that finds no work for an idle user core splits a walker for it (R293): of several launches that qualify one
of the highest priority, then the oldest (DESIGN CHOICE, log 74). `core` counts on the die. -/
def execWalkerSplit (die core : Nat) (s : State) : Res :=
  let c := die * 48 + core
  if core ≥ 48 || (s.chosen die c).isSome then .next s
  else
    let able := s.launches.filter fun (id, l) => l.die == die && l.splitOk && l.persist == 0
      && (s.boundWalker id c).isNone && s.fits l (.tile 0) c && s.fusionOk l (.tile 0) c
    let before := fun (a b : Nat × Launch) =>
      let p := fun (x : Nat × Launch) => (s.effective 0 x.2.region).prio
      decide (p b < p a) || (p a == p b && decide (a.2.order < b.2.order))
    match (sortBy before able).findSome? fun (id, _) => s.split id c with
    | some s => .next s
    | none => .next s

/-- The dispatcher fuses or unfuses the L1s of an empty cluster (R191, R192): the dirty words leave first, and once they
have merged every line is invalidated and every hold of a sync line goes back. -/
def execL1FusionSwitch (die cluster : Nat) (fuse : Bool) (s : State) : Res :=
  let rq := die * 12 + cluster
  let cores := (List.range 4).map (4 * rq + ·)
  if cluster = 0 || cluster ≥ 12 || !s.clusterEmpty rq || (s.cluster rq).fused == fuse then .next s
  else
    let s := cores.foldl (fun s c => s.writeBackAll c) s
    if cores.all fun c => s.drained c s.nextId then
      let s := cores.foldl (fun s c => (s.core c).holds.foldl (fun s h => s.holdBack c h.1) s) s
      let s := cores.foldl (fun s c => s.updCore c fun c => { c with l1 := [] }) s
      .next (s.updCluster rq fun c => { c with fused := fuse })
    else .next s

end Sys2Proof.Machine
end

