-- ==== Sys2Proof/Machine/Preempt.lean ====
section
/-!
DEFINITION. The life of placed gangs: the pre-emption ladder (19 R406-R410), halt, save and restore (03 R73; 19 R395, R396,
R407), the end of workgroups with their exit records (14 R333; 17 R386; 19 R405), retirement (13 R316; 12 R294), and the
region counter block (16 R355, R356).
-/

namespace Sys2Proof.Machine

namespace State

def gang (s : State) (g : Nat) : Gang := s.gangs.get { launch := 0 } g

/-- A gang's cost leaves its die's heat account (R351). -/
def uncharge (s : State) (g : Nat) : State :=
  let x := s.gang g
  match s.launches.find? x.launch with
  | some l =>
    if x.charged then
      (s.updDie x.die fun d => { d with used := d.used - heatCost l.heat }).updGang g fun y => { y with charged := false }
    else s
  | none => s

/-! The counter block. -/

/-- The fields of a region counter block from offset 8 on (R355). -/
def counterFields (s : State) (r : Nat) : List Byte :=
  let g := s.region r
  let w := fun (x : Nat) => bytesOf 8 (BitVec.ofNat 64 x)
  w (s.clkSeen (r / 65536)).toNat ++ w g.issues ++ w g.teamCycles ++ w g.matOps ++ w g.matBusy ++ w g.bytesMoved ++ w g.capFaults
    ++ w g.pledgedTotal ++ w g.returnedTotal ++ w g.energy ++ w g.gangsRetired ++ w g.halts
    ++ ((List.range 4).flatMap fun d => bytesOf 2 (BitVec.ofInt 16 ((s.die d).hcap.toNat - (s.die d).used)))
    ++ ((List.range 4).flatMap fun d => bytesOf 2 (s.die d).margin)
    ++ w 0 ++ (List.range 16).flatMap fun k => w (g.reasons.get 0 k)

/-- Hardware's store into a counter block, from the die of its home (R231, R356). -/
def counterStore (s : State) (ga : Nat) (bs : List Byte) : State := s.qeStore (portDie (s.homePort (ga / 128))) ga bs

/-- Why an update of a region's counter block waits at the home (R252, R356). -/
def counterWait (s : State) (r : Nat) : Option State :=
  let g := s.region (s.effFrom 5 9 r)
  let ga := gaOf (r / 65536) g.counters.toNat
  if g.counters = 0 then none else s.homeWait (portDie (s.homePort (ga / 128))) ga 256

/-- An update of a region's counter block begins: SEQ becomes odd and the fields are written (R356); where the home makes it
wait it stays due (R252). -/
def startCounters (s : State) (r : Nat) : State :=
  let q := s.effFrom 5 9 r
  let g := s.region q
  if g.counters = 0 then s
  else match s.counterWait r with
  | some s => s.updRegion r fun g => { g with cbDue := true }
  | none =>
    let ga := gaOf (r / 65536) g.counters.toNat
    let seq := if g.cbSeq % 2 = 0 then g.cbSeq + 1 else g.cbSeq
    let s := (s.updRegion q fun g => { g with cbSeq := seq }).updRegion r fun g => { g with cbLast := s.clk, cbDue := false }
    (s.counterStore ga (bytesOf 8 (BitVec.ofNat 64 seq))).counterStore (ga + 8) (s.counterFields r)

/-- The update ends: SEQ becomes even (R356). -/
def endCounters (s : State) (r : Nat) : State :=
  let q := s.effFrom 5 9 r
  let g := s.region q
  if g.counters = 0 ∨ g.cbSeq % 2 = 0 then s
  else match s.counterWait r with
  | some s => s
  | none =>
    let s := s.updRegion q fun g => { g with cbSeq := g.cbSeq + 1 }
    s.counterStore (gaOf (r / 65536) g.counters.toNat) (bytesOf 8 (BitVec.ofNat 64 (g.cbSeq + 1)))

end State

/-- Hardware updates a region counter block, once a millisecond at least (R356): an update that is under way ends. -/
def execCounterBlockUpdate (region : Nat) (s : State) : Res :=
  let g := s.region (s.effFrom 5 9 region)
  if !s.regions.has region then .next s
  else if g.cbSeq % 2 = 1 then .next (s.endCounters region)
  else if (s.region region).cbDue || (s.region region).cbLast.toNat + 2000000 ≤ s.clk.toNat then .next (s.startCounters region)
  else .next s

/-! Requests. -/

namespace State

/-- The gangs whose resources a launch could be given, in the order in which they are asked: lowest effective priority
first, then the most recently placed or restored (R317). A gang that has been asked for another launch is one of them. -/
def askable (s : State) (die prio : Nat) : List Nat :=
  let pr := fun (g : Gang) => (s.effective 0 ((s.launches.find? g.launch).map (·.region) |>.getD 0)).prio
  let able := s.gangs.filter fun (_, g) => g.die == die && g.resident && !((g.req.map (·.inPlace)).getD false) && g.retiring.isNone
    && s.launches.has g.launch && decide (pr g < prio)
  (sortBy (fun (a b : Nat × Gang) =>
    decide (pr a.2 < pr b.2) || (pr a.2 == pr b.2 && decide (b.2.placed < a.2.placed))) able).map (·.1)

/-- The machine as it would be without some gangs' resources: their places, their commands in the engine queues, their
reservation records, and clusters that would be empty fused or not as a launch needs them (R192, R317, R318). -/
def without (s : State) (gs : List Nat) (fuse : Bool) : State :=
  let out := fun (w : Nat) => gs.contains (s.wg w).gang
  let s' : State := { s with
    wgs := s.wgs.map fun (k, w) => (k, if gs.contains w.gang then { w with resident := false } else w)
    teams := s.teams.map fun (k, t) => (k, if out t.wg then { t with resident := false } else t)
    cores := s.cores.map fun (k, c) => (k,
      { c with recs := c.recs.filter fun (_, r) => !out r.wg
               copyQ := c.copyQ.filter fun x => !out x.wg
               matrix := { c.matrix with q0 := c.matrix.q0.filter fun x => !out x.wg
                                         q1 := c.matrix.q1.filter fun x => !out x.wg } }) }
  { s' with clusters := s'.clusters.map fun (k, c) => (k, if s'.clusterEmpty k then { c with fused := fuse } else c) }

end State

/-- Sublists of a length, in the order of the list. -/
def combos {α : Type} : Nat → List α → List (List α)
  | 0, _ => [[]]
  | _ + 1, [] => []
  | n + 1, x :: xs => (combos n xs).map (x :: ·) ++ combos (n + 1) xs

namespace State

/-- Whether some pick of a launch fits on some core of its die. -/
def fitsSomewhere (s : State) (id : Nat) (l : Launch) : Bool :=
  (dieCores l).any fun c => (s.option id l c).isSome

/-- The first launch on a die, of the highest priority and then the oldest, that cannot be placed because gangs of
lower priority hold the resources, no request standing for it, and the fewest of them that would let it (R317). -/
def blocked (s : State) (die : Nat) : Option (Nat × List Nat) :=
  let prio := fun (l : Launch) => (s.effective 0 l.region).prio
  let waiting := s.launches.filter fun (id, l) => l.die == die && !s.energySpent l.region
    && (dieCores l).any (fun c => s.picks id l c != []) && !s.fitsSomewhere id l
    && !(s.gangs.any fun (_, g) => (g.req.bind (·.asker)) == some id)
  let inOrder := sortBy (fun (a b : Nat × Launch) =>
    decide (prio b.2 < prio a.2) || (prio a.2 == prio b.2 && decide (a.2.order < b.2.order))) waiting
  inOrder.findSome? fun (id, l) =>
    let able := s.askable die (prio l)
    ((List.range (able.length + 1)).findSome? fun k =>
      (combos k able).find? fun gs => (s.without gs l.fuse).fitsSomewhere id l).map fun gs => (id, gs)

end State

namespace State

/-- A soft request stands on a gang from now on, for a launch that asked, if one did: PREEMPT is set in its teams
(R68, R406). One that falls during a checkpoint is served by the checkpoint's halt, which never comes to a kill, and
the gang is restored where the dispatcher chooses (R428). -/
def postRequest (s : State) (asker : Option Nat) (gang : Nat) : State :=
  let g := s.gang gang
  let post := fun (r : PreReq) =>
    (s.gangTeams gang).foldl (fun s t => s.setNotice t 2) (s.updGang gang fun g => { g with req := some r })
  if !s.gangs.has gang || g.retiring.isSome then s
  else match g.req with
    | some r =>
      if !r.inPlace then s
      else if !g.resident then s.updGang gang fun g => { g with req := none }
      else post { r with posted := s.clk, inPlace := false, ckpt := true, asker := asker }
    | none => if g.resident then post { posted := s.clk, asker := asker } else s

end State

/-- A pre-emption request names a gang (R406). Where the gang is of the fewest whose resources a blocked launch needs, the
dispatcher posts it on all of them for that launch, and posts no more while they stand (R317); otherwise firmware posts it
on the gang alone. -/
def execPreemptRequest (gang : Nat) (s : State) : Res :=
  match s.blocked (s.gang gang).die with
  | some (id, gs) => .next (if gs.contains gang then gs.foldl (State.postRequest · (some id)) s else s.postRequest none gang)
  | none => .next (s.postRequest none gang)

/-- A request withdrawn before any halt has begun clears PREEMPT and has no effect (R406). -/
def execPreemptWithdraw (gang : Nat) (s : State) : Res :=
  match (s.gang gang).req with
  | some r =>
    let begun := r.halting && (s.gangTeams gang).any fun t => (s.team t).stopping
    if (begun && !r.ckpt) || r.inPlace then .next s
    else
      let s := s.updGang gang fun g =>
        { g with req := if r.ckpt then some { r with inPlace := true, ckpt := false, asker := none } else none }
      .next ((s.gangTeams gang).foldl (fun s t => s.clearNotice t 2) s)
  | none => .next s

/-- The grace limit expires: the halt begins, or is pending while a team has MASK set (R406, R408). -/
def execGraceExpiry (gang : Nat) (s : State) : Res :=
  match (s.gang gang).req, s.launches.find? (s.gang gang).launch with
  | some r, some l =>
    if !r.halting && decide (r.posted.toNat + (s.part l.part).grace.toNat ≤ s.clk.toNat) then .next (s.beginHalt gang)
    else .next s
  | _, _ => .next s

/-! Halt and save. -/

/-- Bytes whose content no rule gives: what a save record holds in a layout that only the restore reads (R395, R396; log
31). -/
def State.freeBytes (s : State) (n : Nat) : List Byte × State :=
  ((List.range n).map fun i => Config.freeByte (s.fresh + i), { s with fresh := s.fresh + n })

/-- The bytes of a save slot from offset 256 to 1,119 (R396). In a team that is in its handler only the trapping lanes'
PCs are written, since the others still stand as the handler leaves them (`old`; R377, R404). -/
def slotBytes (t : Team) (old : List Byte) : List Byte :=
  let pcs := allLanes.flatMap fun l =>
    if t.parked l && t.handler.isSome then (old.drop (4 * l)).take 4 else bytesOf 4 (t.lane l).pc
  let st := fun (l : Nat) => match (t.lane l).st with
    | .running => 0 | .waiting => 1 | .off => 2 | .exited => 3
  let states := allLanes.foldl (fun n l => n + st l * 4 ^ l) 0
  let levels := allLanes.foldl (fun n l => n + (t.lane l).level * 16 ^ l) 0
  pcs ++ ((List.range 64).flatMap fun n => bytesOf 8 (t.readS n))
    ++ ((List.range 7).flatMap fun n => bytesOf 4 (t.guard n))
    ++ bytesOf 8 (BitVec.ofNat 64 states) ++ bytesOf 16 (BitVec.ofNat 128 levels)
    ++ bytesOf 8 t.run ++ bytesOf 8 t.tmrcmp ++ bytesOf 4 t.notice ++ bytesOf 4 t.fmask ++ bytesOf 4 t.trapmask
    ++ bytesOf 4 t.fairctl ++ bytesOf 4 t.fpstat ++ bytesOf 1 t.priv ++ List.replicate 39 0
    ++ ((List.range 6).flatMap fun i => bytesOf 8 (t.seg i).base ++ bytesOf 8 (t.seg i).limit)

/-- The vector registers of a save slot (R396). -/
def vectorBytes (t : Team) : List Byte :=
  (List.range (teamRegs t.vregs)).flatMap fun n => allLanes.flatMap fun l => bytesOf 4 (if n < t.vregs then t.readV n l else 0)

namespace State

/-- The live workgroups of a gang. -/
def liveOf (s : State) (g : Nat) : List Nat := (s.gang g).wgs.filter fun w => !(s.wg w).ended

/-- Where the images of a save record stand: the scratchpad's, the full/empty bits', the operand buffer's (R395). -/
def imageBases (s : State) (w : Wg) : Nat × Nat × Nat :=
  let spad := w.save + 16384 + (w.teams.map fun t => slotSize (s.team t).vregs).foldl (· + ·) 0
  let full := spad + alignUp w.spadSize 4096
  (spad, full, full + alignUp (fullBytes w.spadSize) 4096)

/-- Writes a workgroup's save record: its header, its team slots from the lanes' PCs on, and the images (R395, R396). What
the restore alone reads, of the header and of bytes 1,120-4,095 of a slot, are free bytes here, and the model keeps it in the
records of the teams and the workgroup (log 31). -/
def saveRecord (s : State) (part wk : Nat) : State :=
  let w := s.wg wk
  let ga := gaOf part
  let (head, s) := s.freeBytes 16384
  let s := w.teams.foldl (fun s t =>
    let x := s.team t
    let (waits, s) := s.freeBytes 2976
    let old := s.hwLoad (ga (x.slotVa + 256)) 128
    let s := if x.handler.isSome then s.hwHeat (ga (x.slotVa + 256)) 128 else s
    (s.hwStore w.core (ga (x.slotVa + 256)) (slotBytes x old ++ waits)).hwStore w.core (ga (x.slotVa + 4096))
      (vectorBytes x)) (s.hwStore w.core (ga w.save) head)
  let (spad, full, obuf) := s.imageBases w
  let bits := (List.range (fullBytes w.spadSize)).map fun i =>
    (BitVec.ofNat 8 ((List.range 8).foldl (fun n j =>
      n + if (s.core w.core).full.get false (w.spadBase / 16 + 8 * i + j) && decide (8 * i + j < w.spadSize / 16)
          then 2 ^ j else 0) 0) : Byte)
  let s := s.hwStore w.core (ga spad) ((List.range w.spadSize).map fun i => s.spadGet w.core (w.spadBase + i))
  let s := s.hwStore w.core (ga full) bits
  s.hwStore w.core (ga obuf) ((List.range (4096 * w.obufCount)).map fun i => s.obGet w.core (4096 * w.obufFirst + i))

/-- The links that hold up, in this cycle, the reads that saving some workgroups makes: a team in its handler keeps the lane
PCs that its slot holds (R299, R396). -/
def saveShut (s : State) (part : Nat) (ws : List Nat) : Option State :=
  (ws.flatMap fun w => s.teamsOf w).findSome? fun (_, t) =>
    if t.handler.isSome then s.readShut (coreDie t.core) (gaOf part (t.slotVa + 256)) 128 else none

/-- The cells and the full bits of a workgroup's last band beyond its allocation, which column orientation and a rotation
reach, by offset from its base (R176, R181, R184, R186). -/
def restOfBand {α : Type} (m : Tbl α) (lo hi : Nat) : Tbl α :=
  (m.filter fun (a, _) => decide (lo ≤ a) && decide (a < hi)).map fun (a, b) => (a - lo, b)

/-- Frees the resources of a workgroup that is switched out; what the record's header holds stays with it (R186, R318,
R395). -/
def switchOut (s : State) (wk : Nat) : State :=
  let w := s.wg wk
  let cmds := s.cmdsOf wk
  let recs := (s.core w.core).recs.filter fun (_, r) => r.wg == wk
  let s := s.dropCmds w.core fun c => c.wg == wk
  let s := s.updCore w.core fun c => { c with recs := c.recs.filter fun (_, r) => r.wg != wk }
  let s := w.teams.foldl (fun s t => (s.endLoop t).updTeam t fun x =>
    { x with resident := false, stopping := false, atTask := false, ahead := [], notice := x.notice &&& ~~~4#32 }) s
  let c := s.core w.core
  let hi := w.spadBase + bandCells w.spadSize
  s.updWg wk fun w =>
    { w with resident := false, imgRecs := recs, imgCmds := cmds,
             imgCells := restOfBand c.spad (w.spadBase + w.spadSize) hi,
             imgFull := restOfBand c.full ((w.spadBase + w.spadSize) / 16) (hi / 16) }

/-- A walker bound to a core on which no resident gang of its launch stays becomes unbound (R347). -/
def unbind (s : State) (launch : Nat) (cores : List Nat) : State :=
  let stays := fun (c : Nat) => s.gangs.any fun (_, g) => g.launch == launch && g.resident
    && (g.core == c || g.wgs.any fun w => (s.wg w).core == c)
  s.updLaunch launch fun l =>
    { l with walkers := l.walkers.map fun (k, w) => (k, match w.core with
        | some c => if cores.contains c && !stays c then { w with core := none } else w
        | none => w) }

/-- What a halt has still to wait for (R102, R266, R389, R407): a team that has not stopped, an access or a decision under
way, a release that has not completed, a grant that is on its way, or a started engine command. -/
def haltBusy (s : State) (g : Nat) : Bool :=
  let ws := s.liveOf g
  let ts := ws.flatMap fun w => (s.wg w).teams
  let held := fun (h : Hold) => match h with
    | .pledge _ | .drain _ _ | .team _ | .arrive _ _ _ _ _ _ | .code _ _ _ | .fill _ | .sync _ | .split _ | .ask _ _ | .frame
    | .release _ _ _ _ => true
    | _ => false
  ts.any (fun t =>
    let x := s.team t
    !x.stopping || x.chain.isSome || (x.live != 0 && x.masked) || x.holders held != 0)
    || s.loads.any (fun (_, d) => ts.contains d.team && d.fe == 0)
    || s.msgs.any (fun (_, m) => match m.body with
        | .grant _ r => match r.team with | some t => ts.contains t | none => false
        | .pledge _ r => ts.contains r.team
        | .strong _ _ t _ _ _ _ => ts.contains t
        | _ => false)
    || ws.any fun w => (s.cmdsOf w).any fun c => c.st != .queued

/-- Withdraws what a halt withdraws: acquires that wait at a home, service requests, and waits for walks, for room, for
earlier accesses or for a record; their instructions issue again after the restore (R237, R266, R376, R407). A team in a
chain goes on to the chain's end first (R102). -/
def withdraw (s : State) (g : Nat) : State :=
  let ts := (s.liveOf g).flatMap fun w => (s.wg w).teams
  let given := fun (h : Hold) => match h with
    | .service _ _ _ | .walk _ _ _ _ | .missRoom | .room | .earlier _ | .record _ _ => true
    | _ => false
  let acq := fun (r : SyncReq) => !r.release && reqOfTeams ts r
  let asked := s.syncs.flatMap fun (line, m) => (m.queue.filter acq).map fun r => (line, r)
  let s := s.withdrawSync acq
  let s := asked.foldl (fun s (line, r) => match r.team with
    | some t => s.updTeam t fun x => x.unhold (x.holders (· == .sync line) &&& r.lanes)
    | none => s) s
  ts.foldl (fun s t => s.updTeam t fun x => if x.chain.isSome then x else x.unhold (x.holders given)) s

end State

/-- A halt goes on as far as it can (R407): once the gang's teams have stopped and nothing of theirs is under way, the save
array is written and the L1s are written back; once that has merged, the gang is saved and its resources are freed. Walkers
become unbound where the halt is a pre-emption, which that of a checkpoint is not (R347, R428). -/
def execInstructionLevelHalt (gang : Nat) (s : State) : Res :=
  let g := s.gang gang
  let ws := s.liveOf gang
  let cores := (g.wgs.map fun w => (s.wg w).core).eraseDups
  match g.req with
  | none => .next s
  | some r =>
    if !r.halting || !g.resident || g.retiring.isSome || ws = [] then .next s
    else
      let ts := s.gangTeams gang
      let s := if ts.all fun t => (s.team t).stopping || !(s.team t).resident then s.withdraw gang else s
      if s.haltBusy gang then .next s
      else match r.upTo with
        | none => match s.saveArrWait g.launch with
          | some s => .next s
          | none =>
          let s := s.writeSaveArr g.launch
          let s := cores.foldl (fun s c => s.writeBackAll c) s
          .next (s.updGang gang fun x => { x with req := some { r with upTo := some s.nextId } })
        | some n =>
          if cores.any fun c => !s.drained (s.unit c) n then .next s
          else match s.launches.find? g.launch with
            | none => .next s
            | some l => match s.saveShut l.part ws with
              | some s => .next s
              | none =>
              let s := ws.foldl (fun s w => (s.saveRecord l.part w).switchOut w) s
              let s := s.updGang gang fun x =>
                { x with resident := false,
                         req := if r.inPlace then some { r with halting := false, upTo := none } else none }
              let s := if r.inPlace then s else s.unbind g.launch (g.core :: cores)
              let s := s.uncharge gang
              let s := s.updRegion l.region fun x => { x with halts := min (x.halts + 1) (2 ^ 64 - 1) }
              .next (s.startCounters l.region)

/-! Restore. -/

/-- Where the allocations of a workgroup stand: its scratchpad base, the first allocation of its gang in the cluster
scratchpad, and the first byte of its operand-buffer granules. -/
structure Places where
  spad : Nat
  clus : Nat
  obuf : Nat
deriving DecidableEq, Repr

/-- A descriptor whose captured segment base moves with its allocation. -/
def Desc.move (d : Desc) (old new : Places) : Desc :=
  { d with seg := if d.clus then d.seg + new.clus - old.clus else d.seg + new.spad - old.spad }

/-- A slice whose descriptor moves with its allocation. -/
def Slice.move (x : Slice) (old new : Places) : Slice :=
  { x with desc := if x.obuf then { x.desc with seg := x.desc.seg + new.obuf - old.obuf } else x.desc.move old new }

/-- Moves the local operands of a command to a new place of its workgroup (R407; log 24). -/
def Cmd.move (c : Cmd) (old new : Places) : Cmd :=
  let d := fun (x : Desc) => x.move old new
  let operand := fun (x : Sum (Tbl Word) Desc) => match x with
    | .inl r => Sum.inl r
    | .inr y => Sum.inr (d y)
  { c with body := match c.body with
      | .copy ss a r sc o => .copy (ss.map fun x => x.move old new) a r sc o
      | .mat m i f n so sp v =>
        let m := match m with
          | .mma ty fa fb a b => .mma ty fa fb (operand a) (operand b)
          | .putDesc y => .putDesc (d y)
          | .storeSpad ty v rm ovf y => .storeSpad ty v rm ovf (d y)
          | m => m
        .mat m i f n so sp v
      | b => b }

namespace State

/-- A team as its save slot gives it back (R54, R68, R73, R396): what the slot documents is read from memory, the waits and
the open collective instances come with it, and reserved bits read as zero (R7). The bases of `sg.spad`, `sg.clus` and
`sg.obuf` move with the allocations, which R73 does not say but R62 and R172 need (log 24). A notice that is set afresh and
was clear has risen (R374). `moves` holds, for each workgroup of the gang, the old and the new core, and the old and the new
base of its allocation. -/
def restoreTeam (s : State) (part : Nat) (r : Region) (t : Team) (x : Seat) (pipe slot : Nat) (old new : Places)
    (moves : List (Nat × Nat × Nat × Nat)) : Team :=
  let b := s.hwLoad (gaOf part (t.slotVa + 256)) 864
  let v := s.hwLoad (gaOf part (t.slotVa + 4096)) (128 * t.vregs)
  let f := fun (o n : Nat) => loadNat ((b.drop (o - 256)).take n)
  let moved := fun (m : Wait) => match m with
    | .pbar core (some a) ph cl => match moves.find? fun y => y.1 == core with
      | some (_, core', lo, lo') => Wait.pbar core' (some (a + lo' - lo)) ph cl
      | none => m
    | .mma done first active word op => .mma done first active word (op.move old new)
    | m => m
  let lane := fun (l : Nat) =>
    let was := t.lane l
    let st := match f 924 8 / 4 ^ l % 4 with
      | 0 => LaneState.running | 1 => LaneState.waiting | 2 => LaneState.off | _ => LaneState.exited
    { was with pc := BitVec.ofNat 32 (f (256 + 4 * l) 4), st := st, level := f 932 16 / 16 ^ l % 16, age := 0, yld := false,
               readyAt := 0, retry := false, hold := if was.hold = some .done then was.hold else none,
               wait := if st = LaneState.waiting then was.wait.map moved else none }
  let seg := fun (i : Nat) =>
    let base := f (1024 + 16 * i) 8
    let base := if i = 1 then base + new.spad - old.spad else if i = 2 then base + new.clus - old.clus
      else if i = 3 then base + new.obuf - old.obuf else base
    ({ base := BitVec.ofNat 64 base, limit := BitVec.ofNat 64 (f (1032 + 16 * i) 8) } : Seg)
  let saved : BitVec 32 := BitVec.ofNat 32 (f 964 4) &&& 0xF
  let notice := (saved &&& ~~~14#32) ||| freshNotice r
  { t with
    core := x.core, pipe := pipe, slot := slot, placed := s.cycle, resident := true, stopping := false, atTask := false, skid := 0, ahead := []
    lanes := allLanes.map fun l => (l, lane l)
    s := (List.range 64).foldl (fun m n => Tbl.store 0 m n (BitVec.ofNat 64 (f (384 + 8 * n) 8))) []
    g := (List.range 7).foldl (fun m n => Tbl.store 0 m n (BitVec.ofNat 32 (f (896 + 4 * n) 4))) []
    v := (List.range (32 * t.vregs)).foldl (fun m i =>
      Tbl.store 0 m i (BitVec.ofNat 32 (loadNat ((v.drop (4 * i)).take 4)))) []
    run := BitVec.ofNat 64 (f 948 8), tmrcmp := BitVec.ofNat 64 (f 956 8)
    notice := notice, noticeRose := if notice &&& ~~~saved = 0 then t.noticeRose else t.noticeRose + 1
    fmask := BitVec.ofNat 32 (f 968 4), trapmask := BitVec.ofNat 32 (f 972 4) &&& 0xF1
    fairctl := BitVec.ofNat 32 (f 976 4) &&& 0xFFF, fpstat := BitVec.ofNat 32 (f 980 4) &&& 0x1F, priv := BitVec.ofNat 2 (f 984 1)
    segs := (List.range 6).map fun i => (i, seg i) }

/-- Restores one workgroup at its seat (R187, R318, R407); in an L1 that it comes to anew the clean words take their lines'
values of now, so that no load of its threads sees a value older than their own stores (R230; log 31); `clus` and `clus'` are
the old and the new place of the gang in the cluster scratchpad. -/
def restoreWg (s : State) (part wk : Nat) (x : Seat) (clus clus' : Nat) (moves : List (Nat × Nat × Nat × Nat)) : State :=
  let w := s.wg wk
  let old : Places := { spad := w.spadBase, clus := clus, obuf := 4096 * w.obufFirst }
  let new : Places := { spad := x.spad, clus := clus', obuf := 4096 * x.obuf }
  let s := if s.unit x.core = s.unit w.core then s else s.renewClean x.core
  let s := s.takeCells x w.spadSize w.obufCount
  let (spad, full, obuf) := s.imageBases w
  let bs := s.hwLoad (gaOf part spad) w.spadSize
  let bits := s.hwLoad (gaOf part full) (fullBytes w.spadSize)
  let os := s.hwLoad (gaOf part obuf) (4096 * w.obufCount)
  let s := bs.zipIdx.foldl (fun s (b, i) => s.spadPut x.core (x.spad + i) b) s
  let s := (List.range (w.spadSize / 16)).foldl (fun s i =>
    s.updCore x.core fun c => { c with full := c.full.store false (x.spad / 16 + i) ((bits.getD (i / 8) 0).getLsbD (i % 8)) }) s
  let s := os.zipIdx.foldl (fun s (b, i) => s.obPut x.core (4096 * x.obuf + i) b) s
  let s := s.updCore x.core fun c =>
    { c with spad := w.imgCells.foldl (fun m (i, b) => Tbl.store 0 m (x.spad + w.spadSize + i) b) c.spad,
             full := w.imgFull.foldl (fun m (i, b) => Tbl.store false m ((x.spad + w.spadSize) / 16 + i) b) c.full }
  let r := s.region (s.wgRegion w)
  let heat := fun (s : State) (va n : Nat) => s.hwHeat (gaOf part va) n
  let s := heat (heat (heat s spad w.spadSize) full (fullBytes w.spadSize)) obuf (4096 * w.obufCount)
  let s := (w.teams.zip x.pipes).foldl (fun s (t, pipe, slot) =>
    let y := s.team t
    (heat (heat s (y.slotVa + 256) 864) (y.slotVa + 4096) (128 * y.vregs)).updTeam t fun y => s.restoreTeam part r y x pipe slot old new moves) s
  let move := fun (c : Cmd) => c.move old new
  let s := s.updCore x.core fun c => { c with recs := w.imgRecs.foldl (fun m (i, r) => Tbl.put m i r) c.recs }
  let s := s.updWg wk fun w =>
    { w with core := x.core, spadBase := x.spad, obufFirst := x.obuf, matrix := x.matrix, resident := true,
             imgRecs := [], imgCmds := [], imgCells := [], imgFull := [],
             asm := w.asm.map fun a => { a with slices := a.slices.map fun y => y.move old new } }
  let s := w.imgCmds.foldl (fun s c => match c.body with
    | .mat _ _ _ _ _ _ _ => s.matPush (move c)
    | _ => s.copyPush (move c)) s
  { s with loads := s.loads.map fun (k, d) => (k, if w.teams.contains d.team then
      { d with core := x.core, base := if d.clus then d.base + new.clus - old.clus else d.base + new.spad - old.spad } else d) }

/-- The links that hold up, in this cycle, the reads that restoring a gang on a die makes of its save records (R299,
R395). -/
def restoreShut (s : State) (gang : Nat) : Option State :=
  let g := s.gang gang
  match s.launches.find? g.launch with
  | none => none
  | some l => (s.liveOf gang).findSome? fun wk =>
    let w := s.wg wk
    let (spad, full, obuf) := s.imageBases w
    let slots := w.teams.flatMap fun t =>
      let y := s.team t
      [(y.slotVa + 256, 864), (y.slotVa + 4096, 128 * y.vregs)]
    (([(spad, w.spadSize), (full, fullBytes w.spadSize), (obuf, 4096 * w.obufCount)] ++ slots).filter (·.2 != 0)).findSome?
      fun (va, n) => s.readShut g.die (gaOf l.part va) n

/-- Restores a gang whole at a core; a workgroup of it that has ended keeps its place among its cores (R34, R347,
R351, R407). -/
def restoreGang (s : State) (gang core : Nat) : State :=
  let g := s.gang gang
  match s.launches.find? g.launch with
  | none => s
  | some l =>
    match (s.needsOf l (.restore gang)).bind (s.seatGang l.part core) with
    | none => s
    | some seats =>
      let pairs := g.wgs.zip seats
      let moves := pairs.filterMap fun (w, x) => x.map fun x => ((s.wg w).core, x.core, (s.wg w).spadBase, x.spad)
      let clus := s.clusBase gang
      let clus' := match seats with
        | some x :: _ => x.core % 4 * 2 ^ 19 + x.spad
        | _ => clus
      let s := pairs.zipIdx.foldl (fun s ((w, x), i) => match x with
        | some x => s.restoreWg l.part w x clus clus' moves
        | none => s.updWg w fun w => { w with core := core + i }) s
      let (n, s) := s.newId
      let s := s.updGang gang fun g =>
        { g with resident := true, cluster := coreRq core, core := core, placed := n, req := none, charged := true }
      let s := s.bindWalker g.launch core
      s.updDie g.die fun d => { d with used := d.used + heatCost l.heat }

end State

/-- A pre-empted gang is restored whole where the dispatcher chooses it, or in place after a checkpoint, once the links let
its save records be read (R299, R317, R407, R428). -/
def execGangRestore (gang cluster core : Nat) (s : State) : Res :=
  let g := s.gang gang
  let c := (g.die * 12 + cluster) * 4 + core
  let inPlace := (g.req.map (·.inPlace)).getD false
  if !s.gangs.has gang || g.resident || cluster ≥ 12 || core ≥ 4 then .next s
  else if inPlace || s.chosen g.die c == some (g.launch, .restore gang) then
    match s.restoreShut gang with
    | some s => .next s
    | none =>
    let region := ((s.launches.find? g.launch).map (·.region)).getD (s.die g.die).rrRegion
    .next (if inPlace then s.restoreGang gang c else s.passTurn (s.restoreGang gang c) g.die c g.launch region)
  else .next s

/-! The end of a workgroup and of a gang. -/

namespace State

/-- The exit record of a workgroup, SEQ last (R405). -/
def exitRecord (s : State) (wk reason code cause sub : Nat) : State :=
  let w := s.wg wk
  let g := s.gang w.gang
  match s.launches.find? g.launch with
  | none => s
  | some l =>
    let r := s.region l.region
    let seq := r.exitSeq
    let fm := w.teams.foldl (fun (m : Mask) t => m ||| (s.team t).fmask) 0
    let guard := match w.guardRec with
      | some x =>
        bytesOf 8 (BitVec.ofNat 64 (x.offset % 2 ^ 32 + x.bank * 2 ^ 32 + x.count * 2 ^ 40))
          ++ bytesOf 8 (BitVec.ofNat 64 (x.pc.toNat + x.team * 2 ^ 32)) ++ bytesOf 8 x.who
      | none => List.replicate 24 0
    let tail := if reason = 2 then [BitVec.ofNat 8 cause, BitVec.ofNat 8 sub] ++ guard.drop 2 else guard
    let body := bytesOf 4 (BitVec.ofNat 32 l.lid) ++ bytesOf 4 (BitVec.ofNat 32 w.wgid) ++ bytesOf 8 g.gangid ++ bytesOf 8 s.clk
      ++ bytesOf 4 fm ++ [BitVec.ofNat 8 code, BitVec.ofNat 8 reason, w.mflags.setWidth 8, if w.guardRec.isSome then 1 else 0]
      ++ tail
    if reason = 0 ∧ fm = 0 ∧ w.guardRec.isNone ∧ w.mflags = 0 then s
    else
      let ga := gaOf l.part (r.saveBase.toNat + 64 * (seq % 64))
      let s := (s.hwStore w.core (ga + 8) body).hwStore w.core ga (bytesOf 8 (BitVec.ofNat 64 seq))
      s.updRegion l.region fun x => { x with exitSeq := x.exitSeq + 1 }

end State

/-- A workgroup whose lanes have all left ends once its engine commands have completed and its loads have returned (R333,
R386): open assembly
instances are discarded, its exclusive holds end, the exit record is written and its resources are free. -/
def execWorkgroupEnd (wg : Nat) (s : State) : Res :=
  let w := s.wg wg
  if !s.wgs.has wg || !w.resident || w.ended || w.teams.any (fun t => (s.team t).live != 0) || s.cmdsOf wg != []
      || s.loads.any (fun (_, d) => w.teams.contains d.team && d.fe == 0) then .next s
  else
    let (reason, code, cause, sub) := w.ending.getD (0, 0, 0, 0)
    let s := w.asm.foldl (fun s a => (s.endPledges a.pledged).cmdDone a.id []) s
    let s := (s.withdrawSync (State.reqOfTeams w.teams)).endExclusive wg
    let s := s.exitRecord wg reason code cause sub
    let s := w.teams.foldl (fun s t => (s.endLoop t).updTeam t fun x => { x with resident := false, stopping := false }) s
    let s : State := { s with loads := s.loads.filter fun (_, d) => !w.teams.contains d.team }
    let s := s.updCore w.core fun c => { c with recs := c.recs.filter fun (_, r) => r.wg != wg }
    .next (s.updWg wg fun w => { w with ended := true, resident := false, matrix := .none, asm := [] })

/-- A gang whose workgroups have all ended retires once its cores' dirty global words have been written back (R316,
R351, R356, R409); with a launch's last gang the launch is complete. -/
def execGangRetirement (gang : Nat) (s : State) : Res :=
  let g := s.gang gang
  let cores := (g.wgs.map fun w => (s.wg w).core).eraseDups
  if !s.gangs.has gang || g.wgs.any fun w => !(s.wg w).ended then .next s
  else match g.retiring, s.launches.find? g.launch with
    | none, _ =>
      let s := cores.foldl (fun s c => s.writeBackAll c) s
      .next (s.updGang gang fun x => { x with retiring := some s.nextId, req := none })
    | some n, some l =>
      let last := ({ s with gangs := s.gangs.erase gang } : State).launchOver g.launch
      if (last && s.outputMoves l) || cores.any fun c => !s.drained (s.unit c) n then .next s
      else match if last && l.signal ≠ 0 then s.homeWait l.die (gaOf l.part l.signal) 8 else none with
      | some s => .next s
      | none =>
        let ts := s.gangTeams gang
        let s := s.uncharge gang
        let s : State := { s with gangs := s.gangs.erase gang
                                  wgs := s.wgs.filter fun (k, _) => !g.wgs.contains k
                                  teams := s.teams.filter fun (k, _) => !ts.contains k }
        let s := s.updRegion l.region fun r => { r with gangsRetired := min (r.gangsRetired + 1) (2 ^ 64 - 1) }
        let s := (s.updLaunch g.launch fun l => { l with retired := l.retired + 1 }).startCounters l.region
        .next (if last then s.completeLaunch g.launch else s)
    | some _, none => .next s

/-- The kill limit expires: every workgroup of the gang ends with reason 3, its pipes are reset, and the walkers of its
cores issue nothing more (R410). -/
def execKillExpiry (gang : Nat) (s : State) : Res :=
  let g := s.gang gang
  match g.req, s.launches.find? g.launch with
  | some r, some l =>
    if r.inPlace || r.ckpt || !g.resident || decide (s.clk.toNat < r.posted.toNat + (s.part l.part).kill.toNat) then .next s
    else
      let ws := s.liveOf gang
      let cores := g.core :: g.wgs.map fun w => (s.wg w).core
      let s := ws.foldl (fun s w => s.stopWorkgroup w 3 0 0 0) s
      let s := (s.gangTeams gang).foldl (fun s t => ((s.clearNotice t 2).endLoop t).updTeam t fun x =>
        { x with stopping := false, atTask := false, ahead := [] }) s
      let s := s.updLaunch g.launch fun l =>
        { l with killed := true, walkers := l.walkers.map fun (k, w) =>
            (k, if (match w.core with | some c => cores.contains c | none => false) then { w with killed := true } else w) }
      let s := (s.uncharge gang).updGang gang fun x => { x with req := none }
      .next (s.saddle g.die 2 (l.region % 65536) l.lid g.gangid 0 0 0 0 0)
  | _, _ => .next s

end Sys2Proof.Machine
end

