-- ==== Sys2Proof/Machine/Service.lean ====
section
/-!
DEFINITION. What firmware and the service units do (09 R203, R217, R219; 12 R298-R300; 16 R351-R354, R360-R362; 23
R417-R432): requests to regions, page migration, heat and energy, records, trace frames, the power alarm, tables,
partitions, identity and boot, resets, links, and checkpoints with replay, capture and moves.
-/

namespace Sys2Proof.Machine

/-! Balloons. -/

/-- Firmware posts a balloon request on a region that has none outstanding, and BALLOON is set in its resident teams
(R216, R217). -/
def execBalloonPost (region seq sectors deadline : Nat) (s : State) : Res :=
  if !s.regions.has region || bitsOf (s.region region).balloon 63 48 != 0 || seq % 65536 = 0 then .next s
  else
    let word : DWord := setBits (setBits (setBits 0 63 48 seq) 47 16 sectors) 15 0 deadline
    let s := s.updRegion region fun r => { r with balloon := word, balloonAt := s.clk }
    .next ((s.regionTeams region).foldl (fun s t => s.setNotice t 1) s)

namespace State

/-- Whether the deadline of a region's request has come: DEADLINE counts 100 µs of CLK, and 0 acts as 100 (R216, R219). -/
def balloonDue (s : State) (region : Nat) : Bool :=
  let r := s.region region
  bitsOf r.balloon 63 48 != 0 && decide (r.balloonAt.toNat + 200000 * (if bitsOf r.balloon 15 0 = 0 then 100 else bitsOf r.balloon 15 0) ≤ s.clk.toNat)

end State

/-- A request's deadline ends: it completes, and a saddlebag entry names the region (R219). -/
def execBalloonDeadline (region : Nat) (s : State) : Res :=
  if s.regions.has region && s.balloonDue region then
    .next ((s.balloonDone region).saddle 0 3 (region % 65536) 0 0 0 0 0 0 0)
  else .next s

/-! Migration. -/

/-- The memory ports of a pair (R202): HBM port 8d + j and board port 32 + 2d + ⌊j / 4⌋. -/
def pairedPorts (a b : Nat) : Bool :=
  let half := fun (x y : Nat) => decide (x < 32) && y == 32 + 2 * (x / 8) + x % 8 / 4
  half a b || half b a

namespace State

/-- Re-encodes the compressed blocks of a page that has moved: a smaller encoding is taken, and RSVH falls by the
difference; pledges that stand on the block rise by it (R203, R212). -/
def reencode (s : State) (k : Nat) : State :=
  let e := s.blockEntry k
  let (e', n) := s.encodeEntry k false
  let old := entSect e
  if entType e != 1 || n ≥ old then s
  else
    let d := old - n
    let up := s.cmdPledgesOn k * d
    let s := s.setEntry k (setBits (setBits e' 15 8 (bitsOf e 15 8)) 7 7 (bitsOf e 7 7))
    match s.ownerOf k with
    | some r => s.reserve r fun g => { g with rsvh := g.rsvh - d, rsvp := g.rsvp + up }
    | none => s

/-- Moves a page record to another port at an offset, with the directory entries of its lines; its holding takes frames there
(R198, R203, R249). -/
def movePage (s : State) (part va key port off : Nat) (r : PageRec) : State :=
  let k0 := gaOf part va / 512
  let lines := (List.range 512).map (gaOf part va / 128 + ·)
  let moved := s.dir.filter fun (k, _) => lines.contains (k % 2 ^ 64)
  let s : State := { s with
    dir := s.dir.filter fun (k, _) => !lines.contains (k % 2 ^ 64)
    copies := s.copies.filter fun (k, _) => !lines.contains (k % 2 ^ 64) }
  let w := setBits (setBits r.word 47 42 port) 41 41 (if port ≥ 32 then 1 else 0)
  let held := reframe (s.framesOf port) [] r.frames.length
  let s : State := { s with pages := (s.pages.erase key).put (port * 2 ^ 38 + off) { r with word := w, heat := 0, frames := held } }
  let s := moved.foldl (fun s (k, e) => s.moveEntry (k % 2 ^ 64) e) s
  let s := match s.walk part va with
    | .leaf pte _ pk => { s with ptes := s.ptes.put pk (setBits (setBits pte 56 51 port) 37 7 (off / 128)) }
    | .fault _ _ => s
  ((List.range 128).map (k0 + ·)).foldl (fun s k =>
    if s.blockEntry k = 0 then s
    else if entType (s.blockEntry k) = 0 then
      -- the pattern of a constant block stands ciphered at its place (R196, R199)
      let (e, _) := s.encodeEntry k false
      s.setEntry k (setBits (setBits e 15 8 (bitsOf (s.blockEntry k) 15 8)) 7 7 (bitsOf (s.blockEntry k) 7 7))
    else s.reencode k) (s.tlbDrop part (some va))

end State

/-- Firmware migrates a page to the port that its port is paired with, at an offset `off` there (R202, R203): MIGR is
set, and from a free later cycle on, once the directory entries of its lines have room at the new port, the record and
the holding move and MIGR is cleared; an access that reaches the page between waits (R248, R249). A page with a pledged
block, or of the save area or the counter block, stays (R355, R391; log 27). -/
def execMigration (part va off : Nat) (s : State) : Res :=
  match s.pageAt (gaOf part va) with
  | none => .next s
  | some (key, r) =>
    let from_ := r.home
    let to_ := (s.part part).ports.find? fun p => pairedPorts from_ p
    let k0 := gaOf part (va / 65536 * 65536) / 512
    let pledged := (List.range 128).any fun i => entPledged (s.blockEntry (k0 + i))
    let pinned := s.hardwarePage r.owner (va / 65536 * 65536)
    let level3 := match s.walk part va with | .leaf _ shift _ => shift == 16 | .fault _ _ => false
    match to_ with
    | none => .next s
    | some port =>
      let new := port * 2 ^ 38 + off
      let used := (s.pages.keys ++ s.ptes.keys).any fun k => decide (new ≤ k) && decide (k < new + 1152)
      if !Config.boardPresent || off % 128 != 0 || off ≥ 2 ^ 38 || used || pledged || pinned || !level3 then .next s
      else if !r.migr then
        let (n, s) := s.draw
        .next { s with pages := s.pages.put key { r with word := setBits r.word 29 29 1 }
                       migs := s.migs.put key (off, s.cycle + 1 + n) }
      else match s.migs.find? key with
        | some (o, due) =>
          let lines := (s.dir.keys.map (· % 2 ^ 64)).filter fun l => l / 512 == k0 / 128
          if o ≠ off ∨ s.cycle < due then .next s
          else match lines.findSome? (s.entryWaitAt port) with
          | some s => .next s
          | none => .next (({ s with migs := s.migs.erase key } : State).movePage part (va / 65536 * 65536) key port off
              { r with word := setBits r.word 29 29 0 })
        | none => .next s

/-! Heat and energy. -/

/-- A sweep halves the access-heat counter of every page record of a port (R354). -/
def execHeatSweep (port : Nat) (s : State) : Res :=
  .next { s with pages := s.pages.map fun (k, r) => (k, if k / 2 ^ 38 = port then { r with heat := r.heat / 2 } else r) }

/-- A die samples its 64 cone monitors, once a millisecond of CLK (R353). -/
def execConeSample (die : Nat) (readings : List (BitVec 16)) (s : State) : Res :=
  if readings.length = 64 ∧ (s.die die).coneAt.toNat + 2000000 ≤ s.clk.toNat then
    .next (s.updDie die fun d => { d with cones := readings, coneAt := s.clk })
  else .next s

/-- Firmware installs a margin table, which raises the die's generation, and may set HCAP and the energy coefficients with
it (R352, R353). No resident gang is evicted (R351). -/
def execMarginPlanInstall (die : Nat) (hcap : Option (BitVec 16)) (energy : List Nat) (s : State) : Res :=
  .next (s.updDie die fun d => { d with margin := d.margin + 1, hcap := hcap.getD d.hcap, energy := energy })

/-! Calendars. -/

/-- A slot becomes live; at slot 0 the calendar writes take effect (R299). -/
def execGaitSlotStart (link : Nat) (s : State) : Res :=
  if s.slotNow = 0 then
    .next (s.updLink link fun l => { l with cal := l.pending.foldl (fun m (k, v) => Tbl.store 0 m k v) l.cal, pending := [] })
  else .next s

/-- Traffic of a partition has waited a full period on a link that gives it no slot: an error record (R300). -/
def execNoSlotAlert (link part : Nat) (s : State) : Res :=
  let waits := fun (m : Msg) => m.link == some link && m.part == part && decide (m.waitFrom + 3840 ≤ s.clk.toNat)
  let stuck := fun (g : Ring) (c : QCopy) => (s.ringDesc g.ref).part == part && match c.wait with
    | some (l, since) => l == link && decide (since + 3840 ≤ s.clk.toNat)
    | none => false
  let again := fun (g : Ring) (c : QCopy) => if stuck g c then { c with wait := some (link, s.clk.toNat) } else c
  let other := match s.linkWaits.find? (32 * link + part) with
    | some w => decide (w.1 + 3840 ≤ s.clk.toNat)
    | none => false
  if !s.ownsSlot link part
      && (s.msgs.any (fun (_, m) => waits m) || (s.rings.any fun (_, g) => g.copies.any fun c => stuck g c) || other) then
    let s := s.errorRecord (if link < 16 then link / 4 else State.pallumDie (link - 16)) 0 0 1 4 0xFFFF link 0xFFFF
    .next { s with
      msgs := s.msgs.map fun (k, m) => (k, if waits m then { m with waitFrom := s.clk.toNat } else m)
      rings := s.rings.map fun (k, g) => (k, { g with copies := g.copies.map (again g) })
      linkWaits := s.linkWaits.updIf (32 * link + part) fun w => (s.clk.toNat, w.2) }
  else .next s

namespace State

/-- The state after firmware's write to a calendar entry, which takes effect at the next slot 0 (R299); reserved bits are
ignored (R7). -/
def setCalendar (s : State) (link slot : Nat) (value : Byte) : State :=
  if slot < 240 then s.updLink link fun l => { l with pending := l.pending.put slot (value &&& 0x9F) } else s

/-- The state after firmware's write to a connection-matrix entry, while no workgroup is resident on its cluster (R298). -/
def setConnections (s : State) (rq : Nat) (value : DWord) : State :=
  if rq < 48 ∧ s.clusterEmpty rq then { s with rq := s.rq.put rq (value &&& 0xFFFFFFFFFF#64) } else s

end State

/-- Firmware writes a calendar entry (R299). -/
def execGaitCalendarWrite (link slot : Nat) (value : Byte) (s : State) : Res := .next (s.setCalendar link slot value)

/-- Firmware writes a connection-matrix entry (R298). -/
def execConnectionMatrixWrite (rq : Nat) (value : DWord) (s : State) : Res := .next (s.setConnections rq value)

/-! Records. -/

/-- A detected memory error: a record, and an uncorrected one poisons its block (R424, R425). -/
def execMemoryError (part va : Nat) (corrected : Bool) (syndrome : BitVec 16) (s : State) : Res :=
  match s.pageAt (gaOf part va) with
  | none => .next s
  | some (_, r) =>
    let s := s.errorRecord (portDie r.home) r.home 0 0 (if corrected then 1 else 2) syndrome.toNat va r.regionNo
    .next (if corrected then s else { s with poisoned := s.poisoned.put (gaOf part va / 512) 0 })

/-- The power stage signals an alarm: every issue clock halves, and a saddlebag entry is written (R427). -/
def execPowerAlarm (s : State) : Res := .next ({ s with alarm := true }.saddle 0 5 0xFFFF 0 0 0 0 0 0 0)
/-- Firmware clears the alarm (R427). -/
def execPowerAlarmClear (s : State) : Res := .next { s with alarm := false }

/-! Trace frames (R361, R362). The layout of a record within its frame is the model's (log 28). -/

/-- The name of a thread as a record writes it in full: LAUNCHID, GANGID, WGID, TEAMID, LANEID (R359). -/
def nameBytes (n : List Nat) : List Byte :=
  bytesOf 4 (BitVec.ofNat 32 (n.getD 0 0)) ++ bytesOf 8 (BitVec.ofNat 64 (n.getD 1 0)) ++ bytesOf 1 (BitVec.ofNat 8 (n.getD 2 0))
    ++ bytesOf 1 (BitVec.ofNat 8 (n.getD 3 0)) ++ bytesOf 1 (BitVec.ofNat 8 (n.getD 4 0))

/-- The records of a frame: the delta of CLK, the name as an index into the frame's dictionary of 64 recent names or in
full, and the rest (R361). -/
def traceRecords : List (DWord × List Nat × List Byte) → DWord → List (List Nat) → List Byte
  | [], _, _ => []
  | (t, n, rest) :: xs, last, dict =>
    let i := dict.idxOf n
    let named := if i < dict.length then [BitVec.ofNat 8 i] else [(255 : Byte)] ++ nameBytes n
    let dict' := if i < dict.length then dict else (n :: dict).take 64
    bytesOf 8 (t - last) ++ named ++ rest ++ traceRecords xs t dict'

/-- A frame: its header of CLK, die, frame count and drops, then its records (R361). -/
def frameOf (die : Nat) (d : Die) : List Byte :=
  let start := d.traceOpen.getD 0
  bytesOf 8 start ++ bytesOf 4 (BitVec.ofNat 32 die) ++ bytesOf 8 (BitVec.ofNat 64 d.frames)
    ++ bytesOf 8 (BitVec.ofNat 64 d.dropsSince) ++ bytesOf 4 (0 : BitVec 32) ++ traceRecords d.trace start []

namespace State

/-- Bytes enter a sink's ring where its writer stands: in host memory, or in firmware's own (R362; log 72). -/
def sinkPut (s : State) (k : Sink) (bs : List Byte) : State :=
  bs.zipIdx.foldl (fun s (b, i) =>
    let a := k.addr + (k.wrote + i) % k.size
    if k.host then { s with hostMem := memWrite s.hostMem a b } else s.putHome (gaOf fwPart a) [b]) s

/-- Closes a die's frame: it goes whole to the sink, or is dropped whole where the sink lacks room (R362). -/
def closeFrame (s : State) (die : Nat) : State :=
  let d := s.die die
  let bytes := frameOf die d
  let d' := { d with trace := [], traceOpen := none }
  let dropped := { d' with drops := sat64 (d.drops + 1), dropsSince := sat64 (d.dropsSince + 1) }
  match d.sink with
  | some k =>
    if k.wrote - k.read + bytes.length ≤ k.size then
      (s.sinkPut k bytes).updDie die fun _ =>
        { d' with sink := some { k with wrote := k.wrote + bytes.length }, frames := sat64 (d.frames + 1), dropsSince := 0 }
    else s.updDie die fun _ => dropped
  | none => s.updDie die fun _ => dropped

/-- Adds a record to a die's frame, which opens with its first record; where it would not fit, the frame closes first
(R361, R362). -/
def traceAdd (s : State) (die : Nat) (name : List Nat) (rest : List Byte) : State :=
  let put := fun (s : State) => s.updDie die fun d =>
    { d with trace := d.trace ++ [(s.clk, name, rest)], traceOpen := some (d.traceOpen.getD s.clk) }
  if (frameOf die ((put s).die die)).length ≤ 4096 then put s else put (s.closeFrame die)

/-- The team that was dispatched or restored longest ago among some teams, ties to the lower slot (R358). -/
def oldest (ts : Tbl Team) : Option (Nat × Team) :=
  (sortBy (fun (a b : Nat × Team) =>
    decide (a.2.placed < b.2.placed) || (a.2.placed == b.2.placed && decide (a.2.slot < b.2.slot))) ts).head?

/-- The resident teams of a pipe. -/
def onPipe (s : State) (core pipe : Nat) : Tbl Team :=
  s.teams.filter fun (_, t) => t.resident && t.core == core && t.pipe == pipe

/-- The stall reason of a waiting or held lane, by its code in R358. -/
def waitReason (w : Wait) : Nat := match w with
  | .bar | .barGang _ | .pbar _ _ _ _ => 7
  | .sleep _ _ => 12
  | .copyWait _ | .collWait _ => 9
  | .close _ _ | .coll _ => 11
  | .fe _ => 8
  | .mma _ _ _ _ _ => 10

/-- `atHome` says that what the lane is held for waits at its home. -/
def holdReason (h : Hold) (atHome : Bool) : Nat := match h with
  | .walk _ _ _ word => if word = 0 then 2 else 3
  | .missRoom => 3
  | .pledge _ => 5
  | .sync _ | .release _ _ _ _ | .earlier true => 6
  | .room => 10
  | .fill _ => 4
  | .drain _ _ | .frame | .code _ _ _ | .arrive _ _ _ _ _ _ | .team _ | .earlier false => if atHome then 13 else 15
  | .service _ _ _ | .record _ _ | .split _ | .ask _ _ | .done => 15

/-- Whether a write-back of a team's core or a strong access of the team has reached its home and waits there for a lease, a
migration or a frame (R203, R220, R252). -/
def waitsAtHome (s : State) (tk : Nat) : Bool :=
  s.msgs.any fun (_, m) => m.arrived != 0 && match m.body with
    | .merge c _ _ _ => c == s.unit (s.team tk).core
    | .strong _ _ u _ _ _ _ => u == tk
    | _ => false

/-- What holds back a team's group of lowest PC (R358). -/
def stallReason (s : State) (tk : Nat) : Nat :=
  let t := s.team tk
  let live := lanesOf t.live
  match (sortBy (fun (a b : Nat) => decide ((t.lane a).pc < (t.lane b).pc)) live).head? with
  | none => 15
  | some l =>
    let x := t.lane l
    match x.wait, x.hold with
    | some w, _ => waitReason w
    | none, some h => holdReason h (s.waitsAtHome tk)
    | none, none =>
      let late := (lanesOf (issuable t)).any fun k => (t.lane k).pc == x.pc && decide ((t.lane k).readyAt > s.cycle)
      if s.fetchHeld tk x.pc then (if late then 1 else 2)
      else match (s.fetch tk x.pc).1 with
      | .word w => match decodeRaw (Raw.ofWord w) with
        | .ok (o, f) =>
          let k := s.packsOf tk f
          let names := regsRead o f k ++ regsWritten o f k ++ (latchesRead f).map (344 + ·)
            ++ (match f.d.lat with | some b => [344 + b.toNat] | none => [])
          let busy := t.locks.filter fun (r, _) => names.contains r
          if busy.any fun (_, i) => ((s.loads.find? i).map fun d => d.fe != 0).getD true then 0
          else if late then 1
          else if busy != [] then 4
          else if !s.roomFor tk (maskBy fun k => t.live.getLsbD k && (t.lane k).pc == x.pc) o f then 10
          else 15
        | .error _ => 15
      | _ => if late then 1 else 2

end State

/-- A pipe takes its sample of this period, from the team that it selected or from its oldest resident team (R359,
R360). -/
def execPipeSample (pipe : Nat) (s : State) : Res :=
  let core := pipe / 4
  let p := (s.core core).pipes.get {} (pipe % 4)
  let here := (s.onPipe core (pipe % 4)).filter fun (_, t) => !t.halted && !t.stopping
  let pick := if p.issued then List.find? (fun (x : Nat × Team) => x.2.slot == p.last) here else State.oldest here
  let s' := s.updCore core fun c => { c with pipes := c.pipes.upd {} (pipe % 4) fun p => { p with issued := false } }
  match p.sample, pick with
  | some k, some (tk, t) =>
    if s.cycle % 2 ^ k = 0 then
      let w := s.wg t.wg
      let g := s.gang w.gang
      let lid := ((s.launches.find? g.launch).map (·.lid)).getD 0
      .next (s'.traceAdd (coreDie core) [lid, g.gangid.toNat, w.wgid, t.teamid, 0]
        (bytesOf 4 (t.lane 0).pc ++ [BitVec.ofNat 8 t.role, BitVec.ofNat 8 (s.stallReason tk)]))
    else .next s'
  | _, _ => .next s'

/-- A frame closes 10 µs after it opened (R362). -/
def execTraceFrameClose (die : Nat) (s : State) : Res :=
  match (s.die die).traceOpen with
  | some t => if t.toNat + 20000 ≤ s.clk.toNat then .next (s.closeFrame die) else .next s
  | none => .next s

/-! The management register space (R419). Where the firmware registers stand within it is the model's (log 25). -/

namespace State

/-- A breakpoint that stands on no thread. -/
def noBreak : Break := { lid := 0, gangid := 0, wgid := 0, teamid := 0, lane := 0 }

/-- What a firmware write to a register does beside the register's value: the windows of 1 MiB that the model gives the
settings firmware makes (DESIGN CHOICE, log 25). -/
def mgmtEffect (s : State) (off : Nat) (v : DWord) : State :=
  let i := off % 2 ^ 20 / 8
  match off / 2 ^ 20 with
  | 16 =>
    let k := v.toNat
    s.updCore (i / 4) fun c => { c with pipes := c.pipes.upd {} (i % 4) fun p =>
      { p with sample := if 6 ≤ k ∧ k ≤ 20 then some k else none } }
  | 17 => s.updPart (i / 2) fun p =>
      if i % 2 = 0 then
        if 2000 ≤ v.toNat ∧ v.toNat ≤ 200000000 ∧ v.toNat < p.kill.toNat then { p with grace := v } else p
      else if p.grace.toNat < v.toNat ∧ v.toNat ≤ 2000000000 then { p with kill := v } else p
  | 18 =>
    if i = 0 then (if 2000 ≤ v.toNat ∧ v.toNat ≤ 128000 then { s with leaseLen := v.toNat } else s)
    else if i = 1 then { s with leaseMargin := v.toNat } else s
  | 19 =>
    if i < 16 then s.updDie (i / 4) fun d =>
      let k := d.sink.getD { host := false, addr := 0, size := 0 }
      match i % 4 with
      | 0 => { d with sink := some { k with host := v.getLsbD 63, addr := v.toNat % 2 ^ 63 } }
      | 1 => { d with sink := if v = 0 then none else some { k with size := v.toNat, wrote := 0, read := 0 } }
      | 2 => { d with sink := some { k with read := min v.toNat k.wrote } }
      | _ => d
    else s
  | 20 => if i < 4 then s.updDie i fun d => { d with hcap := v.setWidth 16 } else s
  | 21 =>
    { s with breaks :=
        if i % 2 = 0 then s.breaks.upd noBreak (i / 2) fun b => { b with gangid := v, hit := false }
        else if v = 0 then s.breaks.erase (i / 2)
        else s.breaks.upd noBreak (i / 2) fun b =>
          { b with lid := bitsOf v 31 0, wgid := bitsOf v 39 32, teamid := bitsOf v 47 40, lane := bitsOf v 52 48, hit := false } }
  | 22 => s.setConnections i v
  | 23 => s.setCalendar (i / 256) (i % 256) (v.setWidth 8)
  | 26 => if i < 4 then s.updDie i fun d => d.readErrors v.toNat else s
  | 27 => if 1 ≤ v.toNat ∧ v.toNat ≤ 1000 then
      { s with jobs := s.jobs.updIf i fun j => { j with interval := BitVec.ofNat 64 (2000000 * v.toNat) } } else s
  | 28 =>
    let reg := fun (k : Nat) => (s.mgmt.get 0 (28 * 2 ^ 20 + 8 * (i / 4 * 4 + k))).toNat
    match i % 4 with
    | 2 => { s with jobs := s.jobs.updIf (i / 4) fun j =>
        { j with outputs := j.outputs.upd [] (reg 0) fun ranges => (ranges ++ [(reg 1, v.toNat)]).take 16 } }
    | 3 => { s with jobs := s.jobs.updIf (i / 4) fun j => { j with outputs := j.outputs.erase (reg 0) } }
    | _ => s
  | 29 => { s with jobs := s.jobs.updIf i fun j => { j with named := if v = 0 then [] else j.named ++ [v.toNat] } }
  | _ => s

/-- A register of the management space as firmware and the host read it (R353, R406, R417, R419): the settings that stand
elsewhere in the state, the pre-emption limits, the read index of an error ring, the cone readings, HCAP, the
connection matrix, the live calendars and the status words of the key slots, and otherwise what was written last (log
25). -/
def mgmtRead (s : State) (off : Nat) : DWord :=
  let i := off % 2 ^ 20 / 8
  match off / 2 ^ 20 with
  | 17 => if i % 2 = 0 then (s.part (i / 2)).grace else (s.part (i / 2)).kill
  | 18 => if i = 0 then BitVec.ofNat 64 s.leaseLen else if i = 1 then BitVec.ofNat 64 s.leaseMargin else s.mgmt.get 0 off
  | 20 => if i < 4 then (s.die i).hcap.setWidth 64 else s.mgmt.get 0 off
  | 21 => if i % 2 = 0 ∧ (s.breaks.get noBreak (i / 2)).hit then 1 else s.mgmt.get 0 off
  | 22 => s.rq.get 0 i
  | 23 => ((s.linkAt (i / 256)).cal.get 0 (i % 256)).setWidth 64
  | 24 => ((s.die (i / 64)).cones.getD (i % 64) 0).setWidth 64
  | 25 => (s.keys.get ({} : KeySlot) i).word
  | 26 => if i < 4 then BitVec.ofNat 64 (s.die i).errRead else s.mgmt.get 0 off
  | _ => s.mgmt.get 0 off

end State

/-- A write to a management register: the host writes doorbells and its page, firmware everything; a host write beyond is
dropped with an error record (R419). -/
def execMgmtRegisterWrite (host : Bool) (off : Nat) (value : DWord) (s : State) : Res :=
  if off ≥ 2 ^ 26 then .next s
  else if host && decide (off ≥ 2 ^ 22) then .next (s.errorRecord 0 0 0 2 8 0xFFFF off 0xFFFF)
  else
    let s : State := { s with mgmt := s.mgmt.store 0 off value }
    .next (if host then s else s.mgmtEffect off value)

/-! Partitions. -/

namespace State

/-- Whether every key slot of a port is empty (R302, R421). -/
def slotsEmpty (s : State) (port : Nat) : Bool :=
  (List.range 32).all fun k => bitsOf (s.keys.get {} (port * 32 + k)).word 63 62 == 0

/-- The rule that a set-up must keep (R31), on dies that firmware runs (R422). -/
def partitionOk (s : State) (p : PartSpec) : Bool :=
  let others := s.parts.vals
  decide (p.part < 20) && !s.parts.has p.part && p.clusters != [] && p.ports != []
    && p.clusters.all (fun c => decide (c < 48) && (s.die (c / 12)).booted && s.clusterEmpty c && !(others.any fun o => o.clusters.contains c))
    && p.ports.all (fun m => (s.die (portDie m)).booted && (decide (m < 32) || (decide (m < 40) && Config.boardPresent)) && s.slotsEmpty m
        && !(others.any fun o => o.ports.contains m))
    && p.clusters.all (fun c => p.ports.any fun m => decide (m < 32) && m / 8 == c / 12)
    && decide (1 ≤ p.expansion) && decide (p.expansion ≤ 4)
    && p.keys.all (fun (m, k, _) => p.ports.contains m && decide (k < 32))
    && p.ports.all (fun m => p.keys.any fun x => x.1 == m)
    && p.rings.all fun (k, _, _) => !s.rings.has k

end State

namespace State

/-- A partition's set-up before its region exists: connection matrix, calendar slots, keys and the partition itself, in the
order of R421. -/
def setUp (s : State) (p : PartSpec) : State :=
  let mask : DWord := p.ports.foldl (fun m j => m ||| (1#64 <<< j)) 0
  let s := p.clusters.foldl (fun (s : State) c => { s with rq := s.rq.put c mask }) s
  let s := p.slots.foldl (fun (s : State) (link, slot) =>
    s.setCalendar link slot (BitVec.ofNat 8 (128 + p.part))) s
  let s := p.keys.foldl (fun (s : State) (m, k, key) =>
    let w := (s.keys.get {} (m * 32 + k)).word
    s.setKey m k { word := setBits (setBits w 63 62 1) 55 32 (bitsOf w 55 32 + 1), key := key }) s
  let new : Part := { ptRoot := p.ptRoot, rtBase := p.rtBase, clusters := p.clusters, ports := p.ports,
                      expansion := p.expansion, accepted := true }
  { s with parts := s.parts.put p.part new }

end State

/-- Firmware sets up a partition in the order of R421, or refuses one that breaks R31. -/
def execPartitionSetup (p : PartSpec) (s : State) : Res :=
  if !s.partitionOk p then .next s
  else match (s.setUp p).createRegion p.part p.root 0xFFFF p.image with
    | none => .next s
    | some s =>
      let s := s.reserve (p.part * 65536 + p.root) fun g => { g with rsvg := g.rsvg + p.grant }
      let s := p.rings.foldl (fun s (k, r, image) => s.newRing p.part k r image) s
      .next { s with
        codes := p.codes.foldl (fun m (va, h) => Tbl.put m (gaOf p.part va) h) s.codes
        jobs := s.jobs.put p.part { lastAt := s.clk, logFrom := s.fresh } }

/-- Firmware tears a partition down in the reverse order (R421): the rings and the regions go and the keys are revoked;
once every key slot of its ports is empty, the rest follows. A partition with launches stays. -/
def execPartitionTeardown (part : Nat) (s : State) : Res :=
  let p := s.part part
  if !s.parts.has part || s.launches.any fun (_, l) => l.part == part then .next s
  else if p.accepted then
    let s : State := { s with rings := s.rings.filter fun (_, r) => r.ref.part != part
                              regions := s.regions.filter fun (k, _) => k / 65536 != part }
    let s := s.updPart part fun p => { p with accepted := false }
    .next (p.ports.foldl (fun s m => (List.range 32).foldl (fun s k =>
      if bitsOf (s.keys.get {} (m * 32 + k)).word 63 62 = 1 then s.revokeKey m k else s) s) s)
  else if !p.ports.all s.slotsEmpty then .next s
  else
    let mine := fun (b : Byte) => b.getLsbD 7 && bitsOf b 4 0 == part
    let clear := fun (l : Link) => l.cal.foldl (fun m (i, b) => if mine b then Tbl.put m i 0 else m)
      (l.pending.map fun (i, b) => (i, if mine b then 0 else b))
    .next { s with
      links := s.links.map fun (k, l) => (k, { l with pending := clear l })
      pallum := s.pallum.map fun (k, l) => (k, { l with pending := clear l })
      migs := s.migs.filter fun (k, _) => !((s.pages.find? k).any fun r => r.part == part)
      rq := p.clusters.foldl (fun m c => Tbl.put m c 0) s.rq
      codes := s.codes.filter fun (k, _) => gaPart k != part
      pages := s.pages.filter fun (_, r) => r.part != part
      ptes := s.ptes.filter fun (k, _) => !p.ports.contains (k / 2 ^ 38)
      jobs := s.jobs.erase part
      collGone := s.collGone.filter fun x => x.1 != part
      collBad := s.collBad.filter fun x => x.1 != part
      parts := s.parts.erase part }

/-! Identity, firmware and resets. -/

namespace State

/-- The shared links of a package, by number: those between two dies, and the Pallum egresses (R29, R299; log 29). -/
def sharedLinks : List Nat := [1, 2, 3, 6, 7, 11] ++ (List.range 18).map (16 + ·)

/-- Bytes 0-215 of an attestation report; the digest of the calendars takes every link's 240 live entries (R423). -/
def reportBody (s : State) (part : Nat) (nonce : List Byte) : List Byte :=
  let p := s.part part
  let ports : DWord := p.ports.foldl (fun m j => m ||| (1#64 <<< j)) 0
  let tables := ((List.range 48).flatMap fun c => bytesOf 8 (s.rq.get 0 c))
    ++ sharedLinks.flatMap fun k => (List.range 240).map fun i => (s.linkAt k).cal.get 0 i
  let sorted := sortBy (fun (a b : Nat) => decide (a < b)) p.ports
  let keys := sorted.flatMap fun m => (List.range 32).flatMap fun k =>
    bytesOf 4 ((s.keys.get {} (m * 32 + k)).word.extractLsb' 32 32)
  nonce ++ shake Config.identityPublic 64 ++ shake s.firmware 32 ++ shake tables 32
    ++ bytesOf 4 (BitVec.ofNat 32 (part % 32)) ++ bytesOf 8 (ports &&& 0xFFFFFFFFFF#64) ++ shake keys 32
    ++ ((List.range 4).flatMap fun d => bytesOf 2 (s.die d).margin) ++ bytesOf 4 (0 : BitVec 32)

end State

/-- A host nonce of 32 bytes draws a signed report (R423). -/
def execAttestationRequest (part : Nat) (nonce : List Byte) (s : State) : Res :=
  if nonce.length = 32 ∧ s.parts.has part then
    let body := s.reportBody part nonce
    .next { s with report := body ++ Config.identitySign (shake body 64) }
  else .next s

namespace State

/-- The firmware team of a die goes, and a loop buffer that it holds is free (R138, R422). -/
def stopFirmware (s : State) (die : Nat) : State :=
  let core := 48 * die
  let old := s.teams.filter fun (_, t) => t.firm && t.core == core
  let ws := old.map fun (_, t) => t.wg
  let gs := ws.map fun w => (s.wg w).gang
  let s := old.foldl (fun (s : State) (k, _) => s.endLoop k) s
  { s with
    teams := s.teams.filter fun (k, _) => !(old.any (·.1 == k))
    wgs := s.wgs.filter fun (k, _) => !ws.contains k
    gangs := s.gangs.filter fun (k, _) => !gs.contains k }

/-- Firmware takes core 0 of cluster 0 of a die: a resident team at level 2 that runs the image, over firmware's own
memory, in place of an earlier one (R30, R32, R66, R422; log 72). -/
def startFirmware (s : State) (die : Nat) : State :=
  let core := 48 * die
  let s := s.stopFirmware die
  let (g, s) := s.newId
  let (w, s) := s.newId
  let (t, s) := s.newId
  let whole : Seg := { base := 0, limit := BitVec.ofNat 64 (2 ^ 60) }
  let team : Team :=
    { wg := w, vregs := 256, depth := 4, core := core, placed := s.cycle, slotVa := 2 ^ 20 * die, priv := 2, firm := true,
      segs := [(0, whole), (1, { base := 0, limit := BitVec.ofNat 64 (2 ^ 19) })],
      lanes := allLanes.map fun k => (k, { pc := Config.firmwareEntry }) }
  { s with
    gangs := s.gangs.put g { launch := 0, wgs := [w], die := die, cluster := 12 * die, core := core, placed := g }
    wgs := s.wgs.put w { gang := g, core := core, teams := [t], spadSize := 2 ^ 19, handlerPc := Config.firmwareHandler,
                         globLimit := BitVec.ofNat 64 (2 ^ 60) }
    teams := s.teams.put t team }

end State

/-- Boot ROM checks the image's signature, and firmware starts; a die whose image fails is in reset, where nothing is
dispatched or issues, and a restart is recorded (R422, R426). -/
def execFirmwareBoot (die : Nat) (s : State) : Res :=
  if die ≥ 4 then .next s
  else if Config.vendorSigned (shake s.firmware 64) s.firmwareSig then
    let again := (s.die die).ran
    let s := s.updDie die fun d => { d with booted := true, ran := true }
    .next ((if again then s.saddle die 6 0xFFFF 0 0 0 0 0 0 0 else s).startFirmware die)
  else .next ((s.stopFirmware die).updDie die fun d => { d with booted := false })

/-- The host reloads the firmware image (R422). -/
def execFirmwareRecoveryLoad (image sig : List Byte) (s : State) : Res :=
  .next { s with firmware := image, firmwareSig := sig }

namespace State

/-- The state after a reset of the device: what belongs to the host, the board's flash, and the model's counters stay
(R55, R417, R422). -/
def afterReset (s : State) : State :=
  { reset with firmware := s.firmware, firmwareSig := s.firmwareSig, hostMem := s.hostMem, msix := s.msix,
               fresh := s.fresh, nextId := s.nextId }

end State

/-- A cold reset (R55, R417, R426). -/
def execDeviceReset (s : State) : Res := .next s.afterReset

/-- A warm reset, which keeps the saddlebag, the error rings, and that firmware has run (R417, R426). -/
def execWarmReset (s : State) : Res :=
  .next { s.afterReset with dies := s.dies.map fun (k, d) =>
    (k, { ran := d.ran, saddle := d.saddle, errRing := d.errRing, errOverflow := d.errOverflow, errWrote := d.errWrote, errRead := d.errRead }) }

/-! Links. -/

/-- A Pallum link, one of 18, trains when both ends hold the same lease length and margin (R2, R420); the links' numbers are
the model's (DESIGN CHOICE, log 29). -/
def execLinkTraining (link lease margin : Nat) (s : State) : Res :=
  .next (if link < 18 then
    s.updLink (16 + link) fun l => { l with trained := lease == s.leaseLen && margin == s.leaseMargin }
  else s)

/-- The host interface trains down when lanes fail (R418). -/
def execCxlLaneRetrain (lanes : Nat) (s : State) : Res :=
  if (lanes = 16 ∨ lanes = 8 ∨ lanes = 4) ∧ lanes ≤ s.cxlLanes then .next { s with cxlLanes := lanes } else .next s

namespace State

/-- Whether a running collective's member table names a package (R343). -/
def collNames (s : State) (x : Cmd) (package : Nat) : Bool :=
  match x.body with
  | .coll _ _ _ _ _ _ _ p _ _ table =>
    x.st == .running && (List.range p).any fun j => loadNat (s.homeLoad (table + 8 * j) 2) == package
  | _ => false

end State

/-- The links to a package, one of 1,024 of the domain, are lost: every collective under way on it ends with STATUS 2 (R333,
R344, R420, R432). -/
def execLinkLoss (package : Nat) (s : State) : Res :=
  if package ≥ 1024 then .next s else
  let s : State := { s with lost := if s.lost.contains package then s.lost else s.lost ++ [package] }
  .next (s.cores.keys.foldl (fun s core =>
    ((s.core core).copyQ.filter fun x => s.collNames x package).foldl (fun s x => s.collLost core x) s) s)

/-! Checkpoints (R428). -/

namespace State

/-- Whether a launch belongs to the job of a partition: the runtime has named its record, or no record (R428). -/
def ofJob (s : State) (part : Nat) (l : Launch) : Bool :=
  let j := s.jobs.get {} part
  l.part == part && (j.named == [] || j.named.contains l.record)

/-- The gangs of a job's launches. -/
def jobGangs (s : State) (part : Nat) : List Nat :=
  (s.gangs.filter fun (_, g) => (s.launches.find? g.launch).any (s.ofJob part)).map (·.1)

/-- The workgroups and the teams of some gangs. -/
def gangWgs (s : State) (gs : List Nat) : List Nat := gs.flatMap fun g => (s.gang g).wgs

/-- The image of a partition's memory: the blocks of the last set, with those dirtied since (R428). -/
def imageOf (s : State) (part : Nat) (j : Job) : Tbl (BitVec 4096) :=
  let old := match j.ckpt with | some x => x.image.keys | none => []
  ((old ++ j.dirtied).filter fun k => gaPart (512 * k) == part).foldl (fun m k => Tbl.put m k (s.homeBlock k)) []

/-- Whether a unit of rotating priority stands in a partition: a port's home, a region's reserve unit, a walker of a
launch. -/
def unitOf (s : State) (part u : Nat) : Bool :=
  (s.part part).ports.contains u || (decide (64 ≤ u) && decide (u < 2 ^ 64) && (u - 64) / 65536 == part)
    || (decide (2 ^ 64 ≤ u) && ((s.launches.find? ((u - 2 ^ 64) / 4096)).map (·.part)) == some part)

/-- Whether a core runs the work of a partition; firmware's own core does not (R30, R31). -/
def coreOf (s : State) (part core : Nat) : Bool := core % 48 != 0 && (s.part part).clusters.contains (coreRq core)

/-- Whether a block's page is mapped under an active key slot (R421). -/
def blockGood (s : State) (k : Nat) : Bool :=
  match s.pageAt (512 * k) with
  | some (key, r) => bitsOf (s.keys.get {} (key / 2 ^ 38 * 32 + r.kslot)).word 63 62 == 1
  | none => false

/-- What a checkpoint holds of a job whose gangs are all saved (R421, R428, R429). -/
def snapOf (s : State) (part : Nat) (j : Job) : Snap :=
  let gs := s.jobGangs part
  let ws := s.gangWgs gs
  let ts := ws.flatMap fun w => (s.wg w).teams
  let mine := fun (line : Nat) => gaPart (128 * line) == part
  (fun x => keepBlocks x s.blockGood)
  { teams := s.teams.filter fun (k, _) => ts.contains k
    wgs := s.wgs.filter fun (k, _) => ws.contains k
    gangs := s.gangs.filter fun (k, _) => gs.contains k
    launches := s.launches.filter fun (_, l) => s.ofJob part l
    regions := s.regions.filter fun (k, _) => k / 65536 == part
    pages := s.pages.filter fun (_, r) => r.part == part
    ptes := s.ptes.filter fun (k, _) => (s.part part).ports.contains (k / 2 ^ 38)
    syncs := s.syncs.filter fun (k, _) => mine k
    loads := s.loads.filter fun (_, d) => ts.contains d.team
    cmdPledges := s.cmdPledges.filter fun (k, _) => gaPart (512 * k) == part
    clk := s.clkSeen part
    fresh := s.fresh
    rot := s.rot.filter fun (u, _) => s.unitOf part u
    turns := s.dies.map fun (k, d) => (k, d.rrRegion)
    cores := s.cores.filter fun (k, _) => s.coreOf part k
    clusters := s.clusters.filter fun (k, _) => (s.part part).clusters.contains k
    msgs := s.msgs.filter fun (_, m) => m.part == part
    dir := s.dir.filter fun (k, _) => mine (k % 2 ^ 64)
    copies := s.copies.filter fun (k, _) => mine (k % 2 ^ 64)
    leases := s.leases.filter fun (k, _) => mine k
    rings := s.rings.filter fun (_, r) => r.ref.part == part && !r.ref.host
    cycle := s.cycle
    image := s.imageOf part j }

/-- Stands the events that restore a job's gangs where they were (R428). -/
def restoreInPlace (s : State) (part : Nat) : State :=
  (s.jobGangs part).foldl (fun (s : State) g =>
    let x := s.gang g
    let again := !x.resident && (x.req.map (·.inPlace)).getD false
    if again then { s with agenda := s.agenda ++ [.gangRestore g (x.core / 4 % 12) (x.core % 4)] } else s) s

/-- A checkpoint begins (R428): every resident gang of the job is halted; a request that stands on one already is served by
this halt. -/
def ckptHalt (s : State) (part : Nat) : State :=
  let s : State := { s with jobs := s.jobs.updIf part fun j => { j with halting := true, lastAt := s.clk, forced := false } }
  (s.jobGangs part).foldl (fun s g =>
    let x := s.gang g
    if !x.resident || x.retiring.isSome then s
    else
      let r : PreReq := x.req.getD { posted := s.clk, inPlace := true }
      (s.updGang g fun x => { x with req := some r }).beginHalt g) s

/-- Whether every gang of a job is saved. -/
def ckptReady (s : State) (part : Nat) : Bool := (s.jobGangs part).all fun g => !(s.gang g).resident

/-- The checkpoint is taken, the order log is empty, and the gangs are restored in place (R428, R429); a capture that
waits for its snapshot begins with it (R430), and a job that moves has recorded what its channels brought before their
markers (R431). -/
def ckptTake (s : State) (part : Nat) : State :=
  let j := s.jobs.get {} part
  let s : State := if j.pendingCapture.isSome then
      { s with launches := s.launches.map fun (k, l) => (k, if l.part = part then { l with capKey := (0, 0) } else l) } else s
  let x := s.snapOf part j
  let s : State := { s with jobs := s.jobs.updIf part fun j =>
    { j with halting := false, moving := false, count := j.count + 1, ckpt := some x, dirtied := [], logFrom := s.fresh,
             channels := if j.moving then j.arriving else j.channels,
             capCounts := if j.pendingCapture.isSome then [] else j.capCounts,
             capture := if j.pendingCapture.isSome then j.pendingCapture else j.capture,
             capSnap := if j.pendingCapture.isSome then some x else j.capSnap,
             capNext := if j.pendingCapture.isSome then 0 else j.capNext,
             sums := if j.pendingCapture.isSome then [] else j.sums, pendingCapture := none } }
  let s := if j.pendingCapture.isSome then s.captureRecord part 1 0 0 (j.count + 1) [] else s
  s.restoreInPlace part

/-- A checkpoint that could not halt every gang in time is skipped (R428): gangs that have not been saved run on, a
request that fell meanwhile standing as any other does, and those that have are restored. -/
def ckptSkip (s : State) (part : Nat) : State :=
  let s : State := { s with jobs := s.jobs.updIf part fun j => { j with halting := false } }
  let s := s.saddle 0 4 0xFFFF 0 0 0 0 0 0 0
  let s := (s.jobGangs part).foldl (fun s g =>
    let x := s.gang g
    let asked := (x.req.map (·.ckpt)).getD false
    if x.resident && ((x.req.map (·.inPlace)).getD false || asked) then
      (s.gangTeams g).foldl (fun s t => s.updTeam t fun t => { t with stopping := false, atTask := false })
        (s.updGang g fun x => { x with req := if asked then x.req.map fun r => { r with ckpt := false, halting := false, upTo := none }
                                              else none })
    else s) s
  s.restoreInPlace part

/-- Whether a collective of a partition is running (R431). -/
def collRunning (s : State) (part : Nat) : Bool :=
  s.cores.any fun (_, c) => c.copyQ.any fun x => x.st != .queued && s.regionOf x.wg / 65536 == part && match x.body with
    | .coll _ _ _ _ _ _ _ _ _ _ _ => true
    | _ => false

/-- Whether a checkpoint of a job is due: its time has come, it is asked for, or the order log is full (R428-R431; log
20). -/
def ckptDue (s : State) (j : Job) : Bool :=
  j.forced || decide (j.lastAt.toNat + j.interval.toNat ≤ s.clk.toNat) || decide (j.logFrom + Config.orderLogSize < s.fresh)

end State

/-- A checkpoint of a job goes on as far as it can (R428): it halts the job's gangs, and once they are saved it is taken; a
job that moves first lets its collectives end, and waits for the marker of each of its channels (R431). -/
def execCheckpoint (job : Nat) (s : State) : Res :=
  match s.jobs.find? job with
  | none => .next s
  | some j =>
    if j.halting then
      if s.ckptReady job && !(j.moving && j.markers.any fun (_, at_) => decide (s.cycle < at_)) then .next (s.ckptTake job)
      else if j.lastAt.toNat + j.interval.toNat ≤ s.clk.toNat then .next (s.ckptSkip job)
      else .next s
    else if s.ckptDue j && !(j.moving && s.collRunning job) then .next (s.ckptHalt job)
    else .next s

/-- The order log is full, and the next checkpoint is taken at once (R429). -/
def execOrderLogFull (job : Nat) (s : State) : Res :=
  .next { s with jobs := s.jobs.updIf job fun j => { j with forced := true } }

namespace State

/-- Puts a partition back to a checkpoint (R429, R430): its memory, tables and saved work as they stood, with what has a due
time as far from it as it was. The counters of dies and pages go on (R350); a region's come out again as they were, as their
counter block does (R356). A replay also forces the outcomes of the interval: the counter of free values, the rotating
pointers and the reading of CLK come out as before, up to the last that was logged (log 20). -/
def putBack (s : State) (part : Nat) (x : Snap) (force : Bool) : State :=
  let gs := s.jobGangs part
  let ws := s.gangWgs gs
  let ts := ws.flatMap fun w => (s.wg w).teams
  let s := gs.foldl (fun s g => s.uncharge g) s
  let s := ts.foldl (fun s t => s.endLoop t) s
  let mine := fun (ga : Nat) => gaPart ga == part
  let join := fun {α : Type} (a b : Tbl α) => b.foldl (fun m (k, v) => Tbl.put m k v) a
  let ports := (s.part part).ports
  let past := s.cycle - x.cycle
  let back := s.clk - x.clk
  let s : State := { s with
    teams := join (s.teams.filter fun (k, _) => !ts.contains k) (x.teams.map fun (k, t) =>
      (k, { t with lanes := t.lanes.map fun (l, y) => (l, { y with readyAt := y.readyAt + past }) }))
    wgs := join (s.wgs.filter fun (k, _) => !ws.contains k) x.wgs
    gangs := join (s.gangs.filter fun (k, _) => !gs.contains k) x.gangs
    launches := join (s.launches.filter fun (_, l) => !s.ofJob part l) x.launches
    regions := join (s.regions.filter fun (k, _) => k / 65536 != part) x.regions
    pages := join (s.pages.filter fun (_, r) => r.part != part)
      (x.pages.map fun (k, r) => (k, { r with word := setBits r.word 29 29 0, heat := (s.pages.get r k).heat }))
    migs := s.migs.filter fun (k, _) => !((s.pages.find? k).any fun r => r.part == part)
    ptes := join (s.ptes.filter fun (k, _) => !ports.contains (k / 2 ^ 38)) x.ptes
    syncs := join (s.syncs.filter fun (k, _) => !mine (128 * k)) x.syncs
    loads := join (s.loads.filter fun (_, d) => !ts.contains d.team) (x.loads.map fun (k, d) => (k, { d with due := d.due + past }))
    cmdPledges := join (s.cmdPledges.filter fun (k, _) => !mine (512 * k)) x.cmdPledges
    msgs := join (s.msgs.filter fun (_, m) => m.part != part) (x.msgs.map fun (k, m) =>
      (k, { m with due := m.due + past, came := if m.came = 0 then 0 else m.came + past }))
    dir := join (s.dir.filter fun (k, _) => !mine (128 * (k % 2 ^ 64))) x.dir
    copies := join (s.copies.filter fun (k, _) => !mine (128 * (k % 2 ^ 64)))
      (x.copies.map fun (k, c) => (k, { c with expiry := c.expiry.map (· + back) }))
    leases := join (s.leases.filter fun (k, _) => !mine (128 * k)) (x.leases.map fun (k, t) => (k, t + back))
    poisoned := s.poisoned.filter fun (k, _) => !mine (512 * k)
    cores := join (s.cores.filter fun (k, _) => !s.coreOf part k) (x.cores.map fun (k, c) => (k, c.keepCounts (s.core k)))
    clusters := join (s.clusters.filter fun (k, _) => !(s.part part).clusters.contains k) x.clusters
    rings := join s.rings (x.rings.filter fun (k, _) => s.rings.has k)
    mem := s.mem.filter fun (a, _) => !mine a }
  let s : State := if force then
      { s with fresh := x.fresh, rot := join (s.rot.filter fun (u, _) => !s.unitOf part u) x.rot
               dies := s.dies.map fun (k, d) => (k, { d with rrRegion := x.turns.get d.rrRegion k }) }
    else s
  let until_ := s.clk + (s.clkSeen part - x.clk)
  let s := x.image.foldl (fun s (k, b) => s.putHome (512 * k) (bytesOf 512 b)) s
  let s : State := { s with jobs := s.jobs.updIf part fun j =>
    { j with halting := false, forced := false, moving := false, lastAt := s.clk, dirtied := x.image.keys, logFrom := s.fresh,
             replayBack := back, replayUntil := if force then until_ else 0 } }
  (s.tlbDrop part none).restoreInPlace part

end State

/-- Firmware restores a job from its last checkpoint, or from the snapshot of its capture for a re-run whose checksums are
then compared (R429, R430). -/
def execReplay (job : Nat) (snapshot : Bool) (s : State) : Res :=
  match s.jobs.find? job with
  | none => .next s
  | some j =>
    match if snapshot then j.capSnap else j.ckpt with
    | none => .next s
    | some x =>
      let s := s.putBack job x (!snapshot)
      .next (if snapshot then
          { s with jobs := s.jobs.updIf job fun k => { k with rerun := j.sums, capture := none, capCounts := [] } }
        else s)

/-- The host enables capture for one job, with a ring in its own memory or in the global space of the job's root region: a
checkpoint is taken as its snapshot (R430). -/
def execCaptureEnable (job : Nat) (ring : CaptureRing) (s : State) : Res :=
  let inRoot := ring.part == job && s.regions.any fun (k, r) => k / 65536 == job && r.parent == 0xFFFF
    && decide (r.globBase.toNat ≤ ring.base) && decide (ring.base + ring.size ≤ r.globBase.toNat + r.globLimit.toNat)
  if !s.jobs.has job || !(ring.host || inRoot) || s.jobs.any fun (_, j) => j.capture.isSome || j.pendingCapture.isSome then .next s
  else .next { s with jobs := s.jobs.updIf job fun j => { j with pendingCapture := some ring, forced := true } }

/-- A job moves by a consistent cut (R431): no collective of it starts any more; once those under way have ended it is
halted, the messages that arrive on each channel before its marker are recorded, and the image is taken as a
checkpoint is. Its channels are the trained Pallum links on which its partition has a slot. Which messages come, and when a
marker does, is the network's (log 3). -/
def execJobMove (job : Nat) (received : List (List Byte)) (s : State) : Res :=
  let links := (List.range 18).filter fun k => (s.linkAt (16 + k)).trained && s.ownsSlot (16 + k) job
  let (markers, s) := links.foldl (fun ((m, s) : Tbl Nat × State) k =>
    let (n, s) := s.draw
    (Tbl.put m k (s.cycle + 1 + n), s)) ([], s)
  .next { s with jobs := s.jobs.updIf job fun j =>
    { j with moving := true, forced := true, markers := markers, arriving := received } }

end Sys2Proof.Machine
end

