-- ==== Sys2Proof/Machine/Clock.lean ====
section
/-!
DEFINITION. The end of a cycle (02 R4, R42, R43; 03 R69; 12 R299; 16 R352, R357, R358; 23 R427) and what the units of the
machine have to do in the next: every wait, message, command and limit that has come due stands as an event (log 2). What
the architecture leaves to a unit's own time or choice is drawn freely (R433, R435; logs 3, 5).
-/

namespace Sys2Proof.Machine

namespace State

/-- Stands an event. -/
def plan (s : State) (i : Instr) : State := { s with agenda := s.agenda ++ [i] }
/-- Stands some events. -/
def planAll (s : State) (is : List Instr) : State := { s with agenda := s.agenda ++ is }

/-! Counters of a cycle. -/

/-- The resident teams. -/
def residents (s : State) : List Nat := (s.teams.filter fun (_, t) => t.resident).map (·.1)

/-- A 64-bit counter after `n` more events: it saturates at all ones (R350). -/
def countUp (x : DWord) (n : Nat) : DWord := if x.toNat + n ≥ 2 ^ 64 then BitVec.allOnes 64 else x + BitVec.ofNat 64 n

/-- RUN and the region's team cycles rise (R69, R355). -/
def countTeams (s : State) : State :=
  s.residents.foldl (fun s t =>
    (s.updTeam t fun x => { x with run := countUp x.run 1 }).updRegion (s.teamRegion t) fun r =>
      { r with teamCycles := sat64 (r.teamCycles + 1) }) s

/-- A busy cycle of a matrix unit or half is charged to the region of the workgroup whose operation it executes (R357). -/
def countMatrix (s : State) : State :=
  s.cores.keys.foldl (fun s core => [0, 1].foldl (fun s half =>
    match s.matHead core half with
    | some x =>
      if x.st = .running then
        let s := s.updCore core fun c =>
          { c with matrix := if half = 1 then { c.matrix with busy1 := sat64 (c.matrix.busy1 + 1) }
                             else { c.matrix with busy0 := sat64 (c.matrix.busy0 + 1) } }
        s.updRegion (s.regionOf x.wg) fun r => { r with matBusy := sat64 (r.matBusy + 1) }
      else s
    | none => s) s) s

/-- The pipes that hold a resident team, as core and pipe. -/
def usedPipes (s : State) : List (Nat × Nat) :=
  ((s.teams.filter fun (_, t) => t.resident).map fun (_, t) => (t.core, t.pipe)).eraseDups

/-- The histogram bin of a pipe (R358). -/
def histBin (s : State) (core pipe e : Nat) : Nat :=
  let h := ((s.core core).pipes.get {} pipe).hist
  if e = 0 then sat64 (s.cycle - h.foldl (fun n x => n + x.2) 0) else h.get 0 e

/-- The histogram and the stall reason of a pipe's cycle (R358). -/
def countStall (s : State) (core pipe : Nat) : State :=
  let here := s.onPipe core pipe
  let e := (here.filter fun (k, _) => s.ready k != []).length
  let add := fun (f : Pipe → Pipe) => s.updCore core fun c => { c with pipes := c.pipes.upd {} pipe f }
  if e ≠ 0 then add fun p => { p with hist := p.hist.upd 0 e fun n => sat64 (n + 1) }
  else match oldest here with
    | some (k, _) =>
      let r := s.stallReason k
      (add fun p => { p with reasons := p.reasons.upd 0 r fun n => sat64 (n + 1) }).updRegion (s.teamRegion k) fun g =>
        { g with reasons := g.reasons.upd 0 r fun n => sat64 (n + 1) }
    | none => s

/-- The samples that fall in this cycle; the other pipes start it as not yet having issued (R360). -/
def samples (s : State) : State :=
  let due := fun (p : Pipe) => match p.sample with | some k => decide (s.cycle % 2 ^ k = 0) | none => false
  let events := s.cores.flatMap fun (k, c) => (c.pipes.filter fun (_, p) => due p).map fun (i, _) => Instr.pipeSample (k * 4 + i)
  let s : State := { s with cores := s.cores.map fun (k, c) =>
    (k, { c with pipes := c.pipes.map fun (i, p) => (i, if due p then p else { p with issued := false }) }) }
  s.planAll events

/-! Holds. -/

/-- The lanes of a team under a hold. -/
def underHold (t : Team) (h : Hold) : Mask := t.holders (· == h)

/-- Whether the frame of a team in its handler is whole at the home: its siblings have stopped, and its stores and theirs are
there (R391, R397, R401). -/
def frameWhole (s : State) (tk : Nat) : Bool :=
  let t := s.team tk
  (s.teamsOf t.wg).all (fun (_, y) => y.haltDue.isNone) && !s.hwOut (gaOf (s.teamPart tk) t.slotVa) 384

/-- A hold that its own condition ends: the group's instruction is then performed, or issues again (R43). The completion of
one in lanes that are stopped is theirs as they are released (R266, R400, R401). -/
def tryHold (s : State) (tk : Nat) (h : Hold) : State :=
  let t := s.team tk
  let m := underHold t h
  let goOn := fun (s : State) => s.updTeam tk fun t => t.complete m
  match h with
  | .done => s.updTeam tk fun t => t.advance (maskBy fun l => m.getLsbD l && !t.parked l)
  | .drain core upTo => if s.drained core upTo then goOn s else s
  | .team scope => if s.strongOut tk || (scope < 2 && s.loadsOut tk) then s else goOn s
  | .record core i => if s.recordBusy core t.wg i then s else goOn (s.clearRecord core t.wg i)
  | .release line va scope word => s.releaseNow tk m line va scope word
  | .frame => if s.frameWhole tk then s.updTeam tk fun t => t.unhold m else s
  | .code core upTo lines =>
    if s.drained core upTo then
      let part := s.teamPart tk
      goOn { s with cores := s.cores.map fun (k, x) =>
        (k, if (s.part part).clusters.contains (coreRq k) then
              { x with fcopy := x.fcopy.filter fun (l, _) => !lines.contains l } else x) }
    else s
  | .missRoom => if (s.walks (coreRq t.core)).length < 272 then s.updTeam tk fun t => t.unhold m else s
  | .earlier _ => if s.lanesOut tk m then s else s.updTeam tk fun t => t.unhold m
  | .split word => s.splitNext tk m word
  | .ask a word => s.askServed tk m a word
  | .room =>
    let (n, s) := s.draw
    if n % 2 = 0 then s.updTeam tk fun t => t.unhold m else s
  | _ => s

/-- The unit that orders a hold among those of one cycle, the reserve unit of the region asked for sectors or the walker that
would be split, and the place of its core in the rotation (R206, R294, R383, R435; log 5). -/
def holdRot (s : State) (tk : Nat) (h : Hold) : Option (Nat × Nat) :=
  let t := s.team tk
  match h with
  | .ask _ _ =>
    let r := s.teamRegion tk
    ((s.region r).parentKey (r / 65536)).map fun p => (reserveUnit p, placeOfEngine t.core)
  | .split _ =>
    let id := (s.gangs.get { launch := 0 } (s.wg t.wg).gang).launch
    ((s.launches.find? id).bind splittable).map fun (k, _) => (walkerUnit id k, placeOfEngine t.core)
  | _ => none

/-- A unit's pointer moves past each winner of a tie among requests that stand in its order (R435). -/
def passWinners (s : State) : List (Nat × Nat) → State
  | a :: b :: xs => (if a.1 = b.1 then s.rotPast a.1 a.2 else s).passWinners (b :: xs)
  | _ => s

/-- Every such hold of every team: by ascending core and pipe those that no unit orders, and then those that one does, in its
rotation (R43, R206, R294, R435). -/
def tryHolds (s : State) : State :=
  let all := s.teams.flatMap fun (tk, t) =>
    (((lanesOf t.live).filterMap fun l => (t.lane l).hold).eraseDups).map fun h =>
      (4 * t.core + t.pipe, tk, h)
  let plain := all.filter fun (_, tk, h) => (s.holdRot tk h).isNone
  let ordered := all.filterMap fun (_, tk, h) => (s.holdRot tk h).map fun (u, r) => (u, r, tk, h)
  let before := fun (a b : Nat × Nat × Nat × Hold) =>
    decide (a.1 < b.1) || (a.1 == b.1 && decide (s.rotDistance a.1 a.2.1 < s.rotDistance a.1 b.2.1))
  let turns := sortBy before ordered
  let s := (sortBy (fun (a b : Nat × Nat × Hold) => decide (a.1 < b.1)) plain).foldl (fun s (_, tk, h) => s.tryHold tk h) s
  (turns.foldl (fun s (_, _, tk, h) => s.tryHold tk h) s).passWinners (turns.map fun (u, r, _, _) => (u, r))

/-! Fetches that wait. -/

/-- A group whose next word lies in a page that no TLB of its core holds joins or asks for the page's walk (R283); one whose
next line waits for a slot of a link waits there (R300). Cores and pipes ascend (R283). -/
def fetchWalks (s : State) : State :=
  let place := fun (t : Team) => 4 * t.core + t.pipe
  (sortBy (fun (a b : Nat × Team) => decide (place a.2 < place b.2)) s.teams).foldl (fun s (tk, t) =>
    if !selecting t then s
    else (groups t).foldl (fun s (pc, m) => match s.fetchMisses tk pc with
      | [] => (s.fetchAway tk pc).foldl (fun s a => match s.gate (coreDie t.core) (a / 128) with
        | some l => s.noteWait l (s.teamPart tk)
        | none => s) s
      | away =>
        let va := s.codeOf tk + 12 * pc.toNat
        s.askWalks tk m false 0 [(va, m), (va + 11, m)] away) s) s

/-- The looks that open chains still owe are made as soon as the next word can be fetched (R97, R203, R283). -/
def looksOn (s : State) : State :=
  s.teams.foldl (fun s (tk, t) => match t.chain with
    | some ch =>
      if !ch.look then s
      else match lowest (ch.lanes &&& issuable t) with
        | some l => s.lookOn tk (t.lane l).pc ch
        | none => s
    | none => s) s

/-! Halts, instances and engine queues. -/

/-- Whether a halt of a workgroup's gang is under way; one that is pending for MASK is not (R318, R408). -/
def wgHalting (s : State) (w : Nat) : Bool :=
  let g := (s.wg w).gang
  match (s.gang g).req with
  | some r => r.halting && !s.gangMasked g
  | none => false

/-- An assembly instance whose named team has ended without contributing is discarded (R326). -/
def pruneInstances (s : State) : State :=
  s.wgs.foldl (fun s (wk, w) =>
    if !w.resident || w.ended then s
    else
      let over_ := fun (a : AsmInst) => w.teams.any fun t => let x := s.team t; a.missing.contains x.teamid && x.live == 0
      let gone := w.asm.filter over_
      let s := gone.foldl (fun s a => (s.endPledges a.pledged).cmdDone a.id []) s
      if gone.isEmpty then s else s.updWg wk fun w => { w with asm := w.asm.filter fun a => !(gone.any (·.id == a.id)) }) s

/-- The head of a matrix queue starts (R337): 16 cycles for a matrix operation, its own time for a transfer. -/
def startMatrix (s : State) (core half : Nat) : State :=
  match s.matHead core half with
  | some x =>
    if x.st != .queued || s.wgHalting x.wg then s
    else
      let (n, s) := s.draw
      let t := match x.body with | .mat (.mma _ _ _ _ _) _ _ _ _ _ _ => 16 | _ => 1 + n
      s.updCmd core x.id fun y => { y with st := .running, busyUntil := s.cycle + t }
  | none => s

/-- The next command of a copy queue, where it is a collective, starts once all before it have started (R318, R344). -/
def startColl (s : State) (core : Nat) : State :=
  match (s.core core).copyQ.find? fun x => x.st == .queued with
  | some x => match x.body with
    | .coll _ _ _ _ _ _ _ _ _ _ _ =>
      if s.wgHalting x.wg || (s.jobs.get {} (s.regionOf x.wg / 65536)).moving then s
      else s.updCmd core x.id fun y => { y with st := .running }
    | _ => s
  | none => s

/-- The cores of dies that are out of reset, whose engines run (R422). -/
def running (s : State) : Tbl Core := s.cores.filter fun (core, _) => (s.die (coreDie core)).booted

/-- The engine queues of every core that runs. -/
def startEngines (s : State) : State :=
  s.running.keys.foldl (fun s core => ((s.startMatrix core 0).startMatrix core 1).startColl core) s

/-- The source bytes of a collective. -/
def collReads (x : Cmd) : List (Nat × Nat) :=
  match x.body with
  | .coll _ ty count src _ _ _ _ _ _ _ => [(src, count * (ty.width / 8))]
  | _ => []

/-- What a running collective of this package brings to another member (R343, R344). -/
def partOf (s : State) (core : Nat) (y : Cmd) : Option CollPart :=
  match y.body with
  | .coll op ty count src _ _ seq p rank tag _ =>
    let w := ty.width / 8
    let vals := (List.range count).map fun i => collWiden ty (loadNat ((List.range w).map fun j => s.copySource core (src + w * i + j)))
    some { rank := rank, p := p, tag := tag, seq := seq, op := op, ty := ty, count := count, flits := linkFlits (count / 16 + 1) vals }
  | _ => none

/-- Entry j of the member table of a collective (R343). -/
def memberAt (s : State) (table j : Nat) : Nat := loadNat (s.homeLoad (table + 8 * j) 8)

/-- A ready collective whose source lines are at hand takes its part, once, and reads its member table, where migrations and
links let it; the others ask for their lines (R203, R239, R299, R343, R344). -/
def collTake (s : State) (core : Nat) (x : Cmd) : State :=
  let s := s.askRuns core (collReads x)
  match x.body, x.brings with
  | .coll _ _ _ _ _ _ _ p _ _ table, none =>
    if s.teamsStrongOut x.teams || s.away (coreDie core) (collReads x) != [] || s.migrating table then s
    else match s.readShut (coreDie core) table (8 * p) with
    | some s => s
    | none => match s.partOf core x with
      | some q => (s.hwHeat table (8 * p)).updCmd core x.id fun y => { y with brings := some (q, s.clk.toNat) }
      | none => s
  | _, _ => s

/-- Every ready collective, by its core. -/
def colls (s : State) : List (Nat × Cmd) := s.running.flatMap fun (core, c) => (collsReady c.copyQ).map fun x => (core, x)

/-- Whether the member table of a collective names a die of its own package at another rank than its own (R343). -/
def namesDie (s : State) (x : Cmd) (die : Nat) : Bool :=
  match x.body with
  | .coll _ _ _ _ _ _ _ p rank _ table => (List.range p).any fun j => j != rank
      && s.memberAt table j / 65536 % 4 == die && s.memberAt table j % 65536 == s.memberAt table rank % 65536
  | _ => false

/-- TAG and SEQ of a collective, with its partition. -/
def collKey (s : State) (x : Cmd) : Option (Nat × DWord × DWord) :=
  match x.body with
  | .coll _ _ _ _ _ _ seq _ _ tag _ => some (s.regionOf x.wg / 65536, tag, seq)
  | _ => none

/-- The other ready collectives of this package that are of the instance of one: those of its TAG and SEQ, where the member
table of either names the other's die (R343, R344). -/
def peersOf (s : State) (core : Nat) (x : Cmd) : List (Nat × Cmd) :=
  s.colls.filter fun (c, y) => y.id != x.id && s.collKey y == s.collKey x && (s.collKey x).isSome
    && (s.namesDie x (coreDie c) || s.namesDie y (coreDie core))

/-- Whether a command of the copy queues of a die is of a collective. -/
def collOn (s : State) (die : Nat) (key : Option (Nat × DWord × DWord)) : Bool :=
  s.cores.any fun (c, k) => coreDie c == die && k.copyQ.any fun y => s.collKey y == key

/-- The ready collectives of this package of the SEQ of one and another TAG, each of whose member tables names the
other's die, where neither die has the one that the other awaits: their members' records may not agree on TAG (R344). -/
def strangersOf (s : State) (core : Nat) (x : Cmd) : List (Nat × Cmd) :=
  s.colls.filter fun (c, y) => match s.collKey x, s.collKey y with
    | some (p, t, n), some (p', t', n') => p == p' && n == n' && t != t'
        && s.namesDie x (coreDie c) && s.namesDie y (coreDie core)
        && !s.collOn (coreDie c) (s.collKey x) && !s.collOn (coreDie core) (s.collKey y)
    | _, _ => false

/-- The parts that a collective's peers bring cross to it, in the slots of the links between their dies; one that
finds no slot waits there (R299, R300, R344). When members that disagree on TAG take each other's parts for those of one
instance no rule says: it is free (log 3). -/
def collShare (s : State) (core : Nat) (x : Cmd) : State :=
  let part := s.regionOf x.wg / 65536
  let (n, s) := s.draw
  (s.peersOf core x ++ if n % 16 = 0 then s.strangersOf core x else []).foldl (fun s (c, y) => match y.brings with
    | none => s
    | some (q, _) =>
      if ((s.findCmd core x.id).map fun z => z.got.contains q).getD true then s
      else match (linkOf (coreDie c) (coreDie core)).filter fun l => !s.mayCross l part with
        | some l => s.noteWait l part
        | none => s.updCmd core x.id fun z => { z with got := z.got ++ [q] }) s

/-- The parts with which a collective can be executed now: those of all other members, where it has been brought them
and each of its peers has been brought its own; where a member has discarded the instance, lost ones; and, where members have
been found not to agree, one that shows it (R333, R344). A member on another package brings its part from outside. -/
def localParts (s : State) (core : Nat) (x : Cmd) : Option (List CollPart) :=
  match x.body with
  | .coll op ty count _ _ _ seq p rank tag _ =>
    if s.collGone.contains (s.regionOf x.wg / 65536, tag, seq) then
      some (((List.range p).filter (· != rank)).map fun j =>
        { rank := j, p := p, tag := tag, seq := seq, op := op, ty := ty, count := count, flits := [], lost := true })
    else if s.collBad.contains (s.regionOf x.wg / 65536, tag, seq) then
      some [{ rank := p, p := p + 1, tag := tag, seq := seq, op := op, ty := ty, count := count, flits := [] }]
    else match x.brings with
      | some (q, _) =>
        match x.got.filter fun y => y.p != p || y.tag != tag with
        | y :: _ => some [y]
        | [] =>
          if partsWhole p rank x.got && (s.peersOf core x).all fun (_, y) => y.got.contains q then some x.got else none
      | none => none
  | _ => none

/-- The collectives that can be executed now (R344). -/
def collEvents (s : State) : List Instr :=
  s.colls.flatMap fun (core, x) =>
    if s.teamsStrongOut x.teams then []
    else match s.localParts core x with
      | some ps => [.collExecution core ps]
      | none => []

/-- The ready collectives take their parts and are brought those of their peers. -/
def collMoves (s : State) : State :=
  let s := s.colls.foldl (fun s (core, x) => s.collTake core x) s
  s.colls.foldl (fun s (core, x) => s.collShare core x) s

/-- What the engines have to do: the next copy of a queue that may start, the operation at the head of a matrix queue, and
releases that waited (R318, R325, R328, R337). -/
def engineEvents (s : State) : List Instr :=
  s.running.flatMap fun (core, c) =>
    let copy := match nextCopy c.copyQ [] with
      | some x => if x.st == .queued && s.wgHalting x.wg then [] else [Instr.copyExecution core]
      | none => []
    let heads := [0, 1].flatMap fun half => match s.matHead core half with
      | some x =>
        if !s.ripe x then []
        else match x.body with
          | .mat (.mma _ _ _ _ _) _ _ _ _ _ _ => [Instr.matrixOperation core half]
          | _ => [Instr.accumulatorTransfer core half]
      | none => []
    let rels := (c.copyQ.filter fun x => x.st == .releasing).map fun x => Instr.releaseFlagRecord core x.id
    copy ++ heads ++ rels

/-! Teams. -/

/-- Whether a team that is not stopped has a lane that waits as described. -/
def anyWaits (t : Team) (p : Wait → Bool) : Bool := t.waiters p != 0

/-- What comes due for a team: the halt broadcast, the timer, the end of a sleep, and the instructions that it waits at
(R41, R68, R131, R332, R346, R372, R374, R401). -/
def teamEvents (s : State) (tk : Nat) (t : Team) : List Instr :=
  let halt := match t.haltDue with
    | some c => if t.chain.isNone && (decide (c ≤ s.cycle) || decide (4 ≤ t.skid)) then [Instr.haltBroadcast tk] else []
    | none => []
  let timer := if decide (t.tmrcmp ≤ t.run) && !t.notice.getLsbD 0 then [Instr.noticeTimer tk] else []
  let sleep := if anyWaits t fun w => match w with | .sleep d n => decide (d ≤ t.run) || t.noticeRose != n | _ => false
    then [Instr.sleepEnd tk] else []
  let close := (lanesOf (t.waiters fun w => match w with | .close _ _ => true | _ => false)).map fun l =>
    Instr.convCloseCompletion tk l
  let colls := t.colls.keys.map fun i => Instr.collectiveCompletion tk i
  let copy := if anyWaits t fun w => match w with | .copyWait _ => true | _ => false then [Instr.copyWaitCompletion tk] else []
  let coll := if anyWaits t fun w => match w with | .collWait _ => true | _ => false then [Instr.collWaitCompletion tk] else []
  let phase := if anyWaits t fun w => match w with | .pbar _ _ _ _ => true | _ => false then [Instr.pbarWaitCompletion tk] else []
  let mma := if anyWaits t fun w => match w with | .mma _ _ _ _ _ => true | _ => false then [Instr.mmaEnqueueResume tk] else []
  halt ++ timer ++ sleep ++ close ++ colls ++ copy ++ coll ++ phase ++ mma

/-- The waiting full/empty loads in the order in which they are tried (R185). -/
def feEvents (s : State) : List Instr :=
  (sortBy (fun (a b : Nat × Load) => s.feBefore a.2 b.2) (s.loads.filter fun (_, d) => d.fe != 0)).map fun (k, _) =>
    Instr.feLoadCompletion k

/-- The barriers at which a lane waits (R367, R369). -/
def barrierEvents (s : State) : List Instr :=
  let waits := fun (w : Nat) (p : Wait → Bool) => (s.wg w).teams.any fun t => anyWaits (s.team t) p
  (s.wgs.keys.filter fun w => waits w (· == .bar)).map Instr.barCompletion
    ++ (s.gangs.filter fun (_, g) => g.wgs.any fun w => waits w fun x => match x with | .barGang _ => true | _ => false).map
      fun (k, _) => Instr.barGangCompletion k

/-! Messages and loads. -/

/-- The inter-die links that a message and the reply that it draws cross, in order (R299, R319, R320; log 29): the
reads of a walk go to each table's die, and a read is served once its reply may cross too. -/
def crosses (s : State) (m : Msg) : List Nat :=
  let home := fun (die line : Nat) => (s.linkTo die line).toList
  let coreHome := fun (core line : Nat) => home (coreDie core) line
  match m.body with
  | .pledge ks r => (ks.head?.map fun k => coreHome r.core (4 * k) ++ coreHome r.core (4 * k)).getD []
  | .ownerChange k c => coreHome c (4 * k)
  | .merge c l _ _ => coreHome c l
  | .strong c l _ _ w a _ => coreHome c l ++ (if w && a.isNone then [] else coreHome c l)
  | .landing c _ k => coreHome c (4 * k)
  | .copyRead d _ l _ => home d l ++ home d l
  | .fwdRead o d _ l _ => home o l ++ (linkOf o d).toList
  | .invalidate d l => home d l
  | .backInv d l => home d l
  | .takeback c l => coreHome c l
  | .surrender c l _ => coreHome c l
  | .surrenderAck c l _ => coreHome c l
  | .grant l r => coreHome r.core l
  | .walk rq part page => s.walkLinks (rq / 12) part (65536 * page)

/-- The die from which a message sets out: that of the home for what a home sends (R319). -/
def originDie (s : State) (b : MsgBody) : Nat :=
  let home := fun (line : Nat) => portDie (s.homePort line)
  match b with
  | .pledge _ r => coreDie r.core
  | .merge c _ _ _ | .strong c _ _ _ _ _ _ | .landing c _ _ | .surrenderAck c _ _ => coreDie c
  | .copyRead d _ _ _ => d
  | .walk rq _ _ => rq / 12
  | .ownerChange k _ => home (4 * k)
  | .fwdRead _ _ _ l _ | .invalidate _ l | .backInv _ l | .takeback _ l | .surrender _ l _ | .grant l _ => home l

/-- The links that a message itself crosses: over those after them goes the reply that it draws (R319, R320). -/
def outLegs (s : State) (m : Msg) : Nat :=
  let n := (s.crosses m).length
  match m.body with
  | .pledge _ _ | .copyRead _ _ _ _ => n / 2
  | .strong _ _ _ _ w a _ => if w && a.isNone then n else n / 2
  | .fwdRead o _ _ l _ => (s.linkTo o l).toList.length
  | _ => n

/-- The class in which a message stands at a link: that of its reply where the reply is what crosses (R319). -/
def classAt (s : State) (m : Msg) : Class := if m.hops < s.outLegs m then m.cls else .reply

/-- The die at whose end of a link a message waits. The reads of a walk each go out from the same die. -/
def endDie (s : State) (m : Msg) : Nat :=
  match m.body with
  | .walk rq _ _ => rq / 12
  | b => ((s.crosses m).take m.hops).foldl (fun d l => if d = l / 4 then l % 4 else if d = l % 4 then l / 4 else d) (s.originDie b)

/-- The queue of a traffic class at a die's endpoint of a link: what waits there, oldest first (R303, R319). -/
def linkQueue (s : State) (link die : Nat) (c : Class) : List Nat :=
  (s.msgs.filter fun (_, m) => m.link == some link && s.classAt m == c && s.endDie m == die).map (·.1)

/-- The line whose home serves a message. -/
def servedAt (b : MsgBody) : Option Nat :=
  match b with
  | .pledge ks _ => ks.head?.map (4 * ·)
  | .merge _ l _ _ | .strong _ l _ _ _ _ _ | .copyRead _ _ l _ | .surrenderAck _ l _ => some l
  | .landing _ _ k => some (4 * k)
  | _ => none

/-- The queue of a traffic class at a memory port: what has reached the port, or waits there to be served, oldest first
(R303, R319). -/
def portQueue (s : State) (port : Nat) (c : Class) : List Nat :=
  (s.msgs.filter fun (_, m) => m.cls == c && decide (m.due ≤ s.cycle) && decide ((s.crosses m).length ≤ m.hops)
    && ((servedAt m.body).any fun l => s.homePort l == port)).map (·.1)

/-- The event that serves a message. -/
def msgEvent (id : Nat) (b : MsgBody) : Instr :=
  match b with
  | .pledge _ _ => .pledgeRequest id
  | .ownerChange _ _ => .pledgeOwnerChange id
  | .merge _ _ _ _ => .merge id
  | .strong _ _ _ _ _ _ _ => .homeStrongAccess id
  | .landing _ _ _ => .engineWriteLanding id
  | .copyRead _ _ _ _ => .dieCopyRead id
  | .fwdRead _ _ _ _ _ => .forwardedRead id
  | .invalidate _ _ => .dieCopyInvalidate id
  | .backInv _ _ => .backInvalidation id
  | .takeback _ _ => .holdTakeback id
  | .surrender _ _ _ => .surrender id
  | .surrenderAck _ _ _ => .surrenderAck id
  | .grant _ _ => .acquireGrant id
  | .walk _ _ _ => .tlbWalk id

/-- The units that order a message among those that reach them in one cycle, with its place in the rotation of each:
the homes of its lines or blocks, where writes merge, claims are made and lines are read, and the reserve units of
their owner regions, where it pledges or settles (R206, R208, R246, R435; log 5). -/
def rotOf (s : State) (b : MsgBody) : List (Nat × Nat) :=
  let units := fun (lines : List Nat) (settles : Bool) (place : Nat) =>
    ((lines.map s.homePort) ++ (if settles then (lines.filterMap fun l => s.ownerOf (l / 4)).map reserveUnit else [])).eraseDups.map
      fun u => (u, place)
  match b with
  | .pledge ks r => units (ks.map (4 * ·)) true (placeOfCore r.core)
  | .merge c l _ _ => units [l] true (placeOfCore c)
  | .strong c l _ _ w _ _ => units [l] w (placeOfCore c)
  | .landing c _ k => units [4 * k] true (placeOfEngine c)
  | .copyRead _ c l load => units [l] false (if load = 0 then placeOfEngine c else placeOfCore c)
  | _ => []

/-- Control before reply before request (R299). -/
def classRank (c : Class) : Nat := match c with | .control => 0 | .reply => 1 | .request => 2

/-- Whether one of two messages goes first: by class, then by the cycle in which they came, and at a tie by the
rotation of the first unit that both reach (R299, R320, R435). -/
def servedFirst (s : State) (a b : Nat × Msg) : Bool :=
  let x := classRank a.2.cls
  let y := classRank b.2.cls
  decide (x < y) || (x == y && (decide (a.2.came < b.2.came) || (a.2.came == b.2.came &&
    match (s.rotOf a.2.body).findSome? fun (u, r) => ((s.rotOf b.2.body).find? fun v => v.1 == u).map fun v => (u, r, v.2) with
    | some (u, r, q) => decide (s.rotDistance u r < s.rotDistance u q)
    | none => false)))

/-- The order in which messages are served: each time the oldest that no other goes before, or the oldest where there
is none. -/
def serveOrder (s : State) : Nat → List (Nat × Msg) → List (Nat × Msg)
  | 0, ms => ms
  | n + 1, ms =>
    match (ms.find? fun x => !(ms.any fun y => y.1 != x.1 && s.servedFirst y x)).orElse fun _ => ms.head? with
    | none => []
    | some x => x :: s.serveOrder n (ms.filter fun y => y.1 != x.1)

/-- The pointers of the units that messages of one class reached together in this cycle move past the winners (R435). -/
def passTies (s : State) (ms : List (Nat × Msg)) : State :=
  let new := (ms.filter fun (_, m) => m.came == s.cycle).map fun (_, m) => (classRank m.cls, s.rotOf m.body)
  let keys := (new.flatMap fun (c, us) => us.map fun (u, _) => (c, u)).eraseDups
  keys.foldl (fun s (c, u) => s.passWinners (new.filterMap fun (d, us) =>
    if d = c then us.find? fun v => v.1 == u else none)) s

/-- A message that has come due crosses the next of its links where its partition's slot is live, and waits there otherwise
(R299, R300). -/
def hop (s : State) (m : Msg) : Msg :=
  match (s.crosses m)[m.hops]? with
  | none => m
  | some l =>
    if s.mayCross l m.part then { m with hops := m.hops + 1, link := none }
    else if m.link = some l then m else { m with link := some l, waitFrom := s.clk.toNat }

/-- The messages that have come due are served, once they have crossed every link that lies on their way and so reached their
unit (R299, R300, R319, R320). -/
def messageEvents (s : State) : State :=
  let s : State := { s with msgs := s.msgs.map fun (k, m) => (k, if m.due ≤ s.cycle then s.hop m else m) }
  let here := fun (m : Msg) => decide (m.due ≤ s.cycle) && decide ((s.crosses m).length ≤ m.hops)
  let s : State := { s with msgs := s.msgs.map fun (k, m) =>
    (k, if here m && m.came == 0 then { m with came := s.cycle } else m) }
  let ordered := s.serveOrder s.msgs.length (s.msgs.filter fun (_, m) => here m)
  (s.passTies ordered).planAll (ordered.map fun (k, m) => msgEvent k m.body)

/-- Requests cross the link to their sync line's home in a slot of their partition (R299); those that reached it in one cycle
stand in the order of the home's rotation, whose pointer moves past the winners (R234, R435). -/
def orderSyncs (s : State) : State :=
  s.syncs.foldl (fun s (line, m) =>
    let s := m.queue.foldl (fun s r => match r.away, s.gate (coreDie r.core) line with
      | true, some l => s.noteWait l (gaPart (128 * line))
      | _, _ => s) s
    let stays := fun (r : SyncReq) => r.away && (s.gate (coreDie r.core) line).isSome
    let old := m.queue.filter fun r => !r.away && r.since != s.cycle
    let new := (m.queue.filter fun r => !stays r && (r.away || r.since == s.cycle)).map fun r => { r with away := false, since := s.cycle }
    let u := s.homePort line
    let place := fun (r : SyncReq) => if r.cmd.isSome then placeOfEngine r.core else placeOfCore r.core
    let sorted := sortBy (fun (a b : SyncReq) => decide (s.rotDistance u (place a) < s.rotDistance u (place b))) new
    let s := { s with syncs := s.syncs.updIf line fun x => { x with queue := old ++ sorted ++ m.queue.filter stays } }
    s.passWinners (sorted.map fun r => (u, place r))) s

/-- Traffic that has waited a full period for a slot of its partition (R300). -/
def alerts (s : State) : List Instr :=
  let late := fun (since : Nat) => decide (since + 3840 ≤ s.clk.toNat)
  let msgs := s.msgs.filterMap fun (_, m) => m.link.bind fun l => if late m.waitFrom then some (l, m.part) else none
  let copies := s.rings.flatMap fun (k, g) => g.copies.filterMap fun c =>
    c.wait.bind fun (l, t) => if late t then some (l, s.ringPart k) else none
  let other := s.linkWaits.filterMap fun (k, w) => if late w.1 then some (k / 32, k % 32) else none
  (((msgs ++ copies ++ other).filter fun (l, p) => !s.ownsSlot l p).eraseDups).map fun (l, p) => Instr.noSlotAlert l p

/-- Loads that have come due: those whose values are at hand return, and lines that are missing are asked for again
(R189, R230). -/
def loadEvents (s : State) : State :=
  s.loads.foldl (fun s (id, d) =>
    if d.fe != 0 || s.cycle < d.due then s
    else if s.loadReady d then s.plan (.loadDataReply id)
    else
      let asked := fun (line : Nat) => s.msgs.any fun (_, m) => match m.body with
        | .copyRead die _ l _ => die == coreDie d.core && l == line
        | .fwdRead _ die _ l _ => die == coreDie d.core && l == line
        | _ => false
      s.askLines d.core id ((s.missingLines d).filter fun line => !asked line)) s

/-! Gangs and dispatchers. -/

/-- Limits, halts and ends of gangs and workgroups, and gangs that go back to their places after a checkpoint (R316, R333,
R406-R410, R428). -/
def gangEvents (s : State) : List Instr :=
  let posted := fun (g : Gang) (limit : Part → DWord) => match g.req, s.launches.find? g.launch with
    | some r, some l => decide (r.posted.toNat + (limit (s.part l.part)).toNat ≤ s.clk.toNat)
    | _, _ => false
  let kill := (s.gangs.filter fun (_, g) => posted g (·.kill) && g.resident && !((g.req.map fun r => r.inPlace || r.ckpt).getD true)).map
    fun (k, _) => Instr.killExpiry k
  let grace := (s.gangs.filter fun (_, g) => posted g (·.grace) && !((g.req.map (·.halting)).getD true)).map
    fun (k, _) => Instr.graceExpiry k
  let ends := (s.wgs.filter fun (k, w) => w.resident && !w.ended && w.teams.all (fun t => (s.team t).live == 0)
    && (s.cmdsOf k).isEmpty).map fun (k, _) => Instr.workgroupEnd k
  let retire := (s.gangs.filter fun (_, g) => g.wgs.all fun w => (s.wg w).ended).map fun (k, _) => Instr.gangRetirement k
  let halts := (s.gangs.filter fun (_, g) => g.resident && (g.req.map (·.halting)).getD false).map
    fun (k, _) => Instr.instructionLevelHalt k
  let gone := (s.gangs.filter fun (_, g) => match g.req.bind (·.asker) with
    | some id => !s.launches.has id
    | none => false).map fun (k, _) => Instr.preemptWithdraw k
  let back := (s.gangs.filter fun (_, g) => !g.resident && ((g.req.map (·.inPlace)).getD false)
    && !((s.launches.find? g.launch).any fun l => (s.jobs.get {} l.part).halting)).map
    fun (k, g) => Instr.gangRestore k (g.core / 4 % 12) (g.core % 4)
  kill ++ grace ++ ends ++ retire ++ halts ++ gone ++ back

/-- The clusters that a dispatcher would fuse or unfuse for a waiting launch (R191, R192). It fuses an empty cluster for any
waiting fusion launch that fits there, and unfuses one only where another launch fits and no fusion launch does: no rule says
when (DESIGN CHOICE, log 74). -/
def fusionEvents (s : State) (die : Nat) : List Instr :=
  ((List.range 12).filter (· != 0)).flatMap fun k =>
    let rq := die * 12 + k
    let fused := (s.cluster rq).fused
    if !s.clusterEmpty rq then []
    else
      let wants := fun (fuse : Bool) => s.launches.any fun (id, l) => l.die == die && l.fuse == fuse
        && (List.range 4).any fun i => (s.picks id l (4 * rq + i)).any fun p => s.fits l p (4 * rq + i)
      if !fused && wants true then [.l1FusionSwitch die k true]
      else if fused && wants false && !wants true then [.l1FusionSwitch die k false] else []

/-- What the dispatcher of a die that is out of reset does in this cycle, at a core that it is free to look at (R293,
R317, R422, R433). -/
def dispatchEvents (s : State) (die : Nat) : State :=
  if !(s.die die).booted || !(s.launches.any fun (_, l) => l.die == die) then s
  else
    let (n, s) := s.draw
    let k := n % 48
    let place := match s.chosen die (48 * die + k) with
      | some (_, .restore g) => [Instr.gangRestore g (k / 4) (k % 4)]
      | some _ => [Instr.gangPlacement die (k / 4) (k % 4)]
      | none => [Instr.walkerSplit die k]
    let ask := match s.blocked die with
      | some (_, gs) => gs.map Instr.preemptRequest
      | none => []
    s.planAll (s.fusionEvents die ++ place ++ ask)

/-! Firmware limits, ports, rings and counters. -/

/-- What comes due by CLK (R219, R251, R252, R299, R306, R312, R315, R356, R362, R428, R432); the rings of a die in
reset are not served (R422). -/
def timedEvents (s : State) : List Instr :=
  let newSlot := s.clk.toNat % 16 < (if s.alarm then 2 else 1)
  ((s.regions.keys.filter s.balloonDue).map Instr.balloonDeadline)
    ++ (if newSlot then (s.links.keys ++ s.pallum.keys.map (16 + ·)).map Instr.gaitSlotStart else [])
    ++ s.alerts
    ++ ((s.regions.keys.filter fun r =>
        let g := s.region (s.effFrom 5 9 r)
        g.counters != 0 && (g.cbSeq % 2 == 1 || (s.region r).cbDue || decide ((s.region r).cbLast.toNat + 2000000 ≤ s.clk.toNat))).map
          Instr.counterBlockUpdate)
    ++ ((s.dies.filter fun (_, d) => match d.traceOpen with
        | some t => decide (t.toNat + 20000 ≤ s.clk.toNat)
        | none => false).map fun (k, _) => Instr.traceFrameClose k)
    ++ ((s.migs.filter fun (_, x) => decide (x.2 ≤ s.cycle)).filterMap fun (k, x) =>
        (s.pages.find? k).map fun r => Instr.migration r.part (65536 * r.page) x.1)
    ++ ((s.leases.filter fun (_, t) => decide (t ≤ s.clk)).map fun (k, _) => Instr.leaseWaitEnd k)
    ++ (s.copies.filterMap fun (k, c) => match c.expiry with
        | some t => if t.toNat ≤ s.clk.toNat + s.leaseMargin then some (.remoteCopyExpiry (k / 2 ^ 64) (k % 2 ^ 64)) else none
        | none => none)
    ++ (s.rings.flatMap fun (k, g) => if !(s.die (s.ringDesc g.ref).die).booted then [] else
        (if g.asked || decide (g.polled.toNat + 2000 ≤ s.clk.toNat) then [Instr.ringPoll k] else [])
          ++ (if g.held != [] then [Instr.bookkeepingWriteRetry k] else [])
          ++ (if g.copies != [] then [Instr.copyPacket k] else [])
          ++ (if g.waitFrom.isSome then [Instr.waitValueTimeout k] else []))
    ++ ((s.jobs.filter fun (_, j) => j.halting || s.ckptDue j).map fun (k, _) => Instr.checkpoint k)
    ++ ((s.lost.filter fun p => s.cores.any fun (_, c) => c.copyQ.any fun x => s.collNames x p).map Instr.linkLoss)

/-- The cone monitors of a die that is out of reset are sampled every millisecond of CLK; the readings are free (R353;
log 3). -/
def coneEvents (s : State) : State :=
  (List.range 4).foldl (fun s d =>
    if (s.die d).booted ∧ (s.die d).coneAt.toNat + 2000000 ≤ s.clk.toNat then
      let readings := (List.range 64).map fun i => BitVec.ofNat 16 (Config.free (s.fresh + i))
      { s with fresh := s.fresh + 64 }.plan (.coneSample d readings)
    else s) s

/-- A package of the domain reads a line whose home is here, over Pallum links of the home's die (R250, R299); which package
and line, and when, is free (log 3). -/
def remoteRead (s : State) : State :=
  let (n, s) := s.draw
  match s.pages[n % (4 * s.pages.length + 1)]? with
  | some (key, r) =>
    let die := portDie (key / 2 ^ 38)
    if r.surr || !s.mayLeave die r.part then s
    else
      let (k, s) := s.draw
      let line := gaOf r.part (65536 * r.page) / 128 + k % 512
      s.send .request none r.part (.copyRead (4 + k / 512 % 1024) (48 * die) line 0)
  | none => s

/-- Capture entries that are held and ring descriptors that are owed are tried again (R252, R303, R430), and waits for
a link's slot that have ended, because a slot of the partition is live or nothing has been seen to wait for two
microseconds, are forgotten (R300). -/
def retries (s : State) : State :=
  let s := s.jobs.foldl (fun s (k, j) => if j.capHeld = [] then s else s.captureWrites k j.capHeld) s
  let s := s.rings.keys.foldl writeImage s
  { s with linkWaits := s.linkWaits.filter fun (k, w) => !s.mayCross (k / 32) (k % 32) && decide (s.clk.toNat ≤ w.2 + 4000) }

/-- What a unit does in its own time: a port scrubs a page of a revoked slot, an L2 gives up an owned copy, a core drops its
fetch copies, and a team's lowest group fetches ahead (R139, R245, R272, R302). -/
def ownTime (s : State) : State :=
  let s := s.coneEvents.remoteRead
  let scrub := (s.keys.filter fun (_, k) => bitsOf k.word 63 62 == 2).map (·.1)
  let owned := (s.copies.filter fun (_, c) => c.st == .m || c.st == .o).map (·.1)
  let (a, s) := s.draw
  let (b, s) := s.draw
  let (c, s) := s.draw
  let (d, s) := s.draw
  let s := match scrub[a % (scrub.length + 1)]? with
    | some k => s.plan (.keyScrubPage (k / 32) (k % 32))
    | none => s
  let s := match owned[b % (4 * owned.length + 1)]? with
    | some k => s.plan (.ownerEvictionNotice (k / 2 ^ 64) (k % 2 ^ 64))
    | none => s
  let s := match s.cores.keys[c % (4 * s.cores.length + 1)]? with
    | some k => s.updCore k fun x => { x with fcopy := [] }
    | none => s
  let ts := s.residents
  match ts[d % (4 * ts.length + 1)]? with
  | some tk =>
    let t := s.team tk
    let running := (lanesOf (issuable t)).map fun l => (t.lane l).pc
    match (sortBy (fun (a b : Word) => decide (a < b)) running).head? with
    | some pc =>
      let pc := pc + BitVec.ofNat 32 (d / (4 * ts.length + 1) % 2)
      if s.fetchHeld tk pc then s else (s.fetchAhead tk pc).2
    | none => s
  | none => s

/-- The clusters of dies out of reset that hold a resident team, in the order in which their cores take their turn: no rule
orders clusters, and the first is free (R422; log 5). -/
def turnOrder (s : State) : List Nat × State :=
  let cs := sortBy (fun (a b : Nat) => decide (a < b))
    ((s.usedPipes.filterMap fun (core, _) => if (s.die (coreDie core)).booted then some (coreRq core) else none).eraseDups)
  let (n, s) := s.draw
  let k := if cs.length = 0 then 0 else n % cs.length
  (cs.drop k ++ cs.take k, s)

/-- What takes effect at a cycle's end: writes of format registers and of CLK; full bits and notices that rose in it have
risen (R68, R153, R185, R379). -/
def settleCycle (s : State) : State :=
  { s with
    wgs := s.wgs.map fun (k, w) => (k, w.endFmts)
    teams := s.teams.map fun (k, t) => (k, { t with noticeSet := 0 })
    cores := s.cores.map fun (k, c) => (k, { c with risen := [] })
    clk := s.clkNext.getD (countUp s.clk (if s.alarm then 2 else 1))
    clkNext := none }

/-- The counts of the cycle that ends and the clocks of the next (R69, R352, R357, R427). -/
def tick (s : State) : State :=
  let s := s.countTeams.countMatrix
  let before := s.slotNow
  let s : State := { s.settleCycle with cycle := s.cycle + 1 }
  if before ≠ 0 ∧ s.slotNow = 0 then { s with regions := s.regions.map fun (k, r) => (k, { r with energy := 0 }) } else s

/-- What the units have to do in the cycle that begins. -/
def schedule (s : State) : State :=
  let s := (s.gangs.keys.foldl stopPending s).looksOn.tryHolds.fetchWalks.pruneInstances.startEngines.retries
  let s := s.samples
  let s := s.teams.foldl (fun s (k, t) => if t.resident then s.planAll (s.teamEvents k t) else s) s
  let s := s.planAll (s.feEvents ++ s.barrierEvents)
  let s := s.loadEvents.messageEvents
  let s := s.collMoves
  let s := s.planAll (s.engineEvents ++ s.collEvents)
  let s := s.planAll ((s.syncs.filter fun (_, m) => !m.queue.isEmpty).map fun (k, _) => Instr.acquireRequest k)
  let s := s.planAll (s.gangEvents ++ s.timedEvents)
  (List.range 4).foldl (fun s d => s.dispatchEvents d) s.ownTime

end State

/-- The histograms and stall reasons of a cycle, once its events have been taken and before its first issue (R358). -/
def State.countStalls (s : State) : State :=
  if s.stallsDue then s.usedPipes.foldl (fun s (core, pipe) => s.countStall core pipe) { s with stallsDue := false } else s

/-- A cycle ends and the next begins (R4): its counts are made, what has come due stands as events, and every core that
holds a team has its turn before it. -/
def execClockCycle (s : State) : Res :=
  let s := (s.endHalves fun _ => true).countReads.orderSyncs.tick.schedule
  let (todo, s) := s.turnOrder
  .next { s with todo := todo, turn := 0, second := none, stallsDue := true }

namespace State

/-! The slots of a cycle (R42, R44). -/

/-- Arrivals at phase barriers that were held and whose write-backs have merged are made in the turn of the pipe from which
they issued: those of a cluster whose place, by core, pipe and port, is below a bound (R260, R371, R373). -/
def heldArrivals (s : State) (rq bound : Nat) : State :=
  let place := fun (t : Team) (port : Nat) => 2 * (4 * (t.core % 4) + t.pipe) + port
  let all := s.teams.flatMap fun (tk, t) =>
    if coreRq t.core != rq then []
    else (((lanesOf t.live).filterMap fun l => (t.lane l).hold).eraseDups).filterMap fun h => match h with
      | .arrive core upTo owner addr n port =>
        if s.drained core upTo && decide (place t port < bound) then some (place t port, tk, h, owner, addr, n) else none
      | _ => none
  (sortBy (fun (a b : Nat × Nat × Hold × Nat × Nat × Nat) => decide (a.1 < b.1)) all).foldl
    (fun s (_, tk, h, owner, addr, n) =>
      (s.phaseArrive owner addr n).updTeam tk fun t => t.complete (underHold t h)) s

/-- The turn passes on: the held arrivals of the clusters that it leaves, and of the one that it reaches up to a place. -/
def passOn (s : State) (todo : List Nat) (turn : Nat) : State :=
  let left := s.todo.filter fun rq => !todo.contains rq
  let s := left.foldl (fun s rq => s.heldArrivals rq 40) s
  match todo with
  | rq :: _ => s.heldArrivals rq (2 * turn)
  | [] => s

/-- What the machine does next, when no event stands to be taken: halts that waited for MASK take effect before any team
issues again (R408). -/
def nextSlot (s : State) : Slot :=
  let s := s.gangs.keys.foldl stopPending s
  match s.second with
  | some (t, m, pc) => s.selectSecond t m pc
  | none => match s.scan s.todo s.turn with
    | some (todo, turn, t) => { s.passOn todo turn with todo := todo, turn := turn }.select t
    | none => .run .clockCycle { s.passOn [] 0 with issue := none }

end State

end Sys2Proof.Machine
end

