-- ==== Sys2Proof/Machine/Control.lean ====
section
/-!
DEFINITION. The control and cross-lane family: opcodes 0x080-0x091, and the loop buffer (06 R122-R139). What a
collective or a `conv.close` comes to at its completion stands with the completions.
-/

namespace Sys2Proof.Machine

namespace State

/-- The words of a run of PCs as the pipe's fetch reads them in the code object now, if every read succeeds at once
(R138). -/
def captureWords (s : State) (t : Nat) : Nat → Word → Option (List IWord × State)
  | 0, _ => some ([], s)
  | n + 1, pc =>
    if s.codeHeld t pc then none
    else match s.fetchCode t pc with
    | (.word w, s) => (s.captureWords t n (pc + 1)).map fun (ws, s) => (w :: ws, s)
    | _ => none

/-- A taken backward `bra` of at most 32 words captures its loop into the pipe's free loop buffer (R138). Where one of its
words cannot be fetched, or waits for a walk or a migration (R203, R283), on which no rule speaks, nothing is captured and
the buffer stays free (DESIGN CHOICE, log 74). A team that a pre-emption has stopped holds no buffer. -/
def captureLoop (s : State) (t : Nat) (pc imm : Word) : State :=
  let x := s.team t
  let back := (-imm).toNat
  if back = 0 || back > 32 || pc.toNat + 1 < back || x.stopping then s
  else if (((s.core x.core).pipes.get {} x.pipe).loop).isSome then s
  else
    let lo := pc + 1 + imm
    match s.captureWords t back lo with
    | none => s
    | some (ws, s) =>
      s.updCore x.core fun c =>
        { c with pipes := c.pipes.upd {} x.pipe fun p =>
            { p with loop := some { team := t, lo := lo, hi := pc, words := ws } } }

end State

namespace Ctx

/-- Active lanes branch to their targets, the others advance (R123). -/
def branch (c : Ctx) (s : State) (tgt : Nat → Word) : State :=
  s.updTeam c.is.team fun t => t.mapLanes (c.is.lanes.getLsbD ·) fun l x =>
    { x with pc := if c.active.getLsbD l then tgt l else x.pc + 1 }

/-- The mask operand of a collective (R122). -/
def collMask (c : Ctx) : Mask := (c.sc c.f.c).setWidth 32

/-- A group-collective: its lanes arrive and wait, or the word faults because an active lane is not named (R130).
The fault's mask names those active lanes alone, on which no rule speaks (DESIGN CHOICE, log 74).
`val` is what a lane contributes, `lane` its lane operand. -/
def arrive (c : Ctx) (val lane : Nat → DWord) : Eff :=
  let m := c.collMask
  let stray := c.active &&& ~~~m
  if stray != 0 then .trap { c.fault 2 16 with mask := stray }
  else
    let named := c.is.lanes &&& m
    let handler := c.t.handler.isSome
    let s := c.s.updTeam c.is.team fun t =>
      let t := t.advance (c.is.lanes &&& ~~~m)
      (lanesOf named).foldl (fun t l =>
        let token := t.presents l
        let key := match List.find? (fun (_, i) => i.pc == c.is.pc && i.mask == m && i.token == token &&
            i.handler == handler) t.colls with
          | some (k, _) => k
          | none => (t.colls.freeKey 64).getD 0
        let i := t.colls.get { op := c.o, form := c.f, pc := c.is.pc, mask := m, token := token, handler := handler } key
        let bit : Mask := 1#32 <<< l
        let i := { i with arrived := i.arrived ||| bit }
        let i := if c.active.getLsbD l then
            { i with contrib := i.contrib ||| bit, vals := i.vals.put l (val l), lanes := i.lanes.put l (lane l) }
          else i
        { t with colls := t.colls.put key i }.await bit fun _ => .coll key) t
    .go s

/-- A convergence instruction faults in the active lanes whose level count fails (R125, R126). -/
def levelFault (c : Ctx) (sub : Nat) (bad : Nat → Bool) (k : Eff) : Eff :=
  let m := maskBy fun l => c.active.getLsbD l && bad (c.t.lane l).level
  if m != 0 then .trap { c.fault 9 sub with mask := m } else k

end Ctx

/-- `bra` (R123, R88), with the capture of its loop (R138). -/
def execBra (f : Form) (s : State) : Res :=
  wordIns .bra f s fun c =>
    let s := c.branch c.s fun _ => c.is.pc + 1 + f.imm
    .go (if c.active = 0 then s else s.captureLoop c.is.team c.is.pc f.imm)

/-- `brx` (R123) -/
def execBrx (f : Form) (s : State) : Res :=
  wordIns .brx f s fun c => .go (c.branch c.s fun l => BitVec.ofNat 32 (c.u32 f.a l))

/-- `call` (R123) -/
def execCall (f : Form) (s : State) : Res :=
  wordIns .call f s fun c =>
    .go (c.branch (c.write c.s 32 false false fun _ => (c.is.pc + 1).toNat) fun _ => c.is.pc + 1 + f.imm)

/-- `ret` (R123) -/
def execRet (f : Form) (s : State) : Res :=
  wordIns .ret f s fun c => .go (c.branch c.s fun l => BitVec.ofNat 32 (c.u32 f.a l))

/-- `exit`: active lanes leave the running state for good (R124). -/
def execExit (f : Form) (s : State) : Res :=
  wordIns .exit f s fun c =>
    let s := c.advance c.s
    let s := s.updTeam c.is.team fun t => t.mapLanes (c.active.getLsbD ·) fun _ x =>
      { x with st := .exited, pc := c.is.pc, age := 0, wait := none, hold := none }
    .go (s.endTeam c.is.team)

/-- `conv.open` (R125) -/
def execConvOpen (f : Form) (s : State) : Res :=
  wordIns .convOpen f s fun c => c.levelFault 0 (· ≥ c.t.depth) <|
    let s := c.s.updTeam c.is.team fun t =>
      c.lanes.foldl (fun t l =>
        let k := (t.lane l).level + 1
        (t.setToken k l (c.is.pc <<< 8)).mapLanes (· == l) fun _ x => { x with level := k }) t
    .go (c.advance s)

/-- `conv.next`: PASS of the innermost level rises modulo 256 (R126). -/
def execConvNext (f : Form) (s : State) : Res :=
  wordIns .convNext f s fun c => c.levelFault 1 (· == 0) <|
    let s := c.s.updTeam c.is.team fun t =>
      c.lanes.foldl (fun t l =>
        let k := (t.lane l).level
        let x := t.token k l
        t.setToken k l (x.extractLsb' 8 24 ++ (x.extractLsb' 0 8 + 1))) t
    .go (c.advance s)

/-- `conv.close`: the active lanes wait for their close instance (R127). -/
def execConvClose (f : Form) (s : State) : Res :=
  wordIns .convClose f s fun c => c.levelFault 1 (· == 0) <|
    .go (c.s.updTeam c.is.team fun t =>
      let t := t.advance (c.is.lanes &&& ~~~c.active)
      t.await c.active fun l =>
        let k := (t.lane l).level
        .close ((t.token k l).extractLsb' 8 24) ((t.presents l).take (k - 1)))

/-- `vote` (R133) -/
def execVote (f : Form) (s : State) : Res := wordIns .vote f s fun c => c.arrive (fun l => c.src f.a false l) fun _ => 0
/-- `ballot` (R133) -/
def execBallot (f : Form) (s : State) : Res :=
  wordIns .ballot f s fun c => c.arrive (fun l => c.src f.a false l) fun _ => 0
/-- `shfl` (R135) -/
def execShfl (f : Form) (s : State) : Res :=
  wordIns .shfl f s fun c => c.arrive (fun l => BitVec.ofNat 64 (c.bits f.a f.ty.width l))
    fun l => BitVec.ofNat 64 (c.u32 f.b l)
/-- `redux` (R134) -/
def execRedux (f : Form) (s : State) : Res :=
  wordIns .redux f s fun c => c.arrive (fun l => BitVec.ofNat 64 (c.bits f.a f.ty.width l)) fun _ => 0
/-- `elect` (R133) -/
def execElect (f : Form) (s : State) : Res := wordIns .elect f s fun c => c.arrive (fun _ => 0) fun _ => 0
/-- `match` (R133) -/
def execMatchLanes (f : Form) (s : State) : Res :=
  wordIns .matchLanes f s fun c => c.arrive (fun l => BitVec.ofNat 64 (c.bits f.a f.ty.width l)) fun _ => 0
/-- `bcast` (R133) -/
def execBcast (f : Form) (s : State) : Res :=
  wordIns .bcast f s fun c => c.arrive (fun l => BitVec.ofNat 64 (c.bits f.a f.ty.width l)) fun _ => c.sc f.b

/-- `yield` (R137) -/
def execYield (f : Form) (s : State) : Res :=
  wordIns .yield f s fun c =>
    .go (c.advance (c.s.updTeam c.is.team fun t =>
      t.mapLanes (c.active.getLsbD ·) fun _ x => { x with yld := true }))

/-- `nop` (R137) -/
def execNop (f : Form) (s : State) : Res := wordIns .nop f s fun c => .go (c.advance c.s)

/-- `isync` (R139) -/
def execIsync (f : Form) (s : State) : Res :=
  wordIns .isync f s fun c =>
    .go (c.advance ((c.s.endLoop c.is.team).updTeam c.is.team fun t => { t with ahead := [] }))

end Sys2Proof.Machine
end

