-- ==== Sys2Proof/Machine/Integer.lean ====
section
/-!
DEFINITION. The integer family: opcodes 0x000-0x022 (05 R103-R121).
-/

namespace Sys2Proof.Machine

/-- Delivery of an exact result at the width of a type: wrapped, or clamped to the type's range (R104). -/
def deliver (t : Ty) (sat : Bool) (x : Int) : Nat :=
  let n := t.width
  let lo : Int := if t.isS then -((2 ^ (n - 1) : Nat) : Int) else 0
  let hi : Int := if t.isS then ((2 ^ (n - 1) : Nat) : Int) - 1 else ((2 ^ n : Nat) : Int) - 1
  wrapN n (if sat then max lo (min hi x) else x)

/-- The quotient and the remainder of R110, in `n` bits; nothing faults. -/
def divRem (t : Ty) (sat : Bool) (a b : Int) : Nat × Nat :=
  let n := t.width
  if b = 0 then (2 ^ n - 1, wrapN n a)
  else if t.isS ∧ a = -((2 ^ (n - 1) : Nat) : Int) ∧ b = -1 then
    (if sat then 2 ^ (n - 1) - 1 else wrapN n a, 0)
  else (wrapN n (a.tdiv b), wrapN n (a.tmod b))

/-- Number of set bits, and of zero bits above the highest set bit, of `n` bits; bits reversed (R115). -/
def popCount (n x : Nat) : Nat := ((List.range n).filter fun i => x.testBit i).length
def leadZeros (n x : Nat) : Nat := n - (if x = 0 then 0 else x.log2 + 1)
def bitRev (n x : Nat) : Nat := (List.range n).foldl (fun acc i => if x.testBit i then acc + 2 ^ (n - 1 - i) else acc) 0

/-- `bfx` (R113). -/
def extractField (t : Ty) (a : Int) (pos len : Nat) : Nat :=
  let n := t.width
  let len := min len n
  let f := (a / ((2 ^ min pos n : Nat) : Int) % ((2 ^ len : Nat) : Int)).toNat
  if len = 0 then 0 else if t.isS then wrapN n (toS len f) else f

/-- `bfi` (R114). -/
def insertField (n a b ctl : Nat) : Nat :=
  let pos := ctl % 256
  let len := ctl / 256 % 256
  let mask := (2 ^ len - 1) * 2 ^ pos % 2 ^ n
  (a - (a &&& mask)) + (b * 2 ^ pos % 2 ^ n &&& mask)

/-- `rot` (R112). -/
def rotateLeft (n a k : Nat) : Nat := (a * 2 ^ (k % n) + a / 2 ^ (n - k % n)) % 2 ^ n

/-- The outcome of a comparison: .eq .ne .lt .le .gt .ge (R106, R120). -/
def compareInt (cond : Nat) (a b : Int) : Bool :=
  match cond with
  | 0 => a == b
  | 1 => a != b
  | 2 => decide (a < b)
  | 3 => decide (a ≤ b)
  | 4 => decide (b < a)
  | _ => decide (b ≤ a)

namespace Ctx

/-- Writes `n`-bit values to the destination, and advances (R104, R105). -/
def put (c : Ctx) (x : Nat → Nat) : Eff := .go (c.advance (c.write c.s c.f.ty.width c.f.ty.isS false x))

/-- Delivers exact results, and advances. -/
def arith (c : Ctx) (x : Nat → Int) : Eff := c.put fun l => deliver c.f.ty c.f.sat (x l)

/-- Sets the guard destination, and advances (R120, R121). -/
def setGuard (c : Ctx) (p : Nat → Bool) : Eff := .go (c.advance (c.writeGuard c.s p))

/-- First, second and third source as integers under the word's type (R103). -/
def ia (c : Ctx) (l : Nat) : Int := c.int c.f.a c.f.ty l
def ib (c : Ctx) (l : Nat) : Int := c.int c.f.b c.f.ty l
def ic (c : Ctx) (l : Nat) : Int := c.int c.f.c c.f.ty l
/-- The same as bits. -/
def na (c : Ctx) (l : Nat) : Nat := c.bits c.f.a c.f.ty.width l
def nb (c : Ctx) (l : Nat) : Nat := c.bits c.f.b c.f.ty.width l
/-- A guard source in a lane. -/
def ga (c : Ctx) (l : Nat) : Bool := c.src c.f.a false l == 1
def gb (c : Ctx) (l : Nat) : Bool := c.src c.f.b false l == 1

end Ctx

/-- `add` (R108) -/
def execAdd (f : Form) (s : State) : Res := wordIns .add f s fun c => c.arith fun l => c.ia l + c.ib l
/-- `sub` (R108) -/
def execSub (f : Form) (s : State) : Res := wordIns .sub f s fun c => c.arith fun l => c.ia l - c.ib l
/-- `mul` (R108) -/
def execMul (f : Form) (s : State) : Res := wordIns .mul f s fun c => c.arith fun l => c.ia l * c.ib l
/-- `mulhi` (R109) -/
def execMulhi (f : Form) (s : State) : Res :=
  wordIns .mulhi f s fun c => c.arith fun l => c.ia l * c.ib l / ((2 ^ f.ty.width : Nat) : Int)
/-- `mad` (R108) -/
def execMad (f : Form) (s : State) : Res := wordIns .mad f s fun c => c.arith fun l => c.ia l * c.ib l + c.ic l
/-- `div` (R110) -/
def execDiv (f : Form) (s : State) : Res :=
  wordIns .div f s fun c => c.put fun l => (divRem f.ty f.sat (c.ia l) (c.ib l)).1
/-- `rem` (R110) -/
def execRem (f : Form) (s : State) : Res :=
  wordIns .rem f s fun c => c.put fun l => (divRem f.ty false (c.ia l) (c.ib l)).2
/-- `min` (R108) -/
def execMin (f : Form) (s : State) : Res := wordIns .min f s fun c => c.arith fun l => min (c.ia l) (c.ib l)
/-- `max` (R108) -/
def execMax (f : Form) (s : State) : Res := wordIns .max f s fun c => c.arith fun l => max (c.ia l) (c.ib l)
/-- `abs` (R108) -/
def execAbs (f : Form) (s : State) : Res := wordIns .abs f s fun c => c.arith fun l => (c.ia l).natAbs
/-- `neg` (R108) -/
def execNeg (f : Form) (s : State) : Res := wordIns .neg f s fun c => c.arith fun l => -c.ia l
/-- `and` (R111) -/
def execAnd (f : Form) (s : State) : Res := wordIns .and f s fun c => c.put fun l => c.na l &&& c.nb l
/-- `or` (R111) -/
def execOr (f : Form) (s : State) : Res := wordIns .or f s fun c => c.put fun l => c.na l ||| c.nb l
/-- `xor` (R111) -/
def execXor (f : Form) (s : State) : Res := wordIns .xor f s fun c => c.put fun l => c.na l ^^^ c.nb l
/-- `not` (R111) -/
def execNot (f : Form) (s : State) : Res := wordIns .not f s fun c => c.put fun l => 2 ^ f.ty.width - 1 - c.na l

/-- `shl`: the amount is never reduced; beyond the width the result is 0, or the bound under `.sat` (R112). -/
def execShl (f : Form) (s : State) : Res :=
  wordIns .shl f s fun c => c.arith fun l =>
    let n := f.ty.width
    let k := c.u32 f.b l
    if k < n then c.ia l * ((2 ^ k : Nat) : Int) else if f.sat then c.ia l * ((2 ^ n : Nat) : Int) else 0

/-- `shr` (R112) -/
def execShr (f : Form) (s : State) : Res :=
  wordIns .shr f s fun c => c.put fun l => c.na l / 2 ^ min (c.u32 f.b l) f.ty.width

/-- `sar`: copies of bit n − 1 enter, under `.b` too (R112). -/
def execSar (f : Form) (s : State) : Res :=
  wordIns .sar f s fun c => c.arith fun l =>
    toS f.ty.width (c.na l) / ((2 ^ min (c.u32 f.b l) f.ty.width : Nat) : Int)

/-- `rot` (R112) -/
def execRot (f : Form) (s : State) : Res :=
  wordIns .rot f s fun c => c.put fun l => rotateLeft f.ty.width (c.na l) (c.u32 f.b l)

/-- `bfx` (R113) -/
def execBfx (f : Form) (s : State) : Res :=
  wordIns .bfx f s fun c => c.put fun l => extractField f.ty (c.ia l) (c.u32 f.b l) (c.u32 f.c l)

/-- `bfi` (R114) -/
def execBfi (f : Form) (s : State) : Res :=
  wordIns .bfi f s fun c => c.put fun l => insertField f.ty.width (c.na l) (c.nb l) (c.u32 f.c l)

/-- `popc` (R115) -/
def execPopc (f : Form) (s : State) : Res := wordIns .popc f s fun c => c.put fun l => popCount f.ty.width (c.na l)
/-- `clz` (R115) -/
def execClz (f : Form) (s : State) : Res := wordIns .clz f s fun c => c.put fun l => leadZeros f.ty.width (c.na l)
/-- `brev` (R115) -/
def execBrev (f : Form) (s : State) : Res := wordIns .brev f s fun c => c.put fun l => bitRev f.ty.width (c.na l)

/-- `sel` (R116) -/
def execSel (f : Form) (s : State) : Res :=
  wordIns .sel f s fun c => c.put fun l => if c.src f.c false l = 1 then c.na l else c.nb l

/-- `mov`; a format register may be source or destination (R117). -/
def execMov (f : Form) (s : State) : Res := wordIns .mov f s fun c => c.put fun l => c.na l

/-- `movi` (R118) -/
def execMovi (f : Form) (s : State) : Res :=
  wordIns .movi f s fun c => c.put fun _ => if f.ty = .s64 then (f.imm.signExtend 64).toNat else f.imm.toNat

/-- `lea`: the index is read as 32 bits, signed under `.s64` (R119). -/
def execLea (f : Form) (s : State) : Res :=
  wordIns .lea f s fun c => c.put fun l =>
    let i : Int := if f.ty.isS then toS 32 (c.u32 f.b l) else c.u32 f.b l
    wrapN f.ty.width (c.ia l + i * ((2 ^ f.q3 : Nat) : Int) + c.ic l)

/-- `cmp` (R120) -/
def execCmp (f : Form) (s : State) : Res :=
  wordIns .cmp f s fun c => c.setGuard fun l => compareInt f.q3 (c.ia l) (c.ib l)

/-- `gand` (R121) -/
def execGand (f : Form) (s : State) : Res := wordIns .gand f s fun c => c.setGuard fun l => c.ga l && c.gb l
/-- `gor` (R121) -/
def execGor (f : Form) (s : State) : Res := wordIns .gor f s fun c => c.setGuard fun l => c.ga l || c.gb l
/-- `gxor` (R121) -/
def execGxor (f : Form) (s : State) : Res := wordIns .gxor f s fun c => c.setGuard fun l => c.ga l != c.gb l
/-- `gnot` (R121) -/
def execGnot (f : Form) (s : State) : Res := wordIns .gnot f s fun c => c.setGuard fun l => !c.ga l
/-- `gmov` (R121) -/
def execGmov (f : Form) (s : State) : Res := wordIns .gmov f s fun c => c.setGuard fun l => c.ga l

/-- `gset`: the nonzero test of a lane's 32-bit value, or bit l of a scalar or an immediate (R121). -/
def execGset (f : Form) (s : State) : Res :=
  wordIns .gset f s fun c => c.setGuard fun l =>
    match f.a with
    | .s _ | .int _ => (c.src f.a false l).getLsbD l
    | _ => c.u32 f.a l != 0

end Sys2Proof.Machine
end

