-- ==== Sys2Proof/Machine/Dispatch.lean ====
section
/-!
DEFINITION. The meaning of every step: one arm a row of spec/opcode_table.json, each one call of that row's own
definition.
-/

namespace Sys2Proof.Machine

def exec (i : Instr) (s : State) : Host.Outcome State Fault Refusal :=
  match i with
  | .add f => Sys2Proof.Machine.execAdd f s
  | .sub f => Sys2Proof.Machine.execSub f s
  | .mul f => Sys2Proof.Machine.execMul f s
  | .mulhi f => Sys2Proof.Machine.execMulhi f s
  | .mad f => Sys2Proof.Machine.execMad f s
  | .div f => Sys2Proof.Machine.execDiv f s
  | .rem f => Sys2Proof.Machine.execRem f s
  | .min f => Sys2Proof.Machine.execMin f s
  | .max f => Sys2Proof.Machine.execMax f s
  | .abs f => Sys2Proof.Machine.execAbs f s
  | .neg f => Sys2Proof.Machine.execNeg f s
  | .and f => Sys2Proof.Machine.execAnd f s
  | .or f => Sys2Proof.Machine.execOr f s
  | .xor f => Sys2Proof.Machine.execXor f s
  | .not f => Sys2Proof.Machine.execNot f s
  | .shl f => Sys2Proof.Machine.execShl f s
  | .shr f => Sys2Proof.Machine.execShr f s
  | .sar f => Sys2Proof.Machine.execSar f s
  | .rot f => Sys2Proof.Machine.execRot f s
  | .bfx f => Sys2Proof.Machine.execBfx f s
  | .bfi f => Sys2Proof.Machine.execBfi f s
  | .popc f => Sys2Proof.Machine.execPopc f s
  | .clz f => Sys2Proof.Machine.execClz f s
  | .brev f => Sys2Proof.Machine.execBrev f s
  | .sel f => Sys2Proof.Machine.execSel f s
  | .mov f => Sys2Proof.Machine.execMov f s
  | .movi f => Sys2Proof.Machine.execMovi f s
  | .lea f => Sys2Proof.Machine.execLea f s
  | .cmp f => Sys2Proof.Machine.execCmp f s
  | .gand f => Sys2Proof.Machine.execGand f s
  | .gor f => Sys2Proof.Machine.execGor f s
  | .gxor f => Sys2Proof.Machine.execGxor f s
  | .gnot f => Sys2Proof.Machine.execGnot f s
  | .gset f => Sys2Proof.Machine.execGset f s
  | .gmov f => Sys2Proof.Machine.execGmov f s
  | .bra f => Sys2Proof.Machine.execBra f s
  | .brx f => Sys2Proof.Machine.execBrx f s
  | .call f => Sys2Proof.Machine.execCall f s
  | .ret f => Sys2Proof.Machine.execRet f s
  | .exit f => Sys2Proof.Machine.execExit f s
  | .convOpen f => Sys2Proof.Machine.execConvOpen f s
  | .convNext f => Sys2Proof.Machine.execConvNext f s
  | .convClose f => Sys2Proof.Machine.execConvClose f s
  | .vote f => Sys2Proof.Machine.execVote f s
  | .ballot f => Sys2Proof.Machine.execBallot f s
  | .shfl f => Sys2Proof.Machine.execShfl f s
  | .redux f => Sys2Proof.Machine.execRedux f s
  | .elect f => Sys2Proof.Machine.execElect f s
  | .matchLanes f => Sys2Proof.Machine.execMatchLanes f s
  | .bcast f => Sys2Proof.Machine.execBcast f s
  | .yield f => Sys2Proof.Machine.execYield f s
  | .nop f => Sys2Proof.Machine.execNop f s
  | .isync f => Sys2Proof.Machine.execIsync f s
  | .fadd f => Sys2Proof.Machine.execFadd f s
  | .fsub f => Sys2Proof.Machine.execFsub f s
  | .fmul f => Sys2Proof.Machine.execFmul f s
  | .ffma f => Sys2Proof.Machine.execFfma f s
  | .fmin f => Sys2Proof.Machine.execFmin f s
  | .fmax f => Sys2Proof.Machine.execFmax f s
  | .frcp f => Sys2Proof.Machine.execFrcp f s
  | .frsq f => Sys2Proof.Machine.execFrsq f s
  | .fsqrt f => Sys2Proof.Machine.execFsqrt f s
  | .fexp2 f => Sys2Proof.Machine.execFexp2 f s
  | .flog2 f => Sys2Proof.Machine.execFlog2 f s
  | .ftanh f => Sys2Proof.Machine.execFtanh f s
  | .fcmp f => Sys2Proof.Machine.execFcmp f s
  | .fclass f => Sys2Proof.Machine.execFclass f s
  | .frnd f => Sys2Proof.Machine.execFrnd f s
  | .hfma2 f => Sys2Proof.Machine.execHfma2 f s
  | .cvt f => Sys2Proof.Machine.execCvt f s
  | .cvtQ f => Sys2Proof.Machine.execCvtQ f s
  | .cvtW f => Sys2Proof.Machine.execCvtW f s
  | .qpack f => Sys2Proof.Machine.execQpack f s
  | .qunpack f => Sys2Proof.Machine.execQunpack f s
  | .bscale f => Sys2Proof.Machine.execBscale f s
  | .bdot4 f => Sys2Proof.Machine.execBdot4 f s
  | .ld f => Sys2Proof.Machine.execLd f s
  | .st f => Sys2Proof.Machine.execSt f s
  | .atom f => Sys2Proof.Machine.execAtom f s
  | .red f => Sys2Proof.Machine.execRed f s
  | .acq f => Sys2Proof.Machine.execAcq f s
  | .rel f => Sys2Proof.Machine.execRel f s
  | .bind f => Sys2Proof.Machine.execBind f s
  | .unbind f => Sys2Proof.Machine.execUnbind f s
  | .fence f => Sys2Proof.Machine.execFence f s
  | .pref f => Sys2Proof.Machine.execPref f s
  | .stSparse f => Sys2Proof.Machine.execStSparse f s
  | .ldExpand f => Sys2Proof.Machine.execLdExpand f s
  | .cwb f => Sys2Proof.Machine.execCwb f s
  | .cinv f => Sys2Proof.Machine.execCinv f s
  | .icinv f => Sys2Proof.Machine.execIcinv f s
  | .bsize f => Sys2Proof.Machine.execBsize f s
  | .copy f => Sys2Proof.Machine.execCopy f s
  | .copyGen f => Sys2Proof.Machine.execCopyGen f s
  | .copySeal f => Sys2Proof.Machine.execCopySeal f s
  | .copyWait f => Sys2Proof.Machine.execCopyWait f s
  | .obres f => Sys2Proof.Machine.execObres f s
  | .obrel f => Sys2Proof.Machine.execObrel f s
  | .obfmt f => Sys2Proof.Machine.execObfmt f s
  | .mma f => Sys2Proof.Machine.execMma f s
  | .accldGet f => Sys2Proof.Machine.execAccldGet f s
  | .accldPut f => Sys2Proof.Machine.execAccldPut f s
  | .accldZero f => Sys2Proof.Machine.execAccldZero f s
  | .accst f => Sys2Proof.Machine.execAccst f s
  | .coll f => Sys2Proof.Machine.execColl f s
  | .collWait f => Sys2Proof.Machine.execCollWait f s
  | .bar f => Sys2Proof.Machine.execBar f s
  | .barGang f => Sys2Proof.Machine.execBarGang f s
  | .pbarArrive f => Sys2Proof.Machine.execPbarArrive f s
  | .pbarWait f => Sys2Proof.Machine.execPbarWait f s
  | .sleep f => Sys2Proof.Machine.execSleep f s
  | .trap f => Sys2Proof.Machine.execTrap f s
  | .trapService f => Sys2Proof.Machine.execTrapService f s
  | .rett f => Sys2Proof.Machine.execRett f s
  | .sread f => Sys2Proof.Machine.execSread f s
  | .swrite f => Sys2Proof.Machine.execSwrite f s
  | .segld f => Sys2Proof.Machine.execSegld f s
  | .tlbinv f => Sys2Proof.Machine.execTlbinv f s
  | .rsvRead f => Sys2Proof.Machine.execRsvRead f s
  | .rsvAsk f => Sys2Proof.Machine.execRsvAsk f s
  | .pgsurr f => Sys2Proof.Machine.execPgsurr f s
  | .noticeAckBalloon f => Sys2Proof.Machine.execNoticeAckBalloon f s
  | .noticeAckTimer f => Sys2Proof.Machine.execNoticeAckTimer f s
  | .endwg f => Sys2Proof.Machine.execEndwg f s
  | .tileNext f => Sys2Proof.Machine.execTileNext f s
  | .yieldpoint f => Sys2Proof.Machine.execYieldpoint f s
  | .kslotLoad f => Sys2Proof.Machine.execKslotLoad f s
  | .kslotRevoke f => Sys2Proof.Machine.execKslotRevoke f s
  | .convCloseCompletion team lane => Sys2Proof.Machine.execConvCloseCompletion team lane s
  | .collectiveCompletion team inst => Sys2Proof.Machine.execCollectiveCompletion team inst s
  | .feLoadCompletion load => Sys2Proof.Machine.execFeLoadCompletion load s
  | .copyWaitCompletion team => Sys2Proof.Machine.execCopyWaitCompletion team s
  | .mmaEnqueueResume team => Sys2Proof.Machine.execMmaEnqueueResume team s
  | .collWaitCompletion team => Sys2Proof.Machine.execCollWaitCompletion team s
  | .barCompletion wg => Sys2Proof.Machine.execBarCompletion wg s
  | .barGangCompletion gang => Sys2Proof.Machine.execBarGangCompletion gang s
  | .pbarWaitCompletion team => Sys2Proof.Machine.execPbarWaitCompletion team s
  | .sleepEnd team => Sys2Proof.Machine.execSleepEnd team s
  | .firmwareServiceAnswer team count => Sys2Proof.Machine.execFirmwareServiceAnswer team count s
  | .keyScrubPage port slot => Sys2Proof.Machine.execKeyScrubPage port slot s
  | .noticeTimer team => Sys2Proof.Machine.execNoticeTimer team s
  | .noticeTrap team => Sys2Proof.Machine.execNoticeTrap team s
  | .haltBroadcast team => Sys2Proof.Machine.execHaltBroadcast team s
  | .pledgeRequest msg => Sys2Proof.Machine.execPledgeRequest msg s
  | .merge msg => Sys2Proof.Machine.execMerge msg s
  | .engineWriteLanding msg => Sys2Proof.Machine.execEngineWriteLanding msg s
  | .homeStrongAccess msg => Sys2Proof.Machine.execHomeStrongAccess msg s
  | .pledgeOwnerChange msg => Sys2Proof.Machine.execPledgeOwnerChange msg s
  | .acquireRequest line => Sys2Proof.Machine.execAcquireRequest line s
  | .holdTakeback msg => Sys2Proof.Machine.execHoldTakeback msg s
  | .surrender msg => Sys2Proof.Machine.execSurrender msg s
  | .surrenderAck msg => Sys2Proof.Machine.execSurrenderAck msg s
  | .acquireGrant msg => Sys2Proof.Machine.execAcquireGrant msg s
  | .dieCopyRead msg => Sys2Proof.Machine.execDieCopyRead msg s
  | .forwardedRead msg => Sys2Proof.Machine.execForwardedRead msg s
  | .dieCopyInvalidate msg => Sys2Proof.Machine.execDieCopyInvalidate msg s
  | .backInvalidation msg => Sys2Proof.Machine.execBackInvalidation msg s
  | .ownerEvictionNotice die line => Sys2Proof.Machine.execOwnerEvictionNotice die line s
  | .remoteCopyExpiry die line => Sys2Proof.Machine.execRemoteCopyExpiry die line s
  | .leaseWaitEnd line => Sys2Proof.Machine.execLeaseWaitEnd line s
  | .tlbWalk msg => Sys2Proof.Machine.execTlbWalk msg s
  | .copyExecution core => Sys2Proof.Machine.execCopyExecution core s
  | .releaseFlagRecord core cmd => Sys2Proof.Machine.execReleaseFlagRecord core cmd s
  | .matrixOperation core half => Sys2Proof.Machine.execMatrixOperation core half s
  | .accumulatorTransfer core half => Sys2Proof.Machine.execAccumulatorTransfer core half s
  | .collExecution core parts => Sys2Proof.Machine.execCollExecution core parts s
  | .gangPlacement die cluster core => Sys2Proof.Machine.execGangPlacement die cluster core s
  | .walkerSplit die core => Sys2Proof.Machine.execWalkerSplit die core s
  | .l1FusionSwitch die cluster fuse => Sys2Proof.Machine.execL1FusionSwitch die cluster fuse s
  | .preemptRequest gang => Sys2Proof.Machine.execPreemptRequest gang s
  | .preemptWithdraw gang => Sys2Proof.Machine.execPreemptWithdraw gang s
  | .graceExpiry gang => Sys2Proof.Machine.execGraceExpiry gang s
  | .instructionLevelHalt gang => Sys2Proof.Machine.execInstructionLevelHalt gang s
  | .killExpiry gang => Sys2Proof.Machine.execKillExpiry gang s
  | .gangRestore gang cluster core => Sys2Proof.Machine.execGangRestore gang cluster core s
  | .workgroupEnd wg => Sys2Proof.Machine.execWorkgroupEnd wg s
  | .gangRetirement gang => Sys2Proof.Machine.execGangRetirement gang s
  | .nopPacket ring => Sys2Proof.Machine.execNopPacket ring s
  | .launchPacket ring => Sys2Proof.Machine.execLaunchPacket ring s
  | .waitValuePacket ring => Sys2Proof.Machine.execWaitValuePacket ring s
  | .waitValueTimeout ring => Sys2Proof.Machine.execWaitValueTimeout ring s
  | .signalPacket ring => Sys2Proof.Machine.execSignalPacket ring s
  | .copyPacket ring => Sys2Proof.Machine.execCopyPacket ring s
  | .fencePacket ring => Sys2Proof.Machine.execFencePacket ring s
  | .linkPacket ring => Sys2Proof.Machine.execLinkPacket ring s
  | .timestampPacket ring => Sys2Proof.Machine.execTimestampPacket ring s
  | .regionCreate ring => Sys2Proof.Machine.execRegionCreate ring s
  | .regionDestroy ring => Sys2Proof.Machine.execRegionDestroy ring s
  | .regionFieldWrite ring => Sys2Proof.Machine.execRegionFieldWrite ring s
  | .mapPages ring => Sys2Proof.Machine.execMapPages ring s
  | .unmapPages ring => Sys2Proof.Machine.execUnmapPages ring s
  | .grantSectors ring => Sys2Proof.Machine.execGrantSectors ring s
  | .ringDoorbell ring value => Sys2Proof.Machine.execRingDoorbell ring value s
  | .doorbellResume ring => Sys2Proof.Machine.execDoorbellResume ring s
  | .ringPoll ring => Sys2Proof.Machine.execRingPoll ring s
  | .bookkeepingWriteRetry ring => Sys2Proof.Machine.execBookkeepingWriteRetry ring s
  | .balloonPost region seq sectors deadline => Sys2Proof.Machine.execBalloonPost region seq sectors deadline s
  | .balloonDeadline region => Sys2Proof.Machine.execBalloonDeadline region s
  | .migration part va off => Sys2Proof.Machine.execMigration part va off s
  | .heatSweep port => Sys2Proof.Machine.execHeatSweep port s
  | .coneSample die readings => Sys2Proof.Machine.execConeSample die readings s
  | .marginPlanInstall die hcap energy => Sys2Proof.Machine.execMarginPlanInstall die hcap energy s
  | .gaitSlotStart link => Sys2Proof.Machine.execGaitSlotStart link s
  | .noSlotAlert link part => Sys2Proof.Machine.execNoSlotAlert link part s
  | .counterBlockUpdate region => Sys2Proof.Machine.execCounterBlockUpdate region s
  | .pipeSample pipe => Sys2Proof.Machine.execPipeSample pipe s
  | .traceFrameClose die => Sys2Proof.Machine.execTraceFrameClose die s
  | .memoryError part va corrected syndrome => Sys2Proof.Machine.execMemoryError part va corrected syndrome s
  | .powerAlarm => Sys2Proof.Machine.execPowerAlarm s
  | .powerAlarmClear => Sys2Proof.Machine.execPowerAlarmClear s
  | .connectionMatrixWrite rq value => Sys2Proof.Machine.execConnectionMatrixWrite rq value s
  | .gaitCalendarWrite link slot value => Sys2Proof.Machine.execGaitCalendarWrite link slot value s
  | .mgmtRegisterWrite host off value => Sys2Proof.Machine.execMgmtRegisterWrite host off value s
  | .partitionSetup p => Sys2Proof.Machine.execPartitionSetup p s
  | .partitionTeardown part => Sys2Proof.Machine.execPartitionTeardown part s
  | .attestationRequest part nonce => Sys2Proof.Machine.execAttestationRequest part nonce s
  | .firmwareBoot die => Sys2Proof.Machine.execFirmwareBoot die s
  | .firmwareRecoveryLoad image sig => Sys2Proof.Machine.execFirmwareRecoveryLoad image sig s
  | .deviceReset => Sys2Proof.Machine.execDeviceReset s
  | .warmReset => Sys2Proof.Machine.execWarmReset s
  | .linkTraining link lease margin => Sys2Proof.Machine.execLinkTraining link lease margin s
  | .cxlLaneRetrain lanes => Sys2Proof.Machine.execCxlLaneRetrain lanes s
  | .linkLoss package => Sys2Proof.Machine.execLinkLoss package s
  | .checkpoint job => Sys2Proof.Machine.execCheckpoint job s
  | .orderLogFull job => Sys2Proof.Machine.execOrderLogFull job s
  | .replay job snapshot => Sys2Proof.Machine.execReplay job snapshot s
  | .captureEnable job ring => Sys2Proof.Machine.execCaptureEnable job ring s
  | .jobMove job received => Sys2Proof.Machine.execJobMove job received s
  | .clockCycle => Sys2Proof.Machine.execClockCycle s
  | .loadDataReply load => Sys2Proof.Machine.execLoadDataReply load s
  | .illegalInstructionWord why => Sys2Proof.Machine.execIllegalInstructionWord why s

end Sys2Proof.Machine
end

