-- ==== Sys2Proof/Machine/Load.lean ====
section
/-!
DEFINITION. What it takes for one instruction word to be the next that issues: a workgroup resident with its code object
mapped and its page in the core's TLB, as partition setup, mapping, launch, placement and a first fetch leave them (log 1).
-/

namespace Sys2Proof.Machine

/-- A page-table entry that points to the next table (R280). -/
def tableEntry (port off : Nat) : DWord := setBits (setBits (setBits 0 63 63 1) 56 51 port) 37 7 (off / 128)

/-- A leaf that maps a page for reading, writing and fetching under key slot 0 (R279). -/
def leafEntry (port off : Nat) : DWord :=
  setBits (setBits (setBits 0 63 60 15) 56 51 port) 37 7 (off / 128)

/-- The virtual address at which the word is loaded. -/
def loadVa : Nat := 65536
/-- The core on which it runs: core 0 of cluster 1 of die 0. -/
def loadCore : Nat := 4

/-- The team that runs the word: number 0, all lanes running at PC 0, every vector register a program register but for
four convergence levels. -/
def loadTeam : Team :=
  { wg := 0, role := 3, vregs := 256, depth := 4, core := loadCore, code := loadVa,
    lanes := allLanes.map fun l => (l, {}) }

/-- The bytes of an instruction word whose low `nbits` bits are `w`. -/
def loadBytes (nbits w : Nat) : List Byte := bytesOf 12 (BitVec.ofNat 96 (w % 2 ^ min nbits 96))

/-- The cached leaf of the word's page. -/
def loadLeaf : TlbEnt := { part := 0, shift := 16, lead := 1, leaf := leafEntry 0 131072 }

namespace State

/-- The tables of a machine in which one word is the next to issue. -/
def load (s : State) (bytes : List Byte) : State :=
  { s with
    agenda := []
    second := none
    issue := none
    todo := [coreRq loadCore]
    turn := 0
    stallsDue := false
    teams := Tbl.put (s.teams.filter fun (_, t) => t.core != loadCore || t.pipe != 0) 0 loadTeam
    wgs := s.wgs.put 0 { gang := 0, core := loadCore, teams := [0] }
    gangs := s.gangs.put 0 { launch := 0, wgs := [0], cluster := coreRq loadCore, core := loadCore }
    launches := s.launches.put 0
      { region := 0, part := 0, die := 0, lid := 0, record := 0, code := loadVa, karg := 0, signal := 0, saveArr := 0,
        ext := [1], tileShape := [1], minsplit := 0, ctrl := 0, persist := 0, slots := 0, dims := [1], tiles := 1,
        walkers := [], order := 0, ring := 0, packet := 0 }
    regions := if s.regions.has 0 then s.regions else s.regions.put 0 {}
    parts := s.parts.put 0 { s.part 0 with ptRoot := tableEntry 0 16384 }
    cores := s.cores.put loadCore { s.core loadCore with pipes := [], tlb := [loadLeaf], fcopy := [] }
    clusters := s.clusters.put (coreRq loadCore) { s.cluster (coreRq loadCore) with tlb := [] }
    codes := s.codes.put loadVa
      { count := 1, roles := [], spad := 0, guard := 1, obuf := 0, kSize := 0, matrix := false }
    ptes := (((s.ptes.put 16384 (tableEntry 0 32768)).put 32768 (tableEntry 0 49152)).put 49152
      (tableEntry 0 65536)).put (65536 + 8) (leafEntry 0 131072)
    pages := s.pages.put 131072 { part := 0, page := 1, word := 0 }
    keyCopies := s.keyCopies.put 0 1
    rq := s.rq.put (coreRq loadCore) (s.rq.get 0 (coreRq loadCore) ||| 1)
    poisoned := s.poisoned.erase 128
    mem := memWriteBytes s.mem loadVa bytes }

end State

end Sys2Proof.Machine
end

