-- ==== Sys2Proof/Machine/Step.lean ====
section
/-!
DEFINITION. One step of the machine (log 2): the oldest event that stands to be taken; otherwise the next group that
issues in this cycle, before whose first issue the cycle's stalls are counted (R358); otherwise the cycle ends.
-/

namespace Sys2Proof.Machine

/-- One step. -/
def step (s : State) : Host.Outcome State Fault Refusal :=
  match s.agenda with
  | i :: rest => exec i { s with agenda := rest, issue := none }
  | [] =>
    match s.countStalls.nextSlot with
    | .run i s => exec i s
    | .done s => .next s

/-- The machine in which the next step issues the word whose low `nbits` bits are `w` (log 1). -/
def State.withFetchWord (s : State) (nbits w : Nat) : State := s.load (loadBytes nbits w)

end Sys2Proof.Machine
end

