-- ==== Sys2Proof/Safety.lean ====
section
/-!
DEFINITION. The terms in which claims about the machine are made: canonical memory, a group that issues a word, what a
step leaves alone, and what a destination holds.
-/

namespace Sys2Proof.Machine

/-- Main memory and host memory are in canonical form. -/
def State.Canonical (s : State) : Prop := Memory.wf s.mem = true ∧ Memory.wf s.hostMem = true

/-- Only events of the machine stand on the agenda; a word issues from its group alone. -/
def State.Orderly (s : State) : Prop := ∀ i ∈ s.agenda, i.word? = none

/-- A group of a team stands at the issue port with its word, and its lanes are running at the group's PC (R43). -/
structure Standing (s : State) (is : Issue) (t : Team) : Prop where
  port : s.issue = some is
  team : Tbl.find? s.teams is.team = some t
  runs : ∀ l, l < 32 → is.lanes.getLsbD l = true → (t.lane l).st = .running
  at_ : ∀ l, l < 32 → is.lanes.getLsbD l = true → (t.lane l).pc = is.pc

/-- The word of a group as its own effect meets it: a word with LEN and without CHAIN has opened its chain (R94). -/
def issued (o : Op) (f : Form) (s : State) (is : Issue) : Ctx := openChain (ctxOf o f s is)

/-- None of the faults of the word, items 5 to 7 of R93: chain structure, operands, privilege. -/
def Clear (o : Op) (f : Form) (s : State) (is : Issue) : Prop := wordFault (ctxOf o f s is) = none

/-- A state that differs from another in team `k`, the TLBs and fetch copies, the counts of issues and energy of regions
and the reads that homes have served for fetches (R272, R283, R352, R354, R355) alone. -/
structure Elsewhere (k : Nat) (s s' : State) : Prop where
  rest : s' = { s with teams := s'.teams, regions := s'.regions, cores := s'.cores, clusters := s'.clusters, served := s'.served }
  served : s.served <+: s'.served
  teams : ∀ j, j ≠ k → Tbl.find? s'.teams j = Tbl.find? s.teams j
  cores : ∀ i, s'.core i = { s.core i with tlb := (s'.core i).tlb, fcopy := (s'.core i).fcopy }
  clusters : ∀ i, s'.cluster i = { s.cluster i with tlb := (s'.cluster i).tlb }
  regions : ∀ r, s'.region r = { s.region r with issues := (s'.region r).issues, energy := (s'.region r).energy }

/-- A core that differs from another in its TLB, its fetch copies, which lines of its L1 were used last, and a loop buffer
that team `k` held and let go (R138, R188, R277) alone. -/
structure Core.Kept (k : Nat) (a b : Core) : Prop where
  rest : b = { a with tlb := b.tlb, fcopy := b.fcopy, l1 := b.l1, pipes := b.pipes }
  l1 : ∀ l, (Tbl.find? b.l1 l).map (fun x => { x with used := 0 }) = (Tbl.find? a.l1 l).map fun x => { x with used := 0 }
  pipes : ∀ p, Tbl.find? b.pipes p = Tbl.find? a.pipes p ∨
    (((Tbl.find? a.pipes p).bind (·.loop)).map (·.team) = some k ∧
      Tbl.find? b.pipes p = (Tbl.find? a.pipes p).map fun x => { x with loop := none })

/-- A team that differs from another in its lanes, its open chain, the words fetched ahead and its skid alone: every
register, guard, segment register and team register is as before. -/
def Team.Kept (t t' : Team) : Prop :=
  t' = { t with lanes := t'.lanes, chain := t'.chain, ahead := t'.ahead, skid := t'.skid }

/-- The lanes of a mask stand at the next instruction, running; every other lane is where it was (R41). -/
def Team.Stepped (t t' : Team) (m : Mask) : Prop :=
  ∀ l, l < 32 → (t'.lane l).pc = (if m.getLsbD l then (t.lane l).pc + 1 else (t.lane l).pc) ∧
    (t'.lane l).st = (t.lane l).st ∧ (t'.lane l).level = (t.lane l).level

/-- What a destination register holds after a value `x l` of `n` bits was delivered in each active lane (R18, R57, R58,
R13): a vector register in each active lane, zero-extended; a scalar from the lowest active lane, sign-extended under a
signed type; a guard bit in each active lane, g7 discarding it. Other lanes and registers are as before. -/
def Team.Holds (t t' : Team) (d : Option Dst) (active : Mask) (n : Nat) (signed : Bool) (x : Nat → Nat) : Prop :=
  (∀ r l, l < 32 → t'.readV r l =
    match d with
    | some (.v k) =>
      if active.getLsbD l then
        if n = 64 then
          if k.toNat = r then BitVec.ofNat 32 (x l) else if k.toNat + 1 = r then BitVec.ofNat 32 (x l / 2 ^ 32)
          else t.readV r l
        else if k.toNat = r then BitVec.ofNat 32 (x l % 2 ^ n) else t.readV r l
      else t.readV r l
    | _ => t.readV r l) ∧
  (∀ r, t'.readS r =
    match d with
    | some (.s k) => if active ≠ 0 ∧ k.toNat = r then
        (if signed then BitVec.ofInt 64 (toS n (x ((lowest active).getD 0))) else BitVec.ofNat 64 (x ((lowest active).getD 0) % 2 ^ n))
        else t.readS r
    | _ => t.readS r) ∧
  (∀ r l, l < 32 → (t'.guard r).getLsbD l =
    match d with
    | some (.g k) => if active.getLsbD l ∧ k.toNat = r ∧ r ≠ 7 then decide (x l % 2 = 1) else (t.guard r).getLsbD l
    | _ => (t.guard r).getLsbD l)

/-- What the latch of a destination holds while its chain stays open (R59, R83, R98): in each active lane the value
delivered, which beside a scalar destination is that of the lowest active lane (R57), zero-extended to 64 bits. -/
def Team.Latched (t' : Team) (d : Dest) (active : Mask) (n : Nat) (x : Nat → Nat) : Prop :=
  ∀ b ch, d.lat = some b → t'.chain = some ch → n ≤ 32 ∨ n = 64 → ∀ l, l < 32 → active.getLsbD l = true →
    ch.vals.get 0 (32 * b.toNat + l) =
      BitVec.ofNat 64 (x (match d.dst with | some (.s _) => (lowest active).getD 0 | _ => l) % 2 ^ n)

/-- A word answers a next state in which its destination holds the values `x` of `n` bits in its active lanes, its
group stands at the next instruction, FPSTAT is `p`, and nothing else of its team or of the machine has changed but
the fetched words, the chain, the skid, caches of translations and of code, and the counts of the issue. -/
def Delivers (i : Instr) (f : Form) (s : State) (is : Issue) (t : Team) (n : Nat) (signed : Bool) (x : Nat → Nat)
    (p : BitVec 32) : Prop :=
  ∃ s' t', exec i s = .next s' ∧ Elsewhere is.team s s' ∧ Tbl.find? s'.teams is.team = some t' ∧
    t.Holds t' f.d.dst (activeMask t is.lanes f.h) n signed x ∧
    t'.Latched f.d (activeMask t is.lanes f.h) n x ∧ t.Stepped t' is.lanes ∧
    t' = { t with lanes := t'.lanes, chain := t'.chain, ahead := t'.ahead, skid := t'.skid, v := t'.v, s := t'.s,
                  g := t'.g, fpstat := p }

/-- The flags that the active lanes of a word raise together; a word with a scalar destination has the one result of its
lowest active lane (R57, R152). -/
def Ctx.flags (c : Ctx) (g : Nat → Nat × BitVec 5) : BitVec 5 :=
  c.lanes.foldl (fun acc l => acc ||| (g (c.ofLane l)).2) 0

/-- What the registers hold after a load of `n` bits delivered `x l` in each lane of a mask (R57-R59, R258): a vector
register extended under the type, a pair for 64 bits, four for 128; a scalar once, from the lowest lane. -/
def Team.Loaded (t t' : Team) (d : Option Dst) (m : Mask) (n : Nat) (signed : Bool) (x : Nat → Nat) : Prop :=
  (∀ r l, l < 32 → t'.readV r l =
    match d with
    | some (.v k) =>
      if m.getLsbD l then
        if n = 128 then (if k.toNat ≤ r ∧ r < k.toNat + 4 then BitVec.ofNat 32 (x l / 2 ^ (32 * (r - k.toNat))) else t.readV r l)
        else if n = 64 then
          (if k.toNat = r then BitVec.ofNat 32 (x l) else if k.toNat + 1 = r then BitVec.ofNat 32 (x l / 2 ^ 32)
           else t.readV r l)
        else if k.toNat = r then (if signed then BitVec.ofInt 32 (toS n (x l)) else BitVec.ofNat 32 (x l % 2 ^ n))
        else t.readV r l
      else t.readV r l
    | _ => t.readV r l) ∧
  (∀ r, t'.readS r =
    match d, lowest m with
    | some (.s k), some l => if k.toNat = r then
        (if signed then BitVec.ofInt 64 (toS n (x l)) else BitVec.ofNat 64 (x l % 2 ^ n)) else t.readS r
    | _, _ => t.readS r)

/-- The lanes of a group after an access: those of `off` have gone Off, the rest stand at the next instruction, and no
other lane has moved (R28, R41, R172). -/
def Team.Accessed (t t' : Team) (m off : Mask) : Prop :=
  t'.fmask = t.fmask ||| off ∧ ∀ l, l < 32 →
    (t'.lane l).st = (if off.getLsbD l then .off else (t.lane l).st) ∧
    (t'.lane l).level = (t.lane l).level ∧
    (t'.lane l).pc = (if m.getLsbD l ∧ off.getLsbD l = false then (t.lane l).pc + 1 else (t.lane l).pc)

/-- The active lanes of a word that pass the segment check for `n` bytes, and those that go Off (R172). -/
def Ctx.within (c : Ctx) (sp n : Nat) : Mask := maskBy fun l => c.active.getLsbD l && c.inSeg sp (c.offset l) n
def Ctx.outside (c : Ctx) (sp n : Nat) : Mask := c.active &&& ~~~c.within sp n

/-- Every active lane's address is aligned to `n` bytes (R257 step 3). -/
def Ctx.Aligned (c : Ctx) (sp n : Nat) : Prop :=
  ∀ l, l < 32 → c.active.getLsbD l = true → (c.base sp + c.offset l) % (n : Int) = 0

/-- The pages of some lanes are in the TLBs and grant the access (R257 step 6, R281, R283). -/
def Ctx.Mapped (c : Ctx) (sp : Nat) (m : Mask) (write : Bool) : Prop :=
  ∀ l ∈ lanesOf m, c.s.translate c.t.core c.part (c.va sp (c.offset l)) write = .ok

/-- The state after a word whose own effect came to `s1` and whose group goes on. -/
def Ctx.done (c : Ctx) (s1 : State) : State := finish c (c.advance s1)

/-- The state in which a word issues again, the chain as it stood before; its lanes were selected, so their ages start
again (R43). -/
def again (s : State) (is : Issue) (s1 : State) : State :=
  s1.updTeam is.team fun t =>
    { t.mapLanes (is.lanes.getLsbD ·) (fun _ x => { x with age := 0, retry := false }) with chain := (s.team is.team).chain }

/-- An operation enters its workgroup's matrix queue and its team's open batch, with the next command number and the
pledge of its blocks: the state and the command's identity (R212, R323 step 9, R331). -/
def Ctx.enqueued (c : Ctx) (x : Cmd) : Nat × State :=
  let (id, s) := c.s.newId
  let (x, s) := s.number x id
  (id, ((s.pledgeCmd x.pledged).matPush x).joinBatch c.is.team id)

/-- The context of a word whose checks have used the TLB entries of its global extents (R283, R323). -/
def Ctx.used (c : Ctx) (reads writes : List (Nat × Nat)) (obj : Option (Nat × Bool)) : Ctx :=
  let pages := fun (ext : List (Nat × Nat)) => (ext.flatMap fun (va, n) => pagesOf va n).map fun va => (va, c.active)
  (c.touched (pages writes)).touched (pages reads ++ (match obj with | some (va, _) => [(va, c.active)] | none => []))

/-- The checks of R323 that concern global memory (steps 6 to 8) pass for a word. -/
def Ctx.Passes (c : Ctx) (reads writes : List (Nat × Nat)) (obj : Option (Nat × Bool)) : Prop :=
  ∀ k, c.globalChecks reads writes obj k = k (c.used reads writes obj)

/-- The destination register of an outstanding load. -/
def Load.dst (d : Load) : Option Dst :=
  match d.dest with
  | .vec r => some (.v (BitVec.ofNat 8 r))
  | .scalar r => some (.s (BitVec.ofNat 6 r))
  | .none => none

/-- The queue engine of a ring crosses each of some links in this cycle, or has crossed it for the packet at READ (R299). -/
def State.Crosses (s : State) (ring : Nat) (links : List Nat) : Prop :=
  ∀ l ∈ links, (s.ring ring).crossed.contains l = true ∨ s.mayCross l (s.ringPart ring) = true

/-- A packet of a kind stands at READ of a ring and passes the checks of every packet, and no earlier packet that it must
wait for is open (R312, R313). -/
def State.Served (s : State) (ring op : Nat) (p : Pkt) (used : List (Nat × Nat)) (barred : Bool) : Prop :=
  s.packet? ring = some p ∧ p.op = op ∧ p.basic used = none ∧
    (barred = true ∨ p.bar = true → (s.ring ring).open_ = [])

end Sys2Proof.Machine
end

