-- ==== Sys2Proof/Certificates/Slice0/Obligations.lean ====
section
/-!
DEFINITION. The statements for the provers. A statement about a word names every instruction that it covers; its `o` and
`f` are the mnemonic and the fields that the instruction's word holds, `is` is the group at the issue port and `t` its
team.
-/

open Sys2Proof Sys2Proof.Machine

/-- The integer family delivers to its destination what R103 to R119 say, under the word's type, and changes nothing
else (R13, R18, R28, R57, R58, R103-R105). -/
def Obligations.IntegerResults : Prop :=
  ∀ (i : Instr) (o : Op) (f : Form) (s : State) (is : Issue) (t : Team),
    i.word? = some (o, f) → Standing s is t → Clear o f s is → (∀ k, f.d.dst ≠ some (.f k)) →
    let c := issued o f s is
    let T := f.ty
    let n := f.ty.width
    ∀ x : Nat → Nat,
    (match o with
      | .add => x = fun l => deliver T f.sat (c.ia l + c.ib l)
      | .sub => x = fun l => deliver T f.sat (c.ia l - c.ib l)
      | .mul => x = fun l => deliver T f.sat (c.ia l * c.ib l)
      | .mulhi => x = fun l => deliver T f.sat (c.ia l * c.ib l / ((2 ^ n : Nat) : Int))
      | .mad => x = fun l => deliver T f.sat (c.ia l * c.ib l + c.ic l)
      | .div => x = fun l => (divRem T f.sat (c.ia l) (c.ib l)).1
      | .rem => x = fun l => (divRem T false (c.ia l) (c.ib l)).2
      | .min => x = fun l => deliver T f.sat (min (c.ia l) (c.ib l))
      | .max => x = fun l => deliver T f.sat (max (c.ia l) (c.ib l))
      | .abs => x = fun l => deliver T f.sat (c.ia l).natAbs
      | .neg => x = fun l => deliver T f.sat (-c.ia l)
      | .and => x = fun l => c.na l &&& c.nb l
      | .or => x = fun l => c.na l ||| c.nb l
      | .xor => x = fun l => c.na l ^^^ c.nb l
      | .not => x = fun l => 2 ^ n - 1 - c.na l
      | .shl => x = fun l => deliver T f.sat (if c.u32 f.b l < n then c.ia l * ((2 ^ c.u32 f.b l : Nat) : Int)
          else if f.sat then c.ia l * ((2 ^ n : Nat) : Int) else 0)
      | .shr => x = fun l => c.na l / 2 ^ min (c.u32 f.b l) n
      | .sar => x = fun l => deliver T f.sat (toS n (c.na l) / ((2 ^ min (c.u32 f.b l) n : Nat) : Int))
      | .rot => x = fun l => rotateLeft n (c.na l) (c.u32 f.b l)
      | .bfx => x = fun l => extractField T (c.ia l) (c.u32 f.b l) (c.u32 f.c l)
      | .bfi => x = fun l => insertField n (c.na l) (c.nb l) (c.u32 f.c l)
      | .popc => x = fun l => popCount n (c.na l)
      | .clz => x = fun l => leadZeros n (c.na l)
      | .brev => x = fun l => bitRev n (c.na l)
      | .sel => x = fun l => if c.src f.c false l = 1 then c.na l else c.nb l
      | .mov => x = fun l => c.na l
      | .movi => x = fun _ => if T = .s64 then (f.imm.signExtend 64).toNat else f.imm.toNat
      | .lea => x = fun l => wrapN n (c.ia l + (if T.isS then toS 32 (c.u32 f.b l) else (c.u32 f.b l : Int)) *
          ((2 ^ f.q3 : Nat) : Int) + c.ic l)
      | _ => False) →
    Delivers i f s is t n T.isS x t.fpstat

/-- Comparisons and guard logic set the guard of each active lane; g7 discards the write (R13, R120, R121). `mov` and
`movi` to a format register: it takes the low 32 bits of the lowest active lane's value, without the reserved bits;
with no active lane it stands. Its own team sees the write at once, the other teams from the next cycle on (R7, R60,
R61, R117, R118, R143, R153). -/
def Obligations.GuardAndFormatRegisterResults : Prop :=
  (∀ (i : Instr) (o : Op) (f : Form) (s : State) (is : Issue) (t : Team),
     i.word? = some (o, f) → Standing s is t → Clear o f s is → (∀ k, f.d.dst ≠ some (.f k)) →
     let c := issued o f s is
     ∀ p : Nat → Bool,
     (match o with
       | .cmp => p = fun l => match f.q3 with
           | 0 => decide (c.ia l = c.ib l)
           | 1 => decide (c.ia l ≠ c.ib l)
           | 2 => decide (c.ia l < c.ib l)
           | 3 => decide (c.ia l ≤ c.ib l)
           | 4 => decide (c.ia l > c.ib l)
           | _ => decide (c.ia l ≥ c.ib l)
       | .gand => p = fun l => c.ga l && c.gb l
       | .gor => p = fun l => c.ga l || c.gb l
       | .gxor => p = fun l => Bool.xor (c.ga l) (c.gb l)
       | .gnot => p = fun l => !c.ga l
       | .gmov => p = fun l => c.ga l
       | .gset => p = fun l => match f.a with
           | .s _ | .int _ => (c.src f.a false l).getLsbD l
           | _ => decide (c.u32 f.a l ≠ 0)
       | _ => False) →
     Delivers i f s is t 1 false (fun l => if p l then 1 else 0) t.fpstat) ∧
  (∀ (i : Instr) (o : Op) (f : Form) (s : State) (is : Issue) (t : Team) (k : BitVec 4) (w : Wg),
     i.word? = some (o, f) → o = .mov ∨ o = .movi → Standing s is t → Clear o f s is →
     f.d.dst = some (.f k) → Tbl.find? s.wgs t.wg = some w →
     let c := issued o f s is
     let x : BitVec 32 := BitVec.ofNat 32
       (if o = .mov then c.na c.low else if f.ty = .s64 then (f.imm.signExtend 64).toNat else f.imm.toNat)
     ∃ s' t' w', exec i s = .next s' ∧ Elsewhere is.team { s with wgs := s'.wgs } s' ∧
       Tbl.find? s'.teams is.team = some t' ∧ t.Kept t' ∧ t.Stepped t' is.lanes ∧
       (∀ j, j ≠ t.wg → Tbl.find? s'.wgs j = Tbl.find? s.wgs j) ∧ Tbl.find? s'.wgs t.wg = some w' ∧
       w' = { w with fmtsNew := w'.fmtsNew } ∧
       let on : Bool := activeMask t is.lanes f.h ≠ 0
       (∀ u j, (w'.seenBy u).fmt j = if on ∧ j = k.toNat ∧ u = is.team then x &&& fmtBits else (w.seenBy u).fmt j) ∧
       ∀ j, w'.endFmts.fmt j = if on ∧ j = k.toNat then x &&& fmtBits else w.endFmts.fmt j)

/-- The float family delivers one rounding of the exact value and gathers its flags in FPSTAT; `fcmp` and `fclass`
set a guard (R28, R152, R156-R163). -/
def Obligations.FloatResults : Prop :=
  ∀ (i : Instr) (o : Op) (f : Form) (s : State) (is : Issue) (t : Team),
    i.word? = some (o, f) → Standing s is t → Clear o f s is → (∀ k, f.d.dst ≠ some (.f k)) →
    let c := issued o f s is
    let F := ieeeFmt f.ty
    ∀ (n : Nat) (g : Nat → Nat × BitVec 5),
    (match o with
      | .fadd => n = f.ty.width ∧ g = fun l => addF F f.q2 (c.fval f.a l) (c.fval f.b l)
      | .fsub => n = f.ty.width ∧ g = fun l => addF F f.q2 (c.fval f.a l) (c.fval f.b l).negate
      | .fmul => n = f.ty.width ∧ g = fun l => timesF F f.q2 (c.fval f.a l) (c.fval f.b l)
      | .ffma => n = f.ty.width ∧ g = fun l => fmaF F f.q2 (c.fval f.a l) (c.fval f.b l) (c.fval f.c l)
      | .fmin => n = f.ty.width ∧ g = fun l => minmaxF F false (c.fcode f.a f.ty l) (c.fcode f.b f.ty l)
      | .fmax => n = f.ty.width ∧ g = fun l => minmaxF F true (c.fcode f.a f.ty l) (c.fcode f.b f.ty l)
      | .frcp | .fsqrt => n = f.ty.width ∧ g = fun l => unaryF o F f.q2 (c.fval f.a l)
      | .frsq | .fexp2 | .flog2 | .ftanh => n = f.ty.width ∧ g = fun l => unaryF o F 0 (c.fval f.a l)
      | .frnd => n = f.ty.width ∧ g = fun l => rndF F f.q2 (c.fcode f.a f.ty l)
      | .hfma2 => n = 32 ∧ g = fun l =>
          let lo := fmaF F f.q2 (F.value (c.halves f.a l).1) (F.value (c.halves f.b l).1) (F.value (c.halves f.c l).1)
          let hi := fmaF F f.q2 (F.value (c.halves f.a l).2) (F.value (c.halves f.b l).2) (F.value (c.halves f.c l).2)
          (lo.1 + 65536 * hi.1, lo.2 ||| hi.2)
      | .fcmp => n = 1 ∧ g = fun l =>
          (if (fcmpF f.q3 (c.fval f.a l) (c.fval f.b l)).1 then 1 else 0, (fcmpF f.q3 (c.fval f.a l) (c.fval f.b l)).2)
      | .fclass => n = 1 ∧ g = fun l => (if (c.sc f.b).getLsbD (classF F (c.fval f.a l)) then 1 else 0, 0)
      | _ => False) →
    Delivers i f s is t n false (fun l => (g l).1) (t.fpstat ||| (c.flags g).setWidth 32)

/-- The format family, where no format is illegal and no lane's conversion traps: each active lane receives what R164
to R168 say, and FPSTAT gathers the flags. `qunpack`, where no format is illegal and no element traps: register d + j
receives element j in each active lane, and every other register stands (R166). -/
def Obligations.FormatResults : Prop :=
  (∀ (i : Instr) (o : Op) (f : Form) (s : State) (is : Issue) (t : Team),
     i.word? = some (o, f) → Standing s is t → Clear o f s is → (∀ k, f.d.dst ≠ some (.f k)) →
     let c := issued o f s is
     let N := narrowFmt (c.fmtOf f.ty)
     c.illegal = none →
     ∀ (n : Nat) (sg : Bool) (x : Nat → Nat) (fl : Nat → BitVec 5),
     (match o with
       | .cvt => sg = f.ty.isS ∧ n = (if f.ty.isFmt then fmtContainer (c.fmtOf f.ty) else f.ty.width) ∧
           ∀ l ∈ c.lanes.map c.ofLane,
             if f.ty.isInt then (x l, fl l) = convInt f.ty.isS n f.q2 (c.convSrc f.a c.ty2 l)
             else Conv.ok (x l) (fl l) = convF (c.fmtFor f.ty) f.q2 f.ovf (c.convSrc f.a c.ty2 l)
       | .cvtQ => sg = false ∧ n = fmtContainer (c.fmtOf f.ty) ∧
           ∀ l ∈ c.lanes.map c.ofLane, Conv.ok (x l) (fl l) = c.quantise N (c.convSrc f.a .f32 l) (c.sigma f.b l)
       | .cvtW => sg = false ∧ n = 32 ∧
           ∀ l ∈ c.lanes.map c.ofLane, Conv.ok (x l) (fl l) = c.widen (c.convSrc f.a c.ty2 l) (c.sigma f.b l)
       | .qpack => sg = false ∧ n = 32 ∧ ∃ a, f.a = .v a ∧
           a.toNat + fmtCount (c.fmtOf f.ty) ≤ t.vregs - t.depth ∧
           ∀ l ∈ c.lanes.map c.ofLane, ∃ y : List (Nat × BitVec 5),
             y.map (fun z => Conv.ok z.1 z.2) = (List.range (fmtCount (c.fmtOf f.ty))).map (fun j =>
               c.quantise N (fp32.value (t.readV (a.toNat + j) l).toNat) (c.sigma f.b l)) ∧
             x l = y.zipIdx.foldl (fun acc z => acc + z.1.1 * 2 ^ (fmtContainer (c.fmtOf f.ty) * z.2)) 0 ∧
             fl l = y.foldl (fun acc z => acc ||| z.2) 0
       | .bscale => sg = false ∧ n = 8 ∧ ∀ l ∈ c.lanes.map c.ofLane, (x l, fl l) = fitScale N (c.convSrc f.a .f32 l)
       | .bdot4 => sg = false ∧ n = 32 ∧
           ∀ l ∈ c.lanes.map c.ofLane, (x l, fl l) = dotF ((List.range 4).map fun j =>
             (element (c.fmtOf f.ty) (c.u32 f.a l) j, element (c.fmtOf f.ty) (c.u32 f.b l) j)) (fp32.value (c.fcode f.c .f32 l))
       | _ => False) →
     Delivers i f s is t n sg x (t.fpstat ||| (c.lanes.foldl (fun acc l => acc ||| fl (c.ofLane l)) 0).setWidth 32)) ∧
  (∀ (f : Form) (s : State) (is : Issue) (t : Team) (d : BitVec 8) (y : Nat → Nat → Nat) (fl : Nat → Nat → BitVec 5),
     Standing s is t → Clear .qunpack f s is →
     let c := issued .qunpack f s is
     let v := c.fmtOf c.ty2
     c.illegal = none → f.d.dst = some (.v d) → d.toNat + fmtCount v ≤ t.vregs - t.depth →
     (∀ l ∈ c.lanes, ∀ j, j < fmtCount v →
       Conv.ok (y l j) (fl l j) = c.widen (element v (c.u32 f.a l) j) (c.sigma f.b l)) →
     ∃ s' t', exec (.qunpack f) s = .next s' ∧ Elsewhere is.team s s' ∧ Tbl.find? s'.teams is.team = some t' ∧
       (∀ r l, l < 32 → t'.readV r l =
         if (activeMask t is.lanes f.h).getLsbD l ∧ d.toNat ≤ r ∧ r < d.toNat + fmtCount v
         then BitVec.ofNat 32 (y l (r - d.toNat)) else t.readV r l) ∧
       t.Stepped t' is.lanes ∧
       t' = { t with lanes := t'.lanes, chain := t'.chain, ahead := t'.ahead, skid := t'.skid, v := t'.v,
                     fpstat := t.fpstat ||| (c.lanes.foldl (fun acc l =>
                       (List.range (fmtCount v)).foldl (fun acc j => acc ||| fl l j) acc) 0).setWidth 32 })

/-- Branches: each active lane goes to its target, the others to the next instruction; `call` writes the return PC. A
backward `bra` may capture its loop in its pipe's loop buffer (R123, R138). `exit`: each active lane leaves the
running state for good, the group's other lanes go on (R41, R124). -/
def Obligations.BranchesAndExits : Prop :=
  (∀ (i : Instr) (o : Op) (f : Form) (s : State) (is : Issue) (t : Team),
     i.word? = some (o, f) → Standing s is t → Clear o f s is →
     let c := issued o f s is
     ∀ tgt : Nat → Word,
     (match o with
       | .bra | .call => tgt = fun _ => is.pc + 1 + f.imm
       | .brx | .ret => tgt = fun l => BitVec.ofNat 32 (c.u32 f.a l)
       | _ => False) →
     (∀ k, f.d.dst ≠ some (.f k)) →
     ∃ s' t', exec i s = .next s' ∧ Tbl.find? s'.teams is.team = some t' ∧
       Elsewhere is.team { s with cores := s'.cores } s' ∧
       (∀ k, s'.core k = { s.core k with tlb := (s'.core k).tlb, fcopy := (s'.core k).fcopy,
                                         pipes := (s'.core k).pipes }) ∧
       (o ≠ .bra → ∀ k, (s'.core k).pipes = (s.core k).pipes) ∧
       (∀ l, l < 32 → (t'.lane l).st = (t.lane l).st ∧ (t'.lane l).level = (t.lane l).level ∧
         (t'.lane l).pc = if is.lanes.getLsbD l then
             (if (activeMask t is.lanes f.h).getLsbD l then tgt l else is.pc + 1) else (t.lane l).pc) ∧
       t.Holds t' (if o = .call then f.d.dst else none) (activeMask t is.lanes f.h) 32 false (fun _ => (is.pc + 1).toNat) ∧
       t' = { t with lanes := t'.lanes, chain := t'.chain, ahead := t'.ahead, skid := t'.skid, v := t'.v, s := t'.s,
                     g := t'.g }) ∧
  (∀ (f : Form) (s : State) (is : Issue) (t : Team), Standing s is t → Clear .exit f s is →
     ∃ s' t', exec (.exit f) s = .next s' ∧ Tbl.find? s'.teams is.team = some t' ∧ t.Kept t' ∧
       Elsewhere is.team { s with cores := s'.cores } s' ∧
       (∀ k, s'.core k = { s.core k with tlb := (s'.core k).tlb, fcopy := (s'.core k).fcopy,
                                         pipes := (s'.core k).pipes }) ∧
       ∀ l, l < 32 →
         (t'.lane l).st = (if (activeMask t is.lanes f.h).getLsbD l then .exited else (t.lane l).st) ∧
         (t'.lane l).pc = (if is.lanes.getLsbD l ∧ (activeMask t is.lanes f.h).getLsbD l = false then is.pc + 1
           else (t.lane l).pc))

/-- `conv.open` raises the level of each active lane and writes its token with the PC as OPENER and pass 0;
`conv.next` raises the pass of the innermost token modulo 256. An active lane at depth D of `conv.open`, or with no
level of `conv.next` or `conv.close`, faults, and nothing has changed (R28, R64, R125-R127). `conv.close`: the active
lanes wait with the OPENER of their innermost token and the tokens outside it, and the others go on (R127). A close
instance completes when every member waits at a `conv.close` with exactly its levels: each member drops one level and
goes on, and no other lane moves (R127). -/
def Obligations.ConvergenceRegions : Prop :=
  ((∀ (i : Instr) (o : Op) (f : Form) (s : State) (is : Issue) (t : Team),
      i.word? = some (o, f) → o = .convOpen ∨ o = .convNext → Standing s is t → Clear o f s is →
      (∀ l, l < 32 → (activeMask t is.lanes f.h).getLsbD l = true →
        if o = .convOpen then (t.lane l).level < t.depth else (t.lane l).level ≠ 0) →
      ∃ s' t', exec i s = .next s' ∧ Tbl.find? s'.teams is.team = some t' ∧ Elsewhere is.team s s' ∧
        t' = { t with lanes := t'.lanes, chain := t'.chain, ahead := t'.ahead, skid := t'.skid, v := t'.v } ∧
        ∀ l, l < 32 →
          let act := (activeMask t is.lanes f.h).getLsbD l
          let k := if o = .convOpen then (t.lane l).level + 1 else (t.lane l).level
          (t'.lane l).st = (t.lane l).st ∧
          (t'.lane l).pc = (if is.lanes.getLsbD l then is.pc + 1 else (t.lane l).pc) ∧
          (t'.lane l).level = (if act then k else (t.lane l).level) ∧
          ∀ r, t'.readV r l =
            if act ∧ r = t.vregs - k then
              (if o = .convOpen then is.pc.extractLsb' 0 24 ++ 0#8
               else (t.token k l).extractLsb' 8 24 ++ ((t.token k l).extractLsb' 0 8 + 1))
            else t.readV r l) ∧
   ∀ (i : Instr) (o : Op) (f : Form) (s : State) (is : Issue) (t : Team),
     i.word? = some (o, f) → o ∈ [.convOpen, .convNext, .convClose] → Standing s is t → Clear o f s is →
     let c := issued o f s is
     let bad := maskBy fun l => c.active.getLsbD l &&
       if o = .convOpen then decide ((t.lane l).level = t.depth) else decide ((t.lane l).level = 0)
     (∀ l, l < 32 → (t.lane l).level ≤ t.depth) → bad ≠ 0 →
     exec i s = .next (countIssue c (c.s.raise is.team is.lanes is.pc is.word
       { cause := 9, sub := if o = .convOpen then 0 else 1, mask := bad } true))) ∧
  (∀ (f : Form) (s : State) (is : Issue) (t : Team), Standing s is t → Clear .convClose f s is →
     (∀ l, l < 32 → (activeMask t is.lanes f.h).getLsbD l = true → (t.lane l).level ≠ 0) →
     ∃ s' t', exec (.convClose f) s = .next s' ∧ Tbl.find? s'.teams is.team = some t' ∧ Elsewhere is.team s s' ∧
       t.Kept t' ∧
       ∀ l, l < 32 →
         (t'.lane l).level = (t.lane l).level ∧
         (if (activeMask t is.lanes f.h).getLsbD l then
           (t'.lane l).st = .waiting ∧ (t'.lane l).pc = is.pc ∧ (t'.lane l).wait = some (.close
             ((t.token (t.lane l).level l).extractLsb' 8 24) ((t.presents l).take ((t.lane l).level - 1)))
          else (t'.lane l).st = (t.lane l).st ∧
           (t'.lane l).pc = if is.lanes.getLsbD l then is.pc + 1 else (t.lane l).pc)) ∧
  (∀ (s : State) (k l : Nat) (t : Team) (opener : BitVec 24) (outer : List Word),
     Tbl.find? s.teams k = some t → l < 32 → (t.lane l).st = .waiting → (t.lane l).wait = some (.close opener outer) →
     t.parked l = false → t.stopping = false →
     let level := (t.lane l).level
     let member := fun j => (State.partners t).getLsbD j && State.closeMember t level opener outer j
     member l = true →
     (∀ j, j < 32 → member j = true → (t.lane j).st = .waiting ∧ (t.lane j).wait = some (.close opener outer) ∧
       t.parked j = false ∧ (t.lane j).level = level) →
     ∃ s' t', exec (.convCloseCompletion k l) s = .next s' ∧ Elsewhere k s s' ∧ Tbl.find? s'.teams k = some t' ∧
       t' = { t with lanes := t'.lanes } ∧
       ∀ j, j < 32 → if member j then (t'.lane j).level = level - 1 ∧ (t'.lane j).st = .running ∧
           (t'.lane j).wait = none ∧ (t'.lane j).pc = (t.lane j).pc + 1
         else t'.lane j = t.lane j)

/-- Group-collectives: every lane of the group that the mask names arrives at the instance of this PC, mask and token
and waits; the active ones contribute; lanes that are not named go on (R130-R132). A group-collective completes when
every named lane has arrived or presents another token: each contributor receives the result, `redux` gathers its
flags, the instance is gone, and its waiting lanes go on (R131-R135). What a contributor l receives, L the
contributors: `vote` one bit by its form; `ballot` a bit for each contributor whose guard is set; `elect` 1 in the
lowest lane of L alone; `match` 1 where the value equals that of the lowest; `bcast` the value of the lane that the
lowest named, 0 where it is not in L; `shfl` the value of the lane that the mode gives, its own where that lane is
not in L; `redux` the sum modulo 2^n, the least or greatest, or the bitwise combination, and under `.f32` the float
combination in ascending lane order with its flags (R133-R135, R141). -/
def Obligations.GroupCollectives : Prop :=
  (∀ (i : Instr) (o : Op) (f : Form) (s : State) (is : Issue) (t : Team),
     i.word? = some (o, f) → o ∈ [.vote, .ballot, .shfl, .redux, .elect, .matchLanes, .bcast] →
     Standing s is t → Clear o f s is → Tbl.wf t.colls = true → t.colls.length ≤ 32 →
     let c := issued o f s is
     let m : Mask := (c.sc f.c).setWidth 32
     activeMask t is.lanes f.h &&& ~~~m = 0 →
     ∃ s' t', exec i s = .next s' ∧ Tbl.find? s'.teams is.team = some t' ∧ Elsewhere is.team s s' ∧
       t' = { t with lanes := t'.lanes, chain := t'.chain, ahead := t'.ahead, skid := t'.skid, colls := t'.colls } ∧
       ∀ l, l < 32 → is.lanes.getLsbD l = true →
         if m.getLsbD l then
           (t'.lane l).st = .waiting ∧ (t'.lane l).pc = is.pc ∧
           ∃ k inst, (t'.lane l).wait = some (.coll k) ∧ Tbl.find? t'.colls k = some inst ∧
             inst.pc = is.pc ∧ inst.mask = m ∧ inst.token = t.presents l ∧ inst.handler = t.handler.isSome ∧
             inst.arrived.getLsbD l = true ∧
             ((activeMask t is.lanes f.h).getLsbD l = true → inst.contrib.getLsbD l = true ∧
               inst.vals.get 0 l = (match o with
                 | .vote | .ballot => c.src f.a false l
                 | .elect => 0
                 | _ => BitVec.ofNat 64 (c.bits f.a f.ty.width l)) ∧
               inst.lanes.get 0 l = (match o with
                 | .shfl => BitVec.ofNat 64 (c.u32 f.b l)
                 | .bcast => c.sc f.b
                 | _ => 0))
         else (t'.lane l).st = .running ∧ (t'.lane l).pc = is.pc + 1) ∧
  (∀ (s : State) (k n : Nat) (t : Team) (inst : CollInst),
     Tbl.find? s.teams k = some t → Tbl.find? t.colls n = some inst → State.collWhole t inst = true →
     (∀ r, inst.form.d.dst ≠ some (.f r)) →
     let there := t.waiters fun w => w == .coll n
     ∃ s' t', exec (.collectiveCompletion k n) s = .next s' ∧ Elsewhere k s s' ∧ Tbl.find? s'.teams k = some t' ∧
       t.Holds t' inst.form.d.dst inst.contrib inst.resultBits inst.form.ty.isS inst.result ∧
       Tbl.find? t'.colls n = none ∧ (∀ j, j ≠ n → Tbl.find? t'.colls j = Tbl.find? t.colls j) ∧
       t' = { t with lanes := t'.lanes, chain := t'.chain, v := t'.v, s := t'.s, g := t'.g, colls := t'.colls,
                     fpstat := if inst.op = .redux then t.fpstat ||| inst.redux.2.setWidth 32 else t.fpstat } ∧
       ∀ l, l < 32 → if there.getLsbD l then (t'.lane l).st = .running ∧ (t'.lane l).pc = (t.lane l).pc + 1 ∧
           (t'.lane l).wait = none
         else t'.lane l = t.lane l) ∧
  (∀ (i : CollInst) (l : Nat), l < 32 → i.contrib.getLsbD l = true →
     let L := lanesOf i.contrib
     let a := fun k => (i.vals.get 0 k).toNat
     let up := fun k => a k % 2 = 1
     let b := (i.lanes.get 0 l).toNat
     let n := i.form.ty.width
     let v := fun x : Nat => if i.form.ty.isS then toS n x else (x : Int)
     match i.op with
     | .vote => i.result l ≤ 1 ∧ (i.result l = 1 ↔ match i.form.q2 with
         | 0 => ∃ k ∈ L, up k
         | 1 => ∀ k ∈ L, up k
         | 2 => (∀ k ∈ L, up k) ∨ ∀ k ∈ L, ¬ up k
         | _ => (L.filter fun k => decide (up k)).length % 2 = 1)
     | .ballot => ∀ k, (i.result l).testBit k = decide (k ∈ L ∧ up k)
     | .elect => i.result l = if ∀ k ∈ L, l ≤ k then 1 else 0
     | .matchLanes => ∀ m ∈ L, (∀ k ∈ L, m ≤ k) → i.result l = if a l = a m then 1 else 0
     | .bcast => ∀ m ∈ L, (∀ k ∈ L, m ≤ k) →
         let j := (i.lanes.get 0 m).toNat % 32
         i.result l = if j ∈ L then a j else 0
     | .shfl =>
         let j : Int := match i.form.q2 with
           | 0 => ((b % 32 : Nat) : Int)
           | 1 => (l : Int) - b
           | 2 => (l : Int) + b
           | _ => ((l ^^^ (b % 32) : Nat) : Int)
         ∀ k : Nat, k < 32 → (if i.form.wrap then ∃ z : Int, j = k + 32 * z else j = k ∨ ((j < 0 ∨ 32 ≤ j) ∧ k = l)) →
           i.result l = if k ∈ L then a k else a l
     | .redux => (i.form.ty ≠ .f32 → (∀ k ∈ L, a k < 2 ^ n) → i.redux.2 = 0 ∧ match i.form.q3 with
           | 0 => i.result l = (L.map a).sum % 2 ^ n
           | 1 => (∃ k ∈ L, i.result l = a k) ∧ ∀ k ∈ L, v (i.result l) ≤ v (a k)
           | 2 => (∃ k ∈ L, i.result l = a k) ∧ ∀ k ∈ L, v (a k) ≤ v (i.result l)
           | 3 => ∀ j, (i.result l).testBit j = decide (∀ k ∈ L, (a k).testBit j = true)
           | 4 => ∀ j, (i.result l).testBit j = decide (∃ k ∈ L, (a k).testBit j = true)
           | _ => ∀ j, (i.result l).testBit j = decide ((L.filter fun k => (a k).testBit j).length % 2 = 1)) ∧
         (i.form.ty = .f32 → i.result l = i.redux.1 ∧ ∀ m ks, L = m :: ks →
           i.redux = ks.foldl (fun (x : Nat × BitVec 5) k =>
             let y := match i.form.q3 with
               | 0 => addF fp32 0 (fp32.value x.1) (fp32.value (a k))
               | 1 => minmaxF fp32 false x.1 (a k)
               | _ => minmaxF fp32 true x.1 (a k)
             (y.1, x.2 ||| y.2)) (if ks = [] ∧ (fp32.value (a m)).isNan = true then (nanF fp32 0).1 else a m, 0))
     | _ => True)

/-- `nop`, `yield` and `isync` change no register: the group goes on; `yield` marks its active lanes, and `isync`
ends the team's hold of its loop buffer (R137-R139). `fence` goes on once the team's strong accesses (and, at `.team`
and `.wg`, its loads) are performed, and is held until then; `pref` asks for lines and goes on whatever the checks
say (R232, R270, R271). That `isync` ends the hold whatever lanes are active is the model's choice (log 57). -/
def Obligations.HintsFencesAndPrefetches : Prop :=
  (∀ (i : Instr) (o : Op) (f : Form) (s : State) (is : Issue) (t : Team),
     i.word? = some (o, f) → o ∈ [.nop, .yield, .isync] → Standing s is t → Clear o f s is →
     ∃ s' t', exec i s = .next s' ∧ Tbl.find? s'.teams is.team = some t' ∧ t.Kept t' ∧ t.Stepped t' is.lanes ∧
       Elsewhere is.team { s with cores := s'.cores } s' ∧
       (∀ k, s'.core k = { s.core k with tlb := (s'.core k).tlb, fcopy := (s'.core k).fcopy,
                                         pipes := (s'.core k).pipes }) ∧
       (o ≠ .isync → ∀ k, (s'.core k).pipes = (s.core k).pipes) ∧
       (o = .isync → ∀ b, (Tbl.get {} (s'.core t.core).pipes t.pipe).loop = some b → b.team ≠ is.team) ∧
       (o = .yield → ∀ l, l < 32 → (activeMask t is.lanes f.h).getLsbD l = true → (t'.lane l).yld = true)) ∧
  ((∀ (f : Form) (s : State) (is : Issue) (t : Team), Standing s is t → Clear .fence f s is →
     let c := issued .fence f s is
     exec (.fence f) s = .next
       (if c.active ≠ 0 ∧ (c.s.strongOut is.team = true ∨ (f.q3 < 2 ∧ c.s.loadsOut is.team = true)) then
         finish c (c.s.updTeam is.team fun t => t.holdOn is.lanes (.team f.q3))
       else c.done c.s)) ∧
   ∀ (f : Form) (s : State) (is : Issue) (t : Team), Standing s is t → Clear .pref f s is →
     let c := issued .pref f s is
     let may := fun l => c.inSeg f.space (c.offset l) 1 = true ∧
       c.s.translateNow c.part (some (coreRq t.core)) (c.va f.space (c.offset l)) false false = none
     let away := (c.lanes.filter fun l => decide (may l) &&
       c.s.translate t.core c.part (c.va f.space (c.offset l)) false == .miss).map fun l => c.va f.space (c.offset l)
     (away = [] → ∃ s' t', exec (.pref f) s = .next s' ∧ Tbl.find? s'.teams is.team = some t' ∧ s'.mem = s.mem ∧
       t.Kept { t' with locks := t.locks } ∧ t.Stepped t' is.lanes) ∧
     (away ≠ [] → exec (.pref f) s = .next (again s is (c.s.askWalks is.team is.lanes false is.word [] away))))

/-- After the own effect of a word: writing its destination in a state that holds its team, and going on, delivers
the values and steps the group, and beside that changes only caches of translations and of code, fetched words,
chain, skid and the counts of the issue. -/
def Obligations.DeliveryTail : Prop :=
  ∀ (c : Ctx) (s1 : State) (t : Team) (n : Nat) (sg : Bool) (x : Nat → Nat),
    Tbl.find? s1.teams c.is.team = some t → (∀ k, c.f.d.dst ≠ some (.f k)) →
    (∀ l, l < 32 → c.is.lanes.getLsbD l = true → (t.lane l).st = .running ∨ (t.lane l).st = .waiting) →
    let s' := c.done (c.write s1 n sg false x)
    ∃ t', Tbl.find? s'.teams c.is.team = some t' ∧ Elsewhere c.is.team s1 s' ∧
      t.Holds t' c.f.d.dst c.active n sg x ∧ t'.Latched c.f.d c.active n x ∧
      t' = { t with lanes := t'.lanes, chain := t'.chain, ahead := t'.ahead, skid := t'.skid, v := t'.v, s := t'.s,
                    g := t'.g } ∧
      ∀ l, l < 32 →
        (t'.lane l).level = (t.lane l).level ∧
        (t'.lane l).pc = (if c.is.lanes.getLsbD l then (t.lane l).pc + 1 else (t.lane l).pc) ∧
        (t'.lane l).st = (if c.is.lanes.getLsbD l then .running else (t.lane l).st)

/-- `ld` from a scratchpad, or a weak `ld` from global memory whose words stand valid in the core's L1: the lanes
inside the segment receive the bytes at their addresses, the others go Off, and no byte of any memory changes (R172,
R182, R189, R230, R254-R260). A touch of a guard granule is recorded in the workgroup alone. That words which stand
in the L1 arrive at the issue (log 74), and that no access falls between the halves of 16 bytes of a scratchpad (log
47), are the model's choices. -/
def Obligations.LoadsDeliver : Prop :=
  ∀ (f : Form) (s : State) (is : Issue) (t : Team), Standing s is t → Clear .ld f s is →
    let c := issued .ld f s is
    let sp := f.space
    let n := f.ty.width / 8
    let rest := c.within sp n
    let off := c.outside sp n
    c.Aligned sp n →
    ∀ bytes : Nat → List Byte,
    ((sp = 1 ∨ sp = 2) ∧ f.fe = 0 ∧ bytes = (fun l => c.spadRead c.s sp (c.offset l).toNat n f.col)) ∨
      ((sp = 0 ∨ sp = 3) ∧ n ≠ 16 ∧ f.strong = false ∧ c.Mapped sp rest false ∧
        (∀ l ∈ lanesOf rest, c.s.l1Hit t.core (c.gaddr sp (c.offset l)) n = true ∧
          c.s.strongOn t.core (c.gaddr sp (c.offset l) / 128) = false) ∧
        bytes = (fun l => c.s.weakBytes t.core (c.gaddr sp (c.offset l)) n)) →
    ∃ s' t', exec (.ld f) s = .next s' ∧ Tbl.find? s'.teams is.team = some t' ∧
      Elsewhere is.team { s with wgs := s'.wgs, cores := s'.cores } s' ∧
      (∀ k, (s.core k).Kept is.team (s'.core k)) ∧
      (∀ k, s'.wg k = { s.wg k with guardRec := (s'.wg k).guardRec }) ∧
      t.Loaded t' f.d.dst rest (8 * n) f.ty.isS (fun l => loadNat (bytes l)) ∧ t.Accessed t' is.lanes off ∧
      t' = { t with lanes := t'.lanes, chain := t'.chain, ahead := t'.ahead, skid := t'.skid, v := t'.v, s := t'.s,
                    fmask := t'.fmask }

/-- `ld` that does not deliver at once (a strong load, a weak one that misses its core's L1, `.fe` and `.fec`): a
load of its lanes is outstanding, the registers that it will write are interlocked and hold what they held, and the
group goes on; lanes of `.fe` and `.fec` wait for a granule that is not full (R21, R185, R189, R231). A `.fe` or
`.fec` load whose granules are all full at its issue delivers at once, and `.fec` empties them (R185). A weak load of
16 bytes is two loads of 8: the upper is outstanding, and so is the lower unless its words stand in the L1 (R260;
that the upper never delivers at the issue is the model's choice, log 47). Load data returns once it is at hand: the
destination takes the values performed at the home, or for a weak load what the L1 then holds; the interlocks go and
the load is over (R21, R189, R230, R233, R263). A `.fe` or `.fec` load whose granules are all full completes: its
lanes receive the data and go on, `.fec` empties each granule, and the load is over (R185). -/
def Obligations.LoadsInFlight : Prop :=
  (∀ (f : Form) (s : State) (is : Issue) (t : Team), Standing s is t → Clear .ld f s is →
     let c := issued .ld f s is
     let sp := f.space
     let n := f.ty.width / 8
     let rest := c.within sp n
     let reach := fun (k cell : Nat) => ∃ l j a g, l ∈ lanesOf rest ∧ j < n ∧
       c.spadAt sp ((c.offset l).toNat + j) = some (k, a, g) ∧ spadCell a f.col = cell
     c.Aligned sp n →
     (((sp = 1 ∨ sp = 2) ∧ f.fe ≠ 0 ∧ ∀ k cell, reach k cell → s.seenFull k cell = true) →
       ∃ s' t', exec (.ld f) s = .next s' ∧ Tbl.find? s'.teams is.team = some t' ∧ s'.mem = s.mem ∧ s'.loads = s.loads ∧
         t.Loaded t' f.d.dst rest (8 * n) f.ty.isS (fun l => loadNat (c.spadRead s sp (c.offset l).toNat n f.col)) ∧
         t.Accessed t' is.lanes (c.outside sp n) ∧ (∀ k a, s'.spadGet k a = s.spadGet k a) ∧
         ∀ k cell, s'.isFull k cell = true ↔ s.isFull k cell = true ∧
           ¬ (f.fe = 2 ∧ ∃ x, reach k x ∧ State.granule x = State.granule cell)) ∧
     (((sp = 1 ∨ sp = 2) ∧ f.fe ≠ 0 ∧ ∃ k cell, reach k cell ∧ s.seenFull k cell = false) ∨
       (sp = 0 ∧ f.strong = true ∧ c.Mapped sp rest false) ∨
       ((sp = 0 ∨ sp = 3) ∧ n ≠ 16 ∧ f.strong = false ∧ c.Mapped sp rest false ∧
         (∀ l ∈ lanesOf rest, c.s.strongOn t.core (c.gaddr sp (c.offset l) / 128) = false) ∧
         ∃ l ∈ lanesOf rest, c.s.l1Hit t.core (c.gaddr sp (c.offset l)) n = false) →
      ∃ s' t' id d, exec (.ld f) s = .next s' ∧ Tbl.find? s'.teams is.team = some t' ∧ s'.mem = s.mem ∧
       Tbl.find? s'.loads id = some d ∧ d.team = is.team ∧ d.core = t.core ∧ d.lanes = rest ∧ d.n = n ∧ d.ty = f.ty ∧
       d.dest = (match f.d.dst with | some (.v r) => .vec r.toNat | some (.s r) => .scalar r.toNat | _ => .none) ∧
       (∀ r ∈ State.loadCodes d, (r, id) ∈ t'.locks) ∧ t'.v = t.v ∧ t'.s = t.s ∧ t'.g = t.g ∧
       t'.fmask = t.fmask ||| c.outside sp n ∧
       ∀ l, l < 32 → rest.getLsbD l = true →
         if f.fe ≠ 0 ∧ (sp = 1 ∨ sp = 2) then (t'.lane l).st = .waiting ∧ (t'.lane l).wait = some (.fe id) ∧
           (t'.lane l).pc = is.pc
         else (t'.lane l).st = .running ∧ (t'.lane l).pc = is.pc + 1) ∧
     ((sp = 0 ∨ sp = 3) ∧ n = 16 ∧ f.strong = false ∧ c.Mapped sp rest false →
       (∀ l ∈ lanesOf rest, c.s.strongOn t.core (c.gaddr sp (c.offset l) / 128) = false) →
       ∀ r : BitVec 8, f.d.dst = some (.v r) →
       let half := fun (s' : State) (t' : Team) (k at_ : Nat) => ∃ id d, Tbl.find? s'.loads id = some d ∧ d.team = is.team ∧
         d.core = t.core ∧ d.lanes = rest ∧ d.n = 8 ∧ d.ty = f.ty ∧ d.weak = true ∧ d.dest = .vec k ∧
         (∀ r ∈ State.loadCodes d, (r, id) ∈ t'.locks) ∧ ∀ l ∈ lanesOf rest, d.addrs.get 0 l = c.gaddr sp (c.offset l) + at_
       ∃ s' t', exec (.ld f) s = .next s' ∧ Tbl.find? s'.teams is.team = some t' ∧ s'.mem = s.mem ∧ t'.g = t.g ∧
         t'.fmask = t.fmask ||| c.outside sp n ∧ half s' t' (r.toNat + 2) 8 ∧
         (if ∀ l ∈ lanesOf rest, c.s.l1Hit t.core (c.gaddr sp (c.offset l)) 8 = true
          then t.Loaded t' f.d.dst rest 64 false fun l => loadNat (c.s.weakBytes t.core (c.gaddr sp (c.offset l)) 8)
          else half s' t' r.toNat 0 ∧ t'.v = t.v ∧ t'.s = t.s) ∧
         ∀ l, l < 32 → rest.getLsbD l = true → (t'.lane l).st = .running ∧ (t'.lane l).pc = is.pc + 1)) ∧
  (∀ (s : State) (id : Nat) (d : Load) (t : Team),
     Tbl.find? s.loads id = some d → Tbl.find? s.teams d.team = some t → s.loadReady d = true →
     (∀ r, d.dest = .vec r → r < 256) →
     let filled := d.fills.foldl (fun (s : State) line => match s.copyOf (coreDie d.core) line with
       | some c => s.fillLine d.core line (s.ownSeen d.core line c.data) d.ro
       | none => s) s
     ∃ s' t', exec (.loadDataReply id) s = .next s' ∧ Tbl.find? s'.teams d.team = some t' ∧ s'.mem = s.mem ∧
       Tbl.find? s'.loads id = none ∧ (∀ r j, (r, j) ∈ t'.locks ↔ (r, j) ∈ t.locks ∧ j ≠ id) ∧
       t.Loaded t' d.dst d.lanes (8 * d.n) d.ty.isS (fun l => loadNat (match d.vals.find? l with
             | some b => b
             | none => filled.weakBytes d.core (d.addrs.get 0 l) d.n)) ∧
       t'.fpstat = t.fpstat ||| d.flags.setWidth 32 ∧
       ∀ l, l < 32 → (t'.lane l).pc = (t.lane l).pc ∧ (t'.lane l).st = (t.lane l).st) ∧
  (∀ (s : State) (id : Nat) (d : Load) (t : Team),
     Tbl.find? s.loads id = some d → Tbl.find? s.teams d.team = some t → d.fe ≠ 0 → (∀ r, d.dest = .vec r → r < 256) →
     let there := t.waiters fun w => w == .fe id
     there ≠ 0 → s.feFull d = true →
     let w := s.wg t.wg
     let byte := fun (l j : Nat) =>
       match s.spadByte w d.clus d.base (d.offs.get 0 l + j) with
       | some (core, a, false) => s.spadGet core (spadCell a d.col)
       | _ => 0
     ∃ s' t', exec (.feLoadCompletion id) s = .next s' ∧ Tbl.find? s'.teams d.team = some t' ∧ s'.mem = s.mem ∧
       Tbl.find? s'.loads id = none ∧ (∀ r j, (r, j) ∈ t'.locks ↔ (r, j) ∈ t.locks ∧ j ≠ id) ∧
       t.Loaded t' d.dst d.lanes (8 * d.n) d.ty.isS (fun l => loadNat ((List.range d.n).map (byte l))) ∧
       (∀ core a, (s'.core core).spad.get 0 a = (s.core core).spad.get 0 a) ∧
       (∀ core cell, s'.isFull core cell =
         (s.isFull core cell && !(d.fe == 2 && (lanesOf d.lanes).any fun l =>
           (s.feCells d l).any fun x => x.1 == core && State.granule x.2 == State.granule cell))) ∧
       ∀ l, l < 32 → there.getLsbD l = true → (t'.lane l).st = .running ∧ (t'.lane l).pc = (t.lane l).pc + 1)

/-- `st` to a scratchpad: a cell that no lane inside the segment stores to holds what it held, and a cell holds the
byte of the last store to it in lane order; guard bytes are discarded; no other memory and no register changes (R172,
R176, R182, R254-R260). That no access falls between the halves of 16 bytes is the model's choice (log 47). `atom`
and `red` in a scratchpad: the lanes act one after another in lane order, each reading its old value and writing the
new one; `atom` delivers the old value and gathers the flags (R182, R262, R263). -/
def Obligations.ScratchpadWrites : Prop :=
  (∀ (f : Form) (s : State) (is : Issue) (t : Team), Standing s is t → Clear .st f s is →
     let c := issued .st f s is
     let sp := f.space
     let n := f.ty.width / 8
     let rest := c.within sp n
     sp = 1 ∨ sp = 2 → c.Aligned sp n →
     let hits : Nat → Nat → Nat → Nat → Prop := fun l j k a => l ∈ lanesOf rest ∧ j < n ∧
       ∃ b, c.spadAt sp ((c.offset l).toNat + j) = some (k, b, false) ∧ spadCell b f.col = a
     ∃ s' t', exec (.st f) s = .next s' ∧ Tbl.find? s'.teams is.team = some t' ∧
       Elsewhere is.team { s with wgs := s'.wgs, cores := s'.cores } s' ∧
       (∀ k, s'.wg k = { s.wg k with guardRec := (s'.wg k).guardRec }) ∧
       (∀ k, Core.Kept is.team { s.core k with spad := (s'.core k).spad } (s'.core k)) ∧
       (∀ k a, (∀ l j, ¬ hits l j k a) → s'.spadGet k a = s.spadGet k a) ∧
       (∀ l j k a, hits l j k a → (∀ l' j', hits l' j' k a → l' < l ∨ (l' = l ∧ j' ≤ j)) →
         s'.spadGet k a = (c.dataBytes f.c n l).getD j 0) ∧
       t.Accessed t' is.lanes (c.outside sp n) ∧
       t' = { t with lanes := t'.lanes, chain := t'.chain, ahead := t'.ahead, skid := t'.skid, fmask := t'.fmask }) ∧
  (∀ (i : Instr) (o : Op) (f : Form) (s : State) (is : Issue) (t : Team),
     i.word? = some (o, f) → o = .atom ∨ o = .red → Standing s is t → Clear o f s is →
     let c := issued o f s is
     let sp := f.atomSpace
     let n := f.ty.width / 8
     let off := fun l => if f.atomOp = 7 then c.offsetA l else c.offset l
     let rest := maskBy fun l => c.active.getLsbD l && c.inSeg sp (off l) n
     let d := c.keep rest (c.active &&& ~~~rest)
     let old := fun (s : State) (l : Nat) => d.spadRead s sp (off l).toNat n false
     let new := fun (s : State) (l : Nat) =>
       atomCalc f.atomOp f.ty (loadNat (old s l)) (c.atomVal f.c l) (if f.atomOp = 7 then c.atomVal f.b l else 0)
     let one := fun (s : State) (l : Nat) =>
       let s1 := d.spadTouch (d.spadWrite s sp (off l).toNat false (natBytes n (new s l).1)) sp (off l).toNat n
       if o = .atom then s1.deliver { d.loadOf (1#32 <<< l) with n := n } (fun _ => old s l) else s1
     sp = 1 ∨ sp = 2 → (∀ l, l < 32 → c.active.getLsbD l = true → (c.base sp + off l) % (n : Int) = 0) →
     let r := (lanesOf rest).foldl (fun (a : State × BitVec 5) l => (one a.1 l, a.2 ||| (new a.1 l).2)) (d.s, 0)
     exec i s = .next (c.done (if o = .atom then r.1.updTeam is.team (fun t => t.gather r.2) else r.1)))

/-- Writes to global memory by `st`, `atom` and `red` that pass their checks: where every block is marked at the core
the write is performed, and otherwise the group is held for the decision on its pledge and nothing of the write has
happened yet (R207-R209, R257, R259-R264). A pledge decision whose blocks no other core has marked, with room in the
pledge table: where every owner region covers its share the need is pledged, the new blocks are marked and the write
is performed, and otherwise the store takes the capacity fault and nothing of it happens; a full table writes back
the block whose mark it took longest ago; and a pledge adds to each region's RSVP exactly what that region owes (R28,
R207-R209, R213). -/
def Obligations.GlobalWritesPledge : Prop :=
  (∀ (i : Instr) (o : Op) (f : Form) (s : State) (is : Issue) (t : Team),
     i.word? = some (o, f) → Standing s is t → Clear o f s is →
     let c := issued o f s is
     let n := f.ty.width / 8
     let off := fun l => if f.atomOp = 7 ∧ o ≠ .st then c.offsetA l else c.offset l
     let rest := maskBy fun l => c.active.getLsbD l && c.inSeg 0 (off l) n
     let ls := lanesOf rest
     (o = .st ∧ f.space = 0) ∨ ((o = .atom ∨ o = .red) ∧ f.atomSpace = 0) →
     (∀ l, l < 32 → c.active.getLsbD l = true → (c.base 0 + off l) % (n : Int) = 0) →
     let want := ls.map fun l => (c.va 0 (off l), 1#32 <<< l)
     (∀ l ∈ ls, c.s.translate t.core c.part (c.va 0 (off l)) true = .ok ∧
       (o ≠ .st → (c.touched want).s.translate t.core c.part (c.va 0 (off l)) false = .ok) ∧
       c.s.tokenLacking t.wg (c.gaddr 0 (off l)) n = false) →
     let r : StoreReq :=
       { team := is.team, core := t.core, lanes := is.lanes, word := is.word, pc := is.pc,
         strong := if o = .st then f.strong else true,
         off := c.active &&& ~~~rest, stores := rest, chain := c.ownChain.map fun ch => (ch.pc0, ch.len),
         writes := ls.map fun l => (l, c.gaddr 0 (off l),
           if o = .st then c.dataBytes f.c n l else natBytes n (c.atomVal f.c l)),
         cmp := if o = .st then [] else ls.map fun l => natBytes n (if f.atomOp = 7 then c.atomVal f.b l else 0),
         atom := if o = .st then none else some (f.atomOp, f.ty,
           if o = .atom then (match f.d.dst with | some (.v k) => some k.toNat | _ => none) else none) }
     (r.strong = false → ∀ l ∈ ls, c.s.strongOn t.core (c.gaddr 0 (off l) / 128) = false) →
     c.s.ownLoad is.team r.writes = false →
     let u := if o = .st then c.touched want else (c.touched want).touched want
     (r.strong = false → u.s.fillShut t.core r.writes = none) →
     exec i s = .next
       (if ls = [] ∨ ∀ k ∈ State.storeBlocks r, k ∈ (s.core (s.unit t.core)).pledges then c.done (u.s.performStore r)
        else finish c ((u.s.post .request none c.part (.pledge (State.storeBlocks r) r)).2.updTeam is.team fun t =>
          t.holdOn is.lanes (.pledge (u.s.post .request none c.part (.pledge (State.storeBlocks r) r)).1)))) ∧
  ((∀ (s : State) (id : Nat) (m : Msg) (ks : List Nat) (r : StoreReq),
     Tbl.find? s.msgs id = some m → m.body = .pledge ks r → s.stopped r.team r.lanes = false →
     let core := s.unit r.core
     let new := ks.filter fun k => !(s.core core).pledges.contains k
     let s1 := s.dropMsg id
     (∀ k ∈ ks, entPledged (s.blockEntry k) = true → entOwner (s.blockEntry k) = core) →
     (s.core core).pledges.length + new.length ≤ 512 → (∀ k ∈ ks, s.migrating (512 * k) = false) →
     s.unmappedLanes r = 0 → (r.strong = false → s.fillShut r.core r.writes = none) →
     (s1.uncovered new = none → exec (.pledgeRequest id) s = .next
       (((((new.foldl (fun s k => s.markBlock core k) (s1.addPledges new)).performStore r).endHalves (·.team == r.team)).updTeam
         r.team fun t =>
         t.advance (t.holders fun h => h == .pledge id)).closeChain r.team r.lanes)) ∧
     ∀ owner need avail, s1.uncovered new = some (owner, need, avail) →
       ∃ fi : FaultInfo, exec (.pledgeRequest id) s = .next (s1.raise r.team r.lanes r.pc r.word fi true) ∧ fi.cause = 7 ∧
         fi.mask = r.stores ∧ fi.d0 = BitVec.ofNat 64 (owner % 65536) ∧ fi.d1 = BitVec.ofNat 64 need ∧
         fi.d2 = BitVec.ofInt 64 avail) ∧
   (∀ (s : State) (id oldest : Nat) (m : Msg) (ks rest : List Nat) (r : StoreReq),
     Tbl.find? s.msgs id = some m → m.body = .pledge ks r → s.stopped r.team r.lanes = false →
     let core := s.unit r.core
     (∀ k ∈ ks, entPledged (s.blockEntry k) = true → entOwner (s.blockEntry k) = core) →
     (∀ k ∈ ks, s.migrating (512 * k) = false) → (r.strong = false → s.fillShut r.core r.writes = none) →
     (s.core core).pledges = oldest :: rest →
     512 < (s.core core).pledges.length + (ks.filter fun k => !(s.core core).pledges.contains k).length →
     exec (.pledgeRequest id) s = .next ((s.writeBackBlock core oldest).requeue id)) ∧
   (∀ (s : State) (ks : List Nat) (q : Nat) (g : Region), Tbl.find? s.regions q = some g →
     (s.addPledges ks).region q =
       { g with rsvp := g.rsvp + (s.needOf ks q : Int),
                pledgedTotal := if q ∈ s.ownersOf ks then sat64 (g.pledgedTotal + s.needOf ks q) else g.pledgedTotal }) ∧
   ∀ (s : State) (id k core : Nat) (m : Msg), Tbl.find? s.msgs id = some m → m.body = .ownerChange k core →
     entPledged (s.blockEntry k) = true → entOwner (s.blockEntry k) = core →
     exec (.pledgeOwnerChange id) s = .next
       (let s1 := s.dropMsg id
        if s1.holdsDirty core k then s1.writeBackBlock core k
        else (match s1.ownerOf k with
         | some q => s1.reserve q fun g => { g with rsvp := g.rsvp - (8 - ((entSect (s.blockEntry k) : Nat) : Int)) }
         | none => s1).clearMark k))

/-- A weak store of bytes within one line, performed in the L1: the core's weak loads of the line see the new bytes
where it stores and what they saw elsewhere, and main memory is as it was (R189, R230). The number that the next
message takes is not in use. The upper halves of 16-byte weak stores are such stores: those that stand are performed
as the cycle ends at the latest, the oldest first, and each that is performed stands no more (R260; log 47). Writes
reach their home: a write-back lays its bytes over its line and the merging die's copy holds the line in M or O, or
it waits at its home where there is no frame; a landing of an engine writes its block's bytes; every other byte of
main memory stands, but for a block of TYPE 3, which the home makes constant zero at the first access (R200, R210,
R212, R220, R245, R327). A strong access that its line's older messages and leases let through is performed at the
home as one step: the load that waits takes the values that its lanes found, in lane order, and a write to a mapped
page lays its bytes over its line; every other line stands (R200, R203, R212, R231, R252, R261-R263). The condition
on the number that the next message takes follows the model (log 3). -/
def Obligations.WritesReachHome : Prop :=
  (∀ (s : State) (core ga : Nat) (bs : List Byte) (a : Nat), ga % 128 + bs.length ≤ 128 → bs ≠ [] → a / 128 = ga / 128 →
     Tbl.find? s.msgs s.nextId = none →
     let s' := s.l1Store core ga bs
     s'.mem = s.mem ∧
     s'.weakBytes core a 1 = if ga ≤ a ∧ a < ga + bs.length then [bs.getD (a - ga) 0] else s.weakBytes core a 1) ∧
  ((∀ s : State, let s1 := s.endHalves fun _ => true
     exec .clockCycle s = exec .clockCycle s1 ∧ s1.halves = [] ∧ s1.mem = s.mem) ∧
   (∀ (s : State) (p : Half → Bool) (h : Half) (hs : List Half), s.halves = h :: hs → p h = true →
     s.endHalves p = (({ s with halves := hs } : State).l1Store h.core h.ga h.bytes).endHalves p) ∧
   ∀ (s : State) (p : Half → Bool), (∀ h ∈ s.halves, p h = false) → s.endHalves p = s) ∧
  ((∀ (s : State) (line l : Nat), (s.repair (128 * line)).homeLine l =
     if l / 4 = line / 4 ∧ (s.pageAt (128 * line)).map (fun x => entType (x.2.block (line / 4 % 128))) = some 3 then 0
     else s.homeLine l) ∧
   (∀ (s : State) (id core line : Nat) (mask : BitVec 128) (data : LineData) (m : Msg),
     Tbl.find? s.msgs id = some m → m.body = .merge core line mask data → id < s.nextId →
     s.mergeWait id (coreDie core) line = none → s.mapped line = true → line < 2 ^ 64 →
     let s0 := s.repair (128 * line)
     let s' := s.mergeBack id core line mask data
     exec (.merge id) s = .next (if s.hasFrames s' line then s' else s.frameWait id line) ∧
     (s.frameWait id line).mem = s.mem ∧ (Tbl.find? (s.frameWait id line).msgs id).map (·.body) = some m.body ∧
     ∃ c, Tbl.find? s'.msgs id = none ∧
       s'.homeLine line = overlay (s0.homeLine line) mask data ∧
       (∀ l, l ≠ line → s'.homeLine l = s0.homeLine l) ∧
       Tbl.find? s'.copies (State.copyKey (coreDie core) line) = some c ∧ c.data = s'.homeLine line ∧
       (c.st = .m ∨ c.st = .o)) ∧
   ∀ (s : State) (id core cmd k : Nat) (bs : List (Nat × Byte)) (m : Msg) (x : Cmd),
     Tbl.find? s.msgs id = some m → m.body = .landing core cmd k → s.findCmd core cmd = some x →
     Tbl.find? x.landings k = some bs → (bs.map (·.1)).Nodup →
     (∀ y ∈ (s.core core).copyQ.takeWhile (fun y => y.id != cmd), ∀ b ∈ y.landings, b.1 ≠ k) →
     (∀ b ∈ bs, s.mergeWait id (coreDie core) (b.1 / 128) = none ∧ s.mapped (b.1 / 128) = true) →
     let s0 := bs.foldl (fun s b => s.repair b.1) s
     ∃ s', exec (.engineWriteLanding id) s = .next s' ∧
       ∀ a, memRead s'.mem a = ((bs.find? fun b => b.1 == a).map (·.2)).getD (memRead s0.mem a)) ∧
  (∀ (s : State) (id core line team load : Nat) (write : Bool) (atom : Option (Nat × Ty)) (ls : List StrongLane) (m : Msg),
     Tbl.find? s.msgs id = some m → m.body = .strong core line team load write atom ls → id < s.nextId →
     (write = true → s.mergeWait id (coreDie core) line = none) →
     (write = false → s.olderOnChan id = false ∧ s.migrating (128 * line) = false) →
     let s0 := s.repair (128 * line)
     let r := State.strongLanes write atom (s0.homeLine line) ls
     let mask := ls.foldl (fun (m : BitVec 128) x => m ||| ((BitVec.allOnes 128 >>> (128 - x.n)) <<< (x.addr % 128))) 0
     ∃ s', exec (.homeStrongAccess id) s = .next s' ∧ Tbl.find? s'.msgs id = none ∧
       s'.homeLine line = (if write ∧ s.mapped line = true then overlay (s0.homeLine line) mask r.1 else s0.homeLine line) ∧
       (∀ l, l ≠ line → s'.homeLine l = s0.homeLine l) ∧
       Tbl.find? s'.loads load = (Tbl.find? s.loads load).map fun d =>
         { d with vals := r.2.1.foldl (fun v (l, b) => Tbl.upd [] v l (· ++ b)) d.vals, flags := d.flags ||| r.2.2 })

/-- `acq`: at a scope beyond the core's, a line that the core holds already (or, exclusively, the workgroup) needs
nothing, and otherwise the request enters the line's queue and the group is held for it; at `.team` and `.wg` it
waits for the team's loads alone (R224, R226, R234, R265, R266). `rel`: it waits for the team's earlier accesses;
where the core holds the line the release is recorded there and ends the workgroup's exclusive hold; where it does
not, the request enters the line's queue (R225, R234, R266). A release that waits is made once its team's accesses
are performed, as one that waits for nothing is, and its group goes on; a lane that a sibling's handler or a halt has
stopped goes on as it is released (R225, R266, R400, R401). -/
def Obligations.AcquireAndRelease : Prop :=
  (∀ (f : Form) (s : State) (is : Issue) (t : Team), Standing s is t → Clear .acq f s is →
     let c := issued .acq f s is
     c.active ≠ 0 →
     let at_ : Int := (c.base 0 : Int) + c.offset c.low
     let va := 128 * (at_ / 128).toNat
     let line := gaOf c.part va / 128
     let r : SyncReq :=
       { core := s.unit t.core, team := some is.team, lanes := is.lanes, launch := c.w.gang, widx := c.w.wgid,
         excl := f.top, release := false, va := at_.toNat, word := is.word, since := s.cycle,
         away := (s.gate (coreDie t.core) line).isSome }
     c.inSeg 0 (128 * (at_ / 128) - c.base 0) 128 = true → c.s.translate t.core c.part va false = .ok →
     let u := c.touched [(va, c.active)]
     exec (.acq f) s = .next
       (if f.q3 < 2 then
         (if c.s.loadsOut is.team then again s is (u.s.updTeam is.team fun t => t.holdOn is.lanes (.earlier true)) else c.done u.s)
       else if f.top = true ∧ (c.s.syncs.get {} line).excl = some (c.w.gang, c.w.wgid) then
         (if s.granting line (c.w.gang, c.w.wgid) then
           again s is (u.s.updTeam is.team fun t => t.holdOn is.lanes (.earlier true)) else c.done u.s)
       else if f.top = false ∧ (s.core (s.unit t.core)).holds.any (·.1 == line) = true then c.done u.s
       else finish c ({ u.s with syncs := Tbl.upd {} u.s.syncs line fun m => { m with queue := m.queue ++ [r] } }.updTeam
         is.team fun t => t.holdOn is.lanes (.sync line)))) ∧
  (∀ (f : Form) (s : State) (is : Issue) (t : Team), Standing s is t → Clear .rel f s is →
     let c := issued .rel f s is
     c.active ≠ 0 →
     let at_ : Int := (c.base 0 : Int) + c.offset c.low
     let va := 128 * (at_ / 128).toNat
     let line := gaOf c.part va / 128
     let core := s.unit t.core
     let who := (c.w.gang, c.w.wgid)
     let r : SyncReq :=
       { core := core, team := some is.team, lanes := is.lanes, launch := c.w.gang, widx := c.w.wgid,
         excl := false, release := true, va := at_.toNat, word := is.word, since := s.cycle,
         away := (s.gate (coreDie t.core) line).isSome }
     let held := (s.core core).holds.any (·.1 == line)
     c.inSeg 0 (128 * (at_ / 128) - c.base 0) 128 = true → c.s.translate t.core c.part va false = .ok →
     let u := c.touched [(va, c.active)]
     (held = true → 2 ≤ f.q3 → (c.s.syncs.get {} line).excl = none ∨ (c.s.syncs.get {} line).excl = some who) →
     exec (.rel f) s = .next
       (if c.s.loadsOut is.team || c.s.strongOut is.team then
         finish c (u.s.updTeam is.team fun t => t.holdOn is.lanes (.release line at_.toNat f.q3 is.word))
       else if f.q3 < 2 then c.done u.s
       else if held then
         let s1 := u.s.updCore core fun k => { k with holds := k.holds.map fun (l, b) => (l, b || l == line) }
         c.done { s1 with syncs := s1.syncs.updIf line fun m => if m.excl = some who then { m with excl := none } else m }
       else finish c ({ u.s with syncs := Tbl.upd {} u.s.syncs line fun m => { m with queue := m.queue ++ [r] } }.updTeam
         is.team fun t => t.holdOn is.lanes (.sync line)))) ∧
  ((∀ (t : Team) (m : Mask) (l : Nat), l < 32 → (t.complete m).lane l =
     if m.getLsbD l ∧ t.parked l = true then { t.lane l with hold := some .done } else (t.advance m).lane l) ∧
   ∀ (s : State) (k line va sc : Nat) (m : Mask) (word : IWord) (t : Team), Tbl.find? s.teams k = some t →
     let w := s.wg t.wg
     let s' := s.releaseNow k m line va sc word
     (s.loadsOut k = true ∨ s.strongOut k = true → s' = s) ∧
     (s.loadsOut k = false → s.strongOut k = false →
       (sc < 2 → s' = s.updTeam k fun t => t.complete m) ∧
       (2 ≤ sc → (s.core (s.unit t.core)).holds.any (·.1 == line) = false →
         s' = s.syncAsk k m line va false true word) ∧
       (2 ≤ sc → (s.core (s.unit t.core)).holds.any (·.1 == line) = true →
         ((s.syncs.get {} line).excl = none ∨ (s.syncs.get {} line).excl = some (w.gang, w.wgid) →
           s' = (s.recordRelease (s.unit t.core) line (w.gang, w.wgid)).updTeam k fun t => t.complete m) ∧
         ((s.syncs.get {} line).excl ≠ none → (s.syncs.get {} line).excl ≠ some (w.gang, w.wgid) →
           (∀ l ∈ lanesOf m, t.parked l = false) →
           ∃ pc fi, s' = s.raise k m pc word fi true ∧ fi.cause = 6 ∧ fi.sub = 2 ∧ fi.mask = s.activeIn k m word))))

/-- Sync objects: the home takes a line's hold back from its holder, then asks its last releaser to surrender, then
grants the oldest request; a surrender is acknowledged once what the core owed has merged; the core's grant takes the
hold, drops the clean words of the bound ranges for an acquire or records a release, and lets the group go on (R28,
R225-R229, R234, R240). -/
def Obligations.SyncProtocol : Prop :=
  (∀ (s : State) (line : Nat) (m : SyncMeta) (r : SyncReq) (rest : List SyncReq),
    Tbl.find? s.syncs line = some m → m.queue = r :: rest → (s.pageAt (128 * line)).isSome = true →
    (m.excl = none ∨ m.excl = some (r.launch, r.widx)) → r.away = false →
    let part := gaPart (128 * line)
    (r.stage = 0 → (∀ h, m.hold = some h → h = r.core) → exec (.acquireRequest line) s = .next (s.syncStage line 2)) ∧
    (r.stage = 0 → ∀ h, m.hold = some h → h ≠ r.core → exec (.acquireRequest line) s = .next
      ((s.syncStage line 1).send .control (State.syncChan h line) part (.takeback h line))) ∧
    (r.stage = 2 → (∀ c, m.last = some c → c = r.core ∧ (r.cmd = none ∨ r.release = true)) →
      exec (.acquireRequest line) s = .next (s.syncStage line 4)) ∧
    (r.stage = 2 → ∀ c, m.last = some c → c ≠ r.core → exec (.acquireRequest line) s = .next
      ((s.syncStage line 3).send .control (State.syncChan c line) part (.surrender c line none))) ∧
    (r.stage = 4 → exec (.acquireRequest line) s = .next
      ({ s.syncPop line with syncs := Tbl.updIf (s.syncPop line).syncs line fun m =>
          { m with hold := some r.core, excl := if r.excl then some (r.launch, r.widx) else m.excl } }.send .reply
        (State.syncChan r.core line) part (.grant line r)))) ∧
  (∀ (s : State) (id core line : Nat) (m : Msg), Tbl.find? s.msgs id = some m → s.olderOnChan id = false →
    (m.body = .takeback core line →
      exec (.holdTakeback id) s = .next (((s.dropMsg id).holdBack core line).syncNext line 1 2)) ∧
    (m.body = .surrender core line none → exec (.surrender id) s = .next
      (let s1 := s.surrenderWords core line
       State.requeue { s1 with msgs := s1.msgs.updIf id fun x => { x with body := .surrender core line (some s1.nextId) } } id)) ∧
    ∀ upTo, m.body = .surrender core line (some upTo) → exec (.surrender id) s = .next
      (if s.drained core upTo then
         (s.dropMsg id).send .reply none (gaPart (128 * line)) (.surrenderAck core line upTo)
       else s.requeue id)) ∧
  (∀ (s : State) (id core line upTo : Nat) (m : Msg), Tbl.find? s.msgs id = some m → m.body = .surrenderAck core line upTo →
    exec (.surrenderAck id) s = .next
      (State.syncNext { s.dropMsg id with syncs := Tbl.updIf (s.dropMsg id).syncs line fun x => { x with last := none } } line 3 4)) ∧
  ∀ (s : State) (id line t : Nat) (r : SyncReq) (m : Msg), Tbl.find? s.msgs id = some m → m.body = .grant line r →
    r.team = some t → r.stage = 4 →
    let s1 := (s.dropMsg id).takeHold r.core line
    exec (.acquireGrant id) s = .next
      ((if r.release then s1.recordRelease r.core line (r.launch, r.widx) else s1.dropCleanAll r.core (s1.boundRanges line)).updTeam
        t fun x => x.complete (x.holders (fun h => h == .sync line) &&& r.lanes))

/-- `bind` enters a range under the least free index of the region's table and writes that index; `unbind` frees one
(R268, R269, R296). `bsize` writes TYPE, sector count and pledge mark of each lane's block as they stand at its home
(R199, R273). -/
def Obligations.BindingsAndBlockSizes : Prop :=
  ((∀ (f : Form) (s : State) (is : Issue) (t : Team) (k : Nat), Standing s is t → Clear .bind f s is →
     let c := issued .bind f s is
     let a := (c.sc f.a).toNat
     let b := (c.sc f.b).toNat
     let o := (c.sc f.c).toNat
     let va := (c.base 0 + o) / 128 * 128
     c.active ≠ 0 → a % 128 = 0 → b % 128 = 0 → b ≠ 0 → a + b ≤ c.limit 0 → o + 1 ≤ c.limit 0 →
     c.s.translate t.core c.part va false = .ok → (c.s.region c.region).bindings.freeKey 4096 = some k →
     let u := c.touched [(va, c.active)]
     exec (.bind f) s = .next (c.done (u.writeScalar
       (u.s.updRegion c.region fun g => { g with bindings := g.bindings.put k (c.base 0 + a, b, va / 128, f.top) })
       (BitVec.ofNat 64 k)))) ∧
   ∀ (f : Form) (s : State) (is : Issue) (t : Team), Standing s is t → Clear .unbind f s is →
     let c := issued .unbind f s is
     c.active ≠ 0 → (c.sc f.a).toNat ≤ 4095 →
     exec (.unbind f) s = .next (c.done
       (c.s.updRegion c.region fun g => { g with bindings := g.bindings.erase (c.sc f.a).toNat }))) ∧
  (∀ (f : Form) (s : State) (is : Issue) (t : Team), Standing s is t → Clear .bsize f s is →
     let c := issued .bsize f s is
     let rest := c.within 0 1
     c.Mapped 0 rest false →
     let k := fun l => c.gaddr 0 (c.offset l) / 512
     (∀ l ∈ lanesOf rest, c.s.inFlight (s.unit t.core) (k l) = false ∧ s.migrating (512 * k l) = false) →
     (∀ j, f.d.dst ≠ some (.f j)) →
     ∃ s' t', exec (.bsize f) s = .next s' ∧ Tbl.find? s'.teams is.team = some t' ∧
       Elsewhere is.team { s with cores := s'.cores } s' ∧ (∀ k, (s.core k).Kept is.team (s'.core k)) ∧
       t.Holds t' f.d.dst rest 32 false (fun l =>
         (if entPledged (s.blockEntry (k l)) then 64 else 0) + entType (s.blockEntry (k l)) * 16 + entSect (s.blockEntry (k l))) ∧
       t.Accessed t' is.lanes (c.outside 0 1))

/-- `cwb`, `cinv` and `icinv`: main memory and registers stand as they were; `cinv` leaves no word of its lines valid
in the core's L1, and `cwb` and `cinv` no dirty one; the group is held exactly while write-backs of the core are on
their way (R271, R272). Where the lines hold no dirty word and no write-back is on its way, `cwb`, `cinv` and `icinv`
complete: the lanes stand at the next instruction. That the group is held while any write-back of the core is on its
way, and not those of its own words alone, is the model's choice (log 48), and so are the sizes 1 and 12 of the
segment check (log 74). -/
def Obligations.CacheControl : Prop :=
  ∀ (i : Instr) (o : Op) (f : Form) (s : State) (is : Issue) (t : Team),
    (i = .cwb f ∧ o = .cwb) ∨ (i = .cinv f ∧ o = .cinv) ∨ (i = .icinv f ∧ o = .icinv) → Standing s is t → Clear o f s is →
    let c := issued o f s is
    let lines := if o ≠ .icinv ∧ f.top then s.l1Lines t.core else (c.cacheLines (if o = .icinv then 12 else 1)).2
    let out := fun (x : State) => x.msgs.any fun (_, m) => match m.body with
      | .merge k _ _ _ => k == s.unit t.core
      | _ => false
    ∃ s' t', exec i s = .next s' ∧ Tbl.find? s'.teams is.team = some t' ∧ s'.mem = s.mem ∧ t'.v = t.v ∧ t'.s = t.s ∧
      t'.g = t.g ∧ t'.segs = t.segs ∧
      (c.active ≠ 0 → o ≠ .icinv → ∀ l ∈ lines, (s'.l1 t.core l).dirty = 0 ∧ (o = .cinv → (s'.l1 t.core l).valid = 0)) ∧
      (∀ l, l < 32 → is.lanes.getLsbD l = true → t'.fmask.getLsbD l = false →
        if c.active ≠ 0 ∧ out s' = true then (t'.lane l).hold ≠ none ∧ (t'.lane l).pc = is.pc
        else (t'.lane l).hold = none ∧ (t'.lane l).pc = is.pc + 1) ∧
      ((∀ l ∈ lines, (s.l1 t.core l).dirty = 0) → out s = false → s'.msgs = s.msgs ∧
        ∀ l, l < 32 → is.lanes.getLsbD l = true → t'.fmask.getLsbD l = false →
          (t'.lane l).hold = none ∧ (t'.lane l).pc = is.pc + 1)

/-- `st.sparse` with a legal cursor whose record lies in its segment and has room: the nonzero elements follow the
values stored before, then the chunk's mask and the header are written, and the cursor moves to the next chunk; in
global memory once the pledge stands (R274, R275). `ld.expand` of a chunk of a record whose bytes can be read at
once: a lane that the chunk's mask names receives its value, every other active lane 0; a lane whose value would lie
beyond the segment goes Off (R274, R276). -/
def Obligations.SparseRecords : Prop :=
  (∀ (f : Form) (s : State) (is : Issue) (t : Team) (d : BitVec 6), Standing s is t → Clear .stSparse f s is →
     let c := issued .stSparse f s is
     let sp := f.space
     let n := f.ty.width / 8
     f.d.dst = some (.s d) → c.active ≠ 0 →
     let cur := t.readS d.toNat
     let len := bitsOf cur 63 48
     let cap := bitsOf cur 47 32
     let k := bitsOf cur 31 16
     let e0 := bitsOf cur 15 0
     len ≠ 0 → len ≤ 65504 → e0 % 32 = 0 → e0 < len → k ≤ cap →
     let v0 := 4 + 4 * ((len + 31) / 32)
     c.offset c.low % 4 = 0 → c.inSeg sp (c.offset c.low) (v0 + n * cap) = true →
     let r := (c.offset c.low).toNat
     let val := fun l => c.bits f.c (8 * n) l
     let list := c.lanes.filter fun l => decide (e0 + l < len) && decide (val l ≠ 0)
     k + list.length ≤ cap →
     let writes : List (Nat × Nat × List Byte) :=
       ((List.range list.length).zip list).map (fun (j, l) => (l, r + v0 + n * (k + j), natBytes n (val l)))
         ++ [(c.low, r + 4 + 4 * (e0 / 32), bytesOf 4 (list.foldl (fun (a : Mask) l => a ||| (1#32 <<< l)) 0)),
             (c.low, r, natBytes 4 (len + (k + list.length) * 65536))]
     let next : DWord := BitVec.ofNat 64 (((len * 65536 + cap) * 65536 + (k + list.length)) * 65536 + (e0 + 32) % 65536)
     (sp = 1 ∨ sp = 2 → exec (.stSparse f) s = .next (c.done ((writes.foldl (fun s w =>
         c.spadTouch (c.spadWrite s sp w.2.1 f.col w.2.2) sp w.2.1 w.2.2.length) c.s).updTeam is.team fun t =>
           t.writeS d.toNat next))) ∧
     (sp = 0 ∨ sp = 3 →
       let r : StoreReq :=
         { team := is.team, core := t.core, lanes := is.lanes, word := is.word, pc := is.pc, stores := c.active,
           chain := c.ownChain.map fun ch => (ch.pc0, ch.len), cursor := some (d.toNat, next),
           writes := writes.map fun w => (w.1, c.gaddr sp w.2.1, w.2.2) }
       (∀ w ∈ r.writes, c.s.translate t.core c.part (gaVa w.2.1) true = .ok ∧
         c.s.tokenLacking t.wg w.2.1 w.2.2.length = false ∧ c.s.strongOn t.core (w.2.1 / 128) = false) →
       (∀ k ∈ State.storeBlocks r, k ∈ (s.core (s.unit t.core)).pledges) → c.s.ownLoad is.team r.writes = false →
       let u := c.touched (r.writes.map fun w => (gaVa w.2.1, c.active))
       u.s.fillShut t.core r.writes = none →
       exec (.stSparse f) s = .next (c.done (u.s.performStore r)))) ∧
  (∀ (f : Form) (s : State) (is : Issue) (t : Team), Standing s is t → Clear .ldExpand f s is →
     let c := issued .ldExpand f s is
     let sp := f.space
     let n := f.ty.width / 8
     let e0 := (c.sc f.c).toNat
     let r := (c.offset c.low).toNat
     c.active ≠ 0 → e0 % 32 = 0 → c.offset c.low % 4 = 0 → c.inSeg sp (c.offset c.low) 4 = true → sp = 1 ∨ sp = 2 →
     let len := (ofBytes 16 (c.spadRead c.s sp r 2 f.col)).toNat
     let nw := e0 / 32 + 1
     let word := fun j => (ofBytes 32 (c.spadRead c.s sp (r + 4 + 4 * j) 4 f.col) : BitVec 32)
     let k := (List.range (e0 / 32)).foldl (fun a j => a + (lanesOf (word j)).length) 0
     let slot := fun l => r + 4 + 4 * ((len + 31) / 32) + n * (k + (lanesOf (word (e0 / 32) &&& ((1#32 <<< l) - 1))).length)
     let named := fun l => decide (e0 + l < len) && (word (e0 / 32)).getLsbD l
     let off := maskBy fun l => c.active.getLsbD l && named l && !c.inSeg sp (slot l) n
     (e0 < len → c.inSeg sp (r + 4) (4 * nw) = true) →
     ∃ s' t', exec (.ldExpand f) s = .next s' ∧ Tbl.find? s'.teams is.team = some t' ∧
       Elsewhere is.team { s with wgs := s'.wgs, cores := s'.cores } s' ∧ (∀ k, (s.core k).Kept is.team (s'.core k)) ∧
       (∀ k, s'.wg k = { s.wg k with guardRec := (s'.wg k).guardRec }) ∧
       t.Loaded t' f.d.dst (c.active &&& ~~~(if e0 < len then off else 0)) (8 * n) f.ty.isS
         (fun l => if e0 < len ∧ named l = true then loadNat (c.spadRead c.s sp (slot l) n f.col) else 0) ∧
       t.Accessed t' is.lanes (if e0 < len then off else 0))

/-- `copy` and `copy.gen`, once the checks of R323 pass and there is room: the slice joins the oldest open instance
of its mask or opens one, under a command of the team's open batch; when no named team is missing, the command enters
the core's copy queue (R324-R331). -/
def Obligations.CopiesAssemble : Prop :=
  ∀ (i : Instr) (o : Op) (f : Form) (s : State) (is : Issue) (t : Team) (w : Wg),
    i.word? = some (o, f) → Standing s is t → Tbl.find? s.wgs t.wg = some w → Clear o f s is →
    let c := issued o f s is
    let m : Mask := (c.sc f.c).setWidth 32
    let (d0, _) := c.pair f.a
    let (g, cw) := c.pair f.b
    c.active ≠ 0 → (∀ k, c.descs [f.a] k = k) → c.copyConds m = (false, false, false) →
    let p := bitsOf cw 26 8
    ∀ (c' : Ctx) (runs ext : List (Int × Nat)),
    ((o = .copy ∧ c' = c ∧ ext = runs ∧ runs = (List.range (cwTiles cw * cwRows cw)).map fun j =>
        (((g.toNat + j * bitsOf cw 27 0 : Nat) : Int), cwCols cw * cwE cw)) ∨
      ∃ bs, o = .copyGen ∧ bitsOf cw 7 0 = 0 ∧ p % 64 = 0 ∧
        ((cw.getLsbD 27 = true ∧ c.inSeg 3 p 64 = true ∧ c.s.translate t.core c.part (c.va 3 p) false = .ok ∧
            s.migrating (c.gaddr 3 p) = false ∧ s.migrating (c.gaddr 3 (p + 63)) = false ∧
            c.s.translate t.core c.part (c.va 3 (p + 63)) false = .ok ∧
            let u := c.touched [(c.va 3 p, c.active), (c.va 3 (p + 63), c.active)]
            u.s.engineShut (coreDie t.core) (c.gaddr 3 p) 64 = none ∧
            bs = u.s.engineBytes (coreDie t.core) (c.gaddr 3 p) 64 ∧
            c' = { u with s := u.s.engineHeat (coreDie t.core) (c.gaddr 3 p) 64 }) ∨
          (cw.getLsbD 27 = false ∧ c.inSeg 1 p 64 = true ∧ bs = c.spadRead c.s 1 p 64 false ∧ c' = c)) ∧
        programOk (microsOf bs) [] false false = true ∧
        (programRuns (microsOf bs)).foldl (fun n x => n + x.2) 0 = cwTiles cw * cwRows cw * cwCols cw ∧
        runs = (programRuns (microsOf bs)).map (fun x => ((g.toNat : Int) + x.1 * cwE cw, x.2 * cwE cw)) ∧
        ∃ lo hi : Int, ext = [(lo, (hi - lo).toNat)] ∧
          (∀ x ∈ runs, lo ≤ x.1 ∧ x.1 + x.2 ≤ hi) ∧ (∃ x ∈ runs, x.1 = lo) ∧ ∃ x ∈ runs, x.1 + x.2 = hi) →
    let seg := if cwObuf cw then 3 else if d0.getLsbD 63 then 2 else 1
    let obj := match f.c with | .pair _ b => some (t.readS b.toNat) | _ => none
    let vas := ext.map fun x => (c.va 0 x.1, x.2)
    (c.desc f.a).endOf (cwTiles cw) (cwRows cw) (cwCols cw * cwE cw) ≤ (t.seg seg).limit.toNat →
    (∀ x ∈ ext, c.inSeg 0 x.1 x.2 = true) →
    c'.Passes (if cwOut cw then [] else vas) (if cwOut cw then vas else [])
      (obj.map fun o => ((c.base 0 + o.toNat) / 128 * 128, f.cRel && decide (2 ≤ f.cScope))) →
    let missing := (match c.openInst m with | some a => a.missing | none => c.named m).filter (· != t.teamid)
    (c.openInst m = none → w.asm.length < 8) → (missing = [] → (s.core t.core).copyQ.length < 32) →
    ∃ s' t' id x, exec i s = .next s' ∧ Tbl.find? s'.teams is.team = some t' ∧ s'.mem = s.mem ∧ t'.v = t.v ∧ t'.s = t.s ∧
      t'.g = t.g ∧ t.Stepped t' is.lanes ∧ id ∈ t'.openBatch.cmds ∧
      x.team = is.team ∧ x.teamid = t.teamid ∧ x.toGlobal = cwOut cw ∧ x.obuf = cwObuf cw ∧ x.e = cwE cw ∧
      x.rows = cwRows cw ∧ x.cols = cwCols cw ∧ x.tiles = cwTiles cw ∧
      x.runs = runs.map (fun y => (c.gaddr 0 y.1, y.2)) ∧
      if missing = [] then ∃ cmd slices, cmd ∈ (s'.core w.core).copyQ ∧ cmd.id = id ∧ cmd.st = .queued ∧ x ∈ slices ∧
        cmd.body = .copy slices f.cAcq f.cRel f.cScope (obj.map fun o => gaOf c.part ((c.base 0 + o.toNat) / 128 * 128) / 128)
      else ∃ a ∈ (s'.wg t.wg).asm, a.id = id ∧ a.mask = m ∧ a.missing = missing ∧ x ∈ a.slices

/-- `copy.seal` numbers the team's open batch, writes the number and opens the next (R331). `copy.wait` and
`coll.wait`: with at most n batches (or `coll` commands) unfinished the team observes those that are finished and
goes on; otherwise its active lanes wait (R331, R332, R346). The copy engine runs the command that is next, once its
die holds the global lines that it reads, which it asks for; one that acquires waits for its teams' strong accesses
and for its sync object first, and runs when its core's write-backs up to there have merged; its global writes land
later, so main memory stands. A release that waited for an exclusive hold is made when the hold has ended (R240,
R318, R325-R328). What a run does: a local cell that an element is moved to holds the global byte of the last such
move, its granule is full (in a scratchpad), and every other cell is as it was; the bytes of global elements are to
land block by block, the cell's byte for each, 0 for a guard byte, but for pages that were unmapped; a byte that the
command also writes reads as before it or as written, which R325 leaves open and these clauses leave out. A command
reads what the last earlier command of its queue has still to land, else what its die's copy or the home holds (R182,
R184, R212, R239, R325, R327). -/
def Obligations.CopyBatches : Prop :=
  (∀ (f : Form) (s : State) (is : Issue) (t : Team), Standing s is t → Clear .copySeal f s is →
     (∀ k, f.d.dst ≠ some (.f k)) → activeMask t is.lanes f.h ≠ 0 →
     ∃ s' t', exec (.copySeal f) s = .next s' ∧ Elsewhere is.team s s' ∧ Tbl.find? s'.teams is.team = some t' ∧
       t'.sealed = t.sealed ++ [{ t.openBatch with number := t.nextBatch }] ∧ t'.openBatch = { number := 0 } ∧
       t'.nextBatch = (t.nextBatch + 1) % 65536 ∧
       t.Holds t' f.d.dst (activeMask t is.lanes f.h) 64 false (fun _ => t.nextBatch) ∧ t.Stepped t' is.lanes) ∧
  (∀ (i : Instr) (o : Op) (f : Form) (s : State) (is : Issue) (t : Team),
     i.word? = some (o, f) → o = .copyWait ∨ o = .collWait → Standing s is t → Clear o f s is →
     let c := issued o f s is
     let n := c.u32 f.a c.low
     let left := (State.unfinished (if o = .copyWait then t.sealed else t.collCmds)).length
     c.active ≠ 0 →
     exec i s = .next
       (if left ≤ n then
         c.done (if o = .copyWait then c.s.observeBatches is.team else c.s.observeColls is.team)
        else finish c (c.s.updTeam is.team fun t => (t.advance (is.lanes &&& ~~~c.active)).await c.active fun _ =>
          if o = .copyWait then .copyWait n else .collWait n))) ∧
  ((∀ (s : State) (core sc : Nat) (x : Cmd) (slices : List Slice) (acq rel : Bool) (obj : Option Nat),
     State.nextCopy (s.core core).copyQ [] = some x → x.body = .copy slices acq rel sc obj →
     let reads := State.copyReads slices
     let run := if s.away (coreDie core) reads = [] then s.runCopy core x slices else s.askRuns core reads
     (x.st = .running ∨ (x.st = .queued ∧ acq = false) → exec (.copyExecution core) s = .next run) ∧
     (x.st = .queued → acq = true → exec (.copyExecution core) s = .next
       (if s.teamsStrongOut x.teams then s
        else match obj with
          | some line => s.copyAcquire core x line (decide (2 ≤ sc))
          | none => run)) ∧
     (x.st = .acquiring → exec (.copyExecution core) s = .next
       (if x.busyUntil ≠ 0 ∧ s.drained (s.unit core) x.busyUntil = true then
         (match obj with | some line => s.copyAcquired core line | none => s).updCmd core x.id fun y => { y with st := .running }
        else s)) ∧
     (s.runCopy core x slices).mem = s.mem) ∧
   (∀ (s : State) (core : Nat) (x : Cmd) (slices : List Slice), s.findCmd core x.id = some x →
     (∀ y ∈ slices, ∀ i k o c, y.place s (s.wg x.wg) i k = some (o, c, false) → c < 2 ^ 32 ∧ (c < 2 ^ 31 ↔ y.obuf = false)) →
     let moves : List (Bool × Nat × Option (Nat × Nat)) := slices.flatMap fun y =>
       ((y.runs.flatMap fun (ga, n) => (List.range (n / y.e)).map fun j => ga + j * y.e).zipIdx).flatMap fun (ga, i) =>
         (List.range y.e).map fun k => (y.toGlobal, ga + k, match y.place s (s.wg x.wg) i k with
           | some (o, c, false) => some (o, c)
           | _ => none)
     let s' := s.runCopy core x slices
     let lands := fun (a : Nat) (b : Byte) => ∃ y bs, s'.findCmd core x.id = some y ∧ y.st = .landing ∧
       Tbl.find? y.landings (a / 512) = some bs ∧ (bs.find? fun z => z.1 == a) = some (a, b) ∧
       ∃ id m, Tbl.find? s'.msgs id = some m ∧ m.body = .landing core x.id (a / 512)
     (∀ o c, (∀ a, (false, a, some (o, c)) ∉ moves) → s'.cellGet o c = s.cellGet o c) ∧
     (∀ o c a, (moves.filter fun m => !m.1 && m.2.2 == some (o, c)).getLast? = some (false, a, some (o, c)) →
       (∀ p, (true, a, p) ∉ moves) → s'.cellGet o c = s.copySource core a) ∧
     (∀ o c, c < 2 ^ 31 → (s'.isFull o c = true ↔ s.isFull o c = true ∨
       ∃ a d, (false, a, some (o, d)) ∈ moves ∧ d < 2 ^ 31 ∧ State.granule d = State.granule c)) ∧
     ∀ a p, (moves.filter fun m => m.1 && m.2.1 == a).getLast? = some (true, a, p) → x.gone.contains (a / 65536) = false →
       (p = none → lands a 0) ∧
       ∀ o c, p = some (o, c) → (∀ d, (false, d, some (o, c)) ∉ moves) → lands a (s.cellGet o c)) ∧
   (∀ (s : State) (core a : Nat) (q1 q2 : List Cmd) (y : Cmd) (b : Byte),
     let lands := fun (z : Cmd) => ((Tbl.find? z.landings (a / 512)).bind fun l => l.find? fun x => x.1 == a).map (·.2)
     ((s.core core).copyQ = q1 ++ y :: q2 → lands y = some b → (∀ z ∈ q2, lands z = none) → s.copySource core a = b) ∧
     ((∀ z ∈ (s.core core).copyQ, lands z = none) → s.copySource core a = match s.copyOf (coreDie core) (a / 128) with
       | some c => c.data.extractLsb' (8 * (a % 128)) 8
       | none => (s.homeLoad a 1).headD 0)) ∧
   ∀ (s : State) (core cmd line sc : Nat) (x : Cmd) (slices : List Slice) (acq : Bool),
     s.findCmd core cmd = some x → x.st = .releasing → x.body = .copy slices acq true sc (some line) →
     (∀ r ∈ (s.syncs.get {} line).queue, r.cmd ≠ some cmd) → s.exclOther x.wg line = false →
     exec (.releaseFlagRecord core cmd) s = .next (s.cmdRelease core x line))

/-- Reservations: `obres` takes the lowest run of free granules and the least free record and writes the record's
number, or all ones where there is none; `obrel` clears a record that no queued operation names, and is held while
one does; `obfmt` rewrites TYPE, FMTV and layout (R297, R334-R336). -/
def Obligations.ReservationRecords : Prop :=
  ∀ (i : Instr) (o : Op) (f : Form) (s : State) (is : Issue) (t : Team),
    i.word? = some (o, f) → Standing s is t → Clear o f s is →
    let c := issued o f s is
    let n := (c.sc f.b).toNat
    let a := (c.sc f.a).toNat
    let layout := c.sc f.c
    c.active ≠ 0 → (o ≠ .obrel → c.illegal = none ∧ bitsOf layout 63 36 = 0) →
    (o = .obres → n ≠ 0 → n ≤ 64 → exec i s = .next (match freeRun c n, (s.core t.core).recs.freeKey 64 with
      | some g, some k => c.done (c.writeScalar (c.s.updCore t.core fun x =>
          { x with recs := x.recs.put k (obRecOf t.wg t.teamid g n f.ty (c.fmtOf f.ty) layout) }) (BitVec.ofNat 64 k))
      | _, _ => c.done (c.writeScalar c.s (BitVec.allOnes 64)))) ∧
    (o = .obrel → exec i s = .next (match c.record a with
      | none => c.done c.s
      | some _ => if c.s.recordBusy t.core t.wg a then
          finish c (c.s.updTeam is.team fun t => t.holdOn is.lanes (.record c.t.core a))
        else c.done (c.s.clearRecord t.core t.wg a))) ∧
    (o = .obfmt → (c.record a).isSome = true → exec i s = .next (c.done (c.s.updCore t.core fun x =>
      { x with recs := x.recs.updIf a fun r =>
          obRecOf r.wg (bitsOf r.w0 62 58) r.first r.count f.ty (c.fmtOf f.ty) layout })))

/-- Accumulator operations on a legal record, with room in the queue: one operation enters the workgroup's matrix
queue with the operands of now; `accld.get` interlocks the registers that it will write (R341, R342). -/
def Obligations.AccumulatorWords : Prop :=
  ∀ (i : Instr) (o : Op) (f : Form) (s : State) (is : Issue) (t : Team) (r : ObRec),
    i.word? = some (o, f) → Standing s is t → Clear o f s is →
    let c := issued o f s is
    let k := (c.sc f.c).toNat
    let q := (c.sc f.b).toNat
    c.w.matrix ≠ .none → c.active ≠ 0 → c.accRec f.c = some r → c.s.matrixRoom is.team = true →
    (o = .accldGet → ∀ vd, f.d.dst = some (.v vd) → vd.toNat + 32 ≤ t.vregs - t.depth → q < c.blocksQ →
      let e := c.enqueued (c.matCmd k r (.get is.team c.active vd.toNat q))
      exec i s = .next (c.done (e.2.updTeam is.team fun t =>
        { t with locks := t.locks ++ (List.range 32).map fun j => (codeV (vd.toNat + j), e.1) }))) ∧
    (o = .accldPut → (∀ a, f.a = .v a → a.toNat + 32 ≤ t.vregs - t.depth → q < c.blocksQ →
        exec i s = .next (c.done (c.enqueued (c.matCmd k r (.putReg c.active (c.regRange f.a 32) q))).2)) ∧
      ∀ x y, f.a = .pair x y → descFault (t.readS x.toNat) (t.readS y.toNat) = none →
        c.descIn (c.desc f.a) 1 c.rowsM 256 = true →
        exec i s = .next (c.done (c.enqueued (c.matCmd k r (.putDesc (c.desc f.a)))).2)) ∧
    (o = .accldZero → exec i s = .next (c.done (c.enqueued (c.matCmd k r .zero)).2)) ∧
    (o = .accst → c.illegal = none →
      (∀ x y, f.a = .pair x y → descFault (t.readS x.toNat) (t.readS y.toNat) = none →
        let v := c.operandFmt f.a
        (f.ty.isFmt = true → illegalFmt v = none) → c.descIn (c.desc f.a) 1 c.rowsM (storeRow f.ty v) = true →
        exec i s = .next (c.done (c.enqueued (c.matCmd k r (.storeSpad f.ty v f.q2 f.ovf (c.desc f.a)))).2)) ∧
      ∀ x, f.a = .s x →
        let g : Int := (t.readS x.toNat).toNat
        let pitch := (c.sc f.b).toInt
        let far := g + ((c.rowsM - 1 : Nat) : Int) * pitch
        let lo := min g far
        let n := (max g far + storeRow f.ty (c.fmtOf f.ty) - lo).toNat
        c.inSeg 0 lo n = true → c.Passes [] [(c.va 0 lo, n)] none →
        exec i s = .next (c.done ((c.used [] [(c.va 0 lo, n)] none).enqueued
          { c.matCmd k r (.storeGlobal f.ty (c.fmtOf f.ty) f.q2 f.ovf (gaOf c.part (c.base 0) + g) pitch) with
            pledged := extBlocks [(c.gaddr 0 lo, n)], ext := [(c.gaddr 0 lo, n)] }).2))

/-- `mma` on legal operands with room in the queue: one operation for each active lane joins the team's open batch;
as many as there is room for enter the queue now, and the group waits to enqueue the rest (R49, R337-R340). A waiting
`mma` enqueues further operations while the queue has room, with the registers of now; with the last its group goes
on (R49, R338). That the operations enqueued later keep the formats and descriptors of the first enqueue, and that
the group waits whole, are the model's choices (logs 53, 74). -/
def Obligations.MatrixMultiplies : Prop :=
  (∀ (f : Form) (s : State) (is : Issue) (t : Team) (r : ObRec), Standing s is t → Clear .mma f s is →
     let c := issued .mma f s is
     let fa := c.operandFmt f.a
     let fb := c.operandFmt f.b
     let bits := contBits f.ty fa
     let k := depthK bits
     let fit := fun (x : Src) (n m : Nat) => match x with
       | .pair a b => descFault (t.readS a.toNat) (t.readS b.toNat) = none ∧ c.descIn (c.desc x) 1 m (k * bits / 8) = true
       | .v a => a.toNat + n ≤ t.vregs - t.depth
       | _ => True
     let scaled := fun (v : BitVec 32) (row : Nat) => f.ty.isFmt = true → fmtScaled v = true →
       r.soff + r.spitch * row + (k + fmtBlock v - 1) / fmtBlock v ≤ 4096 * r.count
     c.w.matrix ≠ .none → c.active ≠ 0 → c.illegal = none →
     (f.ty.isFmt = true → illegalFmt fa = none ∧ illegalFmt fb = none) → contBits f.ty fb = bits →
     fit f.a (if c.split then 16 else 32) c.rowsM → fit f.b 32 64 → c.accRec f.c = some r →
     scaled fa (c.rowsM - 1) → scaled fb 127 → c.s.matrixRoom is.team = true →
     let n := c.lanes.length
     let now := min n (8 - (c.s.matrixQueue c.w).length)
     let first := s.nextId
     let x := c.matCmd (c.sc f.c).toNat r c.mmaOp
     let s1 := (List.range n).foldl (fun s j => s.joinBatch is.team (first + j)) { c.s with nextId := first + n }
     let s2 := (List.range now).foldl (fun s j => (s.number x (first + j)).2.matPush (s.number x (first + j)).1) s1
     exec (.mma f) s = .next (if now = n then c.done s2
       else finish c (s2.updTeam is.team fun t => t.await is.lanes fun _ => .mma now first c.active is.word x))) ∧
  (∀ (s : State) (k l done first : Nat) (active : Mask) (word : IWord) (x : Cmd) (t : Team) (o : Op) (f : Form),
     Tbl.find? s.teams k = some t → l < 32 → (t.lane l).st = .waiting →
     (t.lane l).wait = some (.mma done first active word x) → t.parked l = false → t.stopping = false →
     (∀ j w, j < 32 → (t.lane j).st = .waiting → (t.lane j).wait = some w → w = .mma done first active word x ∧
       t.parked j = false ∧ (t.lane j).pc = (t.lane l).pc) →
     decodeRaw (Raw.ofWord word) = .ok (o, f) →
     let there := maskBy fun j => (t.lane j).st == .waiting && (t.lane j).wait == some (.mma done first active word x)
     let room := 8 - (s.matrixQueue (s.wg t.wg)).length
     let n := (lanesOf active).length
     let m := min (n - done) room
     room ≠ 0 →
     let c := ctxOf o f s { team := k, lanes := there, pc := (t.lane l).pc, word := word, port := 1 }
     exec (.mmaEnqueueResume k) s = .next
       (((List.range m).foldl (fun s j => (s.number (reread c x) (first + done + j)).2.matPush
           (s.number (reread c x) (first + done + j)).1) s).updTeam k fun t =>
         if n ≤ done + m then t.advance there
         else t.mapLanes (there.getLsbD ·) fun _ y => { y with wait := some (.mma (done + m) first active word x) }))

/-- The matrix queue: a completed `mma` leaves in each element of the accumulator what groups of eight products add
to it, in ascending order, and gathers the flags in its workgroup's flag word; a transfer moves blocks between
accumulator and registers, takes the accumulator from a descriptor's rows, zeroes it, or stores it: each row's
elements, converted to the format, lie in the row's cells of a scratchpad or are to land in global memory, the last
byte put in a place standing, guard bytes discarded, and the flags are gathered (R182, R336-R342). -/
def Obligations.MatrixQueue : Prop :=
  (∀ (s : State) (core half : Nat) (x : Cmd) (ty : Ty) (fa fb : BitVec 32) (a b : Sum (Tbl Word) Desc)
      (idx first cnt soff spitch : Nat) (v : BitVec 32),
    s.matHead core half = some x → x.body = .mat (.mma ty fa fb a b) idx first cnt soff spitch v → s.ripe x = true →
    let w := s.wg x.wg
    let base := State.recBase w first
    let bits := contBits ty fa
    let rows := match w.matrix with | .half _ => 32 | _ => 64
    let p := fun m k => matValue ty fa (s.matCode w bits a m k) (s.matScale w ty fa base soff spitch m k)
    let q := fun n k => matValue ty fb (s.matCode w bits b n k) (s.matScale w ty fb base soff spitch (64 + n) k)
    let cell := fun m n => (List.range (depthK bits / 8)).foldl (fun (acc : Nat × BitVec 5) g =>
      let y := dotF ((List.range 8).map fun i => (p m (8 * g + i), q n (8 * g + i))) (fp32.value acc.1)
      (y.1, acc.2 ||| y.2)) (s.accGet w base m n, 0)
    ∃ s', exec (.matrixOperation core half) s = .next s' ∧ s'.mem = s.mem ∧
      (∀ m n, m < rows → n < 64 → s'.accGet w base m n = (cell m n).1 % 2 ^ 32) ∧
      (Tbl.find? s.wgs x.wg = some w → (s'.wg x.wg).mflags = (List.range rows).foldl (fun fl m =>
        (List.range 64).foldl (fun fl n => fl ||| (cell m n).2) fl) w.mflags)) ∧
  (∀ (s : State) (core half : Nat) (x : Cmd) (op : MatOp) (idx first cnt soff spitch : Nat) (v : BitVec 32),
    s.matHead core half = some x → x.body = .mat op idx first cnt soff spitch v → s.ripe x = true →
    (∀ ty fa fb a b, op ≠ .mma ty fa fb a b) →
    let w := s.wg x.wg
    let base := State.recBase w first
    let rows := match w.matrix with | .half _ => 32 | _ => 64
    exec (.accumulatorTransfer core half) s = .next ((s.runTransfer core x op first).countOp core half x.wg) ∧
    (op = .zero → ∀ m n, m < rows → n < 64 → (s.runTransfer core x op first).accGet w base m n = 0) ∧
    (∀ t lanes vd blk y, op = .get t lanes vd blk → Tbl.find? s.teams t = some y →
      ∃ y', Tbl.find? (s.runTransfer core x op first).teams t = some y' ∧ ∀ r l, l < 32 → y'.readV r l =
        if lanes.getLsbD l ∧ vd ≤ r ∧ r < vd + 32
        then BitVec.ofNat 32 (s.accGet w base (16 * blk + (r - vd) / 2) (32 * ((r - vd) % 2) + l)) else y.readV r l) ∧
    (∀ (lanes : Mask) vals blk, op = .putReg lanes vals blk → ∀ i l, i < 32 → l < 32 → lanes.getLsbD l = true →
      (s.runTransfer core x op first).accGet w base (16 * blk + i / 2) (32 * (i % 2) + l) = (vals.get 0 (32 * i + l)).toNat) ∧
    (∀ d, op = .putDesc d → ∀ m n, m < rows → n < 64 →
      (s.runTransfer core x op first).accGet w base m n = loadNat (s.descRead w d 0 m (4 * n) 4)) ∧
    ∀ (ty : Ty) (fv : BitVec 32) (rm ovf : Nat),
      let bits := if ty.isFmt then fmtContainer fv else ty.width
      let code := fun (m n : Nat) => convF (if ty.isFmt then narrowFmt fv else ieeeFmt ty) rm ovf (fp32.value (s.accGet w base m n))
      ∀ (y : Nat → Nat → Nat) (fl : Nat → Nat → BitVec 5),
      (∀ m n, m < rows → n < 64 → code m n = .ok (y m n) (fl m n)) →
      let row := fun m => natBytes (64 * bits / 8) ((List.range 64).foldl (fun a n => a + y m n * 2 ^ (bits * n)) 0)
      let at_ := (List.range rows).flatMap fun m => (List.range (64 * bits / 8)).map fun k => (m, k)
      let s' := s.runTransfer core x op first
      let flags := (List.range rows).foldl (fun a m => (List.range 64).foldl (fun a n => a ||| fl m n) a) w.mflags
      (∀ d, op = .storeSpad ty fv rm ovf d → (Tbl.find? s.wgs x.wg = some w → (s'.wg x.wg).mflags = flags) ∧
        ∀ o c, s'.spadGet o c = match (at_.filter fun z => s.descByte w d 0 z.1 z.2 == some (o, c, false)).getLast? with
          | some (m, k) => (row m).getD k 0
          | none => s.spadGet o c) ∧
      ∀ g pitch, op = .storeGlobal ty fv rm ovf g pitch → s.findCmd core x.id = some x →
        (Tbl.find? s.wgs x.wg = some w → (s'.wg x.wg).mflags = flags) ∧
        ∀ m k a, (at_.filter fun z => (g + (z.1 : Int) * pitch + (z.2 : Int)).toNat == a).getLast? = some (m, k) →
          x.gone.contains (a / 65536) = false →
          ∃ y bs, s'.findCmd core x.id = some y ∧ y.st = .landing ∧ Tbl.find? y.landings (a / 512) = some bs ∧
            (bs.find? fun z => z.1 == a) = some (a, (row m).getD k 0))

/-- `coll` with a well-formed group record, once the checks pass and there is room: the record's SEQ rises by one at
its home, and the command enters the core's copy queue with what the record holds, as a `coll` command of the team
(R343, R344, R346). A collective whose members' parts are there fetches the lines of its source that its die lacks;
then, where they agree, each element's result over the ranks in ring order and STATUS 0 are what is to land; where
they disagree, STATUS 1 and nothing else, and that is kept for the members that come later; where a member is lost,
STATUS 2, and in the destination any of the bytes of a result over what members brought and open elements of the
lost, and no other byte. What comes from another package crosses in a slot of a trained link, and waits for one,
noted on the die's lowest Pallum egress (R299, R300, R333, R343-R345, R420). The linear coding of collective values:
a block of values read back from its bits is the block, whatever follows it (R345). On which link a collective's wait
is noted (logs 29, 74) and that the elements of a lost member are open (log 15) are the model's choices. -/
def Obligations.Collectives : Prop :=
  (∀ (f : Form) (s : State) (is : Issue) (t : Team) (w : Wg),
     Standing s is t → Tbl.find? s.wgs t.wg = some w → Clear .coll f s is →
     let c := issued .coll f s is
     let (a, b) := c.pair f.a
     let (cnt, group) := c.pair f.b
     let count := cnt.toNat % 2 ^ 32
     let r := group.toNat
     let u := c.touched [(c.va 0 r, c.active)]
     let bs := u.s.engineBytes (coreDie t.core) (c.gaddr 0 r) 64
     let seq : DWord := ofBytes 64 ((bs.drop 16).take 8)
     let p := (ofBytes 32 (bs.take 4) : BitVec 32).toNat
     let table := loadNat ((bs.drop 8).take 8)
     let n := count * (f.ty.width / 8)
     c.active ≠ 0 → r % 64 = 0 → c.inSeg 0 r 64 = true → c.s.translate t.core c.part (c.va 0 r) false = .ok →
     groupBad bs (c.limit 0) = false → c.inSeg 0 a.toNat n = true → c.inSeg 0 b.toNat n = true →
     ({ u with s := u.s.engineHeat (coreDie t.core) (c.gaddr 0 r) 64 } : Ctx).Passes
       ((if n = 0 then [] else [(c.va 0 a.toNat, n)]) ++ [(c.va 0 table, 8 * p)])
       ((if n = 0 then [] else [(c.va 0 b.toNat, n)]) ++ [(c.va 0 (r + 16), 16)]) none →
     (s.core t.core).copyQ.length < 32 → (State.unfinished t.collCmds).length < 32 → t.core = w.core →
     s.migrating (c.gaddr 0 r) = false → s.hwOut (c.gaddr 0 r) 64 = false →
     u.s.engineShut (coreDie t.core) (c.gaddr 0 r) 64 = none →
     ∃ s' t' id cmd, exec (.coll f) s = .next s' ∧ Tbl.find? s'.teams is.team = some t' ∧ t'.v = t.v ∧ t'.s = t.s ∧
       t.Stepped t' is.lanes ∧
       ((∀ a, a = c.gaddr 0 (r + 16) ∨ a = c.gaddr 0 (r + 23) → s.mapped (a / 128) = true) →
         s'.hwLoad (c.gaddr 0 (r + 16)) 8 = bytesOf 8 (seq + 1)) ∧
       t'.collCmds = t.collCmds ++ [{ number := id, cmds := [id] }] ∧
       (s'.core w.core).copyQ = (s.core w.core).copyQ ++ [cmd] ∧ cmd.id = id ∧ cmd.st = .queued ∧
       cmd.body = .coll f.q2 f.ty count (c.gaddr 0 a.toNat) (c.gaddr 0 b.toNat) (c.gaddr 0 r) seq p
         (ofBytes 32 ((bs.drop 4).take 4) : BitVec 32).toNat (ofBytes 64 ((bs.drop 32).take 8)) (c.gaddr 0 table)) ∧
  (∀ (s : State) (core : Nat) (parts : List CollPart) (x : Cmd) (op : Nat) (ty : Ty)
       (count src dst grp p rank table : Nat) (seq tag : DWord),
     State.collPick (s.core core).copyQ parts = some x →
     x.body = .coll op ty count src dst grp seq p rank tag table → s.teamsStrongOut x.teams = false →
     let w := ty.width / 8
     let away := s.away (coreDie core) [(src, count * w)]
     (x.brings = none → away ≠ [] → exec (.collExecution core parts) s = .next (s.askRuns core [(src, count * w)])) ∧
     (x.brings ≠ none ∨ away = [] → (∃ y ∈ parts, y.lost = false ∧ y ∉ x.got) →
       s.mayLeave (coreDie core) (gaPart grp) = false →
       exec (.collExecution core parts) s = .next (s.noteWait (firstEgress (coreDie core)) (gaPart grp))) ∧
     (x.brings ≠ none ∨ away = [] →
      ((∀ y ∈ parts, y.lost = false → y ∈ x.got) ∨ s.mayLeave (coreDie core) (gaPart grp) = true) →
     let agree := fun (y : CollPart) => y.p = p ∧ y.tag = tag ∧ y.op = op ∧ y.ty = ty ∧ y.count = count
     let mine := fun (i : Nat) => match x.brings with
       | some (y, _) => (linkValues count y.flits).getD i 0
       | none => collWiden ty (loadNat ((List.range w).map fun k => s.copySource core (src + w * i + k)))
     ((∃ y ∈ parts, y.lost = true) → exec (.collExecution core parts) s = .next (s.collLost core x)) ∧
     (∃ (wr : Tbl Byte) (n : Nat), s.collLost core x = ({ s with fresh := n } : State).land core x.id wr ∧
       (∀ j, j < 8 → (grp + 24 + j < dst ∨ dst + w * count ≤ grp + 24 + j) →
         wr.find? (grp + 24 + j) = some ((natBytes 8 2).getD j 0)) ∧
       ∀ a b, wr.find? a = some b → (∃ j, j < 8 ∧ a = grp + 24 + j ∧ b = (natBytes 8 2).getD j 0) ∨
         ∃ i k, i < count ∧ k < w ∧ a = dst + w * i + k ∧ ∃ val : Nat → Word,
           (∀ j, j < p → if j = rank then val j = mine i
             else ∀ y, (x.got.find? fun y => y.rank == j && !y.lost) = some y → val j = (linkValues count y.flits).getD i 0) ∧
           b = (natBytes w (collResult op ty ((List.range p).map val))).getD k 0) ∧
     ((∀ y ∈ parts, y.lost = false) → (∃ y ∈ parts, ¬ agree y) → exec (.collExecution core parts) s = .next
       (({ s with collBad := if s.collBad.contains (s.regionOf x.wg / 65536, tag, seq) then s.collBad
           else s.collBad ++ [(s.regionOf x.wg / 65536, tag, seq)] } : State).land core x.id (statusAt grp 1))) ∧
     ((∀ y ∈ parts, y.lost = false) → (∀ y ∈ parts, agree y) →
       let val := fun (j i : Nat) => match parts.find? fun y => y.rank == j with
         | some y => (linkValues count y.flits).getD i 0
         | none => mine i
       ∃ wr : Tbl Byte, exec (.collExecution core parts) s = .next ((s.engineMoved x.wg (count * w)).land core x.id wr) ∧
         (∀ i j, i < count → j < w → wr.find? (dst + w * i + j) =
           some ((natBytes w (collResult op ty ((List.range p).map fun k => val k i))).getD j 0)) ∧
         (∀ j, j < 8 → (grp + 24 + j < dst ∨ dst + w * count ≤ grp + 24 + j) → wr.find? (grp + 24 + j) = some 0) ∧
         ∀ a b, wr.find? a = some b → (dst ≤ a ∧ a < dst + w * count) ∨ (grp + 24 ≤ a ∧ a < grp + 32)))) ∧
  (∀ (xs : List Word) (rest : List Bool), readBlock xs.length (codeBlock xs ++ rest) = (xs, rest))

/-- `bar`, `bar.gang`, `pbar.wait` and `sleep`, for a barrier with no access of the active lanes outstanding: each
active lane waits at the instruction for its event, the other lanes of the group go on, and no register and no main
memory changes; after `bar.gang` the core's L1 holds no dirty word, unless its cluster is fused (R41, R242,
R367-R374). Waits of a team's lanes end: `copy.wait` and `coll.wait` once few enough batches are unfinished; a phase
wait once the word has another phase; a sleep at its deadline or when a notice has risen. In a team that no
pre-emption has stopped those lanes go on, and no other lane moves (R332, R346, R372, R374, R407). As `copy.wait` or
`coll.wait` completes, the team observes its finished batches: of the words of their global write extents none that
was clean in its core's L1 is valid any more, and the unfinished batches stay (R241, R332, R346). A workgroup barrier
completes when every live lane of the workgroup waits at it; so does a gang barrier, whose cores then hold no clean
word of global memory unless their cluster is fused. Where no guard record stands, each waiting lane goes on and no
main memory changes (R192, R242, R367-R369). -/
def Obligations.WaitsAndBarriers : Prop :=
  (∀ (i : Instr) (o : Op) (f : Form) (s : State) (is : Issue) (t : Team),
     i.word? = some (o, f) → o ∈ [.bar, .barGang, .pbarWait, .sleep] → Standing s is t → Clear o f s is →
     let c := issued o f s is
     c.active ≠ 0 → (o = .sleep → c.u32 f.a c.low ≠ 0) →
     (o = .bar ∨ o = .barGang → c.s.lanesOut is.team c.active = false) →
     (o = .pbarWait → c.offset c.low % 4 = 0 ∧ c.inSeg f.space (c.offset c.low) 4 = true) →
     ∃ s' t', exec i s = .next s' ∧ Tbl.find? s'.teams is.team = some t' ∧ s'.mem = s.mem ∧ t'.v = t.v ∧ t'.s = t.s ∧
       t'.g = t.g ∧
       (o = .barGang → (s.cluster (coreRq t.core)).fused = false → ∀ l ∈ (s.core t.core).l1.keys,
         (s'.l1 t.core l).dirty = 0) ∧
       ∀ l, l < 32 → is.lanes.getLsbD l = true →
         if (activeMask t is.lanes f.h).getLsbD l then
           (t'.lane l).st = .waiting ∧ (t'.lane l).pc = is.pc ∧ ∃ w, (t'.lane l).wait = some w ∧ match o with
             | .bar => w = .bar
             | .barGang => ∃ n, w = .barGang n
             | .sleep => w = .sleep (t.run + BitVec.ofNat 64 (c.u32 f.a c.low)) t.noticeRose
             | _ => match c.spadAt f.space (c.offset c.low).toNat with
               | some (k, a, false) => w = .pbar k (some a) ((c.sc f.c).getLsbD 0) (f.space == 2)
               | _ => w = .pbar t.core none ((c.sc f.c).getLsbD 0) (f.space == 2)
         else (t'.lane l).st = .running ∧ (t'.lane l).pc = is.pc + 1) ∧
  (∀ (i : Instr) (s : State) (k : Nat) (t : Team) (p : Nat → Bool), Tbl.find? s.teams k = some t →
     (∃ l, l < 32 ∧ p l = true) →
     t.stopping = false →
     (match i with
       | .copyWaitCompletion j => j = k ∧ p = fun l => (t.lane l).st == .waiting && !t.parked l &&
           (match (t.lane l).wait with | some (.copyWait n) => decide ((State.unfinished t.sealed).length ≤ n) | _ => false)
       | .collWaitCompletion j => j = k ∧ p = fun l => (t.lane l).st == .waiting && !t.parked l &&
           (match (t.lane l).wait with | some (.collWait n) => decide ((State.unfinished t.collCmds).length ≤ n) | _ => false)
       | .pbarWaitCompletion j => j = k ∧ p = fun l => (t.lane l).st == .waiting && !t.parked l &&
           (match (t.lane l).wait with
             | some (.pbar core (some a) phase _) => (s.phaseGet core a).getLsbD 31 != phase
             | some (.pbar _ none phase _) => phase
             | _ => false)
       | .sleepEnd j => j = k ∧ p = fun l => (t.lane l).st == .waiting && !t.parked l &&
           (match (t.lane l).wait with | some (.sleep d n) => decide (d ≤ t.run) || t.noticeRose != n | _ => false)
       | _ => False) →
     ∃ s' t', exec i s = .next s' ∧ Tbl.find? s'.teams k = some t' ∧ s'.mem = s.mem ∧ t'.v = t.v ∧ t'.s = t.s ∧
       t'.g = t.g ∧
       ∀ l, l < 32 → (t'.lane l).level = (t.lane l).level ∧
         if p l then (t'.lane l).st = .running ∧ (t'.lane l).wait = none ∧ (t'.lane l).pc = (t.lane l).pc + 1
         else (t'.lane l).st = (t.lane l).st ∧ (t'.lane l).wait = (t.lane l).wait ∧ (t'.lane l).pc = (t.lane l).pc) ∧
  (∀ (coll : Bool) (s : State) (k l : Nat) (t : Team), Tbl.find? s.teams k = some t → l < 32 → (t.lane l).st = .waiting →
     t.parked l = false → t.stopping = false →
     let all := if coll then t.collCmds else t.sealed
     let rest := State.unfinished all
     (∃ n, rest.length ≤ n ∧ (t.lane l).wait = some (if coll then .collWait n else .copyWait n)) →
     ∃ s' t', exec (if coll then .collWaitCompletion k else .copyWaitCompletion k) s = .next s' ∧
       Tbl.find? s'.teams k = some t' ∧ (if coll then t'.collCmds else t'.sealed) = rest ∧
       ∀ line w, w < 32 → (∃ b ∈ all.take (all.length - rest.length), ∃ e ∈ b.extents,
           128 * line + 4 * w < e.1 + e.2 ∧ e.1 < 128 * line + 4 * w + 4) →
         (s.l1 t.core line).dirty.getLsbD w = false → (s'.l1 t.core line).valid.getLsbD w = false) ∧
  (∀ (i : Instr) (s : State) (ws : List Nat) (p : Team → Wait → Bool),
     (match i with
       | .barCompletion w => ws = [w] ∧ p = fun _ x => x == .bar
       | .barGangCompletion g => ws = (s.gangs.get { launch := 0 } g).wgs ∧ p = fun t x => match x with
           | .barGang upTo => s.drained (s.unit t.core) upTo
           | _ => false
       | _ => False) →
     (ws.flatMap fun w => (s.wg w).teams).Nodup → ws.Nodup → (∀ w ∈ ws, (s.wg w).guardRec = none) →
     s.allWait (ws.flatMap fun w => (s.wg w).teams) p = true →
     ∃ s', exec i s = .next s' ∧ s'.mem = s.mem ∧
       (∀ g, i = .barGangCompletion g → ∀ w ∈ ws, (s.cluster (coreRq (s.wg w).core)).fused = false →
         ∀ line, let x := s'.l1 (s.wg w).core line; line ∈ (s.core (s.wg w).core).l1.keys → x.valid &&& ~~~x.dirty = 0) ∧
       ∀ w ∈ ws, ∀ k ∈ (s.wg w).teams, ∀ t, Tbl.find? s.teams k = some t → ∃ t', Tbl.find? s'.teams k = some t' ∧
         t' = { t with lanes := t'.lanes } ∧
         ∀ l, l < 32 → if (t.waiters (p t)).getLsbD l
           then (t'.lane l).st = .running ∧ (t'.lane l).wait = none ∧ (t'.lane l).pc = (t.lane l).pc + 1
           else t'.lane l = t.lane l)

/-- `pbar.arrive` on a word that is no guard granule, with no access of the active lanes outstanding: it counts at
once, or under `.c` once the core's write-backs have merged; an arrival adds one to the count, and the n-th turns the
phase and clears the count (R370, R371). That an arrival under `.c` waits for every write-back of the core, and
counts once they have merged, is the model's choice (logs 48, 49). -/
def Obligations.PhaseArrivals : Prop :=
  (∀ (f : Form) (s : State) (is : Issue) (t : Team) (k a : Nat), Standing s is t → Clear .pbarArrive f s is →
    let c := issued .pbarArrive f s is
    let n := c.u32 f.c c.low
    c.active ≠ 0 → n ≠ 0 → n ≤ 65535 → c.offset c.low % 4 = 0 → c.inSeg f.space (c.offset c.low) 4 = true →
    c.spadAt f.space (c.offset c.low).toNat = some (k, a, false) →
    c.s.lanesOut is.team c.active = false →
    let s1 := if f.space = 2 then c.s.releaseAll t.core else c.s
    exec (.pbarArrive f) s = .next
      (if f.space = 2 ∧ s1.drained (s.unit t.core) s1.nextId = false then
        finish c (s1.updTeam is.team fun t => t.holdOn is.lanes (.arrive (s.unit t.core) s1.nextId k a n is.port))
       else c.done (s1.phaseArrive k a n))) ∧
  ∀ (s : State) (core a n : Nat),
    let w := s.phaseGet core a
    let k := bitsOf w 15 0 + 1
    (s.phaseArrive core a n).phaseGet core a =
      (if n ≤ k then BitVec.ofBool (!w.getLsbD 31) ++ 0#31 else BitVec.ofBool (w.getLsbD 31) ++ BitVec.ofNat 31 k) ∧
    ∀ j b, (j ≠ core ∨ b < a ∨ a + 4 ≤ b) → (s.phaseArrive core a n).spadGet j b = s.spadGet j b

/-- A fault of the word (chain structure, operands, privilege) changes nothing and takes the exception, whatever the
instruction (R28, R92, R93). An instruction that the team's privilege level may not issue, with legal operands and no
chain, takes the privilege fault in every lane of its group (R71, R92, R365). A fault at level 1, or in the handler
of a team of firmware, is a double fault: nothing traps, and the workgroup ends with reason 2 (R403). That a fault of
a firmware team in its handler is a double fault is the model's choice (log 72). -/
def Obligations.FaultsTakeTheException : Prop :=
  (∀ (i : Instr) (o : Op) (f : Form) (s : State) (is : Issue) (fi : FaultInfo),
     i.word? = some (o, f) → s.issue = some is → wordFault (ctxOf o f s is) = some fi →
     exec i s = .next (countIssue (ctxOf o f s is) (s.raise is.team is.lanes is.pc is.word fi true))) ∧
  (∀ (i : Instr) (o : Op) (f : Form) (s : State) (is : Issue) (t : Team),
     i.word? = some (o, f) → Standing s is t → f.h.chain = false → f.d.lat = none →
     operandFault (ctxOf o f s is) = none →
     (o ∈ [.bar, .barGang, .pbarWait] ∧ t.priv = 1) ∨ (o ∈ [.rett, .segld] ∧ t.priv = 0) ∨
       (o ∈ [.tlbinv, .kslotLoad, .kslotRevoke] ∧ t.priv ≠ 2) ∨ (o = .pgsurr ∧ t.priv = 2) →
     exec i s = .next (countIssue (ctxOf o f s is)
       (s.raise is.team is.lanes is.pc is.word { cause := 3, sub := 0, mask := is.lanes } true))) ∧
  (∀ (s : State) (k : Nat) (lanes : Mask) (pc : Word) (word : IWord) (fi : FaultInfo) (isFault : Bool) (x : Team) (w : Wg),
     Tbl.find? s.teams k = some x → Tbl.find? s.wgs x.wg = some w → x.priv = 1 ∨ x.handler.isSome = true → w.ending = none →
     w.ended = false →
     let s' := s.raise k lanes pc word fi isFault
     (s'.wg x.wg).ending = some (2, 0, fi.cause, fi.sub) ∧ s'.mem = s.mem ∧
     ∀ u y, u ∈ w.teams → Tbl.find? s.teams u = some y → ∃ y', Tbl.find? s'.teams u = some y' ∧ y'.handler = none ∧
       ∀ l, l < 32 → (y'.lane l).st = if (y.lane l).st = .off then .off else .exited)

/-- Taking an exception, where no sibling gives way and the team is not due to stop: the frame and every lane's PC
stand in the team's save slot, s62 holds the frame's offset in `sg.glob`, PRIV is 1 (2 for firmware) and MASK 1, the
trapping lanes run at the handler and issue once the frame is whole at its home, the team's other lanes stand where
they stood, its siblings are told to halt, and of the gang's other teams those alone stay stopped for a pre-emption
that stopped at a task boundary (R391, R397-R402, R408, R72). That a firmware team's entry keeps PRIV at 2 (log 72)
and that a fault of a word that would open a chain is framed as one in a chain (log 39) are the model's choices. -/
def Obligations.HandlerEntry : Prop :=
  ∀ (s : State) (k : Nat) (lanes : Mask) (pc : Word) (word : IWord) (fi : FaultInfo) (isFault : Bool) (x : Team) (w : Wg),
    Tbl.find? s.teams k = some x → Tbl.find? s.wgs x.wg = some w → x.priv ≠ 1 → x.handler = none → x.haltDue = none →
    x.chain = none → fi.chain = none →
    (∀ u y h, u ∈ w.teams → Tbl.find? s.teams u = some y → y.handler = some h → h.fault = true → h.at_ = s.cycle →
      y.teamid ≤ x.teamid) →
    let s' := s.raise k lanes pc word fi isFault
    let trap := lanes &&& x.live
    let ga := gaOf (s.teamPart k) x.slotVa
    s.hwOut ga 384 = false → (∀ a, ga ≤ a → a < ga + 384 → s.mapped (a / 128) = true) →
    let balloon := (s.region (s.teamRegion k)).balloon
    s'.hwLoad ga 256 =
      State.frameBytes x (if bitsOf balloon 63 48 = 0 then 0 else balloon) word fi (fi.pc.getD pc)
        (isFault && opensChain word) 0 ∧
    s'.hwLoad (ga + 256) 128 = allLanes.flatMap (fun l =>
      bytesOf 4 (if trap.getLsbD l then fi.pc.getD pc else (x.lane l).pc)) ∧
    (∃ t', Tbl.find? s'.teams k = some t' ∧ t'.priv = (if x.priv = 2 then 2 else 1) ∧ t'.trapmask = x.trapmask ||| 1 ∧
      t'.handler = some { lanes := trap, at_ := s.cycle, fault := isFault } ∧ t'.halted = false ∧ t'.stopping = false ∧ t'.v = x.v ∧ t'.g = x.g ∧
      (∀ r, t'.readS r = if r = 62 then BitVec.ofNat 64 x.slotVa - (x.seg 0).base else x.readS r) ∧
      ∀ l, l < 32 →
        if trap.getLsbD l then (t'.lane l).pc = w.handlerPc ∧ (t'.lane l).st = .running ∧
          (t'.lane l).hold = some .frame
        else t'.lane l = x.lane l) ∧
    (∀ u y, u ∈ s.gangTeams w.gang → u ≠ k → Tbl.find? s.teams u = some y →
      ∃ y', Tbl.find? s'.teams u = some y' ∧ y'.stopping = (y.stopping && y.atTask)) ∧
    ∀ u y, u ∈ w.teams → u ≠ k → Tbl.find? s.teams u = some y → y.live ≠ 0 →
      ∃ y' n, Tbl.find? s'.teams u = some y' ∧ y'.haltDue = some n ∧ s.cycle < n ∧ y'.skid = 0

/-- `trap` with a code of 0 to 239 at level 0 or 2 with MASK 0 takes the software-trap exception, with the next
instruction's PC in the frame; a code above 240 is an illegal operand (R375, R376). `trap` with code 240, read at run
time or not, and a legal range inside `sg.glob`: the group is held until firmware answers, and a second request of
the team until the first has been answered (R364, R376). Firmware's answer to a service request writes the count and
lets the group go on; where the group's lanes are stopped by now, its `trap` has completed as they are released
(R376, R400, R401). That a second service request of a team is held until the first has been answered is the model's
choice (log 74). -/
def Obligations.TrapsAndServices : Prop :=
  (∀ (f : Form) (s : State) (is : Issue) (t : Team), Standing s is t → Clear .trap f s is →
     let c := issued .trap f s is
     let code := (c.sc f.a).toNat % 256
     c.active ≠ 0 → t.trapmask.getLsbD 0 = false →
     (code < 240 → exec (.trap f) s = .next (countIssue c (c.s.raise is.team is.lanes is.pc is.word
       { cause := 15, sub := code, mask := c.active, pc := some (is.pc + 1) } false))) ∧
     (240 < code → exec (.trap f) s = .next (countIssue c (c.s.raise is.team is.lanes is.pc is.word
       { cause := 2, sub := 16, mask := c.active } true)))) ∧
  (∀ (i : Instr) (o : Op) (f : Form) (s : State) (is : Issue) (t : Team), Standing s is t → Clear o f s is →
     let c := issued o f s is
     let a := (c.sc f.b).toNat
     let n := (c.sc f.c).toNat
     (i = .trapService f ∧ o = .trapService) ∨ (i = .trap f ∧ o = .trap ∧ (c.sc f.a).toNat % 256 = 240) →
     c.active ≠ 0 → a % 65536 = 0 → n ≠ 0 → n ≤ 4096 → a + 65536 * n ≤ c.limit 0 →
     ((∃ l d b k, l < 32 ∧ (t.lane l).hold = some (.service d b k)) →
       exec i s = .next (again s is (c.s.updTeam is.team fun t => t.holdOn is.lanes (.earlier false)))) ∧
     ((∀ l d b k, l < 32 → (t.lane l).hold ≠ some (.service d b k)) →
      ∃ s' t', exec i s = .next s' ∧ Elsewhere is.team s s' ∧ Tbl.find? s'.teams is.team = some t' ∧
       t.Kept t' ∧ ∀ l, l < 32 → (t'.lane l).pc = (t.lane l).pc ∧ (t'.lane l).st = (t.lane l).st ∧
         (is.lanes.getLsbD l = true → (t'.lane l).hold = some (.service
           (match f.d.dst with | some (.s r) => some r.toNat | _ => none) (c.base 0 + a) n)))) ∧
  (∀ (s : State) (k count l off n : Nat) (d : Option Nat) (t : Team), Tbl.find? s.teams k = some t → l < 32 →
     (t.lane l).st = .running → (t.lane l).hold = some (.service d off n) →
     (∀ j d' off' n', j < 32 → (t.lane j).hold = some (.service d' off' n') →
       (d' = d ∧ off' = off ∧ n' = n) ∧ (t.lane j).st = .running) →
     ∃ s' t', exec (.firmwareServiceAnswer k count) s = .next s' ∧ Elsewhere k s s' ∧
       Tbl.find? s'.teams k = some t' ∧ t' = { t with lanes := t'.lanes, s := t'.s } ∧
       (∀ r, t'.readS r = if d = some r then BitVec.ofNat 64 count else t.readS r) ∧
       ∀ j, j < 32 → if (t.lane j).hold = some (.service d off n) then
           if t.parked j then t'.lane j = { t.lane j with hold := some .done }
           else (t'.lane j).hold = none ∧ (t'.lane j).pc = (t.lane j).pc + 1 ∧ (t'.lane j).st = .running
         else t'.lane j = t.lane j)

/-- `rett`, once the team's accesses are performed and the links let the save slot be read: PRIV returns from 1 to 0,
MASK is cleared, s62 is given back from the frame, the trapping lanes run at the frame's PC and the others stand at
the PCs of the save slot, the siblings resume, and a team that stopped at a task boundary stops again (R299, R377,
R404, R408, R413). -/
def Obligations.HandlerReturn : Prop :=
  ∀ (f : Form) (s : State) (is : Issue) (t : Team) (h : Handler), Standing s is t → Clear .rett f s is →
    activeMask t is.lanes f.h ≠ 0 → s.accessOut is.team = false → t.handler = some h → t.chain = none →
    f.h.chain = false → f.d.lat = none →
    let ga := gaOf (s.teamPart is.team) t.slotVa
    let word := fun (a n : Nat) => (ofBytes 64 (s.hwLoad (ga + a) n)).toNat
    (issued .rett f s is).s.readShut (coreDie t.core) ga 384 = none →
    ∃ s' t', exec (.rett f) s = .next s' ∧ Tbl.find? s'.teams is.team = some t' ∧ s'.mem = s.mem ∧ t'.handler = none ∧
      t'.priv = (if t.priv = 1 then 0 else t.priv) ∧ t'.trapmask = t.trapmask &&& ~~~1#32 ∧ t'.v = t.v ∧ t'.g = t.g ∧
      (∀ r, t'.readS r =
        if word 0 1 = 8 ∧ r = word 64 8 % 64 then BitVec.ofNat 64 (word 56 8)
        else if r = 62 then BitVec.ofNat 64 (word 48 8) else t.readS r) ∧
      (∀ l, l < 32 →
        if h.lanes.getLsbD l then
          ((t.lane l).st = .running ∨ (t.lane l).st = .waiting) →
            (t'.lane l).pc = BitVec.ofNat 32 (word 20 4) ∧ (t'.lane l).st = .running
        else (t'.lane l).pc = BitVec.ofNat 32 (word (256 + 4 * l) 4) ∧ (t'.lane l).st = (t.lane l).st) ∧
      (∀ u y, u ∈ (s.wg t.wg).teams → Tbl.find? s'.teams u = some y → y.halted = false ∧ y.haltDue = none) ∧
      (t.atTask = true → t'.stopping = true) ∧
      let g := (s.wg t.wg).gang
      (∀ r, (s.gang g).req = some r → r.halting = true → (s.gang g).resident = true →
        (∀ k ∈ s.gangTeams g, k ≠ is.team → (s.team k).resident = true → (s.team k).masked = false) →
        ∀ k ∈ s.gangTeams g, ∀ y, Tbl.find? s.teams k = some y → ∃ y', Tbl.find? s'.teams k = some y' ∧ y'.stopping = true)

/-- `sread` writes the value of the system register that it names, per lane where it is a lane's own; a vector
register takes the low 32 bits (R65-R68, R378). -/
def Obligations.SystemReads : Prop :=
  ∀ (f : Form) (s : State) (is : Issue) (t : Team) (n : BitVec 9), Standing s is t → Clear .sread f s is →
    f.a = .sys n → (∀ k, f.d.dst ≠ some (.f k)) →
    let w := s.wg t.wg
    let g := s.gangs.get { launch := 0 } w.gang
    let region := s.regionOf t.wg
    let r := s.region region
    ∀ x : Nat → DWord,
    (match n.toNat with
      | 0x000 => x = fun l => BitVec.ofNat 64 l
      | 0x001 => x = fun _ => BitVec.ofNat 64 t.teamid
      | 0x002 => x = fun _ => BitVec.ofNat 64 w.wgid
      | 0x003 => x = fun _ => g.gangid
      | 0x004 => x = fun _ => (g.tile.get 0 0).setWidth 64
      | 0x005 => x = fun _ => (g.tile.get 0 1).setWidth 64
      | 0x006 => x = fun _ => (g.tile.get 0 2).setWidth 64
      | 0x007 => x = fun _ => (g.tile.get 0 3).setWidth 64
      | 0x008 => x = fun _ => BitVec.ofNat 64 t.role
      | 0x009 => x = fun _ => BitVec.ofNat 64
          (t.core / 48 * 256 + t.core / 4 % 12 * 16 + t.core % 4 * 4 + t.pipe)
      | 0x00A => x = fun _ => BitVec.ofNat 64 (region % 65536)
      | 0x00B => x = fun _ => BitVec.ofNat 64 (((s.launches.find? g.launch).map (·.lid)).getD 0)
      | 0x00C => x = fun _ => t.priv.setWidth 64
      | 0x010 => x = fun _ => s.clkSeen (region / 65536)
      | 0x011 => x = fun _ => t.run
      | 0x012 => x = fun _ => t.tmrcmp
      | 0x013 => x = fun _ => t.notice.setWidth 64
      | 0x014 => x = fun _ => t.fmask.setWidth 64
      | 0x015 => x = fun _ => t.trapmask.setWidth 64
      | 0x016 => x = fun _ => t.fairctl.setWidth 64
      | 0x017 => x = fun _ => t.fpstat.setWidth 64
      | 0x018 => x = fun _ => BitVec.ofNat 64 (((s.launches.find? g.launch).map (·.heat)).getD 0)
      | 0x020 => x = fun _ => BitVec.ofInt 64 r.rsvg
      | 0x021 => x = fun _ => BitVec.ofInt 64 r.rsvh
      | 0x022 => x = fun _ => BitVec.ofInt 64 r.rsvp
      | _ => False) →
    let b := match f.d.dst with | some (.s _) => 64 | _ => 32
    Delivers (.sread f) f s is t b false (fun l => (x l).toNat % 2 ^ b) t.fpstat

/-- `swrite` of the registers that the team's level may write: the named register takes the value without its
reserved bits, CLK at the end of the cycle, TMRCMP clears TIMER unless it was set in this cycle, and nothing else
changes (R7, R65-R69, R378, R379). `segld` within the bound that dispatch gave sets base and limit of the segment
register, and nothing else (R62, R380). -/
def Obligations.SystemWrites : Prop :=
  (∀ (f : Form) (s : State) (is : Issue) (t : Team) (n : BitVec 9), Standing s is t → Clear .swrite f s is →
     f.a = .sys n → activeMask t is.lanes f.h ≠ 0 →
     let c := issued .swrite f s is
     let x : DWord := match f.b with | .v r => (t.readV r.toNat c.low).setWidth 64 | y => c.sc y
     (n = 0x015 → t.priv = 0 → x.getLsbD 0 = t.trapmask.getLsbD 0) →
     ∃ s' t', exec (.swrite f) s = .next s' ∧ Tbl.find? s'.teams is.team = some t' ∧ t.Stepped t' is.lanes ∧
       (match n.toNat with
         | 0x010 => Elsewhere is.team { s with clkNext := some x } s' ∧ t.Kept t'
         | 0x012 => Elsewhere is.team s s' ∧ Team.Kept
             { t with tmrcmp := x, notice := if t.noticeSet.getLsbD 0 then t.notice else t.notice &&& ~~~1#32 } t'
         | 0x015 =>
             let g := (s.wg t.wg).gang
             { t with trapmask := (x &&& 0xF1).setWidth 32, stopping := t'.stopping }.Kept t' ∧
             ((∀ r, (s.gang g).req = some r → r.halting = false) → Elsewhere is.team s s' ∧ t'.stopping = t.stopping) ∧
             (x.getLsbD 0 = false → (∀ r, (s.gang g).req = some r → r.halting = true → (s.gang g).resident = true →
               (∀ k ∈ s.gangTeams g, k ≠ is.team → (s.team k).resident = true → (s.team k).masked = false) →
               ∀ k ∈ s.gangTeams g, ∀ y, Tbl.find? s.teams k = some y → ∃ y', Tbl.find? s'.teams k = some y' ∧ y'.stopping = true))
         | 0x016 => Elsewhere is.team s s' ∧ { t with fairctl := (x &&& 0xFFF).setWidth 32 }.Kept t'
         | _ => Elsewhere is.team s s' ∧ { t with fpstat := (x &&& 0x1F).setWidth 32 }.Kept t')) ∧
  (∀ (f : Form) (s : State) (is : Issue) (t : Team), Standing s is t → Clear .segld f s is →
     let c := issued .segld f s is
     let j := (c.sc f.a).toNat
     let (b, n) := c.pair f.b
     c.active ≠ 0 → j ≤ 5 → (c.segBound j).1 ≤ b.toNat → b.toNat + n.toNat ≤ (c.segBound j).1 + (c.segBound j).2 →
     ∃ s' t', exec (.segld f) s = .next s' ∧ Elsewhere is.team s s' ∧ Tbl.find? s'.teams is.team = some t' ∧
       t.Stepped t' is.lanes ∧ t'.seg j = { base := b, limit := n } ∧ (∀ k, k ≠ j → t'.seg k = t.seg k) ∧
       { t with segs := t'.segs }.Kept t')

/-- The reserve as its instructions see and move it: `rsv.read` writes RSVG, RSVH and RSVP to three scalar registers,
and faults where there are no three; `rsv.ask` moves from the parent's grant to the region's the least of what it
asks for, what the parent has available and what the region's bound leaves, and writes how many; a root region
receives 0 (R204-R206, R382, R383). `pgsurr` of a legal range: the pages are surrendered one after another from the
lowest address, and the rise of available is written (R215, R384). -/
def Obligations.ReserveAndPages : Prop :=
  ((∀ (f : Form) (s : State) (is : Issue) (t : Team) (d : BitVec 6), Standing s is t → Clear .rsvRead f s is →
     f.d.dst = some (.s d) → d.toNat ≤ 61 → activeMask t is.lanes f.h ≠ 0 →
     let r := s.region (s.regionOf t.wg)
     ∃ s' t', exec (.rsvRead f) s = .next s' ∧ Elsewhere is.team s s' ∧ Tbl.find? s'.teams is.team = some t' ∧
       t.Stepped t' is.lanes ∧ t'.v = t.v ∧ t'.g = t.g ∧
       ∀ j, t'.readS j = if j = d.toNat then BitVec.ofInt 64 r.rsvg else if j = d.toNat + 1 then BitVec.ofInt 64 r.rsvh
         else if j = d.toNat + 2 then BitVec.ofInt 64 r.rsvp else t.readS j) ∧
   (∀ (f : Form) (s : State) (is : Issue) (t : Team) (d : BitVec 6), Standing s is t → Clear .rsvRead f s is →
     f.d.dst = some (.s d) → 61 < d.toNat → activeMask t is.lanes f.h ≠ 0 →
     let c := issued .rsvRead f s is
     exec (.rsvRead f) s = .next (countIssue c (c.s.raise is.team is.lanes is.pc is.word
       { cause := 2, sub := 16, mask := c.active } true))) ∧
   (∀ (f : Form) (s : State) (is : Issue) (t : Team), Standing s is t → Clear .rsvAsk f s is →
     activeMask t is.lanes f.h ≠ 0 →
     let c := issued .rsvAsk f s is
     exec (.rsvAsk f) s = .next (if (s.region (s.regionOf t.wg)).parentKey (s.regionOf t.wg / 65536) = none
       then c.done (c.writeScalar c.s 0) else finish c (c.s.updTeam is.team fun t => t.holdOn is.lanes (.ask (c.sc f.a).toNat is.word)))) ∧
   ∀ (f : Form) (s : State) (j : Nat) (m : Mask) (a : Nat) (word : IWord) (t : Team) (p : Nat) (r q : Region),
     decodeRaw (Raw.ofWord word) = .ok (.rsvAsk, f) → Tbl.find? s.teams j = some t →
     (∀ l, l < 32 → m.getLsbD l = true → (t.lane l).st = .running ∧ t.parked l = false) →
     (∀ k, f.d.dst ≠ some (.f k)) → activeMask t m f.h ≠ 0 →
     let k := s.regionOf t.wg
     Tbl.find? s.regions k = some r → r.parentKey (k / 65536) = some p → Tbl.find? s.regions p = some q → p ≠ k →
     ∃ s' t' n, s.askServed j m a word = s' ∧ Tbl.find? s'.teams j = some t' ∧ t.Stepped t' m ∧
       t.Holds t' f.d.dst (activeMask t m f.h) 64 false (fun _ => n) ∧
       (s'.region k).rsvg = r.rsvg + n ∧ (s'.region p).rsvg = q.rsvg - n ∧
       (n : Int) = min (min (a : Int) (max 0 q.available)) (if r.rsvmax = 0 then (a : Int) else max 0 (r.rsvmax.toNat - r.rsvg)) ∧
       (s'.region k).rsvh = r.rsvh ∧ (s'.region k).rsvp = r.rsvp ∧ s'.mem = s.mem) ∧
  (∀ (f : Form) (s : State) (is : Issue) (t : Team), Standing s is t → Clear .pgsurr f s is →
     let c := issued .pgsurr f s is
     let a := (c.sc f.a).toNat
     let n := (c.sc f.b).toNat
     c.active ≠ 0 → a % 65536 = 0 → n ≠ 0 → n ≤ 4096 → a + 65536 * n ≤ c.limit 0 →
     (∀ j, j < n → c.surrFault (c.base 0 + a + 65536 * j) = none ∧
       s.migrating (gaOf c.part (c.base 0 + a + 65536 * j)) = false) →
     let r := c.s.surrenderRange c.part n (c.base 0 + a)
     exec (.pgsurr f) s = .next (c.done (c.writeScalar r.2 (BitVec.ofNat 64 r.1))))

/-- The settlement of a block after a merge: RSVH moves by the change of the block's sectors, the mark of a core that
keeps no dirty word of it gives back what it had pledged, every pledge that stands moves against the change, and RSVG
stands (R28, R204, R210-R212). -/
def Obligations.SettlementAccounts : Prop :=
  ∀ (s : State) (k r : Nat) (mark full : Bool) (g : Region), s.ownerOf k = some r → Tbl.find? s.regions r = some g →
    let old : Int := (s.sectors k : Nat)
    let new : Int := ((s.encodeEntry k (s.pinned k)).2 : Nat)
    let p : Int := (s.cmdPledgesOn k : Nat)
    let other : Int := if entPledged (s.blockEntry k) = true ∧ mark = false then 1 else 0
    let g' := (s.settle k mark full).region r
    g'.rsvg = g.rsvg ∧ g'.rsvh = g.rsvh + (new - old) ∧
    g'.rsvp = (if mark = true ∧ full = true then g.rsvp - (8 - old) - p * (new - old)
               else g.rsvp - (p + other + (if mark = true then 1 else 0)) * (new - old)) ∧
    (s.settle k mark full).mem = s.mem

/-- System words that act on their team's region, gang or partition: `tlbinv` drops the entries of one page or of the
whole partition from every TLB; `notice.ack.balloon` completes the balloon request of its SEQ; `notice.ack.timer`
clears TIMER unless it was set in this cycle; `endwg` ends the workgroup with its code (R68, R215, R218, R219, R381,
R385, R386). `tile.next` and `yieldpoint` with no soft pre-emption pending, and with one: the first draws the next
index of the walker bound to its gang's core and sets its guard, clears it where there is none, and where no walker
is bound waits for a split after the issues of the cycle; the second goes on; a pending request makes both begin the
gang's halt and stop the team, which issues nothing while the halt waits for MASK (R293, R294, R347, R387, R388,
R408). Key slots: `kslot.load` fills an empty slot with the 64 bytes at the address and makes it active, writing 0,
once the core's own dirty words of them have reached the home, no migration of their pages stands and the links let
them be read, and writes 1 where the slot is not empty; `kslot.revoke` starts the revocation of an active slot,
writing 0, or writes 1 (R203, R231, R299, R301, R302, R390). No checkpoint holds data of the pages of a slot whose
revocation has begun, the save records of its workgroups and what its copies have in hand among them, and its other
data stand (R421). A port scrubs a page of a slot under revocation: the page with the lowest key goes, and the slot
counts the pages that are left; with none left the slot is empty (R302). That `kslot.load` waits until the core's own
dirty words have merged (log 59) and that the page with the lowest key is scrubbed first (log 74) are the model's
choices. -/
def Obligations.SystemActions : Prop :=
  ((∀ (f : Form) (s : State) (is : Issue) (t : Team), Standing s is t →
     (Clear .tlbinv f s is →
       let c := issued .tlbinv f s is
       c.active ≠ 0 → (c.sc f.b).toNat ≤ 19 → s.parts.has (c.sc f.b).toNat = true →
       exec (.tlbinv f) s = .next
         (c.done (c.s.tlbDrop (c.sc f.b).toNat (if f.top then none else some (c.sc f.a).toNat)))) ∧
     (Clear .noticeAckBalloon f s is →
       let c := issued .noticeAckBalloon f s is
       let seq := bitsOf (s.region (s.regionOf t.wg)).balloon 63 48
       c.active ≠ 0 → exec (.noticeAckBalloon f) s = .next (c.done
         (if seq ≠ 0 ∧ (c.sc f.a).toNat % 65536 = seq then c.s.balloonDone (s.regionOf t.wg) else c.s))) ∧
     (Clear .noticeAckTimer f s is → activeMask t is.lanes f.h ≠ 0 →
       ∃ s' t', exec (.noticeAckTimer f) s = .next s' ∧ Elsewhere is.team s s' ∧
         Tbl.find? s'.teams is.team = some t' ∧ t.Stepped t' is.lanes ∧
         Team.Kept { t with notice := if t.noticeSet.getLsbD 0 then t.notice else t.notice &&& ~~~1#32 } t') ∧
     (Clear .endwg f s is →
       let c := issued .endwg f s is
       c.active ≠ 0 → exec (.endwg f) s = .next
         (finish c (c.s.stopWorkgroup t.wg 1 ((c.sc f.a).toNat % 256) 0 0)))) ∧
   (∀ (s : State) (p : Nat) (va : Option Nat),
     let there := fun (e : TlbEnt) => e.part = p ∧ ∀ a, va = some a → a / 2 ^ e.shift = e.lead
     let s' := s.tlbDrop p va
     s' = { s with cores := s'.cores, clusters := s'.clusters } ∧
     (∀ core e, e ∈ (s'.core core).tlb ↔ e ∈ (s.core core).tlb ∧ ¬ there e) ∧
     ∀ k e, e ∈ (s'.cluster k).tlb ↔ e ∈ (s.cluster k).tlb ∧ ¬ there e)) ∧
  (∀ (f : Form) (s : State) (is : Issue) (t : Team), Standing s is t →
     (Clear .yieldpoint f s is →
       let c := issued .yieldpoint f s is
       let g := c.w.gang
       c.active ≠ 0 → exec (.yieldpoint f) s = .next
         (if s.softPending g then finish c (((c.advance c.s).beginHalt g).stopAtTask is.team) else c.done c.s)) ∧
     (Clear .tileNext f s is →
       let c := issued .tileNext f s is
       let g := c.w.gang
       let gang := s.gangs.get { launch := 0 } g
       c.active ≠ 0 →
       (s.softPending g = true → exec (.tileNext f) s = .next (again s is ((c.s.beginHalt g).stopAtTask is.team))) ∧
       (s.softPending g = false →
         ((∀ l, Tbl.find? s.launches gang.launch = some l → l.persist = 0) →
           exec (.tileNext f) s = .next (c.done (c.writeGuard c.s fun _ => false))) ∧
         (∀ l, Tbl.find? s.launches gang.launch = some l → l.persist ≠ 0 →
           (∀ k, s.boundWalker gang.launch gang.core = some k → (∀ l, l < 32 → is.lanes.getLsbD l = true → t.parked l = false) →
             exec (.tileNext f) s = .next
             (match c.s.draw? gang.launch k with
               | some (tile, s1) => c.done (c.writeGuard (s1.giveTile g tile) fun _ => true)
               | none => c.done (c.writeGuard c.s fun _ => false))) ∧
           (s.boundWalker gang.launch gang.core = none → exec (.tileNext f) s = .next
             (finish c (c.s.updTeam is.team fun t => t.holdOn is.lanes (.split is.word)))))))) ∧
  (∀ (f : Form) (s : State) (is : Issue) (t : Team) (x : DWord), Standing s is t →
     let port := bitsOf x 5 0
     let slot := bitsOf x 12 8
     let k := s.keys.get {} (port * 32 + slot)
     port < 32 ∨ (port ≤ 39 ∧ Config.boardPresent = true) →
     (Clear .kslotLoad f s is →
       let c := issued .kslotLoad f s is
       let va := (c.sc f.b).toNat
       c.active ≠ 0 → c.sc f.a = x →
       (bitsOf k.word 63 62 ≠ 0 → exec (.kslotLoad f) s = .next (c.done (c.writeScalar c.s 1))) ∧
       (bitsOf k.word 63 62 = 0 → c.s.translate t.core c.part va false = .ok →
         c.s.translate t.core c.part (va + 63) false = .ok →
         let u := c.touched [(va, c.active), (va + 63, c.active)]
         let ga := gaOf c.part va
         let s1 := (State.splitLines ga (List.replicate 64 0)).foldl (fun s y =>
           s.dropOwn t.core (128 * y.1 + y.2.1) y.2.2.length) u.s
         exec (.kslotLoad f) s = .next
           (if s1.inFlight (s.unit t.core) (ga / 512) || s1.inFlight (s.unit t.core) ((ga + 63) / 512) ||
               s1.migrating ga || s1.migrating (ga + 63) then
              again s is (s1.updTeam is.team fun t => t.holdOn is.lanes (.earlier false))
            else match s1.readShut (coreDie t.core) ga 64 with
              | some s2 => again s is (s2.updTeam is.team fun t => t.holdOn is.lanes (.earlier false))
              | none => c.done (c.writeScalar ((s1.hwHeat ga 64).setKey port slot
                  { word := setBits (setBits k.word 63 62 1) 55 32 (bitsOf k.word 55 32 + 1), key := s1.homeLoad ga 64 }) 0)))) ∧
     (Clear .kslotRevoke f s is →
       let c := issued .kslotRevoke f s is
       c.active ≠ 0 → c.sc f.a = x →
       exec (.kslotRevoke f) s = .next (if bitsOf k.word 63 62 ≠ 1 then c.done (c.writeScalar c.s 1) else
         c.done (c.writeScalar ((c.s.setKey port slot
           { word := setBits (setBits k.word 63 62 (if (s.slotPages port slot).length = 0 then 0 else 2)) 31 0
               (s.slotPages port slot).length, key := [] }).forgetSlot port slot) 0)))) ∧
  (∀ (s : State) (port slot job b : Nat) (j j' : Job) (x x' : Snap), Tbl.find? s.jobs job = some j →
     Tbl.find? (s.forgetSlot port slot).jobs job = some j' →
     (j.ckpt = some x ∧ j'.ckpt = some x' ∨ j.capSnap = some x ∧ j'.capSnap = some x') →
     ((∀ z ∈ s.pages ++ x.pages, z.1 / 2 ^ 38 = port → z.2.kslot = slot → b / 128 * 128 ≠ gaOf z.2.part (65536 * z.2.page) / 512) →
       Tbl.find? x'.image b = Tbl.find? x.image b) ∧
     (∀ i w y, (i, w) ∈ x.wgs → y ∈ w.teams → (∃ t, (y, t) ∈ x'.teams) → (i, w) ∈ x'.wgs) ∧
     ∀ key r, (key, r) ∈ s.pages → key / 2 ^ 38 = port → r.kslot = slot →
       let out := fun (a : Nat) => a / 128 * 128 ≠ gaOf r.part (65536 * r.page) / 512
       (∀ d, (b, d) ∈ x'.image → out b) ∧
       (∀ i w, (i, w) ∈ x'.wgs →
         let part := (((x.gangs.find? w.gang).bind fun y => x.launches.find? y.launch).map (·.part)).getD 0
         ∀ a ∈ blocksOf (gaOf part w.save) w.saveSize, out a) ∧
       ∀ i q c n bs, (i, q) ∈ x'.rings → c ∈ q.copies → c.hand = some (n, bs) → c.srcHost = false →
         ∀ a ∈ blocksOf (gaOf q.ref.part (c.src + (max c.dst (512 * n) - c.dst))) bs.length, out a) ∧
  (∀ (s : State) (port slot : Nat),
     let k := s.keys.get {} (port * 32 + slot)
     bitsOf k.word 63 62 = 2 → (s.slotPages port slot).length ≤ 2 ^ 32 →
     ∃ s' k', exec (.keyScrubPage port slot) s = .next s' ∧ Tbl.find? s'.keys (port * 32 + slot) = some k' ∧ k'.key = [] ∧
       bitsOf k'.word 31 0 = (s.slotPages port slot).length - 1 ∧
       (∀ page more, Tbl.wf s.pages = true → s.slotPages port slot = page :: more → ∃ r r', Tbl.find? s.pages page = some r ∧
         (∀ p ∈ more, page < p) ∧ Tbl.find? s'.pages page = some r' ∧ r'.surr = true ∧
         r'.blocks = [] ∧ r'.frames = [] ∧ page ∉ s'.slotPages port slot ∧
         ∀ a, a / 65536 = gaOf r.part (65536 * r.page) / 65536 → memRead s'.mem a = 0) ∧
       bitsOf k'.word 63 62 = (if (s.slotPages port slot).length ≤ 1 then 0 else 2) ∧
       s'.keyCopies.get 0 (port * 32 + slot) = BitVec.ofNat 2 (bitsOf k'.word 63 62))

/-- Notices and halts: RUN at TMRCMP sets TIMER; a due notice takes the group that would issue first into the handler
and wakes the sleepers; a halt broadcast stops the sibling; what is no instruction takes the illegal-instruction
exception with the sub-cause of its check (R40, R44, R68, R69, R91, R92, R400, R401). -/
def Obligations.NoticesAndHalts : Prop :=
  (∀ (s : State) (k : Nat) (t : Team), Tbl.find? s.teams k = some t → t.resident = true → t.tmrcmp ≤ t.run →
    ∃ s' t', exec (.noticeTimer k) s = .next s' ∧ Elsewhere k s s' ∧ Tbl.find? s'.teams k = some t' ∧
      t'.notice = t.notice ||| 1 ∧ t'.noticeRose = (if t.notice.getLsbD 0 then t.noticeRose else t.noticeRose + 1) ∧
      t' = { t with notice := t'.notice, noticeRose := t'.noticeRose, noticeSet := t'.noticeSet }) ∧
  (∀ (s : State) (k : Nat) (t : Team) (pc : Word) (m : Mask) (rest : List (Word × Mask)) (sub : Nat),
    Tbl.find? s.teams k = some t → State.noticeDue t = true → State.selecting t = true →
    orderGroups t (s.wg t.wg).fpp (s.ready k) = (pc, m) :: rest →
    sub < 4 → t.notice.getLsbD sub = true → t.nten.testBit sub = true →
    (∀ j, j < sub → t.notice.getLsbD j = false ∨ t.nten.testBit j = false) →
    let s1 := if t.haltDue.isSome then s else s.updTeam k fun t => t.advance (t.waiters fun w => match w with
      | .sleep _ _ => true | _ => false)
    exec (.noticeTrap k) s = .next (s1.raise k m pc (s.wordAt k pc)
        { cause := 14, sub := sub, mask := m, d0 := t.notice.setWidth 64 } false)) ∧
  (∀ (s : State) (k : Nat) (t : Team), Tbl.find? s.teams k = some t → t.haltDue ≠ none → t.chain = none →
    t.resident = true →
    ∃ s' t', exec (.haltBroadcast k) s = .next s' ∧ Tbl.find? s'.teams k = some t' ∧ t'.halted = true ∧
      t'.haltDue = none ∧ t'.v = t.v ∧ t'.s = t.s ∧ (∀ l, l < 32 → (t'.lane l).pc = (t.lane l).pc) ∧
      State.selecting t' = false) ∧
  ∀ (s : State) (is : Issue) (why : BadWord), s.issue = some is →
    exec (.illegalInstructionWord why) s = .next ((s.countIssueOf (s.regionOf (s.team is.team).wg) (s.team is.team).core).raise is.team is.lanes is.pc is.word
      { cause := 1, sub := match why with | .unassigned => 0 | .reserved => 1 | .unaccepted => 2 | .fetchRange => 3,
        mask := is.lanes } true)

/-- Die copies: a read at the home, or one that an owner die serves, gives the reader's die, once no migration of the
page stands, the line as it stands at the home, in E if no other die holds it and in S otherwise, an owner keeping it
in O; a remote reader's copy takes a lease. Invalidations, back-invalidations and an owner's eviction remove the
copy; a remote copy and a line's lease end at their times. Main memory stands, but for a block of TYPE 3 (R200, R203,
R244-R252). -/
def Obligations.DieCopies : Prop :=
  (∀ (i : Instr) (s : State) (id die core line load : Nat) (m : Msg), Tbl.find? s.msgs id = some m →
    (i = .dieCopyRead id ∧ m.body = .copyRead die core line load ∧ s.ownerDie line = none) ∨
      (i = .forwardedRead id ∧ ∃ o, m.body = .fwdRead o die core line load) →
    s.copyOf die line = none → s.mapped line = true → line < 2 ^ 64 →
    s.migrating (128 * line) = false → (i = .dieCopyRead id → s.entryWait line = none) →
    let s0 := s.repair (128 * line)
    ∃ s' c, exec i s = .next s' ∧ s'.mem = s0.mem ∧ Tbl.find? s'.copies (State.copyKey die line) = some c ∧
      c.data = s0.homeLine line ∧
      (die < 4 → c.expiry = none ∧ c.st = (if (s.holders line).all (· == die) then .e else .s) ∧
        ∀ d y, d < 4 → d ≠ die → Tbl.find? s.copies (State.copyKey d line) = some y →
          Tbl.find? s'.copies (State.copyKey d line) =
            some { y with st := match y.st with | .m => .o | .e => .s | z => z }) ∧
      (4 ≤ die → c.st = .s ∧ c.expiry = some (s.clk + BitVec.ofNat 64 s.leaseLen) ∧
        ∃ t, Tbl.find? s'.leases line = some t ∧ s.clk + BitVec.ofNat 64 s.leaseLen ≤ t)) ∧
  (∀ (i : Instr) (s : State) (id die line : Nat) (m : Msg), Tbl.find? s.msgs id = some m →
    (i = .dieCopyInvalidate id ∧ m.body = .invalidate die line) ∨ (i = .backInvalidation id ∧ m.body = .backInv die line) →
    exec i s = .next { s with msgs := s.msgs.erase id, copies := s.copies.erase (State.copyKey die line) }) ∧
  (∀ (s : State) (die line : Nat) (c : DieCopy), Tbl.find? s.copies (State.copyKey die line) = some c →
    (c.st = .m ∨ c.st = .o →
      exec (.ownerEvictionNotice die line) s = .next { s with copies := s.copies.erase (State.copyKey die line) }) ∧
    ∀ t, c.expiry = some t → t.toNat ≤ s.clk.toNat + s.leaseMargin →
      exec (.remoteCopyExpiry die line) s = .next { s with copies := s.copies.erase (State.copyKey die line) }) ∧
  ∀ (s : State) (line : Nat) (t : DWord), Tbl.find? s.leases line = some t → t ≤ s.clk →
    exec (.leaseWaitEnd line) s = .next { s with leases := s.leases.erase line }

/-- A walk of a page ends, if it is one of those that its cluster runs: its page, where it passes every check but
those of permission, fills the TLBs of the cores whose groups wait for it, and a group that waits for no other walk
goes on: where all the pages that it wants pass the checks its instruction issues again; where some fail, the lowest
sub-cause takes the translation fault in the lanes that have it, at the group's PC and with the address that the
lowest of them wants there (R281, R283, R397, R399). -/
def Obligations.WalksEnd : Prop :=
  (∀ (s : State) (id rq part page : Nat) (m : Msg), Tbl.find? s.msgs id = some m → m.body = .walk rq part page →
    let waiters := s.walkWaiters rq id
    let s0 := s.dropMsg id
    let s1 := match s0.pageEntry rq part (65536 * page) with
      | some e => (waiters.map fun x => (s0.team x.1).core).eraseDups.foldl (fun s c => s.tlbFill c e) s0
      | none => s0
    exec (.tlbWalk id) s = .next (if s.walkRuns rq id = true
      then waiters.foldl (fun s x => s.walkEnded id x.1 x.2.1 x.2.2) s1 else s.requeue id)) ∧
  ∀ (s : State) (id k : Nat) (lanes : Mask) (left : List Nat) (want : List (Nat × Mask)) (write : Bool) (word : IWord),
    let part := s.teamPart k
    let core := (s.team k).core
    let s' := s.walkEnded id k lanes (.walk left want write word)
    ((∃ j ∈ left, j ≠ id) → ∀ t, Tbl.find? s.teams k = some t →
      ∃ t', Tbl.find? s'.teams k = some t' ∧ t' = { t with lanes := t'.lanes } ∧ ∀ l, l < 32 → t'.lane l =
        if lanes.getLsbD l then { t.lane l with hold := some (.walk (left.filter (· != id)) want write word) } else t.lane l) ∧
    ((∀ j ∈ left, j = id) → (∀ x ∈ want, ∃ e, s.walkPage core part x.1 write = .inr e) →
      s' = s.updTeam k fun t => t.unhold lanes) ∧
    ∀ sub, (∀ j ∈ left, j = id) → s.stopped k lanes = false → (∃ x ∈ want, s.walkPage core part x.1 write = .inl sub) →
      (∀ x ∈ want, ∀ j, s.walkPage core part x.1 write = .inl j → sub ≤ j) →
      let hit := want.filter fun x => s.walkPage core part x.1 write == .inl sub
      let mask := hit.foldl (fun (acc : Mask) x => acc ||| x.2) 0
      ∀ (low first va : Nat) (m : Mask), lowest mask = some low → lowest lanes = some first →
        (hit.find? fun x => x.2.getLsbD low) = some (va, m) →
        s' = ((s.recordWalk core part va sub).closeLook k).raise k lanes ((s.team k).lane first).pc word
          { cause := 5, sub := sub, mask := mask, addr := va, d0 := s.ownerDetail part va } true

/-- The dispatcher places the gang that it has chosen, splits a walker for an idle core, and switches the fusion of
an empty cluster, whose L1s it leaves empty; a placed workgroup's lanes all run at their role's entry with registers,
guards and levels zero, at level 0 (R34-R38, R62, R66, R191, R293, R317). -/
def Obligations.PlacingWork : Prop :=
  (∀ (s : State) (die cluster core id : Nat) (p : Pick) (l : Launch), cluster < 12 → core < 4 →
    s.chosen die ((die * 12 + cluster) * 4 + core) = some (id, p) → (∀ g, p ≠ .restore g) →
    Tbl.find? s.launches id = some l →
    let c := (die * 12 + cluster) * 4 + core
    exec (.gangPlacement die cluster core) s = .next (s.passTurn (s.placeGang id l p c) die c id l.region)) ∧
  (∀ (s s' : State) (l : Launch) (h : CodeHdr) (gang wgid clus save w : Nat) (x : Seat),
    s.placeWg l h gang wgid clus x save = (w, s') → ∃ y, Tbl.find? s'.wgs w = some y ∧ y.gang = gang ∧ y.wgid = wgid ∧
      y.core = x.core ∧ y.resident = true ∧ y.ended = false ∧
      ∀ t ∈ y.teams, ∃ z, Tbl.find? s'.teams t = some z ∧ z.wg = w ∧ z.core = x.core ∧ z.resident = true ∧ z.v = [] ∧
        z.s = [] ∧ z.g = [] ∧ z.priv = 0 ∧ z.run = 0 ∧ z.tmrcmp = BitVec.allOnes 64 ∧ z.fmask = 0 ∧ z.trapmask = 0 ∧
        z.fairctl = 64 ∧ z.fpstat = 0 ∧
        z.seg 0 = { base := (s.region l.region).globBase, limit := (s.region l.region).globLimit } ∧
        z.seg 2 = { base := BitVec.ofNat 64 clus, limit := BitVec.ofNat 64 (l.gangSize * h.alloc) } ∧
        z.seg 4 = { base := BitVec.ofNat 64 l.karg, limit := BitVec.ofNat 64 (alignUp h.kSize 128) } ∧
        ∃ d ∈ h.teamRoles, z.role = d.role ∧ z.vregs = d.vregs ∧ z.depth = d.depth ∧
          ∀ j, j < 32 → (z.lane j).pc = d.entry ∧ (z.lane j).st = .running ∧ (z.lane j).level = 0) ∧
  (∀ (s s1 : State) (die core id : Nat) (l : Launch), core < 48 → s.chosen die (die * 48 + core) = none →
    (s.launches.filter fun (k, l) => l.die == die && l.splitOk && l.persist == 0
      && (s.boundWalker k (die * 48 + core)).isNone && s.fits l (.tile 0) (die * 48 + core)
      && s.fusionOk l (.tile 0) (die * 48 + core)) = [(id, l)] →
    s.split id (die * 48 + core) = some s1 → exec (.walkerSplit die core) s = .next s1) ∧
  (∀ (s : State) (id c k j : Nat) (l : Launch) (w : Walker), Tbl.find? s.launches id = some l → l.splitOk = true →
    State.splittable l = some (k, w) → State.freeSlot l = some j →
    let m := w.next + (w.stop - w.next + 1) / 2
    let l' := { l with walkers := (l.walkers.put k { w with stop := m }).put j { next := m, stop := w.stop, core := some c } }
    s.split id c = some { s with launches := Tbl.put s.launches id l' }) ∧
  ∀ (s : State) (die cluster : Nat) (fuse : Bool), 0 < cluster → cluster < 12 →
    let rq := die * 12 + cluster
    let cores := (List.range 4).map (4 * rq + ·)
    s.clusterEmpty rq = true → (s.cluster rq).fused ≠ fuse →
    let s1 := cores.foldl (fun s c => s.writeBackAll c) s
    (∀ c ∈ cores, s1.drained c s1.nextId = true) →
    ∃ s', exec (.l1FusionSwitch die cluster fuse) s = .next s' ∧ (s'.cluster rq).fused = fuse ∧ s'.mem = s.mem ∧
      ∀ c ∈ cores, (s'.core c).l1 = []

/-- The pre-emption ladder: a request sets PREEMPT in the gang's teams, a withdrawn one clears it, the grace limit
begins the halt, a halt that is through leaves the gang switched out with its registers as they stood, the kill limit
ends every workgroup with reason 3, and a gang is restored where the dispatcher chooses, or in place after a
checkpoint (R68, R317, R406-R410, R428). What hardware stores into a save record it loads again, and a team comes
back as its save slot holds it: registers, guards, counts, masks, level, segment limits, and each lane's PC, state
and level; only the bases of the segments of moved allocations follow their allocation (model: log 24), and of NOTICE
the pre-emption bit is clear while the bits of balloon and low reserve are set afresh (R54, R68, R73, R374, R395,
R396, R404, R407). That a restore moves the bases of moved allocations is the model's reading (log 24). -/
def Obligations.PreemptionLadder : Prop :=
  ((∀ (s : State) (gang : Nat) (g : Gang), Tbl.find? s.gangs gang = some g → g.resident = true → g.retiring = none →
     g.req = none →
     ∃ s' g' r, exec (.preemptRequest gang) s = .next s' ∧ Tbl.find? s'.gangs gang = some g' ∧ g'.req = some r ∧
       r.posted = s.clk ∧ r.halting = false ∧ r.inPlace = false ∧
       ∀ t y, t ∈ s.gangTeams gang → Tbl.find? s.teams t = some y → ∃ y', Tbl.find? s'.teams t = some y' ∧
         y'.notice = y.notice ||| 4 ∧
         y' = { y with notice := y'.notice, noticeRose := y'.noticeRose, noticeSet := y'.noticeSet }) ∧
   (∀ (s : State) (gang : Nat) (g : Gang) (r : PreReq), Tbl.find? s.gangs gang = some g → g.req = some r →
     r.inPlace = false → (r.ckpt = true ∨ r.halting = false ∨ ∀ k ∈ s.gangTeams gang, (s.team k).stopping = false) →
     ∃ s' g', exec (.preemptWithdraw gang) s = .next s' ∧ Tbl.find? s'.gangs gang = some g' ∧
       g' = { g with req := if r.ckpt then some { r with inPlace := true, ckpt := false, asker := none } else none } ∧
       ∀ t y, t ∈ s.gangTeams gang → Tbl.find? s.teams t = some y → ∃ y', Tbl.find? s'.teams t = some y' ∧
         y' = { y with notice := if y.noticeSet.getLsbD 2 then y.notice else y.notice &&& ~~~4#32 }) ∧
   (∀ (s : State) (gang : Nat) (g : Gang) (r : PreReq) (l : Launch), Tbl.find? s.gangs gang = some g → g.req = some r →
     Tbl.find? s.launches g.launch = some l → r.halting = false →
     r.posted.toNat + (s.part l.part).grace.toNat ≤ s.clk.toNat →
     exec (.graceExpiry gang) s = .next (s.beginHalt gang)) ∧
   (∀ (s : State) (gang n : Nat) (g : Gang) (r : PreReq) (l : Launch), Tbl.find? s.gangs gang = some g → g.req = some r →
     Tbl.find? s.launches g.launch = some l → r.halting = true → g.resident = true → g.retiring = none → r.upTo = some n →
     s.liveOf gang ≠ [] → (∀ t ∈ s.gangTeams gang, (s.team t).stopping = true ∨ (s.team t).resident = false) →
     (s.withdraw gang).haltBusy gang = false →
     (∀ w ∈ g.wgs, (s.withdraw gang).drained ((s.withdraw gang).unit (s.wg w).core) n = true) →
     (s.withdraw gang).saveShut l.part (s.liveOf gang) = none →
     ∃ s' g', exec (.instructionLevelHalt gang) s = .next s' ∧ Tbl.find? s'.gangs gang = some g' ∧ g'.resident = false ∧
       ∀ w ∈ s.liveOf gang, ∀ t ∈ (s.wg w).teams, ∀ y, Tbl.find? s.teams t = some y →
         ∃ y', Tbl.find? s'.teams t = some y' ∧ y'.resident = false ∧ y'.v = y.v ∧ y'.s = y.s ∧ y'.g = y.g) ∧
   (∀ (s : State) (gang : Nat) (g : Gang) (r : PreReq) (l : Launch), Tbl.find? s.gangs gang = some g → g.req = some r →
     Tbl.find? s.launches g.launch = some l → r.inPlace = false → r.ckpt = false → g.resident = true →
     r.posted.toNat + (s.part l.part).kill.toNat ≤ s.clk.toNat →
     ∃ s' l', exec (.killExpiry gang) s = .next s' ∧ Tbl.find? s'.launches g.launch = some l' ∧ l'.killed = true ∧
       ∀ w y, w ∈ s.liveOf gang → Tbl.find? s.wgs w = some y → y.ending = none → (s'.wg w).ending = some (3, 0, 0, 0)) ∧
   ∀ (s : State) (gang cluster core : Nat) (g : Gang), Tbl.find? s.gangs gang = some g → g.resident = false →
     cluster < 12 → core < 4 → s.restoreShut gang = none →
     let c := (g.die * 12 + cluster) * 4 + core
     (∀ r, g.req = some r → r.inPlace = true → exec (.gangRestore gang cluster core) s = .next (s.restoreGang gang c)) ∧
     ∀ l, (∀ r, g.req = some r → r.inPlace = false) → s.chosen g.die c = some (g.launch, .restore gang) →
       Tbl.find? s.launches g.launch = some l → exec (.gangRestore gang cluster core) s =
         .next (s.passTurn (s.restoreGang gang c) g.die c g.launch l.region)) ∧
  ((∀ (s : State) (core line off : Nat) (bs : List Byte), bs ≠ [] → off + bs.length ≤ 128 → s.mapped line = true →
     (∀ m ∈ s.msgs, m.1 < s.nextId) → s.hwOut (128 * line + off) bs.length = false →
     (s.hwStoreLine core line off bs).hwLoad (128 * line + off) bs.length = bs) ∧
   ∀ (s : State) (part pipe slot : Nat) (r : Region) (t y : Team) (x : Seat) (old new : Places)
       (moves : List (Nat × Nat × Nat × Nat)) (pcs : List Byte),
     (∀ l, l < 32 → (t.lane l).level < 16) → y.vregs = t.vregs →
     s.hwLoad (gaOf part (y.slotVa + 256)) 864 = slotBytes t pcs →
     s.hwLoad (gaOf part (y.slotVa + 4096)) (128 * t.vregs) = (vectorBytes t).take (128 * t.vregs) →
     let z := s.restoreTeam part r y x pipe slot old new moves
     (∀ n, n < 64 → z.readS n = t.readS n) ∧ (∀ n, n < 8 → z.guard n = t.guard n) ∧
     (∀ n l, n < t.vregs → l < 32 → z.readV n l = t.readV n l) ∧
     z.run = t.run ∧ z.tmrcmp = t.tmrcmp ∧ z.fmask = t.fmask ∧ z.trapmask = t.trapmask &&& 0xF1 ∧
     z.fairctl = t.fairctl &&& 0xFFF ∧ z.fpstat = t.fpstat &&& 0x1F ∧ z.priv = t.priv ∧
     z.notice = (t.notice &&& 1) ||| State.freshNotice r ∧
     (∀ i, i < 6 → (z.seg i).limit = (t.seg i).limit ∧ (z.seg i).base =
       let b := (t.seg i).base.toNat
       if i = 1 then BitVec.ofNat 64 (b + new.spad - old.spad) else if i = 2 then BitVec.ofNat 64 (b + new.clus - old.clus)
       else if i = 3 then BitVec.ofNat 64 (b + new.obuf - old.obuf) else (t.seg i).base) ∧
     z.resident = true ∧ z.core = x.core ∧ z.stopping = false ∧ z.atTask = false ∧
     ∀ l, l < 32 → (z.lane l).st = (t.lane l).st ∧ (z.lane l).level = (t.lane l).level ∧
       (z.lane l).hold = (if (y.lane l).hold = some .done then some .done else none) ∧
       ((t.parked l = false ∨ t.handler = none) → (z.lane l).pc = (t.lane l).pc))

/-- A workgroup whose lanes have all left, with no command and no load left, ends: its teams free their resources,
and an exit record is counted unless it exited cleanly with nothing to report; a gang whose workgroups have all ended
retires once its cores' writes have merged, and with a launch's last gang the launch is complete: its completion
signal rises by 1, or by 1 + 2^63 after a kill, it leaves its region's queue, and its packet completes (R316, R333,
R386, R405, R410). -/
def Obligations.WorkEnds : Prop :=
  (∀ (s : State) (wg : Nat) (w : Wg), Tbl.find? s.wgs wg = some w → w.resident = true → w.ended = false →
    (∀ t ∈ w.teams, (s.team t).live = 0) → s.cmdsOf wg = [] →
    (∀ d ∈ s.loads, w.teams.contains d.2.team = true → d.2.fe ≠ 0) →
    ∃ s' w', exec (.workgroupEnd wg) s = .next s' ∧ Tbl.find? s'.wgs wg = some w' ∧ w'.ended = true ∧ w'.resident = false ∧
      (∀ t ∈ w.teams, ∀ y, Tbl.find? s.teams t = some y → ∃ y', Tbl.find? s'.teams t = some y' ∧ y'.resident = false) ∧
      ∀ l r, Tbl.find? s.launches (s.gang w.gang).launch = some l → Tbl.find? s.regions l.region = some r →
        (s'.region l.region).exitSeq = r.exitSeq +
          if (w.ending.getD (0, 0, 0, 0)).1 = 0 ∧ w.guardRec = none ∧ w.mflags = 0 ∧
            (∀ t ∈ w.teams, (s.team t).fmask = 0) then 0 else 1) ∧
  (∀ (s : State) (gang : Nat) (g : Gang), Tbl.find? s.gangs gang = some g → (∀ w ∈ g.wgs, (s.wg w).ended = true) →
    g.retiring = none →
    ∃ s' g' n, exec (.gangRetirement gang) s = .next s' ∧ Tbl.find? s'.gangs gang = some g' ∧ g'.retiring = some n ∧
      g'.req = none ∧ s'.mem = s.mem) ∧
  (∀ (s : State) (gang n : Nat) (g : Gang) (l : Launch), Tbl.find? s.gangs gang = some g →
    (∀ w ∈ g.wgs, (s.wg w).ended = true) → g.retiring = some n → Tbl.find? s.launches g.launch = some l →
    (∀ w ∈ g.wgs, s.drained (s.unit (s.wg w).core) n = true) →
    let last := ({ s with gangs := s.gangs.erase gang } : State).launchOver g.launch
    (last = true → s.outputMoves l = false ∧ (l.signal ≠ 0 → s.homeWait l.die (gaOf l.part l.signal) 8 = none)) →
    ∃ s' s1, exec (.gangRetirement gang) s = .next s' ∧ Tbl.find? s'.gangs gang = none ∧
      (∀ w ∈ g.wgs, Tbl.find? s'.wgs w = none) ∧
      Tbl.find? s1.launches g.launch = some { l with retired := l.retired + 1 } ∧
      (s' = if last then s1.completeLaunch g.launch else s1) ∧ (last = true → Tbl.find? s'.launches g.launch = none)) ∧
  ∀ (s : State) (id : Nat) (l : Launch), Tbl.find? s.launches id = some l →
    let ga := gaOf l.part l.signal
    (l.signal ≠ 0 → l.gone.contains (ga / 65536) = false → ga % 8 = 0 ∧ (s.pageAt (128 * (ga / 128))).isSome = true) →
    ∃ s1 : State, (l.signal = 0 ∨ l.gone.contains (ga / 65536) = true → s1 = s) ∧
      (l.signal ≠ 0 → l.gone.contains (ga / 65536) = false → s1.homeBytes ga 8 =
        bytesOf 8 (BitVec.ofNat 64 (loadNat (s.homeLoad ga 8) + 1 + if l.killed then 2 ^ 63 else 0))) ∧
      let s2 := ((s1.endPledges l.signalPledge).updRegion l.region fun r =>
        { r with queue := r.queue.filter (· != id) }).captureLaunch id l
      s.completeLaunch id = ({ s2 with launches := s2.launches.erase id } : State).packetDone l.ring l.packet

/-- Packets that only complete: `nop` and `fence` are consumed; `link` moves consumption to the next segment and
hands the drained one to the free list, or counts it as dropped where the list is full; `wait-value` is consumed once
its condition holds at a read, which the links on its way and a migration can hold up, and where its timeout has
elapsed and the condition does not hold it stops the ring with sub-cause 10 (R203, R299, R306-R313, R315). Rings: a
doorbell and a poll put the packet that stands at READ up for its service, once it has been read or as it is read
over links that are all crossed; a resume clears STOP first and reads the packet anew; held bookkeeping writes are
tried again in order; the descriptor that firmware owes a device ring is written once its page is mapped (R299,
R303-R306, R313, R422, R436). When the descriptor that firmware owes a device ring is written is the model's choice
(logs 14, 74). -/
def Obligations.PacketsComplete : Prop :=
  ((∀ (s : State) (ring : Nat) (p : Pkt),
     (s.Served ring 1 p [] false → exec (.nopPacket ring) s = .next (s.consume ring p true)) ∧
     (s.Served ring 7 p [] true → exec (.fencePacket ring) s = .next (s.consume ring p true))) ∧
   (∀ (s : State) (ring : Nat) (p : Pkt), s.Served ring 8 p [(8, 8)] false → p.d.growing = true →
     p.word 8 % 65536 = 0 →
     let g := s.ring ring
     let s1 := (s.consume ring p true).updRing ring fun g => { g with seg := some (p.word 8), slot := 0 }
     exec (.linkPacket ring) s = .next (s1.bookkeep ring
       (if p.d.freeWr - p.d.freeRd = 2 ^ p.d.freeLog then
         [(g.ref.addr + 64, bytesOf 8 (BitVec.ofNat 64 (p.d.dropped + 1)))]
        else [(p.d.freeBase + 8 * (p.d.freeWr % 2 ^ p.d.freeLog), bytesOf 8 (BitVec.ofNat 64 (g.seg.getD p.d.base))),
           (g.ref.addr + 56, bytesOf 8 (BitVec.ofNat 64 (p.d.freeWr + 1)))]))) ∧
   ∀ (s : State) (ring : Nat) (p : Pkt), s.Served ring 3 p waitBody false → waitCheck p = none →
     let part := s.ringPart ring
     let ga := gaOf part (p.word 8)
     let x := loadNat (s.homeLoad ga 8)
     let links := s.pathLinks p.d.die part (p.word 8) 8 true
     let s1 := s.updRing ring fun g => { g with waitFrom := some (g.waitFrom.getD s.clk) }
     let read := fun (s : State) => (s.updRing ring fun g => { g with crossed := [] }).hwHeat ga 8
     s.Crosses ring links →
     (∀ y, s.readFault part (p.word 8) 8 = some y → exec (.waitValuePacket ring) s = .next (s1.walkFault ring p y)) ∧
     (s.readFault part (p.word 8) 8 = none →
       (s.migrating ga = true →
         exec (.waitValuePacket ring) s = .next (s1.updRing ring fun g => { g with asked := g.seen })) ∧
       (s.migrating ga = false → p.waitHolds x = true →
         exec (.waitValuePacket ring) s = .next ((read s1).consume ring p true)) ∧
       (s.migrating ga = false → p.waitHolds x = false → exec (.waitValuePacket ring) s = .next (read s1)) ∧
       ∀ t, s.migrating ga = false → (s.ring ring).waitFrom = some t → p.n 36 4 ≠ 0 →
         t.toNat + 2000 * p.n 36 4 ≤ s.clk.toNat → exec (.waitValueTimeout ring) s = .next
           (if p.waitHolds x then (read s).consume ring p true else (read s).packetFault ring p 10 0))) ∧
  ((∀ (i : Instr) (s : State) (ring : Nat) (value : DWord) (p : Pkt) (e : Instr), i = .ringPoll ring ∨
       (i = .ringDoorbell ring value ∧ value.getLsbD 63 = false) →
     s.packet? ring = some p → (s.die p.d.die).booted = true → State.packetEvent ring p = .inl e →
     ∃ s', exec i s = .next s' ∧ e ∈ s'.agenda ∧ s'.mem = s.mem) ∧
   (∀ (i : Instr) (s : State) (ring : Nat) (value : DWord) (p : Pkt) (e : Instr) (g : Ring), i = .ringPoll ring ∨
       (i = .ringDoorbell ring value ∧ value.getLsbD 63 = false) →
     Tbl.find? s.rings ring = some g → g.seen = false →
     (s.updRing ring fun g => { g with seen := true }).packet? ring = some p → (s.die p.d.die).booted = true →
     State.packetEvent ring p = .inl e → s.ringReach g.ref g.ref.addr = true → s.ringReach g.ref p.addr = true →
     s.ringMoves g.ref g.ref.addr = false → s.ringMoves g.ref p.addr = false →
     s.Crosses ring (s.ringLinks g.ref g.ref.addr 128 ++ s.ringLinks g.ref p.addr 64) →
     ∃ s', exec i s = .next s' ∧ e ∈ s'.agenda ∧ s'.mem = s.mem ∧ (s'.ring ring).seen = true) ∧
   (∀ (i : Instr) (s : State) (ring sub : Nat) (value : DWord) (p : Pkt), i = .ringPoll ring ∨
       (i = .ringDoorbell ring value ∧ value.getLsbD 63 = false) →
     s.packet? ring = some p → (s.die p.d.die).booted = true → State.packetEvent ring p = .inr sub →
     exec i s = .next ((s.updRing ring fun g => { g with polled := s.clk, asked := false }).packetFault ring p sub 0)) ∧
   (∀ (i : Instr) (s : State) (ring : Nat) (value : DWord), i = .doorbellResume ring ∨
       (i = .ringDoorbell ring value ∧ value.getLsbD 63 = true) → exec i s = .next
     (((s.setStop ring false).updRing ring fun g => { g with seen := false, crossed := [] }).examine ring)) ∧
   (∀ (s : State) (ring : Nat) (g : Ring), Tbl.find? s.rings ring = some g →
     exec (.bookkeepingWriteRetry ring) s =
       .next (((s.updRing ring fun g => { g with held := [] }).bookkeep ring g.held).askPoll ring)) ∧
   ∀ (s : State) (ring : Nat) (g : Ring), Tbl.find? s.rings ring = some g →
     let ga := gaOf g.ref.part g.ref.addr
     (g.image = [] ∨ s.pageAt ga = none → s.writeImage ring = s) ∧
     (g.image.length = 128 → ga % 128 = 0 → (s.pageAt ga).isSome = true → s.uncovered (blocksOf ga 128) = none →
       s.homeWait (portDie (s.homePort (ga / 128))) ga 128 = none →
       (s.writeImage ring).homeBytes ga 128 = g.image ∧ ((s.writeImage ring).ring ring).image = []))

/-- Packets that write, once the links on their way are crossed: `signal` writes or adds its value and `timestamp`
writes CLK at the home under a pledge of their own; `copy` begins with the pledge of its destination and signal and
goes on chunk by chunk: a chunk is read from host memory, or each byte as the die's copy or the home holds it, its
bytes land at the destination and no other byte changes, and after the last the signal rises by 1; `launch` puts its
launch at the end of its region's queue, or stops the ring with sub-cause 5 where it is refused (R200, R239, R290,
R299, R303, R312, R313, R436). That a copy and its signal are pledged in one decision (log 36), and a launch's save
array with its signal in one (log 34), are the model's choices. -/
def Obligations.PacketsWrite : Prop :=
  (∀ (i : Instr) (s : State) (ring : Nat) (p : Pkt) (x : Nat → Nat),
    (i = .signalPacket ring ∧ s.Served ring 4 p [(8, 17)] true ∧ p.n 24 1 ≤ 1 ∧
        x = fun old => if p.n 24 1 = 0 then p.word 16 else old + p.word 16) ∨
      (i = .timestampPacket ring ∧ s.Served ring 9 p [(8, 8)] true ∧ x = fun _ => s.clk.toNat) →
    p.word 8 % 8 = 0 → s.Crosses ring (s.pathLinks p.d.die (s.ringPart ring) (p.word 8) 8 false) →
    s.translateNow (s.ringPart ring) none (p.word 8) true false = none →
    let ga := gaOf (s.ringPart ring) (p.word 8)
    ga % 8 = 0 → (s.pageAt (128 * (ga / 128))).isSome = true → s.uncovered (blocksOf ga 8) = none →
    s.homeWait p.d.die ga 8 = none →
    ∃ s1 : State, exec i s = .next (s1.consume ring p true) ∧
      s1.homeBytes ga 8 = bytesOf 8 (BitVec.ofNat 64 (x (loadNat (s.homeLoad ga 8))))) ∧
  (∀ (s : State) (ring : Nat) (p : Pkt), s.Served ring 5 p [(8, 25), (40, 8)] false → State.copyCheck p = none →
    (s.ring ring).copies = [] →
    let part := s.ringPart ring
    let (src, dst, n, sig) := (p.word 8, p.word 16, p.word 24, p.word 40)
    let (srcHost, dstHost) := ((p.n 32 1).testBit 0, (p.n 32 1).testBit 1)
    let ks := ((if dstHost then [] else blocksOf (gaOf part dst) n)
      ++ (if sig = 0 then [] else blocksOf (gaOf part sig) 8)).eraseDups
    let path := fun (va n : Nat) => s.pathLinks p.d.die part va n false
    s.Crosses ring ((if srcHost then [] else path src n) ++ (if dstHost then [] else path dst n) ++
      (if sig = 0 then [] else path sig 8)) →
    (srcHost = false → s.readFault part src n = none) →
    (dstHost = false → (∀ a ∈ pagesOf dst n, s.translateNow part none a true false = none) ∧
      ∀ k r, (k, r) ∈ s.regions → k / 65536 = part → ∀ b ∈ r.bindings, b.2.2.2.2 = true →
        b.2.1 + b.2.2.1 ≤ dst ∨ dst + n ≤ b.2.1) →
    (sig ≠ 0 → s.translateNow part none sig true false = none) → s.uncovered ks = none →
    let c : QCopy := { index := p.d.read, src := src, dst := dst, count := n, srcHost := srcHost, dstHost := dstHost,
                       signal := sig, left := [(dst / 512, (dst + n - 1) / 512 + 1 - dst / 512)], pledged := ks }
    exec (.copyPacket ring) s = .next (((s.pledgeCmd ks).consume ring p false).updRing ring fun g =>
      { g with copies := g.copies ++ [c] })) ∧
  (∀ (s s1 : State) (ring n : Nat) (c : QCopy), s.draw = (n, s1) → s.packet? ring = none →
    (s.ring ring).copies[n % (s.ring ring).copies.length]? = some c →
    exec (.copyPacket ring) s = .next (s1.copyChunk ring c)) ∧
  (∀ (s s1 : State) (ring m j : Nat) (c : QCopy) (g : Ring) (rest : List (Nat × Nat)), Tbl.find? s.rings ring = some g →
    c ∈ g.copies → c.hand = none → s.draw = (m, s1) →
    takeChunk c.left (if c.wait.isSome then 0 else m % c.left.foldl (fun n x => n + x.2) 0) = some (j, rest) →
    let part := s.ringPart ring
    let die := (s.ringDesc g.ref).die
    let lo := max c.dst (512 * j)
    let n := min (c.dst + c.count) (512 * (j + 1)) - lo
    let src := c.src + (lo - c.dst)
    let lines := s1.away die [(gaOf part src, n)]
    (c.srcHost = false → (∀ l ∈ lines, s1.migrating (128 * l) = false ∧ s1.entryWait l = none) ∧
      ∀ k ∈ s1.legs die lines, s1.mayCross k part = true) →
    ∃ bs, { c with left := rest, hand := some (j, bs), wait := none } ∈ ((s.copyChunk ring c).ring ring).copies ∧
      (c.srcHost = true → bs = memReadBytes s.hostMem src n) ∧
      (c.srcHost = false → bs.length = n ∧ ∀ i, i < n → bs.getD i 0 = match s.copyOf die ((gaOf part src + i) / 128) with
        | some y => y.data.extractLsb' (8 * ((gaOf part src + i) % 128)) 8
        | none => (s.homeLoad (gaOf part src + i) 1).headD 0)) ∧
  (∀ (s : State) (ring j : Nat) (bs : List Byte) (c : QCopy) (g : Ring), Tbl.find? s.rings ring = some g → c ∈ g.copies →
    c.hand = some (j, bs) →
    let part := s.ringPart ring
    let die := (s.ringDesc g.ref).die
    let lo := max c.dst (512 * j)
    let ga := gaOf part lo
    let s' := s.copyChunk ring c
    (c.dstHost = true → s'.hostMem = memWriteBytes s.hostMem lo bs ∧ s'.mem = s.mem) ∧
    (c.dstHost = false → bs ≠ [] → ga % 512 + bs.length ≤ 512 → c.gone.contains (ga / 65536) = false →
      (∀ i, i < bs.length → (s.pageAt (128 * ((ga + i) / 128))).isSome = true) →
      (∀ k ∈ s.legs die [ga / 128], s.mayCross k part = true) → s.homeWait die ga bs.length = none →
      s'.homeBytes ga bs.length = bs ∧
      (Memory.wf s.mem = true → ∀ a, a < ga ∨ ga + bs.length ≤ a → memRead s'.mem a = memRead (s.repair ga).mem a))) ∧
  (∀ (s : State) (ring : Nat) (c : QCopy), c.hand = none → c.left.foldl (fun n x => n + x.2) 0 = 0 →
    let die := (s.ringDesc (s.ring ring).ref).die
    let ga := gaOf (s.ringPart ring) c.signal
    (c.signal ≠ 0 → s.homeWait die ga 8 = none) →
    (c.signal ≠ 0 → c.gone.contains (ga / 65536) = false → ga % 8 = 0 ∧ (s.pageAt (128 * (ga / 128))).isSome = true) →
    ∃ s1 : State, (c.signal = 0 ∨ c.gone.contains (ga / 65536) = true → s1 = s) ∧
      (c.signal ≠ 0 → c.gone.contains (ga / 65536) = false →
        s1.homeBytes ga 8 = bytesOf 8 (BitVec.ofNat 64 (loadNat (s.homeLoad ga 8) + 1))) ∧
      s.copyChunk ring c = (((s1.endPledges c.pledged).updRing ring fun g =>
        { g with copies := g.copies.filter fun x => x.index != c.index }).packetDone ring c.index)) ∧
  ∀ (s : State) (ring : Nat) (p : Pkt), s.Served ring 2 p [(8, 8)] false → p.word 8 % 128 = 0 →
    let part := s.ringPart ring
    let b := s.homeLoad (gaOf part (p.word 8)) 128
    let sig := loadNat ((b.drop 16).take 8)
    let arr := gaOf part (loadNat ((b.drop 24).take 8))
    let size := saveArrBytes (loadNat ((b.drop 76).take 4))
    let ks := ((if sig = 0 then [] else blocksOf (gaOf part sig) 8) ++ blocksOf arr size).eraseDups
    let l := { State.launchOf? part p.d.die ring p.d.read s.nextId (p.word 8) b (ks.filter fun k => (s.ownerOf k).isSome) with
      gone := ((ks.filter fun k => (s.ownerOf k).isNone).map (· / 128)).eraseDups
      capKey := (ring + 1, (s.jobs.get {} part).capCounts.get 0 ring) }
    s.Crosses ring (s.pathLinks p.d.die part (p.word 8) 128 true) →
    s.readFault part (p.word 8) 128 = none → s.migrating (gaOf part (p.word 8)) = false →
    (s.launchRefused part b = true →
      exec (.launchPacket ring) s = .next ((s.hwHeat (gaOf part (p.word 8)) 128).packetFault ring p 5 0)) ∧
    (s.launchRefused part b = false → s.uncovered ks = none → (s.region l.region).queue.length < 4096 →
      s.homeWait p.d.die arr size = none → l.tiles ≠ 0 →
      ∃ s', exec (.launchPacket ring) s = .next s' ∧ Tbl.find? s'.launches s.nextId = some l ∧ s.nextId < s'.nextId ∧
        ∀ g, Tbl.find? s.regions l.region = some g → (s'.region l.region).queue = g.queue ++ [s.nextId])

/-- Region operations, on a privileged ring: each does what R314 says of it and its packet is consumed; one that is
refused stops the ring with sub-cause 6, and one on a ring without PRIV with sub-cause 3 (R201, R205, R215,
R284-R287, R313, R314). That a destroyed region's grant goes with it (log 35) and that firmware answers within the
packet's own event (log 10) are the model's choices. -/
def Obligations.RegionOperations : Prop :=
  (∀ (i : Instr) (s : State) (ring code : Nat) (p : Pkt) (used : List (Nat × Nat)) (go : Nat → Option State),
    (match i with
      | .regionCreate k => k = ring ∧ code = 0 ∧ used = [(12, 2), (16, 8)] ∧
          s.readFault (s.ringPart ring) (p.word 16) 256 = none ∧
          (∀ a ∈ pagesOf (p.word 16) 256, s.migrating (gaOf (s.ringPart ring) a) = false) ∧
          s.imageWait (s.ringPart ring * 65536 + p.n 10 2) (s.homeLoad (gaOf (s.ringPart ring) (p.word 16)) 256) = none ∧
          (p.d.priv = true → s.Crosses ring (s.pathLinks p.d.die (s.ringPart ring) (p.word 16) 256 true)) ∧
          go = fun r => (s.hwHeat (gaOf (s.ringPart ring) (p.word 16)) 256).createRegion (r / 65536) (r % 65536) (p.n 12 2)
            (s.homeLoad (gaOf (s.ringPart ring) (p.word 16)) 256)
      | .regionDestroy k => k = ring ∧ code = 1 ∧ used = [] ∧ go = fun r =>
          if s.regions.has r = false ∨ s.regionBusy r = true then none
          else some { s.unlinkRegion (r / 65536) (r % 65536) with
            regions := (s.unlinkRegion (r / 65536) (r % 65536)).regions.erase r }
      | .regionFieldWrite k => k = ring ∧ code = 2 ∧ used = [(12, 2), (16, 8)] ∧
          s.fieldWait (s.ringPart ring * 65536 + p.n 10 2) (p.n 12 2) (p.word 16) = none ∧ go = fun r =>
          if s.regions.has r = false then none else s.setField r (p.n 12 2) (BitVec.ofNat 64 (p.word 16))
      | .mapPages k => k = ring ∧ code = 3 ∧ used = [(16, 8), (24, 4), (28, 1)] ∧ p.word 16 % 65536 = 0 ∧ go = fun r =>
          let vas := (List.range (p.n 24 4)).map fun j => p.word 16 + 65536 * j
          if s.regions.has r = true ∧ (s.part (r / 65536)).ports.contains (p.n 28 1) = true ∧
              (32 ≤ p.n 28 1 → Config.boardPresent = true) ∧ p.word 16 + 65536 * p.n 24 4 ≤ 2 ^ 60 ∧
              (∀ a ∈ vas, (match s.walk (r / 65536) a with | .leaf _ _ _ => false | .fault _ _ => true) = true) ∧
              s.mappedPages (r / 65536) + p.n 24 4 ≤ s.mappable (r / 65536)
          then some (vas.foldl (fun s a => s.mapPage r a (p.n 28 1)) s) else none
      | .unmapPages k => k = ring ∧ code = 4 ∧ used = [(16, 8), (24, 4)] ∧ p.word 16 % 65536 = 0 ∧
          (∀ j, j < p.n 24 4 → s.migrating (gaOf (s.ringPart ring) (p.word 16 + 65536 * j)) = false) ∧ go = fun r =>
          let vas := (List.range (p.n 24 4)).map fun j => p.word 16 + 65536 * j
          if s.regions.has r = true ∧ (∀ a ∈ vas, s.ownerOf (gaOf (r / 65536) a / 512) = some r ∧
              s.hardwarePage r a = false)
          then some (vas.foldl (fun s a => match s.pageAt (gaOf (r / 65536) a) with
            | some (key, _) => (s.surrenderPage key).2
            | none => s) s) else none
      | .grantSectors k => k = ring ∧ code = 5 ∧ used = [(16, 8)] ∧ go = fun r =>
          if s.regions.has r = true ∧ (s.region r).level = 0
          then some (s.reserve r fun g => { g with rsvg := g.rsvg + (p.word 16 : Int) }) else none
      | _ => False) →
    s.Served ring 6 p ((8, 4) :: used) false → p.n 8 2 = code →
    (p.d.priv = true → ∀ o, go (s.ringPart ring * 65536 + p.n 10 2) = o → exec i s = .next (match o with
      | some s1 => s1.consume ring p true
      | none => s.packetFault ring p 6 0)) ∧
    (p.d.priv = false → exec i s = .next (s.packetFault ring p 3 0))) ∧
  ∀ (s : State) (r va port : Nat), va < 2 ^ 60 → va % 65536 = 0 → port < 40 →
    ∃ key x, (s.mapPage r va port).pageAt (gaOf (r / 65536) va) = some (key, x) ∧ x.owner = r ∧ x.home = port ∧
      (∀ j, x.block j = 0) ∧ (Memory.wf s.mem = true → ∀ a, memRead (s.mapPage r va port).mem a =
        if gaOf (r / 65536) va ≤ a ∧ a < gaOf (r / 65536) va + 65536 then 0 else memRead s.mem a)

/-- Balloons: a request posted on a region with none outstanding stands in its control block and sets BALLOON in its
resident teams; at its deadline it completes, with the grant lower by its sectors (R216-R219). Firmware's own
operations on pages, heat, margins and tables: a migration moves the page record to the paired port, once the
directory entries of its lines have room there, and leaves the page's bytes, and a page of the save area or the
counter block stays; a sweep halves a port's heat counters; sampling, margin tables, calendars (from slot 0 on) and
the connection matrix take what firmware writes; a wait for a link that lasts a period of the calendar with no slot
of the partition is recorded (R202, R203, R248, R249, R298-R300, R351-R355, R391, R419). That a migration takes two
events and goes to the first paired port at the event's offset (log 27), where the firmware registers stand in the
management space (log 25), the numbers of the links and which of them a wait is recorded on (log 29), that a wait
counts anew after its record (log 38), and the die and the kind of the privilege record (log 25), are the model's
choices. -/
def Obligations.BalloonsAndFirmwareTables : Prop :=
  ((∀ (s : State) (r seq n d : Nat) (g : Region), Tbl.find? s.regions r = some g → bitsOf g.balloon 63 48 = 0 →
     seq % 65536 ≠ 0 →
     ∃ s' g', exec (.balloonPost r seq n d) s = .next s' ∧ Tbl.find? s'.regions r = some g' ∧
       g' = { g with balloon := g'.balloon, balloonAt := s.clk } ∧ bitsOf g'.balloon 63 48 = seq % 65536 ∧
       bitsOf g'.balloon 47 16 = n % 2 ^ 32 ∧ bitsOf g'.balloon 15 0 = d % 65536 ∧
       ∀ t y, t ∈ s.regionTeams r → Tbl.find? s.teams t = some y → ∃ y', Tbl.find? s'.teams t = some y' ∧
         y'.notice = y.notice ||| 2 ∧
         y' = { y with notice := y'.notice, noticeRose := y'.noticeRose, noticeSet := y'.noticeSet }) ∧
   ∀ (s : State) (r : Nat) (g : Region), Tbl.find? s.regions r = some g → s.balloonDue r = true →
     ∃ s', exec (.balloonDeadline r) s = .next s' ∧
       s'.region r = { g with rsvg := g.rsvg - (bitsOf g.balloon 47 16 : Nat), balloon := 0, balloonAt := 0 } ∧
       s'.mem = s.mem) ∧
  ((∀ (s : State) (part va off key port : Nat) (r : PageRec), s.pageAt (gaOf part va) = some (key, r) →
     ((s.part part).ports.find? fun p => pairedPorts r.home p) = some port → off % 128 = 0 → off < 2 ^ 38 →
     (∀ k ∈ s.pages.keys ++ s.ptes.keys, k < port * 2 ^ 38 + off ∨ port * 2 ^ 38 + off + 1152 ≤ k) →
     (∀ j, j < 128 → entPledged (s.blockEntry (gaOf part (va / 65536 * 65536) / 512 + j)) = false) →
     (∃ pte pk, s.walk part va = .leaf pte 16 pk) →
     (Config.boardPresent = false ∨ s.hardwarePage r.owner (va / 65536 * 65536) = true →
       exec (.migration part va off) s = .next s) ∧
     (Config.boardPresent = true → s.hardwarePage r.owner (va / 65536 * 65536) = false →
       (r.migr = false → ∃ s' r' d, exec (.migration part va off) s = .next s' ∧ Tbl.find? s'.pages key = some r' ∧
         r'.migr = true ∧ r' = { r with word := r'.word } ∧ Tbl.find? s'.migs key = some (off, d) ∧ s.cycle < d ∧
         s'.mem = s.mem) ∧
       (∀ d, r.migr = true → Tbl.find? s.migs key = some (off, d) → d ≤ s.cycle →
         (∀ e ∈ s.dir.keys, e % 2 ^ 64 / 512 = gaOf part (va / 65536 * 65536) / 512 / 128 →
           s.entryWaitAt port (e % 2 ^ 64) = none) →
         let s1 := ({ s with migs := s.migs.erase key } : State).movePage part (va / 65536 * 65536) key port off
           { r with word := setBits r.word 29 29 0 }
         exec (.migration part va off) s = .next s1 ∧ s1.mem = s.mem ∧
           ∃ x, Tbl.find? s1.pages (port * 2 ^ 38 + off) = some x ∧ x.migr = false ∧ x.home = port ∧ x.heat = 0))) ∧
   (∀ (s : State) (port : Nat), ∃ s', exec (.heatSweep port) s = .next s' ∧ s' = { s with pages := s'.pages } ∧
     ∀ k, Tbl.find? s'.pages k = (Tbl.find? s.pages k).map fun r =>
       { r with heat := if k / 2 ^ 38 = port then r.heat / 2 else r.heat }) ∧
   (∀ (s : State) (die : Nat) (xs : List (BitVec 16)), xs.length = 64 → (s.die die).coneAt.toNat + 2000000 ≤ s.clk.toNat →
     exec (.coneSample die xs) s = .next (s.updDie die fun d => { d with cones := xs, coneAt := s.clk })) ∧
   (∀ (s : State) (die : Nat) (h : Option (BitVec 16)) (e : List Nat), ∃ s', exec (.marginPlanInstall die h e) s = .next s' ∧
     s'.die die = { s.die die with margin := (s.die die).margin + 1, hcap := h.getD (s.die die).hcap, energy := e }) ∧
   (∀ (s : State) (link slot : Nat) (v : Byte), State.validLink link = true →
     let l := s.linkAt link
     (s.clk.toNat / 16 % 240 = 0 → ∃ s' l', exec (.gaitSlotStart link) s = .next s' ∧ s'.linkAt link = l' ∧
       l'.pending = [] ∧ (Tbl.wf l.pending = true → ∀ k, l'.cal.get 0 k = (l.pending.find? k).getD (l.cal.get 0 k))) ∧
     (slot < 240 → ∃ s' l', exec (.gaitCalendarWrite link slot v) s = .next s' ∧ s'.linkAt link = l' ∧
       l'.cal = l.cal ∧ ∀ k, l'.pending.find? k = if k = slot then some (v &&& 0x9F) else l.pending.find? k)) ∧
   (∀ (s : State) (link part : Nat) (id : Nat) (m : Msg), Tbl.find? s.msgs id = some m → m.link = some link → m.part = part →
     m.waitFrom + 3840 ≤ s.clk.toNat → s.ownsSlot link part = false →
     ∃ s', exec (.noSlotAlert link part) s = .next s' ∧
       s'.dies = (s.errorRecord (if link < 16 then link / 4 else State.pallumDie (link - 16)) 0 0 1 4 0xFFFF link 0xFFFF).dies ∧
       Tbl.find? s'.msgs id = some { m with waitFrom := s.clk.toNat }) ∧
   (∀ (s : State) (link part a b : Nat), Tbl.find? s.linkWaits (32 * link + part) = some (a, b) → a + 3840 ≤ s.clk.toNat →
     s.ownsSlot link part = false → ∃ s', exec (.noSlotAlert link part) s = .next s' ∧
       s'.dies = (s.errorRecord (if link < 16 then link / 4 else State.pallumDie (link - 16)) 0 0 1 4 0xFFFF link 0xFFFF).dies ∧
       Tbl.find? s'.linkWaits (32 * link + part) = some (s.clk.toNat, b)) ∧
   (∀ (s : State) (rq : Nat) (v : DWord), rq < 48 → s.clusterEmpty rq = true →
     exec (.connectionMatrixWrite rq v) s = .next { s with rq := s.rq.put rq (v &&& 0xFFFFFFFFFF#64) }) ∧
   ∀ (s : State) (off : Nat) (v : DWord), off < 2 ^ 26 →
     (2 ^ 22 ≤ off → exec (.mgmtRegisterWrite true off v) s = .next (s.errorRecord 0 0 0 2 8 0xFFFF off 0xFFFF)) ∧
     (off < 2 ^ 22 → exec (.mgmtRegisterWrite true off v) s = .next { s with mgmt := s.mgmt.store 0 off v }) ∧
     exec (.mgmtRegisterWrite false off v) s = .next (State.mgmtEffect { s with mgmt := s.mgmt.store 0 off v } off v))

/-- What hardware records: the counter block in two steps, SEQ odd between them; a pipe's sample; a trace frame that
goes to the sink or is dropped; a memory error with its poisoned block; a power alarm (R355-R362, R424-R427). The end
of a cycle: the cycle count and CLK rise, CLK by two ticks under a power alarm; every resident team's RUN rises by
one; the second halves of 16-byte stores are performed; and the clusters of dies out of reset that hold a resident
team have their turn. Memory stands where no release may fault, no capture entry or ring descriptor and no half
waits, and no block of TYPE 3 was read; and so do the registers of a team that waits for no sectors (R4, R44, R69,
R200, R260, R358, R422, R427). The code and the die of a power alarm's saddlebag entry (log 17), the two events of a
counter update (log 30), a record's layout within a frame (log 28) and that a die without a sink drops its frames
(log 38) are the model's choices. -/
def Obligations.RecordsAndCycles : Prop :=
  ((∀ (s : State) (r : Nat) (g : Region), Tbl.find? s.regions r = some g → s.effFrom 5 9 r = r →
     (g.cbSeq % 2 = 1 → exec (.counterBlockUpdate r) s = .next (s.endCounters r)) ∧
     (g.cbSeq % 2 = 0 → (g.cbDue = true ∨ g.cbLast.toNat + 2000000 ≤ s.clk.toNat) →
       exec (.counterBlockUpdate r) s = .next (s.startCounters r)) ∧
     (g.counters ≠ 0 → s.counterWait r = none →
       ((s.startCounters r).region r).cbSeq % 2 = 1 ∧ ((s.startCounters r).region r).cbLast = s.clk ∧
       ((s.startCounters r).region r).cbDue = false ∧
       (g.cbSeq % 2 = 1 → ((s.endCounters r).region r).cbSeq = g.cbSeq + 1)) ∧
     (g.counters ≠ 0 → (s.counterWait r).isSome = true →
       (s.startCounters r).mem = s.mem ∧ ((s.startCounters r).region r) = { g with cbDue := true } ∧
       (s.endCounters r).mem = s.mem ∧ ((s.endCounters r).region r) = g)) ∧
   (∀ (s : State) (pipe k tk : Nat) (t : Team), ((s.core (pipe / 4)).pipes.get {} (pipe % 4)).sample = some k →
     ((s.core (pipe / 4)).pipes.get {} (pipe % 4)).issued = false → s.cycle % 2 ^ k = 0 →
     State.oldest ((s.onPipe (pipe / 4) (pipe % 4)).filter fun x => !x.2.halted && !x.2.stopping) = some (tk, t) →
     let w := s.wg t.wg
     let g := s.gang w.gang
     exec (.pipeSample pipe) s = .next ((s.updCore (pipe / 4) fun c =>
       { c with pipes := c.pipes.upd {} (pipe % 4) fun p => { p with issued := false } }).traceAdd (coreDie (pipe / 4))
         [((s.launches.find? g.launch).map (·.lid)).getD 0, g.gangid.toNat, w.wgid, t.teamid, 0]
         (bytesOf 4 (t.lane 0).pc ++ [BitVec.ofNat 8 t.role, BitVec.ofNat 8 (s.stallReason tk)]))) ∧
   (∀ (s : State) (die : Nat) (t : DWord), (s.die die).traceOpen = some t → t.toNat + 20000 ≤ s.clk.toNat →
     ∃ s', exec (.traceFrameClose die) s = .next s' ∧ (s'.die die).trace = [] ∧ (s'.die die).traceOpen = none ∧
       let fr := frameOf die (s.die die)
       match (s.die die).sink with
       | some k =>
         if k.wrote - k.read + fr.length ≤ k.size then
           (s'.die die).sink = some { k with wrote := k.wrote + fr.length } ∧ (s'.die die).drops = (s.die die).drops ∧
             (k.host = true → s'.mem = s.mem ∧ (Memory.wf s.hostMem = true →
               ∀ j, j < fr.length → memRead s'.hostMem (k.addr + (k.wrote + j) % k.size) = fr.getD j 0))
         else (s'.die die).sink = some k ∧ (s'.die die).drops = sat64 ((s.die die).drops + 1) ∧ s'.mem = s.mem
       | none => (s'.die die).drops = sat64 ((s.die die).drops + 1) ∧ s'.mem = s.mem) ∧
   (∀ (s : State) (part va key : Nat) (c : Bool) (syn : BitVec 16) (r : PageRec),
     s.pageAt (gaOf part va) = some (key, r) → exec (.memoryError part va c syn) s = .next
       (let s1 := s.errorRecord (portDie r.home) r.home 0 0 (if c then 1 else 2) syn.toNat va r.regionNo
        if c then s1 else { s1 with poisoned := s1.poisoned.put (gaOf part va / 512) 0 })) ∧
   ∀ s : State, exec .powerAlarm s = .next (State.saddle { s with alarm := true } 0 5 0xFFFF 0 0 0 0 0 0 0) ∧
     exec .powerAlarmClear s = .next { s with alarm := false }) ∧
  (∀ (s : State) (k : Nat) (t : Team), Tbl.find? s.teams k = some t → Tbl.wf s.teams = true →
     let releases := ∃ x ∈ s.teams, ∃ l line va scope w, l < 32 ∧ (x.2.lane l).hold = some (.release line va scope w)
     ∃ s' t', exec .clockCycle s = .next s' ∧ s'.cycle = s.cycle + 1 ∧
       s'.clk = (match s.clkNext with | some v => v | none => State.countUp s.clk (if s.alarm then 2 else 1)) ∧
       s'.clkNext = none ∧ s'.halves = [] ∧ s'.stallsDue = true ∧ s'.turn = 0 ∧
       ((∀ j ∈ s.jobs, j.2.capHeld = []) → (∀ g ∈ s.rings, g.2.image = []) → ¬ releases → s.halves = [] →
         (∀ ga ∈ s.served, ∀ key r, s.pageAt ga = some (key, r) → entType (r.block (ga / 512 % 128)) ≠ 3) → s'.mem = s.mem) ∧
       Tbl.find? s'.teams k = some t' ∧
       (t'.resident = true → (s'.die (coreDie t'.core)).booted = true → coreRq t'.core ∈ s'.todo) ∧
       t'.run = (if t.resident then State.countUp t.run 1 else t.run) ∧
       (¬ releases → (∀ l a w, l < 32 → (t.lane l).hold ≠ some (.ask a w)) → t'.s = t.s ∧
         ((∀ l w, l < 32 → (t.lane l).hold ≠ some (.split w)) → t'.g = t.g)))

/-- Partitions: a set-up that keeps R31 makes the partition with its clusters and ports, activates its keys, creates
its root region with its grant and adds its rings; a teardown without launches first takes rings, regions and keys
away, and once every key slot is empty the partition itself (R31, R301, R302, R421). Identity and resets: a nonce of
32 bytes draws a report of which it is the first part, signed over the digest of bytes 0-215; a die boots where the
image's signature checks, a restart being recorded, and is in reset without a firmware team where it does not; a cold
reset leaves what reset leaves, and a warm one the saddlebag and the error rings as well (R55, R417, R422, R423,
R426). Links: a Pallum link trains where both ends agree, the host interface trains down to 16, 8 or 4 lanes, and the
loss of a package's links ends every collective under way that names it: STATUS 2 is to land in its group record, and
of its destination some bytes (R333, R344, R418, R420, R432). What resets keep (log 64), the firmware team's core,
handler and entry (log 72), the numbers of the links (log 29) and the 64-byte digest under a signature (log 7) are
the model's choices. -/
def Obligations.PartitionsIdentityAndLinks : Prop :=
  ((∀ (s s1 : State) (p : PartSpec) (g : Region), s.partitionOk p = true →
     (s.setUp p).createRegion p.part p.root 0xFFFF p.image = some s1 →
     Tbl.find? s1.regions (p.part * 65536 + p.root) = some g →
     ∃ s' q, exec (.partitionSetup p) s = .next s' ∧ Tbl.find? s'.parts p.part = some q ∧ q.clusters = p.clusters ∧
       q.ports = p.ports ∧ q.expansion = p.expansion ∧ q.accepted = true ∧
       (∀ c ∈ p.clusters, ∀ m, m < 40 → (s'.rq.get 0 c).getLsbD m = p.ports.contains m) ∧
       (∀ x ∈ p.keys, bitsOf (s'.keys.get {} (x.1 * 32 + x.2.1)).word 63 62 = 1) ∧
       (s'.region (p.part * 65536 + p.root)).rsvg = g.rsvg + (p.grant : Int) ∧
       (∀ x ∈ p.rings, ∃ r, Tbl.find? s'.rings x.1 = some r ∧ r.ref.part = p.part) ∧
       s'.mem = s1.mem) ∧
   ∀ (s : State) (part : Nat) (p : Part), Tbl.find? s.parts part = some p → (∀ l ∈ s.launches, l.2.part ≠ part) →
     (p.accepted = true → ∃ s', exec (.partitionTeardown part) s = .next s' ∧
       Tbl.find? s'.parts part = some { p with accepted := false } ∧ (∀ r ∈ s'.rings, r.2.ref.part ≠ part) ∧
       (∀ r ∈ s'.regions, r.1 / 65536 ≠ part) ∧
       (∀ m ∈ p.ports, ∀ k, k < 32 → bitsOf (s'.keys.get {} (m * 32 + k)).word 63 62 ≠ 1) ∧ s'.mem = s.mem) ∧
     (p.accepted = false → (∀ m ∈ p.ports, s.slotsEmpty m = true) →
       ∃ s', exec (.partitionTeardown part) s = .next s' ∧ Tbl.find? s'.parts part = none ∧
         (∀ r ∈ s'.pages, r.2.part ≠ part) ∧ (∀ c ∈ p.clusters, s'.rq.get 0 c = 0) ∧ s'.mem = s.mem)) ∧
  ((∀ (s : State) (part : Nat) (nonce : List Byte), nonce.length = 32 → s.parts.has part = true →
     ∃ s', exec (.attestationRequest part nonce) s = .next s' ∧ s' = { s with report := s'.report } ∧
       s'.report.take 32 = nonce ∧ s'.report =
         s.reportBody part nonce ++ Config.identitySign (shake (s.reportBody part nonce) 64)) ∧
   (∀ (s : State) (die : Nat), die < 4 → ∃ s', exec (.firmwareBoot die) s = .next s' ∧
     if Config.vendorSigned (shake s.firmware 64) s.firmwareSig = true
     then (s'.die die).booted = true ∧ (s'.die die).ran = true ∧ s'.mem = s.mem ∧
       (s'.die die).saddle = (if (s.die die).ran = true then ((s.saddle die 6 0xFFFF 0 0 0 0 0 0 0).die die).saddle
         else (s.die die).saddle) ∧ ∃ k t, Tbl.find? s'.teams k = some t ∧ t.firm = true ∧
       t.resident = true ∧ t.priv = 2 ∧ t.core = 48 * die ∧
       (∀ l, l < 32 → (t.lane l).st = .running ∧ (t.lane l).pc = Config.firmwareEntry) ∧
       ∀ j y, Tbl.find? s'.teams j = some y → y.firm = true → y.core = 48 * die → j = k
     else (s'.die die).booted = false ∧ s'.mem = s.mem ∧
       (∀ j y, Tbl.find? s'.teams j = some y → y.firm = true → y.core ≠ 48 * die) ∧
       (Tbl.wf s.teams = true → ∀ j y, Tbl.find? s.teams j = some y → y.firm = false ∨ y.core ≠ 48 * die →
         Tbl.find? s'.teams j = some y)) ∧
   (∀ (s : State) (image sig : List Byte),
     exec (.firmwareRecoveryLoad image sig) s = .next { s with firmware := image, firmwareSig := sig }) ∧
   (∀ s : State, exec .deviceReset s = .next { State.reset with
     firmware := s.firmware, firmwareSig := s.firmwareSig, hostMem := s.hostMem, msix := s.msix, fresh := s.fresh,
     nextId := s.nextId }) ∧
   ∀ s : State, ∃ s', exec .warmReset s = .next s' ∧ s'.mem = [] ∧ s'.teams = [] ∧ s'.regions = [] ∧ s'.parts = [] ∧
     ∀ d, (s'.die d).saddle = (s.die d).saddle ∧ (s'.die d).errRing = (s.die d).errRing ∧ (s'.die d).booted = false ∧
       (s'.die d).ran = (s.die d).ran) ∧
  ((∀ (s : State) (link lease margin : Nat), ∃ s', exec (.linkTraining link lease margin) s = .next s' ∧
     (18 ≤ link → s' = s) ∧
     (link < 18 → ((s'.linkAt (16 + link)).trained = true ↔ lease = s.leaseLen ∧ margin = s.leaseMargin) ∧
       (s'.linkAt (16 + link)).cal = (s.linkAt (16 + link)).cal ∧ ∀ k, k ≠ 16 + link → s'.linkAt k = s.linkAt k)) ∧
   (∀ (s : State) (n : Nat), n = 16 ∨ n = 8 ∨ n = 4 → n ≤ s.cxlLanes →
     exec (.cxlLaneRetrain n) s = .next { s with cxlLanes := n }) ∧
   ∀ (s : State) (p : Nat), ∃ s', exec (.linkLoss p) s = .next s' ∧ (1024 ≤ p → s' = s) ∧ (p < 1024 → p ∈ s'.lost) ∧
     s'.mem = s.mem ∧
     ((∀ core, ∀ x ∈ (s.core core).copyQ, s.collNames x p = false) → s'.cores = s.cores) ∧
     ∀ (core : Nat) (x : Cmd) (op : Nat) (ty : Ty) (count src dst grp n rank table : Nat) (seq tag : DWord), p < 1024 →
       x ∈ (s.core core).copyQ → (∀ y ∈ (s.core core).copyQ, y.id = x.id → y = x) → s.collNames x p = true →
       x.body = .coll op ty count src dst grp seq n rank tag table →
       let size := count * (ty.width / 8)
       let lands := fun (y : Cmd) (a : Nat) => ((Tbl.find? y.landings (a / 512)).bind fun bs => bs.find? fun z => z.1 == a).map (·.2)
       (∀ j, j < 8 → x.gone.contains ((grp + 24 + j) / 65536) = false → (grp + 24 + j < dst ∨ dst + size ≤ grp + 24 + j) →
         ∃ y, s'.findCmd core x.id = some y ∧ y.st = .landing ∧ lands y (grp + 24 + j) = some ((natBytes 8 2).getD j 0)) ∧
       ∀ y a, s'.findCmd core x.id = some y → (lands y a).isSome = true →
         (grp + 24 ≤ a ∧ a < grp + 32) ∨ (dst ≤ a ∧ a < dst + size))

/-- Checkpoints: a due one halts the job's gangs and, once all are saved, is taken; one that cannot halt them in time
is skipped; a full order log and a capture request make the next due at once; a job that moves waits for its
collectives, sends a marker on each trained link on which its partition has a slot, takes its image once every marker
has come, and records what its channels brought; a replay puts the job's memory blocks back as the checkpoint has
them and CLK is read as it was then (R428-R431). That the order log is the counter of free values, which a replay
puts back (log 20), and that a partition has one job, whose skipped checkpoint keeps its time (log 37), are the
model's choices. -/
def Obligations.Checkpoints : Prop :=
  (∀ (s : State) (job : Nat) (j : Job), Tbl.find? s.jobs job = some j →
    (j.halting = false → s.ckptDue j = true → j.moving = false → exec (.checkpoint job) s = .next (s.ckptHalt job)) ∧
    (j.halting = true → s.ckptReady job = true → (j.moving = true → ∀ x ∈ j.markers, x.2 ≤ s.cycle) → j.pendingCapture = none →
      ∃ s' j' x, exec (.checkpoint job) s = .next s' ∧ Tbl.find? s'.jobs job = some j' ∧ j'.halting = false ∧
        j'.count = j.count + 1 ∧ j'.dirtied = [] ∧ j'.ckpt = some x ∧ x = s.snapOf job j ∧ s'.mem = s.mem ∧
        j'.moving = false ∧ j'.channels = (if j.moving then j.arriving else j.channels) ∧ j'.logFrom = s.fresh) ∧
    (j.halting = false → s.ckptDue j = true → j.moving = true → s.collRunning job = true →
      exec (.checkpoint job) s = .next s) ∧
    (j.halting = true → s.ckptReady job = false → j.lastAt.toNat + j.interval.toNat ≤ s.clk.toNat →
      exec (.checkpoint job) s = .next (s.ckptSkip job)) ∧
    (∃ s', exec (.orderLogFull job) s = .next s' ∧ Tbl.find? s'.jobs job = some { j with forced := true }) ∧
    (∀ ring : CaptureRing, (∀ k ∈ s.jobs, k.2.capture = none ∧ k.2.pendingCapture = none) →
      (ring.host = true ∨ ring.part = job ∧ ∃ x ∈ s.regions, x.1 / 65536 = job ∧ x.2.parent = 0xFFFF ∧
        x.2.globBase.toNat ≤ ring.base ∧ ring.base + ring.size ≤ x.2.globBase.toNat + x.2.globLimit.toNat) →
      ∃ s', exec (.captureEnable job ring) s = .next s' ∧
        Tbl.find? s'.jobs job = some { j with pendingCapture := some ring, forced := true }) ∧
    (j.halting = true → j.moving = true → (∃ x ∈ j.markers, s.cycle < x.2) → s.clk.toNat < j.lastAt.toNat + j.interval.toNat →
      exec (.checkpoint job) s = .next s) ∧
    ∀ xs, ∃ s' m, exec (.jobMove job xs) s = .next s' ∧
      Tbl.find? s'.jobs job = some { j with moving := true, forced := true, markers := m, arriving := xs } ∧
      ∀ k, (Tbl.find? m k = none ↔ ¬ (k < 18 ∧ (s.linkAt (16 + k)).trained = true ∧ s.ownsSlot (16 + k) job = true)) ∧
        ∀ n, Tbl.find? m k = some n → s.cycle < n) ∧
  ∀ (s : State) (job : Nat) (j : Job) (x : Snap) (snapshot : Bool), Tbl.find? s.jobs job = some j →
    (if snapshot then j.capSnap else j.ckpt) = some x → Tbl.wf x.image = true →
    ∃ s', exec (.replay job snapshot) s = .next s' ∧ s'.clk = s.clk ∧ s'.cycle = s.cycle ∧
      s'.fresh = (if snapshot then s.fresh else x.fresh) ∧
      (snapshot = false → x.clk < s.clkSeen job → s.clk.toNat + (s.clkSeen job - x.clk).toNat < 2 ^ 64 →
        s'.clkSeen job = x.clk) ∧
      (∀ k b, Tbl.find? x.image k = some b → s'.homeBlock k = b) ∧
      (∀ a, gaPart a ≠ job → (∀ b ∈ x.image, a / 512 ≠ b.1) → memRead s'.mem a = memRead s.mem a)

/-- Decode and encode agree: the word of a well-formed word instruction decodes to that instruction, with every
operand at every value that its encoding admits (R75-R90). -/
def Obligations.EncodeThenDecode : Prop :=
  ∀ (i : Instr) (w : IWord), i.wf = true → encode i = some w → decode w = .ok i

/-- What the decoder accepts is well formed and, but for a `trap` that names a latch and for LSEL where LEN is 0, is
encoded by the word itself (R82-R93). -/
def Obligations.DecodeGivesWellFormed : Prop :=
  ∀ (w : IWord) (i : Instr), decode w = .ok i → i.wf = true ∧ ∃ o f, i.word? = some (o, f) ∧
    ((∀ l, (o = .trap ∨ o = .trapService) → f.d ≠ .latch l) → (w.getLsbD 56 = true ∨ w.extractLsb' 54 2 = 0) →
      encode i = some w)

/-- Words that hold no instruction are refused, in the order of the checks: an unassigned opcode first, then a set
reserved hint bit or a type code outside the table, whatever the other fields hold; and a group whose word has an
unassigned opcode takes the illegal-instruction exception with sub-cause 0 in the step in which it would issue (R7,
R78, R79, R89, R91, R93). -/
def Obligations.UnassignedAndReservedRefused : Prop :=
  ∀ w : IWord,
    (opcodeOp (w.extractLsb' 86 10) = none → decode w = .error .unassigned) ∧
    (∀ o, opcodeOp (w.extractLsb' 86 10) = some o → w.extractLsb' 70 5 ≠ 0 → decode w = .error .reserved) ∧
    (∀ o, opcodeOp (w.extractLsb' 86 10) = some o → Ty.ofCode (w.extractLsb' 64 6) = none → decode w = .error .reserved) ∧
    (opcodeOp (w.extractLsb' 86 10) = none →
      ∀ (s : State) (k turn : Nat) (todo : List Nat) (t : Team) (pc : Word) (m : Mask) (rest : List (Word × Mask)),
      s.agenda = [] → s.second = none →
      let u := s.gangs.keys.foldl State.stopPending s.countStalls
      u.scan u.todo u.turn = some (todo, turn, k) →
      let s0 : State := { u.passOn todo turn with todo := todo, turn := turn }
      Tbl.find? s0.teams k = some t → State.noticeDue t = false →
      let s1 := s0.updCore t.core fun c =>
        { c with pipes := c.pipes.upd {} t.pipe fun p => { p with last := t.slot } }
      orderGroups t (s1.teamWg k).fpp (s1.ready k) = (pc, m) :: rest → (s1.fetch k pc).1 = .word w →
      ∃ (s' : State) (t' : Team), step s = .next (s'.raise k m pc w { cause := 1, sub := 0, mask := m } true) ∧ s'.mem = s.mem ∧
        Tbl.find? s'.teams k = some t' ∧ t' = { t with lanes := t'.lanes, ahead := t'.ahead } ∧
        ∀ l, l < 32 → (t'.lane l).pc = (t.lane l).pc ∧ (t'.lane l).st = (t.lane l).st ∧
          (t'.lane l).level = (t.lane l).level)

/-- A step takes the oldest event that stands; with none, the group that the pick rules choose issues, after the
cycle's stalls are counted, halts that waited for MASK have taken effect and the barrier arrivals whose turn has come
are made (R358, R373, R408), and the step is the decoded instruction's meaning in a state that holds the group at its
port; and a word that no loop buffer, fetch copy or fetch ahead holds is the twelve bytes at its address (R40, R44,
R74, R92, R200). That a step takes the oldest event of the agenda before any group issues is the model's order (log
2). -/
def Obligations.StepRunsDecoded : Prop :=
  (∀ (s : State) (i : Instr) (rest : List Instr), s.agenda = i :: rest →
    step s = exec i { s with agenda := rest, issue := none }) ∧
  (∀ (s : State) (k turn : Nat) (todo : List Nat) (t : Team) (pc : Word) (m : Mask) (rest : List (Word × Mask))
      (w : IWord) (i : Instr),
    s.agenda = [] → s.second = none →
    let u := s.gangs.keys.foldl State.stopPending s.countStalls
    u.scan u.todo u.turn = some (todo, turn, k) →
    let s0 : State := { u.passOn todo turn with todo := todo, turn := turn }
    Tbl.find? s0.teams k = some t → State.noticeDue t = false →
    let s1 := s0.updCore t.core fun c =>
      { c with pipes := c.pipes.upd {} t.pipe fun p => { p with last := t.slot } }
    orderGroups t (s1.teamWg k).fpp (s1.ready k) = (pc, m) :: rest →
    (s1.fetch k pc).1 = .word w → decode w = .ok i →
    ∃ s' t', step s = exec i s' ∧ s'.issue = some { team := k, lanes := m, pc := pc, word := w, port := 1 } ∧
      s'.mem = s.mem ∧ s'.agenda = [] ∧ Tbl.find? s'.teams k = some t' ∧
      t' = { t with lanes := t'.lanes, ahead := t'.ahead } ∧
      ∀ l, l < 32 → (t'.lane l).pc = (t.lane l).pc ∧ (t'.lane l).st = (t.lane l).st ∧
        (t'.lane l).level = (t.lane l).level) ∧
  ∀ (s : State) (k : Nat) (t : Team) (pc : Word) (h : CodeHdr), Tbl.find? s.teams k = some t → s.loopWord k pc = none →
    (∀ x ∈ t.ahead, x.1 ≠ pc) →
    let part := s.teamPart k
    let va := s.codeOf k + 12 * pc.toNat
    let ga := gaOf part va
    t.firm = false → s.codes.find? (gaOf part (s.codeOf k)) = some h → pc.toNat < h.count →
    (s.fetchPage t.core part va).1 = none → ((s.fetchPage t.core part va).2.fetchPage t.core part (va + 11)).1 = none →
    (∀ line, ga / 128 ≤ line → line ≤ (ga + 11) / 128 → (s.core t.core).fcopy.find? line = none) →
    (s.fetch k pc).1 = .word (wordOfBytes (s.homeLoad ga 12))

/-- From reset with a word placed where the next instruction is fetched, the next step runs exactly that word's
instruction, in all 32 lanes at PC 0 (model: log 1). That a word is placed from outside the machine is the model's
choice (log 1). -/
def Obligations.LoadedWordRuns : Prop :=
  ∀ (w : IWord) (i : Instr), decode w = .ok i → decodeTableWord 96 w.toNat = some i ∧
    ∃ s', step (State.reset.withFetchWord 96 w.toNat) = exec i s' ∧
      s'.issue = some { team := 0, lanes := BitVec.allOnes 32, pc := 0, word := w, port := 1 } ∧
      memReadBytes s'.mem loadVa 12 = bytesOfWord w

/-- No run ends: from every state on whose agenda only events stand, a step answers a next state, on whose agenda
only events stand. The spec's faults are next states, and ordinary data end no run (R28, R92, R397-R403). -/
def Obligations.EveryStepGoesOn : Prop :=
  ∀ s : State, s.Orderly → ∃ s', step s = .next s' ∧ s'.Orderly

/-- Every step keeps main memory and host memory in canonical form, so that equal memories are equal data. The form
and the value of an unwritten byte are the model's (log 8). -/
def Obligations.MemoryStaysCanonical : Prop :=
  ∀ s s' : State, s.Canonical → step s = .next s' → s'.Canonical

/-- The invariants hold at reset. After a device reset CLK is 0, no team is resident, no workgroup, gang, launch or
region is there, no key slot is filled, and no die holds a copy of a line (R55, R66, R244, R301); and the machine
then only counts cycles: its first step ends a cycle (model: log 1). That memory which nothing has written reads 0 is
the model's choice where no rule maps it (log 8). -/
def Obligations.ResetState : Prop :=
  (State.reset.Canonical ∧ State.reset.Orderly) ∧
  (State.reset.clk = 0 ∧ (∀ k t, Tbl.find? State.reset.teams k = some t → t.resident = false) ∧
   (∀ k, Tbl.find? State.reset.wgs k = none) ∧ (∀ k, Tbl.find? State.reset.gangs k = none) ∧
   (∀ k, Tbl.find? State.reset.regions k = none) ∧ (∀ k, Tbl.find? State.reset.launches k = none) ∧
   (∀ k, (State.reset.keys.get {} k).word = 0) ∧ (∀ k, Tbl.find? State.reset.copies k = none) ∧
   (∀ a, memRead State.reset.mem a = 0) ∧ step State.reset = exec .clockCycle State.reset)

/-- Integer arithmetic: an unsaturated result is the exact one modulo 2^n and a saturated one the nearest value of
the type; and quotient and remainder recover the dividend, the remainder smaller than the divisor and of the
dividend's sign, but for a divisor of 0, which gives all ones and the dividend (R104, R110). -/
def Obligations.IntegerLaws : Prop :=
  (∀ (ty : Ty) (x : Int), 0 < ty.width →
    let n := ty.width
    let val := fun (y : Nat) => if ty.isS then toS n y else (y : Int)
    let lo : Int := if ty.isS then -((2 ^ (n - 1) : Nat) : Int) else 0
    let hi : Int := if ty.isS then ((2 ^ (n - 1) : Nat) : Int) - 1 else ((2 ^ n : Nat) : Int) - 1
    deliver ty false x < 2 ^ n ∧ ((deliver ty false x : Nat) : Int) % ((2 ^ n : Nat) : Int) = x % ((2 ^ n : Nat) : Int) ∧
    val (deliver ty true x) = max lo (min hi x)) ∧
  ∀ (ty : Ty) (sat : Bool) (a b : Int), 0 < ty.width →
    let n := ty.width
    let val := fun (y : Nat) => if ty.isS then toS n y else (y : Int)
    let lo : Int := if ty.isS then -((2 ^ (n - 1) : Nat) : Int) else 0
    let hi : Int := if ty.isS then ((2 ^ (n - 1) : Nat) : Int) - 1 else ((2 ^ n : Nat) : Int) - 1
    lo ≤ a → a ≤ hi → lo ≤ b → b ≤ hi →
    let q := val (divRem ty sat a b).1
    let r := val (divRem ty sat a b).2
    (b = 0 → (divRem ty sat a b).1 = 2 ^ n - 1 ∧ r = a) ∧
    (b ≠ 0 → ¬(ty.isS = true ∧ a = lo ∧ b = -1) →
      q * b + r = a ∧ r.natAbs < b.natAbs ∧ (r = 0 ∨ (0 ≤ r ↔ 0 ≤ a))) ∧
    (ty.isS = true → a = lo → b = -1 → q = (if sat then hi else lo) ∧ r = 0)

/-- The words that the spec works out bit by bit decode to the instructions that they stand for (R75-R90). -/
def Obligations.DecodedWords : Prop :=
  decode 0x071C_0007_0828_2000_5002_0000 = .ok (.cmp { ty := .n32, q := 2, d := .reg (.g 1), a := .v 1, b := .s 4 }) ∧
  decode 0x2008_2000_0C00_0000_3FFF_FFF5 = .ok (.bra { h := { gpred := 2, yld := true }, imm := 0xFFFF_FFF5 }) ∧
  decode 0x231C_0000_0028_6000_0000_67FF = .ok (.elect { d := .reg (.g 3), c := .int 0x7FF }) ∧
  decode 0x4144_100E_0141_3000_3400_0000 =
    .ok (.fmax { h := { gpred := 1, chain := true }, ty := .f32, d := .both (.v 9) 1, a := .latch 0, b := .flt 0 }) ∧
  decode 0x6004_100F_0380_1000_4000_760E =
    .ok (.cvt { h := { gpred := 1, chain := true }, ty := .bf16, d := .latch 2, a := .latch 1, c := .ty .f32 }) ∧
  decode 0x8044_100A_0000_0802_0002_4002 =
    .ok (.st { h := { gpred := 1, chain := true }, ty := .b16, a := .s 8, b := .v 4, c := .latch 2 }) ∧
  decode 0x829C_000F_0020_A802_7000_0006 =
    .ok (.stSparse { ty := .bf16, d := .reg (.s 5), a := .s 9, b := .int 0, c := .v 6 }) ∧
  decode 0x811C_0000_9000_0800_B000_0000 = .ok (.acq { q := 0x24, a := .s 2, b := .int 0 }) ∧
  decode 0xA01C_0000_0800_08B2_9122_6001 =
    .ok (.copy { q := 2, a := .pair 10 11, b := .pair 4 9, c := .int 1 }) ∧
  decode 0xA1DC_000F_0000_08B2_91A6_6000 =
    .ok (.mma { ty := .bf16, a := .pair 10 11, b := .pair 12 13, c := .int 0 }) ∧
  decode 0xC09C_0000_4000_1810_3000_6001 = .ok (.pbarArrive { q := 0x10, a := .int 64, b := .int 0, c := .int 1 }) ∧
  decode 0xC39C_0000_0000_0805_8000_0000 = .ok (.noticeAckBalloon { a := .s 22 })
end

