-- ==== Sys2Proof/Laws/Table.lean ====
section
/-!
SUPPORT. What reading a table gives after a write, and that every table and memory operation keeps the canonical form.
-/

namespace Sys2Proof.Machine

variable {α : Type}

@[simp] theorem Tbl.find?_nil (k : Nat) : Tbl.find? ([] : Tbl α) k = none := rfl
theorem Tbl.find?_cons (j : Nat) (a : α) (m : Tbl α) (k : Nat) :
    Tbl.find? ((j, a) :: m) k = if j = k then some a else Tbl.find? m k := rfl
@[simp] theorem Tbl.find?_cons_self (k : Nat) (a : α) (m : Tbl α) : Tbl.find? ((k, a) :: m) k = some a := by
  simp [Tbl.find?_cons]

/-- Reading after a write. -/
theorem Tbl.find?_put (m : Tbl α) (k j : Nat) (a : α) :
    Tbl.find? (m.put k a) j = if k = j then some a else Tbl.find? m j := by
  induction m with
  | nil => simp [Tbl.put, Tbl.find?_cons]
  | cons x m ih =>
    obtain ⟨i, b⟩ := x
    simp only [Tbl.put]
    split
    · simp [Tbl.find?_cons]
    · split
      · subst_vars; simp only [Tbl.find?_cons]; split <;> rfl
      · simp only [Tbl.find?_cons, ih]
        split <;> split <;> simp_all

@[simp] theorem Tbl.find?_put_self (m : Tbl α) (k : Nat) (a : α) : Tbl.find? (m.put k a) k = some a := by
  simp [Tbl.find?_put]
theorem Tbl.find?_put_ne (m : Tbl α) {k j : Nat} (h : k ≠ j) (a : α) :
    Tbl.find? (m.put k a) j = Tbl.find? m j := by simp [Tbl.find?_put, h]

/-- Reading after a removal. -/
theorem Tbl.find?_erase (m : Tbl α) (k j : Nat) :
    Tbl.find? (m.erase k) j = if k = j then none else Tbl.find? m j := by
  induction m with
  | nil => simp [Tbl.erase]
  | cons x m ih =>
    obtain ⟨i, b⟩ := x
    simp only [Tbl.erase]
    split
    · subst_vars; rw [ih]; simp only [Tbl.find?_cons]; split <;> simp_all
    · simp only [Tbl.find?_cons, ih]; split <;> split <;> simp_all

@[simp] theorem Tbl.get_put_self (d : α) (m : Tbl α) (k : Nat) (a : α) : Tbl.get d (m.put k a) k = a := by
  simp [Tbl.get]
theorem Tbl.get_put (d : α) (m : Tbl α) (k j : Nat) (a : α) :
    Tbl.get d (m.put k a) j = if k = j then a else Tbl.get d m j := by
  simp only [Tbl.get, Tbl.find?_put]; split <;> rfl
theorem Tbl.get_erase (d : α) (m : Tbl α) (k j : Nat) :
    Tbl.get d (m.erase k) j = if k = j then d else Tbl.get d m j := by
  simp only [Tbl.get, Tbl.find?_erase]; split <;> rfl

/-- Reading after a write that may remove. -/
theorem Tbl.get_store [DecidableEq α] (d : α) (m : Tbl α) (k j : Nat) (a : α) :
    Tbl.get d (Tbl.store d m k a) j = if k = j then a else Tbl.get d m j := by
  unfold Tbl.store
  split
  · subst_vars; exact Tbl.get_erase ..
  · exact Tbl.get_put ..
@[simp] theorem Tbl.get_store_self [DecidableEq α] (d : α) (m : Tbl α) (k : Nat) (a : α) :
    Tbl.get d (Tbl.store d m k a) k = a := by simp [Tbl.get_store]

/-- Reading after a change of one entry. -/
theorem Tbl.find?_updIf (m : Tbl α) (k j : Nat) (f : α → α) :
    Tbl.find? (m.updIf k f) j = if k = j then (Tbl.find? m j).map f else Tbl.find? m j := by
  unfold Tbl.updIf
  cases h : Tbl.find? m k with
  | none => dsimp only; split <;> simp_all
  | some a => dsimp only; rw [Tbl.find?_put]; split <;> simp_all
theorem Tbl.get_upd (d : α) (m : Tbl α) (k j : Nat) (f : α → α) :
    Tbl.get d (m.upd d k f) j = if k = j then f (Tbl.get d m j) else Tbl.get d m j := by
  unfold Tbl.upd; rw [Tbl.get_put]; split <;> simp_all
@[simp] theorem Tbl.updIf_id (m : Tbl α) (k : Nat) (f : α → α) (h : Tbl.find? m k = none) : m.updIf k f = m := by
  simp [Tbl.updIf, h]

/-! The canonical form. -/

theorem Tbl.wfFrom_mono {lo lo' : Nat} (h : lo' ≤ lo) {m : Tbl α} (w : Tbl.wfFrom lo m = true) :
    Tbl.wfFrom lo' m = true := by
  cases m with
  | nil => rfl
  | cons x m => simp only [Tbl.wfFrom, Bool.and_eq_true, decide_eq_true_eq] at *; exact ⟨by omega, w.2⟩

theorem Tbl.wfFrom_put (m : Tbl α) (k lo : Nat) (a : α) (h : lo ≤ k) (w : Tbl.wfFrom lo m = true) :
    Tbl.wfFrom lo (m.put k a) = true := by
  induction m generalizing lo with
  | nil => simp [Tbl.put, Tbl.wfFrom, h]
  | cons x m ih =>
    obtain ⟨j, b⟩ := x
    simp only [Tbl.wfFrom, Bool.and_eq_true, decide_eq_true_eq] at w
    simp only [Tbl.put]
    split
    · simp only [Tbl.wfFrom, Bool.and_eq_true, decide_eq_true_eq]
      exact ⟨h, by omega, w.2⟩
    · split
      · subst_vars; simp only [Tbl.wfFrom, Bool.and_eq_true, decide_eq_true_eq]; exact ⟨h, w.2⟩
      · simp only [Tbl.wfFrom, Bool.and_eq_true, decide_eq_true_eq]
        exact ⟨w.1, ih (j + 1) (by omega) w.2⟩

theorem Tbl.wfFrom_erase (m : Tbl α) (k lo : Nat) (w : Tbl.wfFrom lo m = true) :
    Tbl.wfFrom lo (m.erase k) = true := by
  induction m generalizing lo with
  | nil => rfl
  | cons x m ih =>
    obtain ⟨j, b⟩ := x
    simp only [Tbl.wfFrom, Bool.and_eq_true, decide_eq_true_eq] at w
    simp only [Tbl.erase]
    split
    · exact Tbl.wfFrom_mono (by omega) (ih (j + 1) w.2)
    · simp only [Tbl.wfFrom, Bool.and_eq_true, decide_eq_true_eq]; exact ⟨w.1, ih _ w.2⟩

theorem Tbl.wfFrom_filter (m : Tbl α) (p : Nat × α → Bool) (lo : Nat) (w : Tbl.wfFrom lo m = true) :
    Tbl.wfFrom lo (m.filter p) = true := by
  induction m generalizing lo with
  | nil => rfl
  | cons x m ih =>
    simp only [Tbl.wfFrom, Bool.and_eq_true, decide_eq_true_eq] at w
    rw [List.filter_cons]
    split
    · simp only [Tbl.wfFrom, Bool.and_eq_true, decide_eq_true_eq]; exact ⟨w.1, ih _ w.2⟩
    · exact Tbl.wfFrom_mono (by omega) (ih _ w.2)

theorem Tbl.wf_put (m : Tbl α) (k : Nat) (a : α) (w : m.wf = true) : (m.put k a).wf = true :=
  Tbl.wfFrom_put m k 0 a (Nat.zero_le k) w
theorem Tbl.wf_erase (m : Tbl α) (k : Nat) (w : m.wf = true) : (m.erase k).wf = true := Tbl.wfFrom_erase m k 0 w
theorem Tbl.wf_filter (m : Tbl α) (p : Nat × α → Bool) (w : m.wf = true) : Tbl.wf (m.filter p) = true :=
  Tbl.wfFrom_filter m p 0 w

theorem Tbl.mem_put (m : Tbl α) (k : Nat) (a : α) (x : Nat × α) (h : x ∈ m.put k a) : x = (k, a) ∨ x ∈ m := by
  induction m with
  | nil => simpa [Tbl.put] using h
  | cons y m ih =>
    obtain ⟨j, b⟩ := y
    simp only [Tbl.put] at h
    split at h
    · simp only [List.mem_cons] at h ⊢; tauto
    · split at h
      · simp only [List.mem_cons] at h ⊢; tauto
      · simp only [List.mem_cons] at h ⊢
        rcases h with h | h
        · exact .inr (.inl h)
        · rcases ih h with h | h
          · exact .inl h
          · exact .inr (.inr h)

theorem Tbl.mem_erase (m : Tbl α) (k : Nat) (x : Nat × α) (h : x ∈ m.erase k) : x ∈ m := by
  induction m with
  | nil => simp [Tbl.erase] at h
  | cons y m ih =>
    obtain ⟨j, b⟩ := y
    simp only [Tbl.erase] at h
    split at h
    · exact List.mem_cons_of_mem _ (ih h)
    · simp only [List.mem_cons] at h ⊢
      rcases h with h | h
      · exact .inl h
      · exact .inr (ih h)

/-! Memory. -/

theorem Memory.wf_nil : Memory.wf [] = true := rfl

/-- A byte read after a byte written. -/
theorem memRead_memWrite (m : List Host.Cell) (a b : Nat) (x : Byte) :
    memRead (memWrite m a x) b = if a = b then x else memRead m b := Tbl.get_store ..

theorem Memory.wf_memWrite (m : List Host.Cell) (a : Nat) (x : Byte) (w : Memory.wf m = true) :
    Memory.wf (memWrite m a x) = true := by
  simp only [Memory.wf, Bool.and_eq_true, List.all_eq_true] at *
  unfold memWrite Tbl.store
  split
  · exact ⟨Tbl.wf_erase m a w.1, fun c h => w.2 c (Tbl.mem_erase m a c h)⟩
  · rename_i hx
    refine ⟨Tbl.wf_put m a x w.1, fun c h => ?_⟩
    rcases Tbl.mem_put m a x c h with rfl | h
    · simpa using hx
    · exact w.2 c h

theorem Memory.wf_memWriteBytes (bs : List Byte) (m : List Host.Cell) (a : Nat) (w : Memory.wf m = true) :
    Memory.wf (memWriteBytes m a bs) = true := by
  induction bs generalizing m a with
  | nil => exact w
  | cons b bs ih => exact ih _ _ (Memory.wf_memWrite m a b w)

theorem Memory.wf_filter (m : List Host.Cell) (p : Host.Cell → Bool) (w : Memory.wf m = true) :
    Memory.wf (m.filter p) = true := by
  simp only [Memory.wf, Bool.and_eq_true, List.all_eq_true] at *
  exact ⟨Tbl.wf_filter m p w.1, fun c h => w.2 c (List.mem_filter.mp h).1⟩

/-- A byte outside the bytes written reads as before. -/
theorem memRead_memWriteBytes_out (bs : List Byte) (m : List Host.Cell) (a b : Nat) (h : b < a ∨ a + bs.length ≤ b) :
    memRead (memWriteBytes m a bs) b = memRead m b := by
  induction bs generalizing m a with
  | nil => rfl
  | cons x bs ih =>
    simp only [List.length_cons] at h
    rw [memWriteBytes, ih _ _ (by omega), memRead_memWrite, if_neg (by omega)]

/-- A byte among the bytes written reads as its byte. -/
theorem memRead_memWriteBytes_in (bs : List Byte) (m : List Host.Cell) (a i : Nat) (h : i < bs.length) :
    memRead (memWriteBytes m a bs) (a + i) = bs[i] := by
  induction bs generalizing m a i with
  | nil => simp at h
  | cons x bs ih =>
    rw [memWriteBytes]
    cases i with
    | zero => rw [memRead_memWriteBytes_out _ _ _ _ (by omega), memRead_memWrite]; simp
    | succ i =>
      have := ih (memWrite m a x) (a + 1) i (by simpa using h)
      simpa [Nat.add_assoc, Nat.add_comm 1 i] using this

/-- Bytes written are the bytes read back. -/
theorem memReadBytes_memWriteBytes (bs : List Byte) (m : List Host.Cell) (a : Nat) :
    memReadBytes (memWriteBytes m a bs) a bs.length = bs := by
  apply List.ext_getElem
  · simp [memReadBytes]
  · intro i h1 h2
    simp only [memReadBytes, List.getElem_map, List.getElem_range]
    exact memRead_memWriteBytes_in bs m a i h2

end Sys2Proof.Machine
end

