-- ==== Sys2Proof/Laws/State.lean ====
section
/-!
SUPPORT. One lemma per field per update of the state, and what the accessors read after an update.
-/

namespace Sys2Proof.Machine.State

variable (s : State)

/-! `updTeam` changes `teams` alone. -/

@[simp] theorem updTeam_clk (k : Nat) (f : Team → Team) : (s.updTeam k f).clk = s.clk := rfl
@[simp] theorem updTeam_cycle (k : Nat) (f : Team → Team) : (s.updTeam k f).cycle = s.cycle := rfl
@[simp] theorem updTeam_agenda (k : Nat) (f : Team → Team) : (s.updTeam k f).agenda = s.agenda := rfl
@[simp] theorem updTeam_fresh (k : Nat) (f : Team → Team) : (s.updTeam k f).fresh = s.fresh := rfl
@[simp] theorem updTeam_nextId (k : Nat) (f : Team → Team) : (s.updTeam k f).nextId = s.nextId := rfl
@[simp] theorem updTeam_issue (k : Nat) (f : Team → Team) : (s.updTeam k f).issue = s.issue := rfl
@[simp] theorem updTeam_second (k : Nat) (f : Team → Team) : (s.updTeam k f).second = s.second := rfl
@[simp] theorem updTeam_wgs (k : Nat) (f : Team → Team) : (s.updTeam k f).wgs = s.wgs := rfl
@[simp] theorem updTeam_gangs (k : Nat) (f : Team → Team) : (s.updTeam k f).gangs = s.gangs := rfl
@[simp] theorem updTeam_launches (k : Nat) (f : Team → Team) : (s.updTeam k f).launches = s.launches := rfl
@[simp] theorem updTeam_regions (k : Nat) (f : Team → Team) : (s.updTeam k f).regions = s.regions := rfl
@[simp] theorem updTeam_parts (k : Nat) (f : Team → Team) : (s.updTeam k f).parts = s.parts := rfl
@[simp] theorem updTeam_cores (k : Nat) (f : Team → Team) : (s.updTeam k f).cores = s.cores := rfl
@[simp] theorem updTeam_clusters (k : Nat) (f : Team → Team) : (s.updTeam k f).clusters = s.clusters := rfl
@[simp] theorem updTeam_dies (k : Nat) (f : Team → Team) : (s.updTeam k f).dies = s.dies := rfl
@[simp] theorem updTeam_codes (k : Nat) (f : Team → Team) : (s.updTeam k f).codes = s.codes := rfl
@[simp] theorem updTeam_ptes (k : Nat) (f : Team → Team) : (s.updTeam k f).ptes = s.ptes := rfl
@[simp] theorem updTeam_pages (k : Nat) (f : Team → Team) : (s.updTeam k f).pages = s.pages := rfl
@[simp] theorem updTeam_mem (k : Nat) (f : Team → Team) : (s.updTeam k f).mem = s.mem := rfl
@[simp] theorem updTeam_hostMem (k : Nat) (f : Team → Team) : (s.updTeam k f).hostMem = s.hostMem := rfl
@[simp] theorem updTeam_msgs (k : Nat) (f : Team → Team) : (s.updTeam k f).msgs = s.msgs := rfl
@[simp] theorem updTeam_loads (k : Nat) (f : Team → Team) : (s.updTeam k f).loads = s.loads := rfl
@[simp] theorem updTeam_syncs (k : Nat) (f : Team → Team) : (s.updTeam k f).syncs = s.syncs := rfl
@[simp] theorem updTeam_leases (k : Nat) (f : Team → Team) : (s.updTeam k f).leases = s.leases := rfl
@[simp] theorem updTeam_keys (k : Nat) (f : Team → Team) : (s.updTeam k f).keys = s.keys := rfl
@[simp] theorem updTeam_cmdPledges (k : Nat) (f : Team → Team) : (s.updTeam k f).cmdPledges = s.cmdPledges := rfl
@[simp] theorem updTeam_rings (k : Nat) (f : Team → Team) : (s.updTeam k f).rings = s.rings := rfl
@[simp] theorem updTeam_jobs (k : Nat) (f : Team → Team) : (s.updTeam k f).jobs = s.jobs := rfl
@[simp] theorem updTeam_alarm (k : Nat) (f : Team → Team) : (s.updTeam k f).alarm = s.alarm := rfl
@[simp] theorem updTeam_clkNext (k : Nat) (f : Team → Team) : (s.updTeam k f).clkNext = s.clkNext := rfl
@[simp] theorem updTeam_todo (k : Nat) (f : Team → Team) : (s.updTeam k f).todo = s.todo := rfl
@[simp] theorem updTeam_turn (k : Nat) (f : Team → Team) : (s.updTeam k f).turn = s.turn := rfl
@[simp] theorem updTeam_poisoned (k : Nat) (f : Team → Team) : (s.updTeam k f).poisoned = s.poisoned := rfl
@[simp] theorem updTeam_dir (k : Nat) (f : Team → Team) : (s.updTeam k f).dir = s.dir := rfl
@[simp] theorem updTeam_copies (k : Nat) (f : Team → Team) : (s.updTeam k f).copies = s.copies := rfl
@[simp] theorem updTeam_keyCopies (k : Nat) (f : Team → Team) : (s.updTeam k f).keyCopies = s.keyCopies := rfl
@[simp] theorem updTeam_rq (k : Nat) (f : Team → Team) : (s.updTeam k f).rq = s.rq := rfl
@[simp] theorem updTeam_links (k : Nat) (f : Team → Team) : (s.updTeam k f).links = s.links := rfl
@[simp] theorem updTeam_pallum (k : Nat) (f : Team → Team) : (s.updTeam k f).pallum = s.pallum := rfl
@[simp] theorem updTeam_rot (k : Nat) (f : Team → Team) : (s.updTeam k f).rot = s.rot := rfl
@[simp] theorem updTeam_msix (k : Nat) (f : Team → Team) : (s.updTeam k f).msix = s.msix := rfl
@[simp] theorem updTeam_leaseLen (k : Nat) (f : Team → Team) : (s.updTeam k f).leaseLen = s.leaseLen := rfl
@[simp] theorem updTeam_leaseMargin (k : Nat) (f : Team → Team) : (s.updTeam k f).leaseMargin = s.leaseMargin := rfl
@[simp] theorem updTeam_cxlLanes (k : Nat) (f : Team → Team) : (s.updTeam k f).cxlLanes = s.cxlLanes := rfl
@[simp] theorem updTeam_lost (k : Nat) (f : Team → Team) : (s.updTeam k f).lost = s.lost := rfl
@[simp] theorem updTeam_collGone (k : Nat) (f : Team → Team) : (s.updTeam k f).collGone = s.collGone := rfl
@[simp] theorem updTeam_mgmt (k : Nat) (f : Team → Team) : (s.updTeam k f).mgmt = s.mgmt := rfl
@[simp] theorem updTeam_breaks (k : Nat) (f : Team → Team) : (s.updTeam k f).breaks = s.breaks := rfl
@[simp] theorem updTeam_migs (k : Nat) (f : Team → Team) : (s.updTeam k f).migs = s.migs := rfl
@[simp] theorem updTeam_report (k : Nat) (f : Team → Team) : (s.updTeam k f).report = s.report := rfl
@[simp] theorem updTeam_firmware (k : Nat) (f : Team → Team) : (s.updTeam k f).firmware = s.firmware := rfl
@[simp] theorem updTeam_firmwareSig (k : Nat) (f : Team → Team) : (s.updTeam k f).firmwareSig = s.firmwareSig := rfl
@[simp] theorem updTeam_stallsDue (k : Nat) (f : Team → Team) : (s.updTeam k f).stallsDue = s.stallsDue := rfl
@[simp] theorem updTeam_linkWaits (k : Nat) (f : Team → Team) : (s.updTeam k f).linkWaits = s.linkWaits := rfl
@[simp] theorem updTeam_halves (k : Nat) (f : Team → Team) : (s.updTeam k f).halves = s.halves := rfl
@[simp] theorem updTeam_served (k : Nat) (f : Team → Team) : (s.updTeam k f).served = s.served := rfl
@[simp] theorem updTeam_collBad (k : Nat) (f : Team → Team) : (s.updTeam k f).collBad = s.collBad := rfl

/-! `updWg` changes `wgs` alone. -/

@[simp] theorem updWg_clk (k : Nat) (f : Wg → Wg) : (s.updWg k f).clk = s.clk := rfl
@[simp] theorem updWg_cycle (k : Nat) (f : Wg → Wg) : (s.updWg k f).cycle = s.cycle := rfl
@[simp] theorem updWg_agenda (k : Nat) (f : Wg → Wg) : (s.updWg k f).agenda = s.agenda := rfl
@[simp] theorem updWg_fresh (k : Nat) (f : Wg → Wg) : (s.updWg k f).fresh = s.fresh := rfl
@[simp] theorem updWg_nextId (k : Nat) (f : Wg → Wg) : (s.updWg k f).nextId = s.nextId := rfl
@[simp] theorem updWg_issue (k : Nat) (f : Wg → Wg) : (s.updWg k f).issue = s.issue := rfl
@[simp] theorem updWg_second (k : Nat) (f : Wg → Wg) : (s.updWg k f).second = s.second := rfl
@[simp] theorem updWg_teams (k : Nat) (f : Wg → Wg) : (s.updWg k f).teams = s.teams := rfl
@[simp] theorem updWg_gangs (k : Nat) (f : Wg → Wg) : (s.updWg k f).gangs = s.gangs := rfl
@[simp] theorem updWg_launches (k : Nat) (f : Wg → Wg) : (s.updWg k f).launches = s.launches := rfl
@[simp] theorem updWg_regions (k : Nat) (f : Wg → Wg) : (s.updWg k f).regions = s.regions := rfl
@[simp] theorem updWg_parts (k : Nat) (f : Wg → Wg) : (s.updWg k f).parts = s.parts := rfl
@[simp] theorem updWg_cores (k : Nat) (f : Wg → Wg) : (s.updWg k f).cores = s.cores := rfl
@[simp] theorem updWg_clusters (k : Nat) (f : Wg → Wg) : (s.updWg k f).clusters = s.clusters := rfl
@[simp] theorem updWg_dies (k : Nat) (f : Wg → Wg) : (s.updWg k f).dies = s.dies := rfl
@[simp] theorem updWg_codes (k : Nat) (f : Wg → Wg) : (s.updWg k f).codes = s.codes := rfl
@[simp] theorem updWg_ptes (k : Nat) (f : Wg → Wg) : (s.updWg k f).ptes = s.ptes := rfl
@[simp] theorem updWg_pages (k : Nat) (f : Wg → Wg) : (s.updWg k f).pages = s.pages := rfl
@[simp] theorem updWg_mem (k : Nat) (f : Wg → Wg) : (s.updWg k f).mem = s.mem := rfl
@[simp] theorem updWg_hostMem (k : Nat) (f : Wg → Wg) : (s.updWg k f).hostMem = s.hostMem := rfl
@[simp] theorem updWg_msgs (k : Nat) (f : Wg → Wg) : (s.updWg k f).msgs = s.msgs := rfl
@[simp] theorem updWg_loads (k : Nat) (f : Wg → Wg) : (s.updWg k f).loads = s.loads := rfl
@[simp] theorem updWg_syncs (k : Nat) (f : Wg → Wg) : (s.updWg k f).syncs = s.syncs := rfl
@[simp] theorem updWg_leases (k : Nat) (f : Wg → Wg) : (s.updWg k f).leases = s.leases := rfl
@[simp] theorem updWg_keys (k : Nat) (f : Wg → Wg) : (s.updWg k f).keys = s.keys := rfl
@[simp] theorem updWg_cmdPledges (k : Nat) (f : Wg → Wg) : (s.updWg k f).cmdPledges = s.cmdPledges := rfl
@[simp] theorem updWg_rings (k : Nat) (f : Wg → Wg) : (s.updWg k f).rings = s.rings := rfl
@[simp] theorem updWg_jobs (k : Nat) (f : Wg → Wg) : (s.updWg k f).jobs = s.jobs := rfl
@[simp] theorem updWg_alarm (k : Nat) (f : Wg → Wg) : (s.updWg k f).alarm = s.alarm := rfl
@[simp] theorem updWg_clkNext (k : Nat) (f : Wg → Wg) : (s.updWg k f).clkNext = s.clkNext := rfl
@[simp] theorem updWg_todo (k : Nat) (f : Wg → Wg) : (s.updWg k f).todo = s.todo := rfl
@[simp] theorem updWg_turn (k : Nat) (f : Wg → Wg) : (s.updWg k f).turn = s.turn := rfl
@[simp] theorem updWg_poisoned (k : Nat) (f : Wg → Wg) : (s.updWg k f).poisoned = s.poisoned := rfl
@[simp] theorem updWg_dir (k : Nat) (f : Wg → Wg) : (s.updWg k f).dir = s.dir := rfl
@[simp] theorem updWg_copies (k : Nat) (f : Wg → Wg) : (s.updWg k f).copies = s.copies := rfl
@[simp] theorem updWg_keyCopies (k : Nat) (f : Wg → Wg) : (s.updWg k f).keyCopies = s.keyCopies := rfl
@[simp] theorem updWg_rq (k : Nat) (f : Wg → Wg) : (s.updWg k f).rq = s.rq := rfl
@[simp] theorem updWg_links (k : Nat) (f : Wg → Wg) : (s.updWg k f).links = s.links := rfl
@[simp] theorem updWg_pallum (k : Nat) (f : Wg → Wg) : (s.updWg k f).pallum = s.pallum := rfl
@[simp] theorem updWg_rot (k : Nat) (f : Wg → Wg) : (s.updWg k f).rot = s.rot := rfl
@[simp] theorem updWg_msix (k : Nat) (f : Wg → Wg) : (s.updWg k f).msix = s.msix := rfl
@[simp] theorem updWg_leaseLen (k : Nat) (f : Wg → Wg) : (s.updWg k f).leaseLen = s.leaseLen := rfl
@[simp] theorem updWg_leaseMargin (k : Nat) (f : Wg → Wg) : (s.updWg k f).leaseMargin = s.leaseMargin := rfl
@[simp] theorem updWg_cxlLanes (k : Nat) (f : Wg → Wg) : (s.updWg k f).cxlLanes = s.cxlLanes := rfl
@[simp] theorem updWg_lost (k : Nat) (f : Wg → Wg) : (s.updWg k f).lost = s.lost := rfl
@[simp] theorem updWg_collGone (k : Nat) (f : Wg → Wg) : (s.updWg k f).collGone = s.collGone := rfl
@[simp] theorem updWg_mgmt (k : Nat) (f : Wg → Wg) : (s.updWg k f).mgmt = s.mgmt := rfl
@[simp] theorem updWg_breaks (k : Nat) (f : Wg → Wg) : (s.updWg k f).breaks = s.breaks := rfl
@[simp] theorem updWg_migs (k : Nat) (f : Wg → Wg) : (s.updWg k f).migs = s.migs := rfl
@[simp] theorem updWg_report (k : Nat) (f : Wg → Wg) : (s.updWg k f).report = s.report := rfl
@[simp] theorem updWg_firmware (k : Nat) (f : Wg → Wg) : (s.updWg k f).firmware = s.firmware := rfl
@[simp] theorem updWg_firmwareSig (k : Nat) (f : Wg → Wg) : (s.updWg k f).firmwareSig = s.firmwareSig := rfl
@[simp] theorem updWg_stallsDue (k : Nat) (f : Wg → Wg) : (s.updWg k f).stallsDue = s.stallsDue := rfl
@[simp] theorem updWg_linkWaits (k : Nat) (f : Wg → Wg) : (s.updWg k f).linkWaits = s.linkWaits := rfl
@[simp] theorem updWg_halves (k : Nat) (f : Wg → Wg) : (s.updWg k f).halves = s.halves := rfl
@[simp] theorem updWg_served (k : Nat) (f : Wg → Wg) : (s.updWg k f).served = s.served := rfl
@[simp] theorem updWg_collBad (k : Nat) (f : Wg → Wg) : (s.updWg k f).collBad = s.collBad := rfl

/-! `updGang` changes `gangs` alone. -/

@[simp] theorem updGang_clk (k : Nat) (f : Gang → Gang) : (s.updGang k f).clk = s.clk := rfl
@[simp] theorem updGang_cycle (k : Nat) (f : Gang → Gang) : (s.updGang k f).cycle = s.cycle := rfl
@[simp] theorem updGang_agenda (k : Nat) (f : Gang → Gang) : (s.updGang k f).agenda = s.agenda := rfl
@[simp] theorem updGang_fresh (k : Nat) (f : Gang → Gang) : (s.updGang k f).fresh = s.fresh := rfl
@[simp] theorem updGang_nextId (k : Nat) (f : Gang → Gang) : (s.updGang k f).nextId = s.nextId := rfl
@[simp] theorem updGang_issue (k : Nat) (f : Gang → Gang) : (s.updGang k f).issue = s.issue := rfl
@[simp] theorem updGang_second (k : Nat) (f : Gang → Gang) : (s.updGang k f).second = s.second := rfl
@[simp] theorem updGang_teams (k : Nat) (f : Gang → Gang) : (s.updGang k f).teams = s.teams := rfl
@[simp] theorem updGang_wgs (k : Nat) (f : Gang → Gang) : (s.updGang k f).wgs = s.wgs := rfl
@[simp] theorem updGang_launches (k : Nat) (f : Gang → Gang) : (s.updGang k f).launches = s.launches := rfl
@[simp] theorem updGang_regions (k : Nat) (f : Gang → Gang) : (s.updGang k f).regions = s.regions := rfl
@[simp] theorem updGang_parts (k : Nat) (f : Gang → Gang) : (s.updGang k f).parts = s.parts := rfl
@[simp] theorem updGang_cores (k : Nat) (f : Gang → Gang) : (s.updGang k f).cores = s.cores := rfl
@[simp] theorem updGang_clusters (k : Nat) (f : Gang → Gang) : (s.updGang k f).clusters = s.clusters := rfl
@[simp] theorem updGang_dies (k : Nat) (f : Gang → Gang) : (s.updGang k f).dies = s.dies := rfl
@[simp] theorem updGang_codes (k : Nat) (f : Gang → Gang) : (s.updGang k f).codes = s.codes := rfl
@[simp] theorem updGang_ptes (k : Nat) (f : Gang → Gang) : (s.updGang k f).ptes = s.ptes := rfl
@[simp] theorem updGang_pages (k : Nat) (f : Gang → Gang) : (s.updGang k f).pages = s.pages := rfl
@[simp] theorem updGang_mem (k : Nat) (f : Gang → Gang) : (s.updGang k f).mem = s.mem := rfl
@[simp] theorem updGang_hostMem (k : Nat) (f : Gang → Gang) : (s.updGang k f).hostMem = s.hostMem := rfl
@[simp] theorem updGang_msgs (k : Nat) (f : Gang → Gang) : (s.updGang k f).msgs = s.msgs := rfl
@[simp] theorem updGang_loads (k : Nat) (f : Gang → Gang) : (s.updGang k f).loads = s.loads := rfl
@[simp] theorem updGang_syncs (k : Nat) (f : Gang → Gang) : (s.updGang k f).syncs = s.syncs := rfl
@[simp] theorem updGang_leases (k : Nat) (f : Gang → Gang) : (s.updGang k f).leases = s.leases := rfl
@[simp] theorem updGang_keys (k : Nat) (f : Gang → Gang) : (s.updGang k f).keys = s.keys := rfl
@[simp] theorem updGang_cmdPledges (k : Nat) (f : Gang → Gang) : (s.updGang k f).cmdPledges = s.cmdPledges := rfl
@[simp] theorem updGang_rings (k : Nat) (f : Gang → Gang) : (s.updGang k f).rings = s.rings := rfl
@[simp] theorem updGang_jobs (k : Nat) (f : Gang → Gang) : (s.updGang k f).jobs = s.jobs := rfl
@[simp] theorem updGang_alarm (k : Nat) (f : Gang → Gang) : (s.updGang k f).alarm = s.alarm := rfl
@[simp] theorem updGang_clkNext (k : Nat) (f : Gang → Gang) : (s.updGang k f).clkNext = s.clkNext := rfl
@[simp] theorem updGang_todo (k : Nat) (f : Gang → Gang) : (s.updGang k f).todo = s.todo := rfl
@[simp] theorem updGang_turn (k : Nat) (f : Gang → Gang) : (s.updGang k f).turn = s.turn := rfl
@[simp] theorem updGang_poisoned (k : Nat) (f : Gang → Gang) : (s.updGang k f).poisoned = s.poisoned := rfl
@[simp] theorem updGang_dir (k : Nat) (f : Gang → Gang) : (s.updGang k f).dir = s.dir := rfl
@[simp] theorem updGang_copies (k : Nat) (f : Gang → Gang) : (s.updGang k f).copies = s.copies := rfl
@[simp] theorem updGang_keyCopies (k : Nat) (f : Gang → Gang) : (s.updGang k f).keyCopies = s.keyCopies := rfl
@[simp] theorem updGang_rq (k : Nat) (f : Gang → Gang) : (s.updGang k f).rq = s.rq := rfl
@[simp] theorem updGang_links (k : Nat) (f : Gang → Gang) : (s.updGang k f).links = s.links := rfl
@[simp] theorem updGang_pallum (k : Nat) (f : Gang → Gang) : (s.updGang k f).pallum = s.pallum := rfl
@[simp] theorem updGang_rot (k : Nat) (f : Gang → Gang) : (s.updGang k f).rot = s.rot := rfl
@[simp] theorem updGang_msix (k : Nat) (f : Gang → Gang) : (s.updGang k f).msix = s.msix := rfl
@[simp] theorem updGang_leaseLen (k : Nat) (f : Gang → Gang) : (s.updGang k f).leaseLen = s.leaseLen := rfl
@[simp] theorem updGang_leaseMargin (k : Nat) (f : Gang → Gang) : (s.updGang k f).leaseMargin = s.leaseMargin := rfl
@[simp] theorem updGang_cxlLanes (k : Nat) (f : Gang → Gang) : (s.updGang k f).cxlLanes = s.cxlLanes := rfl
@[simp] theorem updGang_lost (k : Nat) (f : Gang → Gang) : (s.updGang k f).lost = s.lost := rfl
@[simp] theorem updGang_collGone (k : Nat) (f : Gang → Gang) : (s.updGang k f).collGone = s.collGone := rfl
@[simp] theorem updGang_mgmt (k : Nat) (f : Gang → Gang) : (s.updGang k f).mgmt = s.mgmt := rfl
@[simp] theorem updGang_breaks (k : Nat) (f : Gang → Gang) : (s.updGang k f).breaks = s.breaks := rfl
@[simp] theorem updGang_migs (k : Nat) (f : Gang → Gang) : (s.updGang k f).migs = s.migs := rfl
@[simp] theorem updGang_report (k : Nat) (f : Gang → Gang) : (s.updGang k f).report = s.report := rfl
@[simp] theorem updGang_firmware (k : Nat) (f : Gang → Gang) : (s.updGang k f).firmware = s.firmware := rfl
@[simp] theorem updGang_firmwareSig (k : Nat) (f : Gang → Gang) : (s.updGang k f).firmwareSig = s.firmwareSig := rfl
@[simp] theorem updGang_stallsDue (k : Nat) (f : Gang → Gang) : (s.updGang k f).stallsDue = s.stallsDue := rfl
@[simp] theorem updGang_linkWaits (k : Nat) (f : Gang → Gang) : (s.updGang k f).linkWaits = s.linkWaits := rfl
@[simp] theorem updGang_halves (k : Nat) (f : Gang → Gang) : (s.updGang k f).halves = s.halves := rfl
@[simp] theorem updGang_served (k : Nat) (f : Gang → Gang) : (s.updGang k f).served = s.served := rfl
@[simp] theorem updGang_collBad (k : Nat) (f : Gang → Gang) : (s.updGang k f).collBad = s.collBad := rfl

/-! `updLaunch` changes `launches` alone. -/

@[simp] theorem updLaunch_clk (k : Nat) (f : Launch → Launch) : (s.updLaunch k f).clk = s.clk := rfl
@[simp] theorem updLaunch_cycle (k : Nat) (f : Launch → Launch) : (s.updLaunch k f).cycle = s.cycle := rfl
@[simp] theorem updLaunch_agenda (k : Nat) (f : Launch → Launch) : (s.updLaunch k f).agenda = s.agenda := rfl
@[simp] theorem updLaunch_fresh (k : Nat) (f : Launch → Launch) : (s.updLaunch k f).fresh = s.fresh := rfl
@[simp] theorem updLaunch_nextId (k : Nat) (f : Launch → Launch) : (s.updLaunch k f).nextId = s.nextId := rfl
@[simp] theorem updLaunch_issue (k : Nat) (f : Launch → Launch) : (s.updLaunch k f).issue = s.issue := rfl
@[simp] theorem updLaunch_second (k : Nat) (f : Launch → Launch) : (s.updLaunch k f).second = s.second := rfl
@[simp] theorem updLaunch_teams (k : Nat) (f : Launch → Launch) : (s.updLaunch k f).teams = s.teams := rfl
@[simp] theorem updLaunch_wgs (k : Nat) (f : Launch → Launch) : (s.updLaunch k f).wgs = s.wgs := rfl
@[simp] theorem updLaunch_gangs (k : Nat) (f : Launch → Launch) : (s.updLaunch k f).gangs = s.gangs := rfl
@[simp] theorem updLaunch_regions (k : Nat) (f : Launch → Launch) : (s.updLaunch k f).regions = s.regions := rfl
@[simp] theorem updLaunch_parts (k : Nat) (f : Launch → Launch) : (s.updLaunch k f).parts = s.parts := rfl
@[simp] theorem updLaunch_cores (k : Nat) (f : Launch → Launch) : (s.updLaunch k f).cores = s.cores := rfl
@[simp] theorem updLaunch_clusters (k : Nat) (f : Launch → Launch) : (s.updLaunch k f).clusters = s.clusters := rfl
@[simp] theorem updLaunch_dies (k : Nat) (f : Launch → Launch) : (s.updLaunch k f).dies = s.dies := rfl
@[simp] theorem updLaunch_codes (k : Nat) (f : Launch → Launch) : (s.updLaunch k f).codes = s.codes := rfl
@[simp] theorem updLaunch_ptes (k : Nat) (f : Launch → Launch) : (s.updLaunch k f).ptes = s.ptes := rfl
@[simp] theorem updLaunch_pages (k : Nat) (f : Launch → Launch) : (s.updLaunch k f).pages = s.pages := rfl
@[simp] theorem updLaunch_mem (k : Nat) (f : Launch → Launch) : (s.updLaunch k f).mem = s.mem := rfl
@[simp] theorem updLaunch_hostMem (k : Nat) (f : Launch → Launch) : (s.updLaunch k f).hostMem = s.hostMem := rfl
@[simp] theorem updLaunch_msgs (k : Nat) (f : Launch → Launch) : (s.updLaunch k f).msgs = s.msgs := rfl
@[simp] theorem updLaunch_loads (k : Nat) (f : Launch → Launch) : (s.updLaunch k f).loads = s.loads := rfl
@[simp] theorem updLaunch_syncs (k : Nat) (f : Launch → Launch) : (s.updLaunch k f).syncs = s.syncs := rfl
@[simp] theorem updLaunch_leases (k : Nat) (f : Launch → Launch) : (s.updLaunch k f).leases = s.leases := rfl
@[simp] theorem updLaunch_keys (k : Nat) (f : Launch → Launch) : (s.updLaunch k f).keys = s.keys := rfl
@[simp] theorem updLaunch_cmdPledges (k : Nat) (f : Launch → Launch) : (s.updLaunch k f).cmdPledges = s.cmdPledges := rfl
@[simp] theorem updLaunch_rings (k : Nat) (f : Launch → Launch) : (s.updLaunch k f).rings = s.rings := rfl
@[simp] theorem updLaunch_jobs (k : Nat) (f : Launch → Launch) : (s.updLaunch k f).jobs = s.jobs := rfl
@[simp] theorem updLaunch_alarm (k : Nat) (f : Launch → Launch) : (s.updLaunch k f).alarm = s.alarm := rfl
@[simp] theorem updLaunch_clkNext (k : Nat) (f : Launch → Launch) : (s.updLaunch k f).clkNext = s.clkNext := rfl
@[simp] theorem updLaunch_todo (k : Nat) (f : Launch → Launch) : (s.updLaunch k f).todo = s.todo := rfl
@[simp] theorem updLaunch_turn (k : Nat) (f : Launch → Launch) : (s.updLaunch k f).turn = s.turn := rfl
@[simp] theorem updLaunch_poisoned (k : Nat) (f : Launch → Launch) : (s.updLaunch k f).poisoned = s.poisoned := rfl
@[simp] theorem updLaunch_dir (k : Nat) (f : Launch → Launch) : (s.updLaunch k f).dir = s.dir := rfl
@[simp] theorem updLaunch_copies (k : Nat) (f : Launch → Launch) : (s.updLaunch k f).copies = s.copies := rfl
@[simp] theorem updLaunch_keyCopies (k : Nat) (f : Launch → Launch) : (s.updLaunch k f).keyCopies = s.keyCopies := rfl
@[simp] theorem updLaunch_rq (k : Nat) (f : Launch → Launch) : (s.updLaunch k f).rq = s.rq := rfl
@[simp] theorem updLaunch_links (k : Nat) (f : Launch → Launch) : (s.updLaunch k f).links = s.links := rfl
@[simp] theorem updLaunch_pallum (k : Nat) (f : Launch → Launch) : (s.updLaunch k f).pallum = s.pallum := rfl
@[simp] theorem updLaunch_rot (k : Nat) (f : Launch → Launch) : (s.updLaunch k f).rot = s.rot := rfl
@[simp] theorem updLaunch_msix (k : Nat) (f : Launch → Launch) : (s.updLaunch k f).msix = s.msix := rfl
@[simp] theorem updLaunch_leaseLen (k : Nat) (f : Launch → Launch) : (s.updLaunch k f).leaseLen = s.leaseLen := rfl
@[simp] theorem updLaunch_leaseMargin (k : Nat) (f : Launch → Launch) : (s.updLaunch k f).leaseMargin = s.leaseMargin := rfl
@[simp] theorem updLaunch_cxlLanes (k : Nat) (f : Launch → Launch) : (s.updLaunch k f).cxlLanes = s.cxlLanes := rfl
@[simp] theorem updLaunch_lost (k : Nat) (f : Launch → Launch) : (s.updLaunch k f).lost = s.lost := rfl
@[simp] theorem updLaunch_collGone (k : Nat) (f : Launch → Launch) : (s.updLaunch k f).collGone = s.collGone := rfl
@[simp] theorem updLaunch_mgmt (k : Nat) (f : Launch → Launch) : (s.updLaunch k f).mgmt = s.mgmt := rfl
@[simp] theorem updLaunch_breaks (k : Nat) (f : Launch → Launch) : (s.updLaunch k f).breaks = s.breaks := rfl
@[simp] theorem updLaunch_migs (k : Nat) (f : Launch → Launch) : (s.updLaunch k f).migs = s.migs := rfl
@[simp] theorem updLaunch_report (k : Nat) (f : Launch → Launch) : (s.updLaunch k f).report = s.report := rfl
@[simp] theorem updLaunch_firmware (k : Nat) (f : Launch → Launch) : (s.updLaunch k f).firmware = s.firmware := rfl
@[simp] theorem updLaunch_firmwareSig (k : Nat) (f : Launch → Launch) : (s.updLaunch k f).firmwareSig = s.firmwareSig := rfl
@[simp] theorem updLaunch_stallsDue (k : Nat) (f : Launch → Launch) : (s.updLaunch k f).stallsDue = s.stallsDue := rfl
@[simp] theorem updLaunch_linkWaits (k : Nat) (f : Launch → Launch) : (s.updLaunch k f).linkWaits = s.linkWaits := rfl
@[simp] theorem updLaunch_halves (k : Nat) (f : Launch → Launch) : (s.updLaunch k f).halves = s.halves := rfl
@[simp] theorem updLaunch_served (k : Nat) (f : Launch → Launch) : (s.updLaunch k f).served = s.served := rfl
@[simp] theorem updLaunch_collBad (k : Nat) (f : Launch → Launch) : (s.updLaunch k f).collBad = s.collBad := rfl

/-! `updRegion` changes `regions` alone. -/

@[simp] theorem updRegion_clk (k : Nat) (f : Region → Region) : (s.updRegion k f).clk = s.clk := rfl
@[simp] theorem updRegion_cycle (k : Nat) (f : Region → Region) : (s.updRegion k f).cycle = s.cycle := rfl
@[simp] theorem updRegion_agenda (k : Nat) (f : Region → Region) : (s.updRegion k f).agenda = s.agenda := rfl
@[simp] theorem updRegion_fresh (k : Nat) (f : Region → Region) : (s.updRegion k f).fresh = s.fresh := rfl
@[simp] theorem updRegion_nextId (k : Nat) (f : Region → Region) : (s.updRegion k f).nextId = s.nextId := rfl
@[simp] theorem updRegion_issue (k : Nat) (f : Region → Region) : (s.updRegion k f).issue = s.issue := rfl
@[simp] theorem updRegion_second (k : Nat) (f : Region → Region) : (s.updRegion k f).second = s.second := rfl
@[simp] theorem updRegion_teams (k : Nat) (f : Region → Region) : (s.updRegion k f).teams = s.teams := rfl
@[simp] theorem updRegion_wgs (k : Nat) (f : Region → Region) : (s.updRegion k f).wgs = s.wgs := rfl
@[simp] theorem updRegion_gangs (k : Nat) (f : Region → Region) : (s.updRegion k f).gangs = s.gangs := rfl
@[simp] theorem updRegion_launches (k : Nat) (f : Region → Region) : (s.updRegion k f).launches = s.launches := rfl
@[simp] theorem updRegion_parts (k : Nat) (f : Region → Region) : (s.updRegion k f).parts = s.parts := rfl
@[simp] theorem updRegion_cores (k : Nat) (f : Region → Region) : (s.updRegion k f).cores = s.cores := rfl
@[simp] theorem updRegion_clusters (k : Nat) (f : Region → Region) : (s.updRegion k f).clusters = s.clusters := rfl
@[simp] theorem updRegion_dies (k : Nat) (f : Region → Region) : (s.updRegion k f).dies = s.dies := rfl
@[simp] theorem updRegion_codes (k : Nat) (f : Region → Region) : (s.updRegion k f).codes = s.codes := rfl
@[simp] theorem updRegion_ptes (k : Nat) (f : Region → Region) : (s.updRegion k f).ptes = s.ptes := rfl
@[simp] theorem updRegion_pages (k : Nat) (f : Region → Region) : (s.updRegion k f).pages = s.pages := rfl
@[simp] theorem updRegion_mem (k : Nat) (f : Region → Region) : (s.updRegion k f).mem = s.mem := rfl
@[simp] theorem updRegion_hostMem (k : Nat) (f : Region → Region) : (s.updRegion k f).hostMem = s.hostMem := rfl
@[simp] theorem updRegion_msgs (k : Nat) (f : Region → Region) : (s.updRegion k f).msgs = s.msgs := rfl
@[simp] theorem updRegion_loads (k : Nat) (f : Region → Region) : (s.updRegion k f).loads = s.loads := rfl
@[simp] theorem updRegion_syncs (k : Nat) (f : Region → Region) : (s.updRegion k f).syncs = s.syncs := rfl
@[simp] theorem updRegion_leases (k : Nat) (f : Region → Region) : (s.updRegion k f).leases = s.leases := rfl
@[simp] theorem updRegion_keys (k : Nat) (f : Region → Region) : (s.updRegion k f).keys = s.keys := rfl
@[simp] theorem updRegion_cmdPledges (k : Nat) (f : Region → Region) : (s.updRegion k f).cmdPledges = s.cmdPledges := rfl
@[simp] theorem updRegion_rings (k : Nat) (f : Region → Region) : (s.updRegion k f).rings = s.rings := rfl
@[simp] theorem updRegion_jobs (k : Nat) (f : Region → Region) : (s.updRegion k f).jobs = s.jobs := rfl
@[simp] theorem updRegion_alarm (k : Nat) (f : Region → Region) : (s.updRegion k f).alarm = s.alarm := rfl
@[simp] theorem updRegion_clkNext (k : Nat) (f : Region → Region) : (s.updRegion k f).clkNext = s.clkNext := rfl
@[simp] theorem updRegion_todo (k : Nat) (f : Region → Region) : (s.updRegion k f).todo = s.todo := rfl
@[simp] theorem updRegion_turn (k : Nat) (f : Region → Region) : (s.updRegion k f).turn = s.turn := rfl
@[simp] theorem updRegion_poisoned (k : Nat) (f : Region → Region) : (s.updRegion k f).poisoned = s.poisoned := rfl
@[simp] theorem updRegion_dir (k : Nat) (f : Region → Region) : (s.updRegion k f).dir = s.dir := rfl
@[simp] theorem updRegion_copies (k : Nat) (f : Region → Region) : (s.updRegion k f).copies = s.copies := rfl
@[simp] theorem updRegion_keyCopies (k : Nat) (f : Region → Region) : (s.updRegion k f).keyCopies = s.keyCopies := rfl
@[simp] theorem updRegion_rq (k : Nat) (f : Region → Region) : (s.updRegion k f).rq = s.rq := rfl
@[simp] theorem updRegion_links (k : Nat) (f : Region → Region) : (s.updRegion k f).links = s.links := rfl
@[simp] theorem updRegion_pallum (k : Nat) (f : Region → Region) : (s.updRegion k f).pallum = s.pallum := rfl
@[simp] theorem updRegion_rot (k : Nat) (f : Region → Region) : (s.updRegion k f).rot = s.rot := rfl
@[simp] theorem updRegion_msix (k : Nat) (f : Region → Region) : (s.updRegion k f).msix = s.msix := rfl
@[simp] theorem updRegion_leaseLen (k : Nat) (f : Region → Region) : (s.updRegion k f).leaseLen = s.leaseLen := rfl
@[simp] theorem updRegion_leaseMargin (k : Nat) (f : Region → Region) : (s.updRegion k f).leaseMargin = s.leaseMargin := rfl
@[simp] theorem updRegion_cxlLanes (k : Nat) (f : Region → Region) : (s.updRegion k f).cxlLanes = s.cxlLanes := rfl
@[simp] theorem updRegion_lost (k : Nat) (f : Region → Region) : (s.updRegion k f).lost = s.lost := rfl
@[simp] theorem updRegion_collGone (k : Nat) (f : Region → Region) : (s.updRegion k f).collGone = s.collGone := rfl
@[simp] theorem updRegion_mgmt (k : Nat) (f : Region → Region) : (s.updRegion k f).mgmt = s.mgmt := rfl
@[simp] theorem updRegion_breaks (k : Nat) (f : Region → Region) : (s.updRegion k f).breaks = s.breaks := rfl
@[simp] theorem updRegion_migs (k : Nat) (f : Region → Region) : (s.updRegion k f).migs = s.migs := rfl
@[simp] theorem updRegion_report (k : Nat) (f : Region → Region) : (s.updRegion k f).report = s.report := rfl
@[simp] theorem updRegion_firmware (k : Nat) (f : Region → Region) : (s.updRegion k f).firmware = s.firmware := rfl
@[simp] theorem updRegion_firmwareSig (k : Nat) (f : Region → Region) : (s.updRegion k f).firmwareSig = s.firmwareSig := rfl
@[simp] theorem updRegion_stallsDue (k : Nat) (f : Region → Region) : (s.updRegion k f).stallsDue = s.stallsDue := rfl
@[simp] theorem updRegion_linkWaits (k : Nat) (f : Region → Region) : (s.updRegion k f).linkWaits = s.linkWaits := rfl
@[simp] theorem updRegion_halves (k : Nat) (f : Region → Region) : (s.updRegion k f).halves = s.halves := rfl
@[simp] theorem updRegion_served (k : Nat) (f : Region → Region) : (s.updRegion k f).served = s.served := rfl
@[simp] theorem updRegion_collBad (k : Nat) (f : Region → Region) : (s.updRegion k f).collBad = s.collBad := rfl

/-! `updPart` changes `parts` alone. -/

@[simp] theorem updPart_clk (k : Nat) (f : Part → Part) : (s.updPart k f).clk = s.clk := rfl
@[simp] theorem updPart_cycle (k : Nat) (f : Part → Part) : (s.updPart k f).cycle = s.cycle := rfl
@[simp] theorem updPart_agenda (k : Nat) (f : Part → Part) : (s.updPart k f).agenda = s.agenda := rfl
@[simp] theorem updPart_fresh (k : Nat) (f : Part → Part) : (s.updPart k f).fresh = s.fresh := rfl
@[simp] theorem updPart_nextId (k : Nat) (f : Part → Part) : (s.updPart k f).nextId = s.nextId := rfl
@[simp] theorem updPart_issue (k : Nat) (f : Part → Part) : (s.updPart k f).issue = s.issue := rfl
@[simp] theorem updPart_second (k : Nat) (f : Part → Part) : (s.updPart k f).second = s.second := rfl
@[simp] theorem updPart_teams (k : Nat) (f : Part → Part) : (s.updPart k f).teams = s.teams := rfl
@[simp] theorem updPart_wgs (k : Nat) (f : Part → Part) : (s.updPart k f).wgs = s.wgs := rfl
@[simp] theorem updPart_gangs (k : Nat) (f : Part → Part) : (s.updPart k f).gangs = s.gangs := rfl
@[simp] theorem updPart_launches (k : Nat) (f : Part → Part) : (s.updPart k f).launches = s.launches := rfl
@[simp] theorem updPart_regions (k : Nat) (f : Part → Part) : (s.updPart k f).regions = s.regions := rfl
@[simp] theorem updPart_cores (k : Nat) (f : Part → Part) : (s.updPart k f).cores = s.cores := rfl
@[simp] theorem updPart_clusters (k : Nat) (f : Part → Part) : (s.updPart k f).clusters = s.clusters := rfl
@[simp] theorem updPart_dies (k : Nat) (f : Part → Part) : (s.updPart k f).dies = s.dies := rfl
@[simp] theorem updPart_codes (k : Nat) (f : Part → Part) : (s.updPart k f).codes = s.codes := rfl
@[simp] theorem updPart_ptes (k : Nat) (f : Part → Part) : (s.updPart k f).ptes = s.ptes := rfl
@[simp] theorem updPart_pages (k : Nat) (f : Part → Part) : (s.updPart k f).pages = s.pages := rfl
@[simp] theorem updPart_mem (k : Nat) (f : Part → Part) : (s.updPart k f).mem = s.mem := rfl
@[simp] theorem updPart_hostMem (k : Nat) (f : Part → Part) : (s.updPart k f).hostMem = s.hostMem := rfl
@[simp] theorem updPart_msgs (k : Nat) (f : Part → Part) : (s.updPart k f).msgs = s.msgs := rfl
@[simp] theorem updPart_loads (k : Nat) (f : Part → Part) : (s.updPart k f).loads = s.loads := rfl
@[simp] theorem updPart_syncs (k : Nat) (f : Part → Part) : (s.updPart k f).syncs = s.syncs := rfl
@[simp] theorem updPart_leases (k : Nat) (f : Part → Part) : (s.updPart k f).leases = s.leases := rfl
@[simp] theorem updPart_keys (k : Nat) (f : Part → Part) : (s.updPart k f).keys = s.keys := rfl
@[simp] theorem updPart_cmdPledges (k : Nat) (f : Part → Part) : (s.updPart k f).cmdPledges = s.cmdPledges := rfl
@[simp] theorem updPart_rings (k : Nat) (f : Part → Part) : (s.updPart k f).rings = s.rings := rfl
@[simp] theorem updPart_jobs (k : Nat) (f : Part → Part) : (s.updPart k f).jobs = s.jobs := rfl
@[simp] theorem updPart_alarm (k : Nat) (f : Part → Part) : (s.updPart k f).alarm = s.alarm := rfl
@[simp] theorem updPart_clkNext (k : Nat) (f : Part → Part) : (s.updPart k f).clkNext = s.clkNext := rfl
@[simp] theorem updPart_todo (k : Nat) (f : Part → Part) : (s.updPart k f).todo = s.todo := rfl
@[simp] theorem updPart_turn (k : Nat) (f : Part → Part) : (s.updPart k f).turn = s.turn := rfl
@[simp] theorem updPart_poisoned (k : Nat) (f : Part → Part) : (s.updPart k f).poisoned = s.poisoned := rfl
@[simp] theorem updPart_dir (k : Nat) (f : Part → Part) : (s.updPart k f).dir = s.dir := rfl
@[simp] theorem updPart_copies (k : Nat) (f : Part → Part) : (s.updPart k f).copies = s.copies := rfl
@[simp] theorem updPart_keyCopies (k : Nat) (f : Part → Part) : (s.updPart k f).keyCopies = s.keyCopies := rfl
@[simp] theorem updPart_rq (k : Nat) (f : Part → Part) : (s.updPart k f).rq = s.rq := rfl
@[simp] theorem updPart_links (k : Nat) (f : Part → Part) : (s.updPart k f).links = s.links := rfl
@[simp] theorem updPart_pallum (k : Nat) (f : Part → Part) : (s.updPart k f).pallum = s.pallum := rfl
@[simp] theorem updPart_rot (k : Nat) (f : Part → Part) : (s.updPart k f).rot = s.rot := rfl
@[simp] theorem updPart_msix (k : Nat) (f : Part → Part) : (s.updPart k f).msix = s.msix := rfl
@[simp] theorem updPart_leaseLen (k : Nat) (f : Part → Part) : (s.updPart k f).leaseLen = s.leaseLen := rfl
@[simp] theorem updPart_leaseMargin (k : Nat) (f : Part → Part) : (s.updPart k f).leaseMargin = s.leaseMargin := rfl
@[simp] theorem updPart_cxlLanes (k : Nat) (f : Part → Part) : (s.updPart k f).cxlLanes = s.cxlLanes := rfl
@[simp] theorem updPart_lost (k : Nat) (f : Part → Part) : (s.updPart k f).lost = s.lost := rfl
@[simp] theorem updPart_collGone (k : Nat) (f : Part → Part) : (s.updPart k f).collGone = s.collGone := rfl
@[simp] theorem updPart_mgmt (k : Nat) (f : Part → Part) : (s.updPart k f).mgmt = s.mgmt := rfl
@[simp] theorem updPart_breaks (k : Nat) (f : Part → Part) : (s.updPart k f).breaks = s.breaks := rfl
@[simp] theorem updPart_migs (k : Nat) (f : Part → Part) : (s.updPart k f).migs = s.migs := rfl
@[simp] theorem updPart_report (k : Nat) (f : Part → Part) : (s.updPart k f).report = s.report := rfl
@[simp] theorem updPart_firmware (k : Nat) (f : Part → Part) : (s.updPart k f).firmware = s.firmware := rfl
@[simp] theorem updPart_firmwareSig (k : Nat) (f : Part → Part) : (s.updPart k f).firmwareSig = s.firmwareSig := rfl
@[simp] theorem updPart_stallsDue (k : Nat) (f : Part → Part) : (s.updPart k f).stallsDue = s.stallsDue := rfl
@[simp] theorem updPart_linkWaits (k : Nat) (f : Part → Part) : (s.updPart k f).linkWaits = s.linkWaits := rfl
@[simp] theorem updPart_halves (k : Nat) (f : Part → Part) : (s.updPart k f).halves = s.halves := rfl
@[simp] theorem updPart_served (k : Nat) (f : Part → Part) : (s.updPart k f).served = s.served := rfl
@[simp] theorem updPart_collBad (k : Nat) (f : Part → Part) : (s.updPart k f).collBad = s.collBad := rfl

/-! `updCore` changes `cores` alone. -/

@[simp] theorem updCore_clk (k : Nat) (f : Core → Core) : (s.updCore k f).clk = s.clk := rfl
@[simp] theorem updCore_cycle (k : Nat) (f : Core → Core) : (s.updCore k f).cycle = s.cycle := rfl
@[simp] theorem updCore_agenda (k : Nat) (f : Core → Core) : (s.updCore k f).agenda = s.agenda := rfl
@[simp] theorem updCore_fresh (k : Nat) (f : Core → Core) : (s.updCore k f).fresh = s.fresh := rfl
@[simp] theorem updCore_nextId (k : Nat) (f : Core → Core) : (s.updCore k f).nextId = s.nextId := rfl
@[simp] theorem updCore_issue (k : Nat) (f : Core → Core) : (s.updCore k f).issue = s.issue := rfl
@[simp] theorem updCore_second (k : Nat) (f : Core → Core) : (s.updCore k f).second = s.second := rfl
@[simp] theorem updCore_teams (k : Nat) (f : Core → Core) : (s.updCore k f).teams = s.teams := rfl
@[simp] theorem updCore_wgs (k : Nat) (f : Core → Core) : (s.updCore k f).wgs = s.wgs := rfl
@[simp] theorem updCore_gangs (k : Nat) (f : Core → Core) : (s.updCore k f).gangs = s.gangs := rfl
@[simp] theorem updCore_launches (k : Nat) (f : Core → Core) : (s.updCore k f).launches = s.launches := rfl
@[simp] theorem updCore_regions (k : Nat) (f : Core → Core) : (s.updCore k f).regions = s.regions := rfl
@[simp] theorem updCore_parts (k : Nat) (f : Core → Core) : (s.updCore k f).parts = s.parts := rfl
@[simp] theorem updCore_clusters (k : Nat) (f : Core → Core) : (s.updCore k f).clusters = s.clusters := rfl
@[simp] theorem updCore_dies (k : Nat) (f : Core → Core) : (s.updCore k f).dies = s.dies := rfl
@[simp] theorem updCore_codes (k : Nat) (f : Core → Core) : (s.updCore k f).codes = s.codes := rfl
@[simp] theorem updCore_ptes (k : Nat) (f : Core → Core) : (s.updCore k f).ptes = s.ptes := rfl
@[simp] theorem updCore_pages (k : Nat) (f : Core → Core) : (s.updCore k f).pages = s.pages := rfl
@[simp] theorem updCore_mem (k : Nat) (f : Core → Core) : (s.updCore k f).mem = s.mem := rfl
@[simp] theorem updCore_hostMem (k : Nat) (f : Core → Core) : (s.updCore k f).hostMem = s.hostMem := rfl
@[simp] theorem updCore_msgs (k : Nat) (f : Core → Core) : (s.updCore k f).msgs = s.msgs := rfl
@[simp] theorem updCore_loads (k : Nat) (f : Core → Core) : (s.updCore k f).loads = s.loads := rfl
@[simp] theorem updCore_syncs (k : Nat) (f : Core → Core) : (s.updCore k f).syncs = s.syncs := rfl
@[simp] theorem updCore_leases (k : Nat) (f : Core → Core) : (s.updCore k f).leases = s.leases := rfl
@[simp] theorem updCore_keys (k : Nat) (f : Core → Core) : (s.updCore k f).keys = s.keys := rfl
@[simp] theorem updCore_cmdPledges (k : Nat) (f : Core → Core) : (s.updCore k f).cmdPledges = s.cmdPledges := rfl
@[simp] theorem updCore_rings (k : Nat) (f : Core → Core) : (s.updCore k f).rings = s.rings := rfl
@[simp] theorem updCore_jobs (k : Nat) (f : Core → Core) : (s.updCore k f).jobs = s.jobs := rfl
@[simp] theorem updCore_alarm (k : Nat) (f : Core → Core) : (s.updCore k f).alarm = s.alarm := rfl
@[simp] theorem updCore_clkNext (k : Nat) (f : Core → Core) : (s.updCore k f).clkNext = s.clkNext := rfl
@[simp] theorem updCore_todo (k : Nat) (f : Core → Core) : (s.updCore k f).todo = s.todo := rfl
@[simp] theorem updCore_turn (k : Nat) (f : Core → Core) : (s.updCore k f).turn = s.turn := rfl
@[simp] theorem updCore_poisoned (k : Nat) (f : Core → Core) : (s.updCore k f).poisoned = s.poisoned := rfl
@[simp] theorem updCore_dir (k : Nat) (f : Core → Core) : (s.updCore k f).dir = s.dir := rfl
@[simp] theorem updCore_copies (k : Nat) (f : Core → Core) : (s.updCore k f).copies = s.copies := rfl
@[simp] theorem updCore_keyCopies (k : Nat) (f : Core → Core) : (s.updCore k f).keyCopies = s.keyCopies := rfl
@[simp] theorem updCore_rq (k : Nat) (f : Core → Core) : (s.updCore k f).rq = s.rq := rfl
@[simp] theorem updCore_links (k : Nat) (f : Core → Core) : (s.updCore k f).links = s.links := rfl
@[simp] theorem updCore_pallum (k : Nat) (f : Core → Core) : (s.updCore k f).pallum = s.pallum := rfl
@[simp] theorem updCore_rot (k : Nat) (f : Core → Core) : (s.updCore k f).rot = s.rot := rfl
@[simp] theorem updCore_msix (k : Nat) (f : Core → Core) : (s.updCore k f).msix = s.msix := rfl
@[simp] theorem updCore_leaseLen (k : Nat) (f : Core → Core) : (s.updCore k f).leaseLen = s.leaseLen := rfl
@[simp] theorem updCore_leaseMargin (k : Nat) (f : Core → Core) : (s.updCore k f).leaseMargin = s.leaseMargin := rfl
@[simp] theorem updCore_cxlLanes (k : Nat) (f : Core → Core) : (s.updCore k f).cxlLanes = s.cxlLanes := rfl
@[simp] theorem updCore_lost (k : Nat) (f : Core → Core) : (s.updCore k f).lost = s.lost := rfl
@[simp] theorem updCore_collGone (k : Nat) (f : Core → Core) : (s.updCore k f).collGone = s.collGone := rfl
@[simp] theorem updCore_mgmt (k : Nat) (f : Core → Core) : (s.updCore k f).mgmt = s.mgmt := rfl
@[simp] theorem updCore_breaks (k : Nat) (f : Core → Core) : (s.updCore k f).breaks = s.breaks := rfl
@[simp] theorem updCore_migs (k : Nat) (f : Core → Core) : (s.updCore k f).migs = s.migs := rfl
@[simp] theorem updCore_report (k : Nat) (f : Core → Core) : (s.updCore k f).report = s.report := rfl
@[simp] theorem updCore_firmware (k : Nat) (f : Core → Core) : (s.updCore k f).firmware = s.firmware := rfl
@[simp] theorem updCore_firmwareSig (k : Nat) (f : Core → Core) : (s.updCore k f).firmwareSig = s.firmwareSig := rfl
@[simp] theorem updCore_stallsDue (k : Nat) (f : Core → Core) : (s.updCore k f).stallsDue = s.stallsDue := rfl
@[simp] theorem updCore_linkWaits (k : Nat) (f : Core → Core) : (s.updCore k f).linkWaits = s.linkWaits := rfl
@[simp] theorem updCore_halves (k : Nat) (f : Core → Core) : (s.updCore k f).halves = s.halves := rfl
@[simp] theorem updCore_served (k : Nat) (f : Core → Core) : (s.updCore k f).served = s.served := rfl
@[simp] theorem updCore_collBad (k : Nat) (f : Core → Core) : (s.updCore k f).collBad = s.collBad := rfl

/-! `updCluster` changes `clusters` alone. -/

@[simp] theorem updCluster_clk (k : Nat) (f : Cluster → Cluster) : (s.updCluster k f).clk = s.clk := rfl
@[simp] theorem updCluster_cycle (k : Nat) (f : Cluster → Cluster) : (s.updCluster k f).cycle = s.cycle := rfl
@[simp] theorem updCluster_agenda (k : Nat) (f : Cluster → Cluster) : (s.updCluster k f).agenda = s.agenda := rfl
@[simp] theorem updCluster_fresh (k : Nat) (f : Cluster → Cluster) : (s.updCluster k f).fresh = s.fresh := rfl
@[simp] theorem updCluster_nextId (k : Nat) (f : Cluster → Cluster) : (s.updCluster k f).nextId = s.nextId := rfl
@[simp] theorem updCluster_issue (k : Nat) (f : Cluster → Cluster) : (s.updCluster k f).issue = s.issue := rfl
@[simp] theorem updCluster_second (k : Nat) (f : Cluster → Cluster) : (s.updCluster k f).second = s.second := rfl
@[simp] theorem updCluster_teams (k : Nat) (f : Cluster → Cluster) : (s.updCluster k f).teams = s.teams := rfl
@[simp] theorem updCluster_wgs (k : Nat) (f : Cluster → Cluster) : (s.updCluster k f).wgs = s.wgs := rfl
@[simp] theorem updCluster_gangs (k : Nat) (f : Cluster → Cluster) : (s.updCluster k f).gangs = s.gangs := rfl
@[simp] theorem updCluster_launches (k : Nat) (f : Cluster → Cluster) : (s.updCluster k f).launches = s.launches := rfl
@[simp] theorem updCluster_regions (k : Nat) (f : Cluster → Cluster) : (s.updCluster k f).regions = s.regions := rfl
@[simp] theorem updCluster_parts (k : Nat) (f : Cluster → Cluster) : (s.updCluster k f).parts = s.parts := rfl
@[simp] theorem updCluster_cores (k : Nat) (f : Cluster → Cluster) : (s.updCluster k f).cores = s.cores := rfl
@[simp] theorem updCluster_dies (k : Nat) (f : Cluster → Cluster) : (s.updCluster k f).dies = s.dies := rfl
@[simp] theorem updCluster_codes (k : Nat) (f : Cluster → Cluster) : (s.updCluster k f).codes = s.codes := rfl
@[simp] theorem updCluster_ptes (k : Nat) (f : Cluster → Cluster) : (s.updCluster k f).ptes = s.ptes := rfl
@[simp] theorem updCluster_pages (k : Nat) (f : Cluster → Cluster) : (s.updCluster k f).pages = s.pages := rfl
@[simp] theorem updCluster_mem (k : Nat) (f : Cluster → Cluster) : (s.updCluster k f).mem = s.mem := rfl
@[simp] theorem updCluster_hostMem (k : Nat) (f : Cluster → Cluster) : (s.updCluster k f).hostMem = s.hostMem := rfl
@[simp] theorem updCluster_msgs (k : Nat) (f : Cluster → Cluster) : (s.updCluster k f).msgs = s.msgs := rfl
@[simp] theorem updCluster_loads (k : Nat) (f : Cluster → Cluster) : (s.updCluster k f).loads = s.loads := rfl
@[simp] theorem updCluster_syncs (k : Nat) (f : Cluster → Cluster) : (s.updCluster k f).syncs = s.syncs := rfl
@[simp] theorem updCluster_leases (k : Nat) (f : Cluster → Cluster) : (s.updCluster k f).leases = s.leases := rfl
@[simp] theorem updCluster_keys (k : Nat) (f : Cluster → Cluster) : (s.updCluster k f).keys = s.keys := rfl
@[simp] theorem updCluster_cmdPledges (k : Nat) (f : Cluster → Cluster) : (s.updCluster k f).cmdPledges = s.cmdPledges := rfl
@[simp] theorem updCluster_rings (k : Nat) (f : Cluster → Cluster) : (s.updCluster k f).rings = s.rings := rfl
@[simp] theorem updCluster_jobs (k : Nat) (f : Cluster → Cluster) : (s.updCluster k f).jobs = s.jobs := rfl
@[simp] theorem updCluster_alarm (k : Nat) (f : Cluster → Cluster) : (s.updCluster k f).alarm = s.alarm := rfl
@[simp] theorem updCluster_clkNext (k : Nat) (f : Cluster → Cluster) : (s.updCluster k f).clkNext = s.clkNext := rfl
@[simp] theorem updCluster_todo (k : Nat) (f : Cluster → Cluster) : (s.updCluster k f).todo = s.todo := rfl
@[simp] theorem updCluster_turn (k : Nat) (f : Cluster → Cluster) : (s.updCluster k f).turn = s.turn := rfl
@[simp] theorem updCluster_poisoned (k : Nat) (f : Cluster → Cluster) : (s.updCluster k f).poisoned = s.poisoned := rfl
@[simp] theorem updCluster_dir (k : Nat) (f : Cluster → Cluster) : (s.updCluster k f).dir = s.dir := rfl
@[simp] theorem updCluster_copies (k : Nat) (f : Cluster → Cluster) : (s.updCluster k f).copies = s.copies := rfl
@[simp] theorem updCluster_keyCopies (k : Nat) (f : Cluster → Cluster) : (s.updCluster k f).keyCopies = s.keyCopies := rfl
@[simp] theorem updCluster_rq (k : Nat) (f : Cluster → Cluster) : (s.updCluster k f).rq = s.rq := rfl
@[simp] theorem updCluster_links (k : Nat) (f : Cluster → Cluster) : (s.updCluster k f).links = s.links := rfl
@[simp] theorem updCluster_pallum (k : Nat) (f : Cluster → Cluster) : (s.updCluster k f).pallum = s.pallum := rfl
@[simp] theorem updCluster_rot (k : Nat) (f : Cluster → Cluster) : (s.updCluster k f).rot = s.rot := rfl
@[simp] theorem updCluster_msix (k : Nat) (f : Cluster → Cluster) : (s.updCluster k f).msix = s.msix := rfl
@[simp] theorem updCluster_leaseLen (k : Nat) (f : Cluster → Cluster) : (s.updCluster k f).leaseLen = s.leaseLen := rfl
@[simp] theorem updCluster_leaseMargin (k : Nat) (f : Cluster → Cluster) : (s.updCluster k f).leaseMargin = s.leaseMargin := rfl
@[simp] theorem updCluster_cxlLanes (k : Nat) (f : Cluster → Cluster) : (s.updCluster k f).cxlLanes = s.cxlLanes := rfl
@[simp] theorem updCluster_lost (k : Nat) (f : Cluster → Cluster) : (s.updCluster k f).lost = s.lost := rfl
@[simp] theorem updCluster_collGone (k : Nat) (f : Cluster → Cluster) : (s.updCluster k f).collGone = s.collGone := rfl
@[simp] theorem updCluster_mgmt (k : Nat) (f : Cluster → Cluster) : (s.updCluster k f).mgmt = s.mgmt := rfl
@[simp] theorem updCluster_breaks (k : Nat) (f : Cluster → Cluster) : (s.updCluster k f).breaks = s.breaks := rfl
@[simp] theorem updCluster_migs (k : Nat) (f : Cluster → Cluster) : (s.updCluster k f).migs = s.migs := rfl
@[simp] theorem updCluster_report (k : Nat) (f : Cluster → Cluster) : (s.updCluster k f).report = s.report := rfl
@[simp] theorem updCluster_firmware (k : Nat) (f : Cluster → Cluster) : (s.updCluster k f).firmware = s.firmware := rfl
@[simp] theorem updCluster_firmwareSig (k : Nat) (f : Cluster → Cluster) : (s.updCluster k f).firmwareSig = s.firmwareSig := rfl
@[simp] theorem updCluster_stallsDue (k : Nat) (f : Cluster → Cluster) : (s.updCluster k f).stallsDue = s.stallsDue := rfl
@[simp] theorem updCluster_linkWaits (k : Nat) (f : Cluster → Cluster) : (s.updCluster k f).linkWaits = s.linkWaits := rfl
@[simp] theorem updCluster_halves (k : Nat) (f : Cluster → Cluster) : (s.updCluster k f).halves = s.halves := rfl
@[simp] theorem updCluster_served (k : Nat) (f : Cluster → Cluster) : (s.updCluster k f).served = s.served := rfl
@[simp] theorem updCluster_collBad (k : Nat) (f : Cluster → Cluster) : (s.updCluster k f).collBad = s.collBad := rfl

/-! `updDie` changes `dies` alone. -/

@[simp] theorem updDie_clk (k : Nat) (f : Die → Die) : (s.updDie k f).clk = s.clk := rfl
@[simp] theorem updDie_cycle (k : Nat) (f : Die → Die) : (s.updDie k f).cycle = s.cycle := rfl
@[simp] theorem updDie_agenda (k : Nat) (f : Die → Die) : (s.updDie k f).agenda = s.agenda := rfl
@[simp] theorem updDie_fresh (k : Nat) (f : Die → Die) : (s.updDie k f).fresh = s.fresh := rfl
@[simp] theorem updDie_nextId (k : Nat) (f : Die → Die) : (s.updDie k f).nextId = s.nextId := rfl
@[simp] theorem updDie_issue (k : Nat) (f : Die → Die) : (s.updDie k f).issue = s.issue := rfl
@[simp] theorem updDie_second (k : Nat) (f : Die → Die) : (s.updDie k f).second = s.second := rfl
@[simp] theorem updDie_teams (k : Nat) (f : Die → Die) : (s.updDie k f).teams = s.teams := rfl
@[simp] theorem updDie_wgs (k : Nat) (f : Die → Die) : (s.updDie k f).wgs = s.wgs := rfl
@[simp] theorem updDie_gangs (k : Nat) (f : Die → Die) : (s.updDie k f).gangs = s.gangs := rfl
@[simp] theorem updDie_launches (k : Nat) (f : Die → Die) : (s.updDie k f).launches = s.launches := rfl
@[simp] theorem updDie_regions (k : Nat) (f : Die → Die) : (s.updDie k f).regions = s.regions := rfl
@[simp] theorem updDie_parts (k : Nat) (f : Die → Die) : (s.updDie k f).parts = s.parts := rfl
@[simp] theorem updDie_cores (k : Nat) (f : Die → Die) : (s.updDie k f).cores = s.cores := rfl
@[simp] theorem updDie_clusters (k : Nat) (f : Die → Die) : (s.updDie k f).clusters = s.clusters := rfl
@[simp] theorem updDie_codes (k : Nat) (f : Die → Die) : (s.updDie k f).codes = s.codes := rfl
@[simp] theorem updDie_ptes (k : Nat) (f : Die → Die) : (s.updDie k f).ptes = s.ptes := rfl
@[simp] theorem updDie_pages (k : Nat) (f : Die → Die) : (s.updDie k f).pages = s.pages := rfl
@[simp] theorem updDie_mem (k : Nat) (f : Die → Die) : (s.updDie k f).mem = s.mem := rfl
@[simp] theorem updDie_hostMem (k : Nat) (f : Die → Die) : (s.updDie k f).hostMem = s.hostMem := rfl
@[simp] theorem updDie_msgs (k : Nat) (f : Die → Die) : (s.updDie k f).msgs = s.msgs := rfl
@[simp] theorem updDie_loads (k : Nat) (f : Die → Die) : (s.updDie k f).loads = s.loads := rfl
@[simp] theorem updDie_syncs (k : Nat) (f : Die → Die) : (s.updDie k f).syncs = s.syncs := rfl
@[simp] theorem updDie_leases (k : Nat) (f : Die → Die) : (s.updDie k f).leases = s.leases := rfl
@[simp] theorem updDie_keys (k : Nat) (f : Die → Die) : (s.updDie k f).keys = s.keys := rfl
@[simp] theorem updDie_cmdPledges (k : Nat) (f : Die → Die) : (s.updDie k f).cmdPledges = s.cmdPledges := rfl
@[simp] theorem updDie_rings (k : Nat) (f : Die → Die) : (s.updDie k f).rings = s.rings := rfl
@[simp] theorem updDie_jobs (k : Nat) (f : Die → Die) : (s.updDie k f).jobs = s.jobs := rfl
@[simp] theorem updDie_alarm (k : Nat) (f : Die → Die) : (s.updDie k f).alarm = s.alarm := rfl
@[simp] theorem updDie_clkNext (k : Nat) (f : Die → Die) : (s.updDie k f).clkNext = s.clkNext := rfl
@[simp] theorem updDie_todo (k : Nat) (f : Die → Die) : (s.updDie k f).todo = s.todo := rfl
@[simp] theorem updDie_turn (k : Nat) (f : Die → Die) : (s.updDie k f).turn = s.turn := rfl
@[simp] theorem updDie_poisoned (k : Nat) (f : Die → Die) : (s.updDie k f).poisoned = s.poisoned := rfl
@[simp] theorem updDie_dir (k : Nat) (f : Die → Die) : (s.updDie k f).dir = s.dir := rfl
@[simp] theorem updDie_copies (k : Nat) (f : Die → Die) : (s.updDie k f).copies = s.copies := rfl
@[simp] theorem updDie_keyCopies (k : Nat) (f : Die → Die) : (s.updDie k f).keyCopies = s.keyCopies := rfl
@[simp] theorem updDie_rq (k : Nat) (f : Die → Die) : (s.updDie k f).rq = s.rq := rfl
@[simp] theorem updDie_links (k : Nat) (f : Die → Die) : (s.updDie k f).links = s.links := rfl
@[simp] theorem updDie_pallum (k : Nat) (f : Die → Die) : (s.updDie k f).pallum = s.pallum := rfl
@[simp] theorem updDie_rot (k : Nat) (f : Die → Die) : (s.updDie k f).rot = s.rot := rfl
@[simp] theorem updDie_msix (k : Nat) (f : Die → Die) : (s.updDie k f).msix = s.msix := rfl
@[simp] theorem updDie_leaseLen (k : Nat) (f : Die → Die) : (s.updDie k f).leaseLen = s.leaseLen := rfl
@[simp] theorem updDie_leaseMargin (k : Nat) (f : Die → Die) : (s.updDie k f).leaseMargin = s.leaseMargin := rfl
@[simp] theorem updDie_cxlLanes (k : Nat) (f : Die → Die) : (s.updDie k f).cxlLanes = s.cxlLanes := rfl
@[simp] theorem updDie_lost (k : Nat) (f : Die → Die) : (s.updDie k f).lost = s.lost := rfl
@[simp] theorem updDie_collGone (k : Nat) (f : Die → Die) : (s.updDie k f).collGone = s.collGone := rfl
@[simp] theorem updDie_mgmt (k : Nat) (f : Die → Die) : (s.updDie k f).mgmt = s.mgmt := rfl
@[simp] theorem updDie_breaks (k : Nat) (f : Die → Die) : (s.updDie k f).breaks = s.breaks := rfl
@[simp] theorem updDie_migs (k : Nat) (f : Die → Die) : (s.updDie k f).migs = s.migs := rfl
@[simp] theorem updDie_report (k : Nat) (f : Die → Die) : (s.updDie k f).report = s.report := rfl
@[simp] theorem updDie_firmware (k : Nat) (f : Die → Die) : (s.updDie k f).firmware = s.firmware := rfl
@[simp] theorem updDie_firmwareSig (k : Nat) (f : Die → Die) : (s.updDie k f).firmwareSig = s.firmwareSig := rfl
@[simp] theorem updDie_stallsDue (k : Nat) (f : Die → Die) : (s.updDie k f).stallsDue = s.stallsDue := rfl
@[simp] theorem updDie_linkWaits (k : Nat) (f : Die → Die) : (s.updDie k f).linkWaits = s.linkWaits := rfl
@[simp] theorem updDie_halves (k : Nat) (f : Die → Die) : (s.updDie k f).halves = s.halves := rfl
@[simp] theorem updDie_served (k : Nat) (f : Die → Die) : (s.updDie k f).served = s.served := rfl
@[simp] theorem updDie_collBad (k : Nat) (f : Die → Die) : (s.updDie k f).collBad = s.collBad := rfl

/-! `putHome` changes `mem` alone. -/

@[simp] theorem putHome_clk (a : Nat) (bs : List Byte) : (s.putHome a bs).clk = s.clk := rfl
@[simp] theorem putHome_cycle (a : Nat) (bs : List Byte) : (s.putHome a bs).cycle = s.cycle := rfl
@[simp] theorem putHome_agenda (a : Nat) (bs : List Byte) : (s.putHome a bs).agenda = s.agenda := rfl
@[simp] theorem putHome_fresh (a : Nat) (bs : List Byte) : (s.putHome a bs).fresh = s.fresh := rfl
@[simp] theorem putHome_nextId (a : Nat) (bs : List Byte) : (s.putHome a bs).nextId = s.nextId := rfl
@[simp] theorem putHome_issue (a : Nat) (bs : List Byte) : (s.putHome a bs).issue = s.issue := rfl
@[simp] theorem putHome_second (a : Nat) (bs : List Byte) : (s.putHome a bs).second = s.second := rfl
@[simp] theorem putHome_teams (a : Nat) (bs : List Byte) : (s.putHome a bs).teams = s.teams := rfl
@[simp] theorem putHome_wgs (a : Nat) (bs : List Byte) : (s.putHome a bs).wgs = s.wgs := rfl
@[simp] theorem putHome_gangs (a : Nat) (bs : List Byte) : (s.putHome a bs).gangs = s.gangs := rfl
@[simp] theorem putHome_launches (a : Nat) (bs : List Byte) : (s.putHome a bs).launches = s.launches := rfl
@[simp] theorem putHome_regions (a : Nat) (bs : List Byte) : (s.putHome a bs).regions = s.regions := rfl
@[simp] theorem putHome_parts (a : Nat) (bs : List Byte) : (s.putHome a bs).parts = s.parts := rfl
@[simp] theorem putHome_cores (a : Nat) (bs : List Byte) : (s.putHome a bs).cores = s.cores := rfl
@[simp] theorem putHome_clusters (a : Nat) (bs : List Byte) : (s.putHome a bs).clusters = s.clusters := rfl
@[simp] theorem putHome_dies (a : Nat) (bs : List Byte) : (s.putHome a bs).dies = s.dies := rfl
@[simp] theorem putHome_codes (a : Nat) (bs : List Byte) : (s.putHome a bs).codes = s.codes := rfl
@[simp] theorem putHome_ptes (a : Nat) (bs : List Byte) : (s.putHome a bs).ptes = s.ptes := rfl
@[simp] theorem putHome_pages (a : Nat) (bs : List Byte) : (s.putHome a bs).pages = s.pages := rfl
@[simp] theorem putHome_hostMem (a : Nat) (bs : List Byte) : (s.putHome a bs).hostMem = s.hostMem := rfl
@[simp] theorem putHome_msgs (a : Nat) (bs : List Byte) : (s.putHome a bs).msgs = s.msgs := rfl
@[simp] theorem putHome_loads (a : Nat) (bs : List Byte) : (s.putHome a bs).loads = s.loads := rfl
@[simp] theorem putHome_syncs (a : Nat) (bs : List Byte) : (s.putHome a bs).syncs = s.syncs := rfl
@[simp] theorem putHome_leases (a : Nat) (bs : List Byte) : (s.putHome a bs).leases = s.leases := rfl
@[simp] theorem putHome_keys (a : Nat) (bs : List Byte) : (s.putHome a bs).keys = s.keys := rfl
@[simp] theorem putHome_cmdPledges (a : Nat) (bs : List Byte) : (s.putHome a bs).cmdPledges = s.cmdPledges := rfl
@[simp] theorem putHome_rings (a : Nat) (bs : List Byte) : (s.putHome a bs).rings = s.rings := rfl
@[simp] theorem putHome_jobs (a : Nat) (bs : List Byte) : (s.putHome a bs).jobs = s.jobs := rfl
@[simp] theorem putHome_alarm (a : Nat) (bs : List Byte) : (s.putHome a bs).alarm = s.alarm := rfl
@[simp] theorem putHome_clkNext (a : Nat) (bs : List Byte) : (s.putHome a bs).clkNext = s.clkNext := rfl
@[simp] theorem putHome_todo (a : Nat) (bs : List Byte) : (s.putHome a bs).todo = s.todo := rfl
@[simp] theorem putHome_turn (a : Nat) (bs : List Byte) : (s.putHome a bs).turn = s.turn := rfl
@[simp] theorem putHome_poisoned (a : Nat) (bs : List Byte) : (s.putHome a bs).poisoned = s.poisoned := rfl
@[simp] theorem putHome_dir (a : Nat) (bs : List Byte) : (s.putHome a bs).dir = s.dir := rfl
@[simp] theorem putHome_copies (a : Nat) (bs : List Byte) : (s.putHome a bs).copies = s.copies := rfl
@[simp] theorem putHome_keyCopies (a : Nat) (bs : List Byte) : (s.putHome a bs).keyCopies = s.keyCopies := rfl
@[simp] theorem putHome_rq (a : Nat) (bs : List Byte) : (s.putHome a bs).rq = s.rq := rfl
@[simp] theorem putHome_links (a : Nat) (bs : List Byte) : (s.putHome a bs).links = s.links := rfl
@[simp] theorem putHome_pallum (a : Nat) (bs : List Byte) : (s.putHome a bs).pallum = s.pallum := rfl
@[simp] theorem putHome_rot (a : Nat) (bs : List Byte) : (s.putHome a bs).rot = s.rot := rfl
@[simp] theorem putHome_msix (a : Nat) (bs : List Byte) : (s.putHome a bs).msix = s.msix := rfl
@[simp] theorem putHome_leaseLen (a : Nat) (bs : List Byte) : (s.putHome a bs).leaseLen = s.leaseLen := rfl
@[simp] theorem putHome_leaseMargin (a : Nat) (bs : List Byte) : (s.putHome a bs).leaseMargin = s.leaseMargin := rfl
@[simp] theorem putHome_cxlLanes (a : Nat) (bs : List Byte) : (s.putHome a bs).cxlLanes = s.cxlLanes := rfl
@[simp] theorem putHome_lost (a : Nat) (bs : List Byte) : (s.putHome a bs).lost = s.lost := rfl
@[simp] theorem putHome_collGone (a : Nat) (bs : List Byte) : (s.putHome a bs).collGone = s.collGone := rfl
@[simp] theorem putHome_mgmt (a : Nat) (bs : List Byte) : (s.putHome a bs).mgmt = s.mgmt := rfl
@[simp] theorem putHome_breaks (a : Nat) (bs : List Byte) : (s.putHome a bs).breaks = s.breaks := rfl
@[simp] theorem putHome_migs (a : Nat) (bs : List Byte) : (s.putHome a bs).migs = s.migs := rfl
@[simp] theorem putHome_report (a : Nat) (bs : List Byte) : (s.putHome a bs).report = s.report := rfl
@[simp] theorem putHome_firmware (a : Nat) (bs : List Byte) : (s.putHome a bs).firmware = s.firmware := rfl
@[simp] theorem putHome_firmwareSig (a : Nat) (bs : List Byte) : (s.putHome a bs).firmwareSig = s.firmwareSig := rfl
@[simp] theorem putHome_stallsDue (a : Nat) (bs : List Byte) : (s.putHome a bs).stallsDue = s.stallsDue := rfl
@[simp] theorem putHome_linkWaits (a : Nat) (bs : List Byte) : (s.putHome a bs).linkWaits = s.linkWaits := rfl
@[simp] theorem putHome_halves (a : Nat) (bs : List Byte) : (s.putHome a bs).halves = s.halves := rfl
@[simp] theorem putHome_served (a : Nat) (bs : List Byte) : (s.putHome a bs).served = s.served := rfl
@[simp] theorem putHome_collBad (a : Nat) (bs : List Byte) : (s.putHome a bs).collBad = s.collBad := rfl

/-! What an accessor reads after an update of its own table. -/

theorem updTeam_find (k j : Nat) (f : Team → Team) :
    Tbl.find? (s.updTeam k f).teams j = if k = j then (Tbl.find? s.teams j).map f else Tbl.find? s.teams j := Tbl.find?_updIf ..
theorem updWg_find (k j : Nat) (f : Wg → Wg) :
    Tbl.find? (s.updWg k f).wgs j = if k = j then (Tbl.find? s.wgs j).map f else Tbl.find? s.wgs j := Tbl.find?_updIf ..
theorem updRegion_find (k j : Nat) (f : Region → Region) :
    Tbl.find? (s.updRegion k f).regions j = if k = j then (Tbl.find? s.regions j).map f else Tbl.find? s.regions j := Tbl.find?_updIf ..
theorem updCore_core (k j : Nat) (f : Core → Core) :
    (s.updCore k f).core j = if k = j then f (s.core j) else s.core j := Tbl.get_upd ..
theorem updCluster_cluster (k j : Nat) (f : Cluster → Cluster) :
    (s.updCluster k f).cluster j = if k = j then f (s.cluster j) else s.cluster j := Tbl.get_upd ..
theorem updDie_die (k j : Nat) (f : Die → Die) :
    (s.updDie k f).die j = if k = j then f (s.die j) else s.die j := Tbl.get_upd ..

/-- A team that exists, after an update of it. -/
theorem team_updTeam_self (k : Nat) (f : Team → Team) (t : Team) (h : Tbl.find? s.teams k = some t) :
    (s.updTeam k f).team k = f t := by
  simp [team, Tbl.get, updTeam_find, h]
/-- Another team, after an update of one. -/
theorem team_updTeam_ne (k j : Nat) (f : Team → Team) (h : k ≠ j) : (s.updTeam k f).team j = s.team j := by
  simp [team, Tbl.get, updTeam_find, h]
theorem team_of_find (k : Nat) (t : Team) (h : Tbl.find? s.teams k = some t) : s.team k = t := by
  simp [team, Tbl.get, h]
theorem wg_updWg_self (k : Nat) (f : Wg → Wg) (w : Wg) (h : Tbl.find? s.wgs k = some w) :
    (s.updWg k f).wg k = f w := by
  simp [wg, Tbl.get, updWg_find, h]

end Sys2Proof.Machine.State
end

