-- ==== Sys2Proof/Laws/Registers.lean ====
section
/-!
SUPPORT. What a register, a guard or a lane holds after each operation on a team; the laws of lane masks.
-/

namespace Sys2Proof.Machine

/-! Lane masks. -/

theorem mem_allLanes (l : Nat) : l ∈ allLanes ↔ l < 32 := by simp [allLanes]
theorem mem_lanesOf (m : Mask) (l : Nat) : l ∈ lanesOf m ↔ l < 32 ∧ m.getLsbD l = true := by
  simp [lanesOf, mem_allLanes]
theorem lanesOf_nodup (m : Mask) : (lanesOf m).Nodup := (List.nodup_range).filter _
theorem lanesOf_zero : lanesOf 0 = [] := by simp [lanesOf]

/-- A list that has its elements in a rising order, searched from the front, gives the least. -/
theorem lowest_eq_none (m : Mask) : lowest m = none ↔ m = 0 := by
  constructor
  · intro h
    simp only [lowest, List.find?_eq_none, mem_allLanes] at h
    apply BitVec.eq_of_getLsbD_eq
    intro i hi
    simpa using h i hi
  · rintro rfl; simp [lowest]

theorem lowest_some (m : Mask) (h : m ≠ 0) : ∃ l, lowest m = some l ∧ l < 32 ∧ m.getLsbD l = true := by
  cases e : lowest m with
  | none => exact absurd ((lowest_eq_none m).mp e) h
  | some l =>
    have h1 := List.find?_some e
    have h2 := List.mem_of_find?_eq_some e
    exact ⟨l, rfl, (mem_allLanes l).mp h2, h1⟩

/-! Lanes. -/

namespace Team

variable (t : Team)

@[simp] theorem mapLanes_find (p : Nat → Bool) (f : Nat → Lane → Lane) (l : Nat) (h : l < 32) :
    (t.mapLanes p f).lane l = if p l then f l (t.lane l) else t.lane l := by
  have key : ∀ (ls : List Nat) (g : Nat → Lane), l ∈ ls →
      Tbl.find? (ls.map fun l => (l, g l)) l = some (g l) := by
    intro ls g
    induction ls with
    | nil => intro h; cases h
    | cons x xs ih =>
      intro hm
      simp only [List.map_cons, Tbl.find?_cons]
      split
      · rename_i hx; rw [hx]
      · rename_i hx
        exact ih (by simpa [List.mem_cons, Ne.symm hx] using hm)
  have := key allLanes (fun l => if p l then f l (t.lane l) else t.lane l) ((mem_allLanes l).mpr h)
  show Tbl.get {} (t.mapLanes p f).lanes l = _
  simp only [mapLanes, Tbl.get]
  rw [this]; rfl

theorem mapLanes_eq (p : Nat → Bool) (f : Nat → Lane → Lane) :
    t.mapLanes p f = { t with lanes := (t.mapLanes p f).lanes } := rfl

/-- An advance changes the lanes of its mask that have not gone Off or exited, and nothing else. -/
theorem advance_lane (m : Mask) (l : Nat) (h : l < 32) :
    (t.advance m).lane l = if m.getLsbD l = true ∧ (t.lane l).st ≠ .off ∧ (t.lane l).st ≠ .exited then
      { t.lane l with pc := (t.lane l).pc + 1, st := .running, wait := none, hold := none } else t.lane l := by
  unfold advance
  rw [mapLanes_find _ _ _ _ h]
  by_cases hm : m.getLsbD l = true <;> by_cases h1 : (t.lane l).st = .off <;> by_cases h2 : (t.lane l).st = .exited <;>
    simp_all
theorem advance_eq (m : Mask) : t.advance m = { t with lanes := (t.advance m).lanes } := rfl

/-! Registers. -/

theorem readV_writeV (n m l j : Nat) (x : Word) (hl : l < 32) (hj : j < 32) :
    (t.writeV n l x).readV m j = if n = m ∧ l = j then x else t.readV m j := by
  simp only [readV, writeV, Tbl.get_store]
  by_cases h : 32 * n + l = 32 * m + j
  · have h' : n = m ∧ l = j := by omega
    simp [h']
  · have : ¬ (n = m ∧ l = j) := by omega
    simp [h, this]

theorem readV_writeV64 (n m l j : Nat) (x : DWord) (hl : l < 32) (hj : j < 32) :
    (t.writeV64 n l x).readV m j = if l = j ∧ n = m then x.extractLsb' 0 32
      else if l = j ∧ n + 1 = m then x.extractLsb' 32 32 else t.readV m j := by
  simp only [writeV64, readV_writeV _ _ _ _ _ _ hl hj]
  by_cases h1 : l = j <;> by_cases h2 : n = m <;> by_cases h3 : n + 1 = m <;> simp_all

theorem readV64_writeV64 (n l : Nat) (x : DWord) (hl : l < 32) : (t.writeV64 n l x).readV64 n l = x := by
  have h : ¬ n = n + 1 := by omega
  simp only [readV64, readV_writeV64 _ _ _ _ _ _ hl hl, true_and, h, if_true, if_false]
  apply BitVec.eq_of_getLsbD_eq
  intro i hi
  simp only [BitVec.getLsbD_append, BitVec.getLsbD_extractLsb']
  by_cases h : i < 32
  · simp [h]
  · have h1 : i - 32 < 32 := by omega
    have h2 : 32 + (i - 32) = i := by omega
    simp [h, h1, h2]

theorem readS_writeS (n m : Nat) (x : DWord) : (t.writeS n x).readS m = if n = m then x else t.readS m := by
  simp only [readS, writeS, Tbl.get_store]

theorem guard_writeG (n k : Nat) (m val : Mask) :
    (t.writeG n m val).guard k = if n = k ∧ n ≠ 7 then (t.guard k &&& ~~~m) ||| (val &&& m) else t.guard k := by
  unfold writeG
  by_cases h : n = 7
  · simp [h]
  · simp only [h, if_false]
    unfold guard
    by_cases hk : k = 7
    · have : n ≠ k := by omega
      simp [hk, h]
    · simp only [hk, if_false, Tbl.get_store]
      by_cases hn : n = k <;> simp_all

@[simp] theorem guard_seven : t.guard 7 = BitVec.allOnes 32 := rfl
@[simp] theorem writeG_seven (m val : Mask) : t.writeG 7 m val = t := rfl

/-! What a register write leaves alone. -/

theorem writeV_eq (n l : Nat) (x : Word) : t.writeV n l x = { t with v := (t.writeV n l x).v } := rfl
theorem writeV64_eq (n l : Nat) (x : DWord) : t.writeV64 n l x = { t with v := (t.writeV64 n l x).v } := rfl
theorem writeS_eq (n : Nat) (x : DWord) : t.writeS n x = { t with s := (t.writeS n x).s } := rfl
theorem writeG_eq (n : Nat) (m val : Mask) : t.writeG n m val = { t with g := (t.writeG n m val).g } := by
  unfold writeG; split <;> rfl
theorem gather_eq (fl : BitVec 5) : t.gather fl = { t with fpstat := t.fpstat ||| fl.setWidth 32 } := rfl

end Team

/-- One bit of a guard after a write of one lane's bit. -/
theorem Team.guard_bit_writeG (t : Team) (n k l j : Nat) (b : Bool) (hj : j < 32) :
    ((t.writeG n (1#32 <<< l) (if b then BitVec.allOnes 32 else 0)).guard k).getLsbD j =
      if n = k ∧ n ≠ 7 ∧ l = j then b else (t.guard k).getLsbD j := by
  rw [Team.guard_writeG]
  have hb : (1#32 <<< l).getLsbD j = decide (l = j) := by
    rw [BitVec.getLsbD_shiftLeft, BitVec.getLsbD_one]
    by_cases h : l = j
    · subst h; simp [hj]
    · by_cases h' : j < l
      · simp [h, h']
      · have : ¬ j - l = 0 := by omega
        simp [h, this]
  by_cases h1 : n = k ∧ n ≠ 7
  · rw [if_pos h1]
    obtain ⟨rfl, h7⟩ := h1
    simp only [BitVec.getLsbD_or, BitVec.getLsbD_and, BitVec.getLsbD_not, hb, hj, decide_true, Bool.true_and]
    by_cases h : l = j
    · subst h; cases b <;> simp [h7, hj, -BitVec.reduceAllOnes]
    · simp [h]
  · rw [if_neg h1]
    have : ¬ (n = k ∧ n ≠ 7 ∧ l = j) := fun q => h1 ⟨q.1, q.2.1⟩
    simp only [this, if_false]

/-! A write in every active lane of a vector or guard destination. -/

/-- A fold of writes to one vector register of up to 32 bits, lane by lane. -/
theorem foldl_writeV (ls : List Nat) (t : Team) (k : Nat) (x : Nat → Word) (hl : ∀ l ∈ ls, l < 32)
    (m j : Nat) (hj : j < 32) :
    (ls.foldl (fun t l => t.writeV k l (x l)) t).readV m j = if k = m ∧ j ∈ ls then x j else t.readV m j := by
  induction ls generalizing t with
  | nil => simp
  | cons a ls ih =>
    have ha : a < 32 := hl a (List.mem_cons_self ..)
    rw [List.foldl_cons, ih _ (fun l h => hl l (List.mem_cons_of_mem _ h)), Team.readV_writeV _ _ _ _ _ _ ha hj]
    simp only [List.mem_cons]
    by_cases h3 : a = j
    · subst h3; by_cases h1 : k = m <;> by_cases h2 : a ∈ ls <;> simp [h1, h2]
    · by_cases h1 : k = m <;> by_cases h2 : j ∈ ls <;> simp [h1, h2, h3, Ne.symm h3]

/-- The same for a register pair. -/
theorem foldl_writeV64 (ls : List Nat) (t : Team) (k : Nat) (x : Nat → DWord) (hl : ∀ l ∈ ls, l < 32)
    (m j : Nat) (hj : j < 32) :
    (ls.foldl (fun t l => t.writeV64 k l (x l)) t).readV m j =
      if j ∈ ls ∧ k = m then (x j).extractLsb' 0 32
      else if j ∈ ls ∧ k + 1 = m then (x j).extractLsb' 32 32 else t.readV m j := by
  induction ls generalizing t with
  | nil => simp
  | cons a ls ih =>
    have ha : a < 32 := hl a (List.mem_cons_self ..)
    rw [List.foldl_cons, ih _ (fun l h => hl l (List.mem_cons_of_mem _ h)), Team.readV_writeV64 _ _ _ _ _ _ ha hj]
    simp only [List.mem_cons]
    by_cases h3 : a = j
    · subst h3; by_cases h1 : k = m <;> by_cases h4 : k + 1 = m <;> by_cases h2 : a ∈ ls <;> simp [h1, h2, h4]
    · by_cases h1 : k = m <;> by_cases h4 : k + 1 = m <;> by_cases h2 : j ∈ ls <;> simp [h1, h2, h3, h4, Ne.symm h3]

/-- A fold of one-bit writes to one guard, lane by lane. -/
theorem foldl_writeG (ls : List Nat) (t : Team) (k : Nat) (p : Nat → Bool) (hl : ∀ l ∈ ls, l < 32)
    (m j : Nat) (hj : j < 32) :
    ((ls.foldl (fun t l => t.writeG k (1#32 <<< l) (if p l then BitVec.allOnes 32 else 0)) t).guard m).getLsbD j =
      if k = m ∧ k ≠ 7 ∧ j ∈ ls then p j else (t.guard m).getLsbD j := by
  induction ls generalizing t with
  | nil => simp
  | cons a ls ih =>
    have ha : a < 32 := hl a (List.mem_cons_self ..)
    rw [List.foldl_cons, ih _ (fun l h => hl l (List.mem_cons_of_mem _ h)),
      Team.guard_bit_writeG _ _ _ _ _ _ hj]
    simp only [List.mem_cons]
    by_cases h3 : a = j
    · subst h3; by_cases h1 : k = m ∧ k ≠ 7
      · obtain ⟨rfl, h7⟩ := h1
        by_cases h2 : a ∈ ls <;> simp [h7, h2]
      · have h1' : ∀ q : Prop, ¬ (k = m ∧ k ≠ 7 ∧ q) := fun q h => h1 ⟨h.1, h.2.1⟩
        simp only [h1', if_false]
    · have : (j = a ∨ j ∈ ls) = (j ∈ ls) := by simp [Ne.symm h3]
      simp only [this]
      split <;> simp [h3]

end Sys2Proof.Machine
end

