-- ==== Sys2Proof/Laws/Issue.lean ====
section
/-!
SUPPORT. What a word instruction comes to: what fetching, `write`, `advance` and `finish` change, and the cases of
`wordIns`.
-/

namespace Sys2Proof.Machine

/-! States that differ in one team, in caches and in counts. -/

namespace Elsewhere

variable {k : Nat} {a b c : State}

theorem refl (k : Nat) (s : State) : Elsewhere k s s :=
  ⟨rfl, List.prefix_rfl, fun _ _ => rfl, fun _ => rfl, fun _ => rfl, fun _ => rfl⟩

theorem trans (h : Elsewhere k a b) (g : Elsewhere k b c) : Elsewhere k a c where
  rest := by rw [g.rest, h.rest]
  served := h.served.trans g.served
  teams j hj := (g.teams j hj).trans (h.teams j hj)
  cores i := by rw [g.cores i, h.cores i]
  clusters i := by rw [g.clusters i, h.clusters i]
  regions r := by rw [g.regions r, h.regions r]

theorem updTeam (k : Nat) (s : State) (f : Team → Team) : Elsewhere k s (s.updTeam k f) where
  rest := rfl
  served := List.prefix_rfl
  teams j hj := by rw [State.updTeam_find, if_neg (Ne.symm hj)]
  cores _ := rfl
  clusters _ := rfl
  regions _ := rfl

theorem updRegion (k r : Nat) (s : State) (f : Region → Region)
    (h : ∀ g, f g = { g with issues := (f g).issues, energy := (f g).energy }) : Elsewhere k s (s.updRegion r f) where
  rest := rfl
  served := List.prefix_rfl
  teams _ _ := rfl
  cores _ := rfl
  clusters _ := rfl
  regions j := by
    have e : (s.updRegion r f).region j = if r = j ∧ (Tbl.find? s.regions j).isSome then f (s.region j) else s.region j := by
      simp only [State.region, Tbl.get, State.updRegion_find]
      by_cases hj : r = j
      · subst hj; cases Tbl.find? s.regions r <;> simp
      · simp [hj]
    rw [e]
    split
    · exact h _
    · rfl

theorem tlbFill (k : Nat) (s : State) (core : Nat) (e : TlbEnt) : Elsewhere k s (s.tlbFill core e) where
  rest := rfl
  served := List.prefix_rfl
  teams _ _ := rfl
  cores i := by
    show ((s.updCore core _).updCluster _ _).core i = _
    have : ∀ (x : State) (q : Nat) (f : Cluster → Cluster), (x.updCluster q f).core i = x.core i := fun _ _ _ => rfl
    rw [State.tlbFill, this, State.updCore_core]
    split <;> rfl
  clusters i := by
    rw [State.tlbFill, State.updCluster_cluster]
    split <;> rfl
  regions _ := rfl

/-- What a core's TLB and its fetch copies hold. -/
theorem caches (k : Nat) (s : State) (core : Nat) (f : Core → Core)
    (h : ∀ c, f c = { c with tlb := (f c).tlb, fcopy := (f c).fcopy }) : Elsewhere k s (s.updCore core f) where
  rest := rfl
  served := List.prefix_rfl
  teams _ _ := rfl
  cores i := by
    rw [State.updCore_core]
    split
    · exact h _
    · rfl
  clusters _ := rfl
  regions _ := rfl

theorem tlbTouch (k : Nat) (s : State) (core part va : Nat) : Elsewhere k s (s.tlbTouch core part va) := by
  unfold State.tlbTouch
  dsimp only
  split
  · exact caches _ _ _ _ fun _ => rfl
  · split
    · exact tlbFill ..
    · exact refl k s

theorem readHome (k : Nat) (s : State) (ga : Nat) : Elsewhere k s (s.readHome ga) :=
  ⟨rfl, List.prefix_append .., fun _ _ => rfl, fun _ => rfl, fun _ => rfl, fun _ => rfl⟩

end Elsewhere

/-! Fetching. -/

theorem State.leafFor_elsewhere (k : Nat) (s s' : State) (core part va : Nat) (pte : DWord) (shift : Nat)
    (h : s.leafFor core part va = some (pte, shift, s')) : Elsewhere k s s' := by
  unfold State.leafFor at h
  split at h
  · cases h; exact .tlbTouch ..
  · split at h
    · split at h
      · cases h; exact .refl k s
      · cases h; exact .tlbFill ..
    · cases h

theorem State.fetchPage_elsewhere (k : Nat) (s : State) (core part va : Nat) :
    Elsewhere k s (s.fetchPage core part va).2 := by
  unfold State.fetchPage
  split
  · rename_i e
    split
    · exact .refl k s
    · split
      · exact .refl k s
      · exact State.leafFor_elsewhere _ _ _ _ _ _ _ _ e
  · split <;> exact .refl k s

theorem State.fetchLine_elsewhere (k : Nat) (s : State) (core line : Nat) :
    Elsewhere k s (s.fetchLine core line).2 := by
  unfold State.fetchLine
  split
  · exact .refl k s
  · exact Elsewhere.trans (.readHome k s (128 * line)) (.caches _ _ _ _ fun _ => rfl)

theorem State.fetchWord_elsewhere (k : Nat) (s : State) (core ga : Nat) : Elsewhere k s (s.fetchWord core ga).2 := by
  unfold State.fetchWord
  dsimp only
  split
  · exact State.fetchLine_elsewhere ..
  · exact (State.fetchLine_elsewhere k s core (ga / 128)).trans (State.fetchLine_elsewhere ..)

theorem State.fetchVia_elsewhere (k : Nat) (s : State) (va : Nat) (r : Option Nat × State) (g : State → Fetched × State)
    (h : Elsewhere k s r.2) (hk : ∀ s1 : State, Elsewhere k s s1 → Elsewhere k s (g s1).2) :
    Elsewhere k s (State.fetchVia va r g).2 := by
  obtain ⟨o, s1⟩ := r
  cases o with
  | some sub => exact h
  | none => exact hk s1 h

theorem State.fetchCode_elsewhere (k : Nat) (s : State) (t : Nat) (pc : Word) :
    Elsewhere k s (s.fetchCode t pc).2 := by
  unfold State.fetchCode
  generalize (s.team t).core = core, s.teamPart t = part, s.codeOf t = code
  dsimp only
  generalize code + 12 * pc.toNat = va
  split
  · exact .refl k s
  · split
    · exact .refl k s
    · split
      · exact .refl k s
      · refine State.fetchVia_elsewhere _ _ _ _ _ (State.fetchPage_elsewhere ..) fun s1 h1 => ?_
        refine State.fetchVia_elsewhere _ _ _ _ _ (h1.trans (State.fetchPage_elsewhere ..)) fun s2 h2 => ?_
        rw [Prod.map_snd, id_eq]
        exact Elsewhere.trans h2 (State.fetchWord_elsewhere k s2 core (gaOf part va))

/-! A team after a step of its own. -/

namespace Team.Kept

variable {a b c : Team}

theorem refl (t : Team) : t.Kept t := rfl
theorem trans (h : a.Kept b) (g : b.Kept c) : a.Kept c := by unfold Team.Kept at *; rw [g, h]
theorem mapLanes (t : Team) (p : Nat → Bool) (f : Nat → Lane → Lane) : t.Kept (t.mapLanes p f) := rfl

end Team.Kept

/-- A team that differs from another in the words fetched ahead alone. -/
theorem State.fetch_team (s : State) (k : Nat) (pc : Word) (t : Team) (h : Tbl.find? s.teams k = some t) :
    ∃ a, Tbl.find? (s.fetch k pc).2.teams k = some { t with ahead := a } := by
  have code : Tbl.find? (s.fetchCode k pc).2.teams k = some t := by
    rw [(State.fetchCode_elsewhere (k + 1) s k pc).teams k (by omega), h]
  unfold State.fetch
  split
  · exact ⟨t.ahead, h⟩
  · split
    · refine ⟨(t.ahead.filter fun (p, _) => p != pc), ?_⟩
      rw [State.updTeam_find, if_pos rfl, h]; rfl
    · exact ⟨t.ahead, code⟩

theorem State.fetch_elsewhere (s : State) (k : Nat) (pc : Word) : Elsewhere k s (s.fetch k pc).2 := by
  unfold State.fetch
  split
  · exact .refl k s
  · split
    · exact .updTeam ..
    · exact State.fetchCode_elsewhere ..

theorem State.fetchAhead_elsewhere (s : State) (k : Nat) (pc : Word) : Elsewhere k s (s.fetchAhead k pc).2 := by
  have h := State.fetch_elsewhere s k pc
  unfold State.fetchAhead
  split
  · exact .refl k s
  · split
    · rename_i e
      rw [e] at h
      exact h.trans (.updTeam ..)
    · exact .refl k s

theorem State.fetchAhead_team (s : State) (k : Nat) (pc : Word) (t : Team) (h : Tbl.find? s.teams k = some t) :
    ∃ a, Tbl.find? (s.fetchAhead k pc).2.teams k = some { t with ahead := a } := by
  obtain ⟨a, ha⟩ := State.fetch_team s k pc t h
  unfold State.fetchAhead
  split
  · exact ⟨t.ahead, h⟩
  · split
    · rename_i w _ e
      rw [e] at ha
      refine ⟨(pc, w) :: a, ?_⟩
      rw [State.updTeam_find, if_pos rfl, ha]; rfl
    · exact ⟨t.ahead, h⟩

/-- What a look at the next word changes: of its team the words fetched ahead and the chain, whose latches it keeps. -/
theorem State.lookOn_elsewhere (s : State) (k : Nat) (pc : Word) (ch : Chain) : Elsewhere k s (s.lookOn k pc ch) := by
  unfold State.lookOn
  split
  · exact .updTeam ..
  · exact (State.fetchAhead_elsewhere s k pc).trans (.updTeam ..)

theorem State.lookOn_team (s : State) (k : Nat) (pc : Word) (ch : Chain) (t : Team) (h : Tbl.find? s.teams k = some t) :
    ∃ a o, Tbl.find? (s.lookOn k pc ch).teams k = some { t with ahead := a, chain := o } ∧
      ∀ x, o = some x → x.vals = ch.vals := by
  unfold State.lookOn
  split
  · rw [State.updTeam_find, if_pos rfl, h]
    exact ⟨t.ahead, _, rfl, fun x e => by cases e; rfl⟩
  · obtain ⟨a, ha⟩ := State.fetchAhead_team s k pc t h
    dsimp only
    rw [State.updTeam_find, if_pos rfl, ha]
    refine ⟨a, _, rfl, fun x e => ?_⟩
    have pick : ∀ (p : Prop) [Decidable p] (y : Chain), (if p then some y else none) = some x → y = x := by
      intro p _ y g
      split at g
      · exact Option.some.inj g
      · cases g
    rw [← pick _ _ e]

/-- What `chainAfter` changes: nothing where the word takes no part in a chain. -/
theorem chainAfter_plain (c : Ctx) (s : State) (h : (c.f.h.chain || c.f.d.lat.isSome) = false) :
    chainAfter c s = s := by
  simp only [chainAfter, h, Bool.not_false, if_true]

theorem chainAfter_elsewhere (c : Ctx) (s : State) : Elsewhere c.is.team s (chainAfter c s) := by
  unfold chainAfter
  split
  · exact .refl _ s
  · dsimp only
    split
    · exact .refl _ s
    · split
      · exact .refl _ s
      · split
        · exact .updTeam ..
        · split
          · exact .updTeam ..
          · exact State.lookOn_elsewhere ..

/-- Of its team `chainAfter` changes the words fetched ahead and the chain; one that stays open keeps the values of its
latches. -/
theorem chainAfter_spec (c : Ctx) (s : State) (t : Team) (h : Tbl.find? s.teams c.is.team = some t) :
    ∃ a o, Tbl.find? (chainAfter c s).teams c.is.team = some { t with ahead := a, chain := o } ∧
      ∀ ch', o = some ch' → ∃ ch, t.chain = some ch ∧ ch'.vals = ch.vals := by
  unfold chainAfter
  split
  · exact ⟨t.ahead, t.chain, h, fun ch' e => ⟨ch', e, rfl⟩⟩
  · dsimp only
    split
    · exact ⟨t.ahead, t.chain, h, fun ch' e => ⟨ch', e, rfl⟩⟩
    · rename_i ch e
      rw [State.team_of_find _ _ _ h] at e
      split
      · exact ⟨t.ahead, t.chain, h, fun ch' e => ⟨ch', e, rfl⟩⟩
      · split
        · rw [State.updTeam_find, if_pos rfl, h]
          exact ⟨t.ahead, _, rfl, fun x g => ⟨ch, e, by cases g; rfl⟩⟩
        · split
          · rw [State.updTeam_find, if_pos rfl, h]
            exact ⟨t.ahead, none, rfl, fun x g => by cases g⟩
          · obtain ⟨a, o, ha, ho⟩ := State.lookOn_team s c.is.team (c.is.pc + 1) _ t h
            exact ⟨a, o, ha, fun x g => ⟨ch, e, ho x g⟩⟩

theorem chainAfter_team (c : Ctx) (s : State) (t : Team) (h : Tbl.find? s.teams c.is.team = some t) :
    ∃ a ch, Tbl.find? (chainAfter c s).teams c.is.team = some { t with ahead := a, chain := ch } := by
  obtain ⟨a, o, e, -⟩ := chainAfter_spec c s t h
  exact ⟨a, o, e⟩

/-- A chain that stays open keeps the values of its latches. -/
theorem chainAfter_vals (c : Ctx) (s : State) (t : Team) (h : Tbl.find? s.teams c.is.team = some t) :
    ∃ t', Tbl.find? (chainAfter c s).teams c.is.team = some t' ∧
      ∀ ch', t'.chain = some ch' → ∃ ch, t.chain = some ch ∧ ch'.vals = ch.vals := by
  obtain ⟨a, o, e, ho⟩ := chainAfter_spec c s t h
  exact ⟨_, e, fun ch' g => ho ch' g⟩

/-- `finish` changes nothing of the state but the team, caches and counts. -/
theorem finish_elsewhere (c : Ctx) (s : State) : Elsewhere c.is.team s (finish c s) := by
  unfold finish countIssue State.countIssueOf State.charge
  dsimp only
  refine Elsewhere.trans ?_ (Elsewhere.updRegion _ _ _ _ fun _ => rfl)
  refine Elsewhere.trans ?_ (Elsewhere.updRegion _ _ _ _ fun _ => rfl)
  exact (Elsewhere.updTeam ..).trans (chainAfter_elsewhere ..)

/-- `finish` leaves the team's registers alone, and every lane where it stands. -/
theorem finish_team (c : Ctx) (s : State) (t : Team) (h : Tbl.find? s.teams c.is.team = some t) :
    ∃ t', Tbl.find? (finish c s).teams c.is.team = some t' ∧ t.Kept t' ∧
      ∀ l, l < 32 → (t'.lane l).pc = (t.lane l).pc ∧ (t'.lane l).st = (t.lane l).st ∧
        (t'.lane l).level = (t.lane l).level ∧ (t'.lane l).wait = (t.lane l).wait ∧
        (t'.lane l).hold = (t.lane l).hold := by
  unfold finish countIssue State.countIssueOf State.charge
  dsimp only
  rw [State.updRegion_teams, State.updRegion_teams]
  have key : ∀ (f : Team → Team), (∀ x : Team, x.Kept (f x)) →
      (∀ (x : Team) (l : Nat), l < 32 → ((f x).lane l).pc = (x.lane l).pc ∧ ((f x).lane l).st = (x.lane l).st ∧
        ((f x).lane l).level = (x.lane l).level ∧ ((f x).lane l).wait = (x.lane l).wait ∧
        ((f x).lane l).hold = (x.lane l).hold) →
      ∃ t', Tbl.find? (chainAfter c (s.updTeam c.is.team f)).teams c.is.team = some t' ∧ t.Kept t' ∧
      ∀ l, l < 32 → (t'.lane l).pc = (t.lane l).pc ∧ (t'.lane l).st = (t.lane l).st ∧
        (t'.lane l).level = (t.lane l).level ∧ (t'.lane l).wait = (t.lane l).wait ∧
        (t'.lane l).hold = (t.lane l).hold := by
    intro f hk hl
    obtain ⟨a, ch, e⟩ := chainAfter_team c (s.updTeam c.is.team f) (f t)
      (by rw [State.updTeam_find, if_pos rfl, h]; rfl)
    exact ⟨_, e, (hk t).trans rfl, fun l h => hl t l h⟩
  apply key
  · intro x
    split <;> exact Team.Kept.trans (b := { x with skid := _ }) rfl (Team.Kept.mapLanes _ _ _)
  · intro x l hl
    rw [Team.mapLanes_find _ _ _ _ hl]
    have : ∀ y : Team, y.lanes = x.lanes → y.lane l = x.lane l := fun y e => by unfold Team.lane; rw [e]
    split <;> split <;> simp [Team.lane]

/-- `finish` keeps the latches of a chain that stays open. -/
theorem finish_vals (c : Ctx) (s : State) (t : Team) (h : Tbl.find? s.teams c.is.team = some t) :
    ∃ t', Tbl.find? (finish c s).teams c.is.team = some t' ∧
      ∀ ch', t'.chain = some ch' → ∃ ch, t.chain = some ch ∧ ch'.vals = ch.vals := by
  unfold finish countIssue State.countIssueOf State.charge
  dsimp only
  rw [State.updRegion_teams, State.updRegion_teams]
  have key : ∀ (f : Team → Team), (∀ x : Team, (f x).chain = x.chain) →
      ∃ t', Tbl.find? (chainAfter c (s.updTeam c.is.team f)).teams c.is.team = some t' ∧
        ∀ ch', t'.chain = some ch' → ∃ ch, t.chain = some ch ∧ ch'.vals = ch.vals := by
    intro f hf
    rw [← hf t]
    exact chainAfter_vals c (s.updTeam c.is.team f) (f t) (by rw [State.updTeam_find, if_pos rfl, h]; rfl)
  apply key
  intro x
  split <;> rfl

/-! Writing a destination. -/

/-- A team that differs from another in its registers, guards and the latches of its chain alone. -/
def Team.Written (t t' : Team) : Prop := t' = { t with v := t'.v, s := t'.s, g := t'.g, chain := t'.chain }

namespace Team.Written

variable {a b c : Team}

theorem refl (t : Team) : t.Written t := rfl
theorem trans (h : a.Written b) (g : b.Written c) : a.Written c := by unfold Team.Written at *; rw [g, h]
theorem writeV (t : Team) (n l : Nat) (x : Word) : t.Written (t.writeV n l x) := rfl
theorem writeV64 (t : Team) (n l : Nat) (x : DWord) : t.Written (t.writeV64 n l x) := rfl
theorem writeS (t : Team) (n : Nat) (x : DWord) : t.Written (t.writeS n x) := rfl
theorem writeG (t : Team) (n : Nat) (m v : Mask) : t.Written (t.writeG n m v) := by
  unfold Team.writeG; split <;> rfl
theorem writeDst (t : Team) (r : Dst) (n : Nat) (sg vs : Bool) (l x : Nat) : t.Written (t.writeDst r n sg vs l x) := by
  unfold Team.writeDst
  split
  · split
    · exact writeV64 ..
    · exact writeV ..
  · exact writeS ..
  · exact writeG ..
  · exact refl t
theorem writeLatch (t : Team) (b : BitVec 2) (n : Nat) (vs : Bool) (l x : Nat) : t.Written (t.writeLatch b n vs l x) :=
  rfl
theorem foldl {α : Type} (ls : List α) (f : Team → α → Team) (h : ∀ (t : Team) (x : α), t.Written (f t x))
    (t : Team) :
    t.Written (ls.foldl f t) := by
  induction ls generalizing t with
  | nil => exact refl t
  | cons x ls ih => exact (h t x).trans (ih (f t x))

end Team.Written

/-- What a destination holds depends on the registers alone. -/
theorem Team.Holds.congr {t a b : Team} {d : Option Dst} {m : Mask} {n : Nat} {sg : Bool} {x : Nat → Nat}
    (h : t.Holds a d m n sg x) (hv : b.v = a.v) (hs : b.s = a.s) (hg : b.g = a.g) : t.Holds b d m n sg x := by
  have e1 : ∀ r l, b.readV r l = a.readV r l := fun r l => by unfold Team.readV; rw [hv]
  have e2 : ∀ r, b.readS r = a.readS r := fun r => by unfold Team.readS; rw [hs]
  have e3 : ∀ r, b.guard r = a.guard r := fun r => by unfold Team.guard; rw [hg]
  exact ⟨fun r l hl => by rw [e1]; exact h.1 r l hl, fun r => by rw [e2]; exact h.2.1 r,
    fun r l hl => by rw [e3]; exact h.2.2 r l hl⟩

theorem Team.Holds.congr_left {t u a : Team} {d : Option Dst} {m : Mask} {n : Nat} {sg : Bool} {x : Nat → Nat}
    (h : t.Holds a d m n sg x) (hv : u.v = t.v) (hs : u.s = t.s) (hg : u.g = t.g) : u.Holds a d m n sg x := by
  have e1 : ∀ r l, u.readV r l = t.readV r l := fun r l => by unfold Team.readV; rw [hv]
  have e2 : ∀ r, u.readS r = t.readS r := fun r => by unfold Team.readS; rw [hs]
  have e3 : ∀ r, u.guard r = t.guard r := fun r => by unfold Team.guard; rw [hg]
  refine ⟨fun r l hl => ?_, fun r => ?_, fun r l hl => ?_⟩
  · rw [e1 r l]; exact h.1 r l hl
  · rw [e2 r]; exact h.2.1 r
  · rw [e3 r]; exact h.2.2 r l hl

/-- A write that no lane makes. -/
theorem Team.Holds.idle (t : Team) (d : Option Dst) (n : Nat) (sg : Bool) (x : Nat → Nat) : t.Holds t d 0 n sg x := by
  refine ⟨fun r l _ => ?_, fun r => ?_, fun r l _ => ?_⟩
  · split <;> simp
  · split <;> simp
  · split <;> simp

/-- A fold of operations that leave a field of the team alone leaves it alone. -/
theorem foldl_same {β : Type} (g : Team → β) (f : Team → Nat → Team) (h : ∀ u l, g (f u l) = g u) (ls : List Nat)
    (t : Team) : g (ls.foldl f t) = g t := by
  induction ls generalizing t with
  | nil => rfl
  | cons a ls ih => rw [List.foldl_cons, ih, h]

theorem Ctx.wrote_holds (c : Ctx) (n : Nat) (sg : Bool) (x : Nat → Nat) (t : Team) (ha : c.active ≠ 0) :
    t.Holds (c.wrote n sg false x t) c.f.d.dst c.active n sg x := by
  have hl : ∀ l ∈ c.lanes, l < 32 := fun l h => ((mem_lanesOf _ _).mp h).1
  have hm : ∀ l, l < 32 → (l ∈ c.lanes ↔ c.active.getLsbD l = true) := fun l h => by
    simp [Ctx.lanes, mem_lanesOf, h]
  have sameS : ∀ u : Team, u.s = t.s → ∀ r, u.readS r = t.readS r := fun u e r => by unfold Team.readS; rw [e]
  have sameV : ∀ u : Team, u.v = t.v → ∀ r l, u.readV r l = t.readV r l := fun u e r l => by unfold Team.readV; rw [e]
  have sameG : ∀ u : Team, u.g = t.g → ∀ r, u.guard r = t.guard r := fun u e r => by unfold Team.guard; rw [e]
  unfold Ctx.wrote
  split
  · rename_i k e
    simp only [e]
    by_cases h64 : n = 64
    · subst h64
      have f : ∀ (u : Team) (l : Nat), u.writeDst (.v k) 64 sg false l (x l) = u.writeV64 k.toNat l (BitVec.ofNat 64 (x l)) :=
        fun _ _ => rfl
      simp only [f]
      have ks := foldl_same (·.s) (fun t l => t.writeV64 k.toNat l (BitVec.ofNat 64 (x l))) (fun _ _ => rfl) c.lanes t
      have kg := foldl_same (·.g) (fun t l => t.writeV64 k.toNat l (BitVec.ofNat 64 (x l))) (fun _ _ => rfl) c.lanes t
      refine ⟨fun r l h => ?_, sameS _ ks, fun r l _ => by rw [sameG _ kg]⟩
      rw [foldl_writeV64 _ _ _ _ hl _ _ h]
      simp only [hm l h]
      have e1 : (BitVec.ofNat 64 (x l)).extractLsb' 0 32 = BitVec.ofNat 32 (x l) := by
        apply BitVec.eq_of_toNat_eq; simp [BitVec.extractLsb'_toNat]
      have e2 : (BitVec.ofNat 64 (x l)).extractLsb' 32 32 = BitVec.ofNat 32 (x l / 2 ^ 32) := by
        apply BitVec.eq_of_toNat_eq
        simp [BitVec.extractLsb'_toNat, Nat.shiftRight_eq_div_pow]; omega
      rw [e1, e2]
      by_cases h1 : c.active.getLsbD l = true <;> by_cases h2 : k.toNat = r <;> by_cases h3 : k.toNat + 1 = r <;>
        simp [h1, h2, h3]
    · have f : ∀ (u : Team) (l : Nat), u.writeDst (.v k) n sg false l (x l) =
          u.writeV k.toNat l (BitVec.ofNat 32 (x l % 2 ^ n)) := fun u l => by simp [Team.writeDst, h64, toVector]
      simp only [f]
      have ks := foldl_same (·.s) (fun t l => t.writeV k.toNat l (BitVec.ofNat 32 (x l % 2 ^ n))) (fun _ _ => rfl) c.lanes t
      have kg := foldl_same (·.g) (fun t l => t.writeV k.toNat l (BitVec.ofNat 32 (x l % 2 ^ n))) (fun _ _ => rfl) c.lanes t
      refine ⟨fun r l h => ?_, sameS _ ks, fun r l _ => by rw [sameG _ kg]⟩
      rw [foldl_writeV _ _ _ _ hl _ _ h]
      simp only [hm l h]
      by_cases h1 : c.active.getLsbD l = true <;> by_cases h2 : k.toNat = r <;> simp [h1, h2, h64]
  · rename_i k e
    simp only [e]
    have f : ∀ (u : Team) (l : Nat), u.writeDst (.g k) n sg false l (x l) =
        u.writeG k.toNat (1#32 <<< l) (if decide (x l % 2 = 1) then BitVec.allOnes 32 else 0) := fun u l => by
      simp [Team.writeDst]
    simp only [f]
    have gs : ∀ (u : Team) (l : Nat), (u.writeG k.toNat (1#32 <<< l)
        (if decide (x l % 2 = 1) then BitVec.allOnes 32 else 0)).s = u.s := fun u l => by
      unfold Team.writeG; split <;> rfl
    have gv : ∀ (u : Team) (l : Nat), (u.writeG k.toNat (1#32 <<< l)
        (if decide (x l % 2 = 1) then BitVec.allOnes 32 else 0)).v = u.v := fun u l => by
      unfold Team.writeG; split <;> rfl
    have ks := foldl_same (·.s) _ gs c.lanes t
    have kv := foldl_same (·.v) _ gv c.lanes t
    refine ⟨fun r l h => sameV _ kv r l, sameS _ ks, fun r l h => ?_⟩
    rw [foldl_writeG _ _ _ (fun l => decide (x l % 2 = 1)) hl _ _ h]
    simp only [hm l h]
    by_cases h1 : c.active.getLsbD l = true <;> by_cases h2 : k.toNat = r <;> by_cases h3 : r = 7 <;>
      simp [h1, h2, h3]
  · rename_i k e
    simp only [e]
    refine ⟨fun r l _ => rfl, fun r => ?_, fun r l _ => rfl⟩
    show (t.writeS k.toNat (toScalar n sg (x c.low))).readS r = _
    rw [Team.readS_writeS]
    simp only [ha, ne_eq, not_false_eq_true, true_and]
    rfl
  · rename_i h1 h2 h3
    refine ⟨fun r l _ => ?_, fun r => ?_, fun r l _ => ?_⟩ <;> split <;> first | rfl | simp_all

theorem Team.writeDst_chain (t : Team) (r : Dst) (n : Nat) (sg vs : Bool) (l x : Nat) :
    (t.writeDst r n sg vs l x).chain = t.chain := by
  unfold Team.writeDst Team.writeV64 Team.writeV Team.writeS Team.writeG
  split
  · split <;> rfl
  · rfl
  · split <;> rfl
  · rfl

theorem Ctx.wrote_chain (c : Ctx) (n : Nat) (sg vs : Bool) (x : Nat → Nat) (t : Team) :
    (c.wrote n sg vs x t).chain = t.chain := by
  unfold Ctx.wrote
  split
  · exact foldl_same (·.chain) _ (fun u l => u.writeDst_chain _ n sg vs l (x l)) c.lanes t
  · exact foldl_same (·.chain) _ (fun u l => u.writeDst_chain _ n sg vs l (x l)) c.lanes t
  · exact t.writeDst_chain ..
  · rfl

/-- The latch of a destination after `latched`. -/
theorem Ctx.latched_spec (c : Ctx) (n : Nat) (x : Nat → Nat) (t : Team) :
    (c.latched n false x t).Latched c.f.d c.active n x := by
  intro b ch hb hc hn l hl hm
  obtain ⟨y, hy⟩ : ∃ y : Nat → Nat, ∀ j, y j = x (c.ofLane j) := ⟨_, fun _ => rfl⟩
  suffices ch.vals.get 0 (32 * b.toNat + l) = BitVec.ofNat 64 (y l % 2 ^ n) by rw [hy] at this; exact this
  have hmem : l ∈ c.lanes := by simp [Ctx.lanes, mem_lanesOf, hl, hm]
  have hlt : ∀ j ∈ c.lanes, j < 32 := fun j h => ((mem_lanesOf _ _).mp h).1
  unfold Ctx.latched at hc
  rw [hb] at hc
  dsimp only at hc
  simp only [← hy] at hc
  have key : ∀ (ls : List Nat) (t : Team), (∀ j ∈ ls, j < 32) → l ∈ ls ∨ (∀ c0, t.chain = some c0 →
      c0.vals.get 0 (32 * b.toNat + l) = BitVec.ofNat 64 (y l % 2 ^ n)) →
      (ls.foldl (fun t l => t.writeLatch b n false l (y l)) t).chain = some ch →
      ch.vals.get 0 (32 * b.toNat + l) = BitVec.ofNat 64 (y l % 2 ^ n) := by
    intro ls
    induction ls with
    | nil =>
      intro t _ h e
      rcases h with h | h
      · cases h
      · exact h ch e
    | cons a ls ih =>
      intro t hj h e
      rw [List.foldl_cons] at e
      refine ih _ (fun j h => hj j (List.mem_cons_of_mem _ h)) ?_ e
      by_cases hin : l ∈ ls
      · exact .inl hin
      · refine .inr fun c0 e0 => ?_
        unfold Team.writeLatch at e0
        dsimp only at e0
        cases et : t.chain with
        | none => rw [et] at e0; cases e0
        | some c1 =>
          rw [et] at e0
          cases e0
          rw [Tbl.get_store]
          by_cases hal : a = l
          · subst hal
            rw [if_pos rfl]
            rcases hn with hn | hn
            · have h64 : n ≠ 64 := by omega
              have hlt : y a % 2 ^ n < 2 ^ 32 :=
                Nat.lt_of_lt_of_le (Nat.mod_lt _ (Nat.two_pow_pos n)) (Nat.pow_le_pow_right (by omega) hn)
              rw [if_neg h64]
              unfold toVector
              apply BitVec.eq_of_toNat_eq
              rw [if_neg (by simp)]
              simp only [BitVec.toNat_setWidth, BitVec.toNat_ofNat]
              omega
            · subst hn
              rw [if_pos rfl]
              apply BitVec.eq_of_toNat_eq
              simp
          · rw [if_neg (by omega)]
            rcases h with h | h
            · rcases List.mem_cons.mp h with h | h
              · exact absurd h.symm hal
              · exact absurd h hin
            · exact h c1 et
  exact key c.lanes t hlt (.inl hmem) hc

/-- `write` where the destination is no format register: the team's registers take the values, and nothing else
changes. -/
theorem Ctx.write_spec (c : Ctx) (s : State) (n : Nat) (sg : Bool) (x : Nat → Nat) (t : Team)
    (h : Tbl.find? s.teams c.is.team = some t) (hd : ∀ k, c.f.d.dst ≠ some (.f k)) :
    ∃ t', Tbl.find? (c.write s n sg false x).teams c.is.team = some t' ∧ t.Written t' ∧
      t.Holds t' c.f.d.dst c.active n sg x ∧ t'.Latched c.f.d c.active n x ∧
      Elsewhere c.is.team s (c.write s n sg false x) := by
  unfold Ctx.write
  by_cases ha : c.active = 0
  · rw [if_pos ha]
    exact ⟨t, h, .refl t, by rw [ha]; exact Team.Holds.idle .., by rw [ha]; intro b ch _ _ _ l _ hm; simp at hm,
      .refl ..⟩
  · rw [if_neg ha]
    have w := c.wrote_holds n sg x t ha
    have tail : ∀ u : State, c.wroteFmt x u = u := by
      intro u
      unfold Ctx.wroteFmt
      split
      · rename_i k e; exact absurd e (hd k)
      · rfl
    rw [tail]
    have hw : t.Written (c.wrote n sg false x t) := by
      unfold Ctx.wrote
      split
      · exact Team.Written.foldl _ _ (fun t l => Team.Written.writeDst t _ n sg false l (x l)) t
      · exact Team.Written.foldl _ _ (fun t l => Team.Written.writeDst t _ n sg false l (x l)) t
      · exact Team.Written.writeDst ..
      · exact .refl t
    have lat : ∀ u : Team, c.latched n false x u = { u with chain := (c.latched n false x u).chain } := by
      intro u
      unfold Ctx.latched
      split
      · rename_i b e
        generalize c.lanes = ls
        induction ls generalizing u with
        | nil => rfl
        | cons a ls ih => rw [List.foldl_cons, ih]; rfl
      · rfl
    have hl := lat (c.wrote n sg false x t)
    refine ⟨c.latched n false x (c.wrote n sg false x t), ?_, hw.trans ?_, w.congr ?_ ?_ ?_,
      c.latched_spec n x _, .updTeam ..⟩
    · rw [State.updTeam_find, if_pos rfl, h]; rfl
    · rw [hl]; rfl
    · rw [hl]
    · rw [hl]
    · rw [hl]

/-- A word with LEN opens its chain in the team, and changes nothing else. -/
theorem openChain_spec (c : Ctx) (h : Tbl.find? c.s.teams c.is.team = some c.t) :
    (openChain c).is = c.is ∧ (openChain c).f = c.f ∧ (openChain c).active = c.active ∧ (openChain c).w = c.w ∧
      (openChain c).o = c.o ∧
      Tbl.find? (openChain c).s.teams c.is.team = some (openChain c).t ∧
      (openChain c).t = { c.t with chain := (openChain c).t.chain } ∧ Elsewhere c.is.team c.s (openChain c).s := by
  unfold openChain
  split
  · refine ⟨rfl, rfl, rfl, rfl, rfl, ?_, rfl, .updTeam ..⟩
    dsimp only
    rw [State.updTeam_find, if_pos rfl, h]; rfl
  · exact ⟨rfl, rfl, rfl, rfl, rfl, h, rfl, .refl ..⟩

theorem ctxOf_team (o : Op) (f : Form) (s : State) (is : Issue) (t : Team) (h : Standing s is t) :
    (ctxOf o f s is).t = t := State.team_of_find _ _ _ h.team

/-- The whole of a word whose own effect is performed. -/
theorem wordIns_go (o : Op) (f : Form) (s s1 : State) (is : Issue) (body : Ctx → Eff) (hp : s.issue = some is)
    (hc : Clear o f s is) (hb : body (issued o f s is) = .go s1) :
    wordIns o f s body = .next (finish (issued o f s is) s1) := by
  unfold wordIns
  rw [hp]
  dsimp only
  have : wordFault (ctxOf o f s is) = none := hc
  rw [this]
  dsimp only
  rw [show openChain (ctxOf o f s is) = issued o f s is from rfl, hb]

/-- A WORD THAT DELIVERS VALUES to a destination and advances: what it answers, for every state and form in which no
fault of the word applies. `p` is what FPSTAT becomes beside. -/
theorem wordIns_value (o : Op) (f : Form) (s s0 : State) (is : Issue) (t : Team) (body : Ctx → Eff) (n : Nat)
    (sg : Bool) (x : Nat → Nat) (p : BitVec 32)
    (hs : Standing s is t) (hc : Clear o f s is) (hd : ∀ k, f.d.dst ≠ some (.f k))
    (h0 : Elsewhere is.team (issued o f s is).s s0)
    (h1 : Tbl.find? s0.teams is.team = some { (issued o f s is).t with fpstat := p })
    (hb : body (issued o f s is) = .go ((issued o f s is).advance ((issued o f s is).write s0 n sg false x))) :
    ∃ s' t', wordIns o f s body = .next s' ∧ Elsewhere is.team s s' ∧ Tbl.find? s'.teams is.team = some t' ∧
      t.Holds t' f.d.dst (activeMask t is.lanes f.h) n sg x ∧
      t'.Latched f.d (activeMask t is.lanes f.h) n x ∧ t.Stepped t' is.lanes ∧
      t' = { t with lanes := t'.lanes, chain := t'.chain, ahead := t'.ahead, skid := t'.skid, v := t'.v, s := t'.s,
                    g := t'.g, fpstat := p } := by
  have ct := ctxOf_team o f s is t hs
  have hx : Tbl.find? (ctxOf o f s is).s.teams (ctxOf o f s is).is.team = some (ctxOf o f s is).t := by
    rw [ct]; exact hs.team
  obtain ⟨eis, ef, ea, -, -, -, ek, ee⟩ := openChain_spec (ctxOf o f s is) hx
  rw [show openChain (ctxOf o f s is) = issued o f s is from rfl] at eis ef ea ek ee
  generalize hci : issued o f s is = c at *
  have eis' : c.is = is := eis
  have ef' : c.f = f := ef
  have ea' : c.active = activeMask t is.lanes f.h := by
    rw [ea]; show activeMask (s.team is.team) is.lanes f.h = _; rw [State.team_of_find _ _ _ hs.team]
  rw [ct] at ek
  have ep : Tbl.find? s0.teams c.is.team = some { c.t with fpstat := p } := by rw [eis']; exact h1
  obtain ⟨t1, f1, w1, d1, v1, e1⟩ := c.write_spec s0 n sg x _ ep (by rw [ef']; exact hd)
  have f2 : Tbl.find? (c.advance (c.write s0 n sg false x)).teams c.is.team = some (t1.advance c.is.lanes) := by
    unfold Ctx.advance
    rw [State.updTeam_find, if_pos rfl, f1]; rfl
  obtain ⟨t2, f3, k2, l2⟩ := finish_team c _ _ f2
  rw [eis'] at f3 e1 l2 k2
  have w1' : t1 = { t with v := t1.v, s := t1.s, g := t1.g, chain := t1.chain, fpstat := p } := by
    rw [w1, ek]
  refine ⟨_, t2, wordIns_go o f s _ is body hs.port hc (by rw [hci]; exact hb), ?_, by rw [hci]; exact f3, ?_, ?_, ?_, ?_⟩
  · rw [hci]
    have g := finish_elsewhere c (c.advance (c.write s0 n sg false x))
    rw [eis'] at g
    refine Elsewhere.trans ?_ g
    refine Elsewhere.trans ((Elsewhere.trans ee h0).trans e1) ?_
    unfold Ctx.advance; rw [eis']; exact .updTeam ..
  · rw [← ea', ← ef']
    have hv : t2.v = t1.v := by rw [k2]; rfl
    have hss : t2.s = t1.s := by rw [k2]; rfl
    have hg : t2.g = t1.g := by rw [k2]; rfl
    refine (d1.congr hv hss hg).congr_left ?_ ?_ ?_ <;> (rw [ek])
  · rw [← ea', ← ef']
    obtain ⟨t3, g3, hv⟩ := finish_vals c _ _ f2
    rw [eis', f3] at g3
    cases g3
    intro b ch hb hch hn l hl hm
    obtain ⟨ch1, e2, e3⟩ := hv ch hch
    rw [e3]
    exact v1 b ch1 hb e2 hn l hl hm
  · intro l hl
    obtain ⟨p, q, r, -, -⟩ := l2 l hl
    have same : t1.lane l = t.lane l := by
      unfold Team.lane; rw [w1']
    rw [p, q, r, Team.advance_lane _ _ _ hl, same]
    by_cases hm : is.lanes.getLsbD l = true
    · have := hs.runs l hl hm
      simp [hm, this]
    · simp [hm]
  · have k3 : t2 = { t1 with lanes := t2.lanes, chain := t2.chain, ahead := t2.ahead, skid := t2.skid } := k2
    rw [k3, w1']

/-- The same for a word that gathers no flags. -/
theorem wordIns_put (o : Op) (f : Form) (s : State) (is : Issue) (t : Team) (body : Ctx → Eff) (n : Nat)
    (sg : Bool) (x : Nat → Nat)
    (hs : Standing s is t) (hc : Clear o f s is) (hd : ∀ k, f.d.dst ≠ some (.f k))
    (hb : body (issued o f s is) =
      .go ((issued o f s is).advance ((issued o f s is).write (issued o f s is).s n sg false x))) :
    ∃ s' t', wordIns o f s body = .next s' ∧ Elsewhere is.team s s' ∧ Tbl.find? s'.teams is.team = some t' ∧
      t.Holds t' f.d.dst (activeMask t is.lanes f.h) n sg x ∧
      t'.Latched f.d (activeMask t is.lanes f.h) n x ∧ t.Stepped t' is.lanes ∧
      t' = { t with lanes := t'.lanes, chain := t'.chain, ahead := t'.ahead, skid := t'.skid, v := t'.v, s := t'.s,
                    g := t'.g } := by
  have ct := ctxOf_team o f s is t hs
  have hx : Tbl.find? (ctxOf o f s is).s.teams (ctxOf o f s is).is.team = some (ctxOf o f s is).t := by
    rw [ct]; exact hs.team
  obtain ⟨eis, -, -, -, -, et, ek, -⟩ := openChain_spec (ctxOf o f s is) hx
  rw [show openChain (ctxOf o f s is) = issued o f s is from rfl] at eis et ek
  rw [ct] at ek
  have hf : (issued o f s is).t.fpstat = t.fpstat := by rw [ek]
  obtain ⟨s', t', h⟩ := wordIns_value o f s (issued o f s is).s is t body n sg x t.fpstat hs hc hd (.refl ..)
    (by rw [← hf]; exact et) hb
  exact ⟨s', t', h⟩

end Sys2Proof.Machine
end

