-- ==== Sys2Proof/Laws/PerInstr.lean ====
section
/-!
SUPPORT. For every instruction: its mnemonic and fields give it back, and its opcode is the one that the decoder splits to
its mnemonic (R89, R90).
-/

namespace Sys2Proof.Laws

/-- The fields of a word instruction give the instruction back, and its opcode, with the qualifier or code operand of a
form that splits as the mnemonic says, is read as its mnemonic. An event has no word. -/
def Decodes.Statement (i : Instr) : Prop :=
  ∀ o f, i.word? = some (o, f) → Instr.ofOp o f = i ∧
    ∃ p, opcodeOp o.opcode = some p ∧ (o.split f = true → splitOp p f.q f.a.bits = some o)

/-- What the statement comes to for a word instruction. -/
theorem Decodes.of_word {o : Op} {f : Form} {i : Instr} (p : Op) (hw : i.word? = some (o, f)) (hi : Instr.ofOp o f = i)
    (hp : opcodeOp o.opcode = some p) (hs : o.split f = true → splitOp p f.q f.a.bits = some o) : Decodes.Statement i := by
  intro o' f' h
  cases hw.symm.trans h
  exact ⟨hi, p, hp, hs⟩

/-- What it comes to for an event. -/
theorem Decodes.of_event {i : Instr} (hw : i.word? = none) : Decodes.Statement i := by
  intro o f h
  rw [hw] at h
  cases h

/-- A source field reads as a short integer only where it is one, and then it holds the integer (R84, R85). -/
theorem Decodes.int_field (a : Src) :
    if a.bits.extractLsb' 11 4 = 0b1100#4 then ∃ x, a = .int x else ∀ x, a ≠ .int x := by
  have key : ∀ w : BitVec 15, w.extractLsb' 11 4 = 0b1100#4 →
      w.getLsbD 11 = false ∧ w.getLsbD 12 = false ∧ w.getLsbD 13 = true ∧ w.getLsbD 14 = true := by
    intro w h
    have e : ∀ k, k < 4 → w.getLsbD (11 + k) = (0b1100#4).getLsbD k := by
      intro k hk
      rw [← h, BitVec.getLsbD_extractLsb']
      simp [hk]
    exact ⟨e 0 (by decide), e 1 (by decide), e 2 (by decide), e 3 (by decide)⟩
  cases a <;> split <;> rename_i h
  all_goals first
    | exact ⟨_, rfl⟩
    | exact fun _ g => Src.noConfusion g
    | (exfalso; have := key _ h; simp only [Src.bits, BitVec.getLsbD_append] at this; simp at this)
    | (exfalso; apply h; exact BitVec.extractLsb'_append_eq_left)

/-- The low byte of a short integer's field. -/
theorem Decodes.int_byte (x : BitVec 11) : (Src.int x).bits.extractLsb' 0 8 = x.extractLsb' 0 8 := by
  apply BitVec.eq_of_getLsbD_eq
  intro i hi
  have h11 : i < 11 := by omega
  rw [BitVec.getLsbD_extractLsb', BitVec.getLsbD_extractLsb', Src.bits, BitVec.getLsbD_append]
  simp [hi, h11]

/-- The code operand of `trap` and of the service request (R376). -/
theorem Decodes.split_trap (f : Form) (h : Op.split .trap f = true) : splitOp .trap f.q f.a.bits = some .trap := by
  have g := Decodes.int_field f.a
  simp only [splitOp, Option.some.injEq, ite_eq_right_iff, reduceCtorEq, imp_false, not_and]
  intro hk
  rw [if_pos hk] at g
  obtain ⟨x, hx⟩ := g
  rw [hx, Decodes.int_byte]
  rw [Op.split, hx] at h
  simpa using h

theorem Decodes.split_trapService (f : Form) (h : Op.split .trapService f = true) :
    splitOp .trap f.q f.a.bits = some .trapService := by
  have g := Decodes.int_field f.a
  simp only [Op.split] at h
  split at h
  · rename_i x hx
    have hk : f.a.bits.extractLsb' 11 4 = 0b1100#4 := by rw [hx]; exact BitVec.extractLsb'_append_eq_left
    simp only [splitOp]
    rw [if_pos ⟨hk, by rw [hx, Decodes.int_byte]; simpa using h⟩]
  · cases h

theorem Decodes.split_accldGet (f : Form) (h : Op.split .accldGet f = true) :
    splitOp .accldGet f.q f.a.bits = some .accldGet := by
  have h : f.q.extractLsb' 4 2 = 0#2 := by simpa [Op.split] using h
  simp [splitOp, h]

theorem Decodes.split_accldPut (f : Form) (h : Op.split .accldPut f = true) :
    splitOp .accldGet f.q f.a.bits = some .accldPut := by
  have h : f.q.extractLsb' 4 2 = 1#2 := by simpa [Op.split] using h
  simp [splitOp, h]

theorem Decodes.split_accldZero (f : Form) (h : Op.split .accldZero f = true) :
    splitOp .accldGet f.q f.a.bits = some .accldZero := by
  have h : f.q.extractLsb' 4 2 = 2#2 := by simpa [Op.split] using h
  simp [splitOp, h]

theorem Decodes.split_noticeAckBalloon (f : Form) (h : Op.split .noticeAckBalloon f = true) :
    splitOp .noticeAckBalloon f.q f.a.bits = some .noticeAckBalloon := by
  have h : f.q.extractLsb' 0 2 = 0#2 := by simpa [Op.split] using h
  simp [splitOp, h]

theorem Decodes.split_noticeAckTimer (f : Form) (h : Op.split .noticeAckTimer f = true) :
    splitOp .noticeAckBalloon f.q f.a.bits = some .noticeAckTimer := by
  have h : f.q.extractLsb' 0 2 = 1#2 := by simpa [Op.split] using h
  simp [splitOp, h]

theorem Decodes.split_kslotLoad (f : Form) (h : Op.split .kslotLoad f = true) :
    splitOp .kslotLoad f.q f.a.bits = some .kslotLoad := by
  simpa [Op.split, splitOp] using h

theorem Decodes.split_kslotRevoke (f : Form) (h : Op.split .kslotRevoke f = true) :
    splitOp .kslotLoad f.q f.a.bits = some .kslotRevoke := by
  simpa [Op.split, splitOp] using h

theorem Decodes.add (f : Form) : Decodes.Statement (.add f) :=
  Decodes.of_word .add rfl rfl rfl fun _ => rfl
theorem Decodes.sub (f : Form) : Decodes.Statement (.sub f) :=
  Decodes.of_word .sub rfl rfl rfl fun _ => rfl
theorem Decodes.mul (f : Form) : Decodes.Statement (.mul f) :=
  Decodes.of_word .mul rfl rfl rfl fun _ => rfl
theorem Decodes.mulhi (f : Form) : Decodes.Statement (.mulhi f) :=
  Decodes.of_word .mulhi rfl rfl rfl fun _ => rfl
theorem Decodes.mad (f : Form) : Decodes.Statement (.mad f) :=
  Decodes.of_word .mad rfl rfl rfl fun _ => rfl
theorem Decodes.div (f : Form) : Decodes.Statement (.div f) :=
  Decodes.of_word .div rfl rfl rfl fun _ => rfl
theorem Decodes.rem (f : Form) : Decodes.Statement (.rem f) :=
  Decodes.of_word .rem rfl rfl rfl fun _ => rfl
theorem Decodes.min (f : Form) : Decodes.Statement (.min f) :=
  Decodes.of_word .min rfl rfl rfl fun _ => rfl
theorem Decodes.max (f : Form) : Decodes.Statement (.max f) :=
  Decodes.of_word .max rfl rfl rfl fun _ => rfl
theorem Decodes.abs (f : Form) : Decodes.Statement (.abs f) :=
  Decodes.of_word .abs rfl rfl rfl fun _ => rfl
theorem Decodes.neg (f : Form) : Decodes.Statement (.neg f) :=
  Decodes.of_word .neg rfl rfl rfl fun _ => rfl
theorem Decodes.and (f : Form) : Decodes.Statement (.and f) :=
  Decodes.of_word .and rfl rfl rfl fun _ => rfl
theorem Decodes.or (f : Form) : Decodes.Statement (.or f) :=
  Decodes.of_word .or rfl rfl rfl fun _ => rfl
theorem Decodes.xor (f : Form) : Decodes.Statement (.xor f) :=
  Decodes.of_word .xor rfl rfl rfl fun _ => rfl
theorem Decodes.not (f : Form) : Decodes.Statement (.not f) :=
  Decodes.of_word .not rfl rfl rfl fun _ => rfl
theorem Decodes.shl (f : Form) : Decodes.Statement (.shl f) :=
  Decodes.of_word .shl rfl rfl rfl fun _ => rfl
theorem Decodes.shr (f : Form) : Decodes.Statement (.shr f) :=
  Decodes.of_word .shr rfl rfl rfl fun _ => rfl
theorem Decodes.sar (f : Form) : Decodes.Statement (.sar f) :=
  Decodes.of_word .sar rfl rfl rfl fun _ => rfl
theorem Decodes.rot (f : Form) : Decodes.Statement (.rot f) :=
  Decodes.of_word .rot rfl rfl rfl fun _ => rfl
theorem Decodes.bfx (f : Form) : Decodes.Statement (.bfx f) :=
  Decodes.of_word .bfx rfl rfl rfl fun _ => rfl
theorem Decodes.bfi (f : Form) : Decodes.Statement (.bfi f) :=
  Decodes.of_word .bfi rfl rfl rfl fun _ => rfl
theorem Decodes.popc (f : Form) : Decodes.Statement (.popc f) :=
  Decodes.of_word .popc rfl rfl rfl fun _ => rfl
theorem Decodes.clz (f : Form) : Decodes.Statement (.clz f) :=
  Decodes.of_word .clz rfl rfl rfl fun _ => rfl
theorem Decodes.brev (f : Form) : Decodes.Statement (.brev f) :=
  Decodes.of_word .brev rfl rfl rfl fun _ => rfl
theorem Decodes.sel (f : Form) : Decodes.Statement (.sel f) :=
  Decodes.of_word .sel rfl rfl rfl fun _ => rfl
theorem Decodes.mov (f : Form) : Decodes.Statement (.mov f) :=
  Decodes.of_word .mov rfl rfl rfl fun _ => rfl
theorem Decodes.movi (f : Form) : Decodes.Statement (.movi f) :=
  Decodes.of_word .movi rfl rfl rfl fun _ => rfl
theorem Decodes.lea (f : Form) : Decodes.Statement (.lea f) :=
  Decodes.of_word .lea rfl rfl rfl fun _ => rfl
theorem Decodes.cmp (f : Form) : Decodes.Statement (.cmp f) :=
  Decodes.of_word .cmp rfl rfl rfl fun _ => rfl
theorem Decodes.gand (f : Form) : Decodes.Statement (.gand f) :=
  Decodes.of_word .gand rfl rfl rfl fun _ => rfl
theorem Decodes.gor (f : Form) : Decodes.Statement (.gor f) :=
  Decodes.of_word .gor rfl rfl rfl fun _ => rfl
theorem Decodes.gxor (f : Form) : Decodes.Statement (.gxor f) :=
  Decodes.of_word .gxor rfl rfl rfl fun _ => rfl
theorem Decodes.gnot (f : Form) : Decodes.Statement (.gnot f) :=
  Decodes.of_word .gnot rfl rfl rfl fun _ => rfl
theorem Decodes.gset (f : Form) : Decodes.Statement (.gset f) :=
  Decodes.of_word .gset rfl rfl rfl fun _ => rfl
theorem Decodes.gmov (f : Form) : Decodes.Statement (.gmov f) :=
  Decodes.of_word .gmov rfl rfl rfl fun _ => rfl
theorem Decodes.bra (f : Form) : Decodes.Statement (.bra f) :=
  Decodes.of_word .bra rfl rfl rfl fun _ => rfl
theorem Decodes.brx (f : Form) : Decodes.Statement (.brx f) :=
  Decodes.of_word .brx rfl rfl rfl fun _ => rfl
theorem Decodes.call (f : Form) : Decodes.Statement (.call f) :=
  Decodes.of_word .call rfl rfl rfl fun _ => rfl
theorem Decodes.ret (f : Form) : Decodes.Statement (.ret f) :=
  Decodes.of_word .ret rfl rfl rfl fun _ => rfl
theorem Decodes.exit (f : Form) : Decodes.Statement (.exit f) :=
  Decodes.of_word .exit rfl rfl rfl fun _ => rfl
theorem Decodes.convOpen (f : Form) : Decodes.Statement (.convOpen f) :=
  Decodes.of_word .convOpen rfl rfl rfl fun _ => rfl
theorem Decodes.convNext (f : Form) : Decodes.Statement (.convNext f) :=
  Decodes.of_word .convNext rfl rfl rfl fun _ => rfl
theorem Decodes.convClose (f : Form) : Decodes.Statement (.convClose f) :=
  Decodes.of_word .convClose rfl rfl rfl fun _ => rfl
theorem Decodes.vote (f : Form) : Decodes.Statement (.vote f) :=
  Decodes.of_word .vote rfl rfl rfl fun _ => rfl
theorem Decodes.ballot (f : Form) : Decodes.Statement (.ballot f) :=
  Decodes.of_word .ballot rfl rfl rfl fun _ => rfl
theorem Decodes.shfl (f : Form) : Decodes.Statement (.shfl f) :=
  Decodes.of_word .shfl rfl rfl rfl fun _ => rfl
theorem Decodes.redux (f : Form) : Decodes.Statement (.redux f) :=
  Decodes.of_word .redux rfl rfl rfl fun _ => rfl
theorem Decodes.elect (f : Form) : Decodes.Statement (.elect f) :=
  Decodes.of_word .elect rfl rfl rfl fun _ => rfl
theorem Decodes.matchLanes (f : Form) : Decodes.Statement (.matchLanes f) :=
  Decodes.of_word .matchLanes rfl rfl rfl fun _ => rfl
theorem Decodes.bcast (f : Form) : Decodes.Statement (.bcast f) :=
  Decodes.of_word .bcast rfl rfl rfl fun _ => rfl
theorem Decodes.yield (f : Form) : Decodes.Statement (.yield f) :=
  Decodes.of_word .yield rfl rfl rfl fun _ => rfl
theorem Decodes.nop (f : Form) : Decodes.Statement (.nop f) :=
  Decodes.of_word .nop rfl rfl rfl fun _ => rfl
theorem Decodes.isync (f : Form) : Decodes.Statement (.isync f) :=
  Decodes.of_word .isync rfl rfl rfl fun _ => rfl
theorem Decodes.fadd (f : Form) : Decodes.Statement (.fadd f) :=
  Decodes.of_word .fadd rfl rfl rfl fun _ => rfl
theorem Decodes.fsub (f : Form) : Decodes.Statement (.fsub f) :=
  Decodes.of_word .fsub rfl rfl rfl fun _ => rfl
theorem Decodes.fmul (f : Form) : Decodes.Statement (.fmul f) :=
  Decodes.of_word .fmul rfl rfl rfl fun _ => rfl
theorem Decodes.ffma (f : Form) : Decodes.Statement (.ffma f) :=
  Decodes.of_word .ffma rfl rfl rfl fun _ => rfl
theorem Decodes.fmin (f : Form) : Decodes.Statement (.fmin f) :=
  Decodes.of_word .fmin rfl rfl rfl fun _ => rfl
theorem Decodes.fmax (f : Form) : Decodes.Statement (.fmax f) :=
  Decodes.of_word .fmax rfl rfl rfl fun _ => rfl
theorem Decodes.frcp (f : Form) : Decodes.Statement (.frcp f) :=
  Decodes.of_word .frcp rfl rfl rfl fun _ => rfl
theorem Decodes.frsq (f : Form) : Decodes.Statement (.frsq f) :=
  Decodes.of_word .frsq rfl rfl rfl fun _ => rfl
theorem Decodes.fsqrt (f : Form) : Decodes.Statement (.fsqrt f) :=
  Decodes.of_word .fsqrt rfl rfl rfl fun _ => rfl
theorem Decodes.fexp2 (f : Form) : Decodes.Statement (.fexp2 f) :=
  Decodes.of_word .fexp2 rfl rfl rfl fun _ => rfl
theorem Decodes.flog2 (f : Form) : Decodes.Statement (.flog2 f) :=
  Decodes.of_word .flog2 rfl rfl rfl fun _ => rfl
theorem Decodes.ftanh (f : Form) : Decodes.Statement (.ftanh f) :=
  Decodes.of_word .ftanh rfl rfl rfl fun _ => rfl
theorem Decodes.fcmp (f : Form) : Decodes.Statement (.fcmp f) :=
  Decodes.of_word .fcmp rfl rfl rfl fun _ => rfl
theorem Decodes.fclass (f : Form) : Decodes.Statement (.fclass f) :=
  Decodes.of_word .fclass rfl rfl rfl fun _ => rfl
theorem Decodes.frnd (f : Form) : Decodes.Statement (.frnd f) :=
  Decodes.of_word .frnd rfl rfl rfl fun _ => rfl
theorem Decodes.hfma2 (f : Form) : Decodes.Statement (.hfma2 f) :=
  Decodes.of_word .hfma2 rfl rfl rfl fun _ => rfl
theorem Decodes.cvt (f : Form) : Decodes.Statement (.cvt f) :=
  Decodes.of_word .cvt rfl rfl rfl fun _ => rfl
theorem Decodes.cvtQ (f : Form) : Decodes.Statement (.cvtQ f) :=
  Decodes.of_word .cvtQ rfl rfl rfl fun _ => rfl
theorem Decodes.cvtW (f : Form) : Decodes.Statement (.cvtW f) :=
  Decodes.of_word .cvtW rfl rfl rfl fun _ => rfl
theorem Decodes.qpack (f : Form) : Decodes.Statement (.qpack f) :=
  Decodes.of_word .qpack rfl rfl rfl fun _ => rfl
theorem Decodes.qunpack (f : Form) : Decodes.Statement (.qunpack f) :=
  Decodes.of_word .qunpack rfl rfl rfl fun _ => rfl
theorem Decodes.bscale (f : Form) : Decodes.Statement (.bscale f) :=
  Decodes.of_word .bscale rfl rfl rfl fun _ => rfl
theorem Decodes.bdot4 (f : Form) : Decodes.Statement (.bdot4 f) :=
  Decodes.of_word .bdot4 rfl rfl rfl fun _ => rfl
theorem Decodes.ld (f : Form) : Decodes.Statement (.ld f) :=
  Decodes.of_word .ld rfl rfl rfl fun _ => rfl
theorem Decodes.st (f : Form) : Decodes.Statement (.st f) :=
  Decodes.of_word .st rfl rfl rfl fun _ => rfl
theorem Decodes.atom (f : Form) : Decodes.Statement (.atom f) :=
  Decodes.of_word .atom rfl rfl rfl fun _ => rfl
theorem Decodes.red (f : Form) : Decodes.Statement (.red f) :=
  Decodes.of_word .red rfl rfl rfl fun _ => rfl
theorem Decodes.acq (f : Form) : Decodes.Statement (.acq f) :=
  Decodes.of_word .acq rfl rfl rfl fun _ => rfl
theorem Decodes.rel (f : Form) : Decodes.Statement (.rel f) :=
  Decodes.of_word .rel rfl rfl rfl fun _ => rfl
theorem Decodes.bind (f : Form) : Decodes.Statement (.bind f) :=
  Decodes.of_word .bind rfl rfl rfl fun _ => rfl
theorem Decodes.unbind (f : Form) : Decodes.Statement (.unbind f) :=
  Decodes.of_word .unbind rfl rfl rfl fun _ => rfl
theorem Decodes.fence (f : Form) : Decodes.Statement (.fence f) :=
  Decodes.of_word .fence rfl rfl rfl fun _ => rfl
theorem Decodes.pref (f : Form) : Decodes.Statement (.pref f) :=
  Decodes.of_word .pref rfl rfl rfl fun _ => rfl
theorem Decodes.stSparse (f : Form) : Decodes.Statement (.stSparse f) :=
  Decodes.of_word .stSparse rfl rfl rfl fun _ => rfl
theorem Decodes.ldExpand (f : Form) : Decodes.Statement (.ldExpand f) :=
  Decodes.of_word .ldExpand rfl rfl rfl fun _ => rfl
theorem Decodes.cwb (f : Form) : Decodes.Statement (.cwb f) :=
  Decodes.of_word .cwb rfl rfl rfl fun _ => rfl
theorem Decodes.cinv (f : Form) : Decodes.Statement (.cinv f) :=
  Decodes.of_word .cinv rfl rfl rfl fun _ => rfl
theorem Decodes.icinv (f : Form) : Decodes.Statement (.icinv f) :=
  Decodes.of_word .icinv rfl rfl rfl fun _ => rfl
theorem Decodes.bsize (f : Form) : Decodes.Statement (.bsize f) :=
  Decodes.of_word .bsize rfl rfl rfl fun _ => rfl
theorem Decodes.copy (f : Form) : Decodes.Statement (.copy f) :=
  Decodes.of_word .copy rfl rfl rfl fun _ => rfl
theorem Decodes.copyGen (f : Form) : Decodes.Statement (.copyGen f) :=
  Decodes.of_word .copyGen rfl rfl rfl fun _ => rfl
theorem Decodes.copySeal (f : Form) : Decodes.Statement (.copySeal f) :=
  Decodes.of_word .copySeal rfl rfl rfl fun _ => rfl
theorem Decodes.copyWait (f : Form) : Decodes.Statement (.copyWait f) :=
  Decodes.of_word .copyWait rfl rfl rfl fun _ => rfl
theorem Decodes.obres (f : Form) : Decodes.Statement (.obres f) :=
  Decodes.of_word .obres rfl rfl rfl fun _ => rfl
theorem Decodes.obrel (f : Form) : Decodes.Statement (.obrel f) :=
  Decodes.of_word .obrel rfl rfl rfl fun _ => rfl
theorem Decodes.obfmt (f : Form) : Decodes.Statement (.obfmt f) :=
  Decodes.of_word .obfmt rfl rfl rfl fun _ => rfl
theorem Decodes.mma (f : Form) : Decodes.Statement (.mma f) :=
  Decodes.of_word .mma rfl rfl rfl fun _ => rfl
theorem Decodes.accldGet (f : Form) : Decodes.Statement (.accldGet f) :=
  Decodes.of_word .accldGet rfl rfl rfl (Decodes.split_accldGet f)
theorem Decodes.accldPut (f : Form) : Decodes.Statement (.accldPut f) :=
  Decodes.of_word .accldGet rfl rfl rfl (Decodes.split_accldPut f)
theorem Decodes.accldZero (f : Form) : Decodes.Statement (.accldZero f) :=
  Decodes.of_word .accldGet rfl rfl rfl (Decodes.split_accldZero f)
theorem Decodes.accst (f : Form) : Decodes.Statement (.accst f) :=
  Decodes.of_word .accst rfl rfl rfl fun _ => rfl
theorem Decodes.coll (f : Form) : Decodes.Statement (.coll f) :=
  Decodes.of_word .coll rfl rfl rfl fun _ => rfl
theorem Decodes.collWait (f : Form) : Decodes.Statement (.collWait f) :=
  Decodes.of_word .collWait rfl rfl rfl fun _ => rfl
theorem Decodes.bar (f : Form) : Decodes.Statement (.bar f) :=
  Decodes.of_word .bar rfl rfl rfl fun _ => rfl
theorem Decodes.barGang (f : Form) : Decodes.Statement (.barGang f) :=
  Decodes.of_word .barGang rfl rfl rfl fun _ => rfl
theorem Decodes.pbarArrive (f : Form) : Decodes.Statement (.pbarArrive f) :=
  Decodes.of_word .pbarArrive rfl rfl rfl fun _ => rfl
theorem Decodes.pbarWait (f : Form) : Decodes.Statement (.pbarWait f) :=
  Decodes.of_word .pbarWait rfl rfl rfl fun _ => rfl
theorem Decodes.sleep (f : Form) : Decodes.Statement (.sleep f) :=
  Decodes.of_word .sleep rfl rfl rfl fun _ => rfl
theorem Decodes.trap (f : Form) : Decodes.Statement (.trap f) :=
  Decodes.of_word .trap rfl rfl rfl (Decodes.split_trap f)
theorem Decodes.trapService (f : Form) : Decodes.Statement (.trapService f) :=
  Decodes.of_word .trap rfl rfl rfl (Decodes.split_trapService f)
theorem Decodes.rett (f : Form) : Decodes.Statement (.rett f) :=
  Decodes.of_word .rett rfl rfl rfl fun _ => rfl
theorem Decodes.sread (f : Form) : Decodes.Statement (.sread f) :=
  Decodes.of_word .sread rfl rfl rfl fun _ => rfl
theorem Decodes.swrite (f : Form) : Decodes.Statement (.swrite f) :=
  Decodes.of_word .swrite rfl rfl rfl fun _ => rfl
theorem Decodes.segld (f : Form) : Decodes.Statement (.segld f) :=
  Decodes.of_word .segld rfl rfl rfl fun _ => rfl
theorem Decodes.tlbinv (f : Form) : Decodes.Statement (.tlbinv f) :=
  Decodes.of_word .tlbinv rfl rfl rfl fun _ => rfl
theorem Decodes.rsvRead (f : Form) : Decodes.Statement (.rsvRead f) :=
  Decodes.of_word .rsvRead rfl rfl rfl fun _ => rfl
theorem Decodes.rsvAsk (f : Form) : Decodes.Statement (.rsvAsk f) :=
  Decodes.of_word .rsvAsk rfl rfl rfl fun _ => rfl
theorem Decodes.pgsurr (f : Form) : Decodes.Statement (.pgsurr f) :=
  Decodes.of_word .pgsurr rfl rfl rfl fun _ => rfl
theorem Decodes.noticeAckBalloon (f : Form) : Decodes.Statement (.noticeAckBalloon f) :=
  Decodes.of_word .noticeAckBalloon rfl rfl rfl (Decodes.split_noticeAckBalloon f)
theorem Decodes.noticeAckTimer (f : Form) : Decodes.Statement (.noticeAckTimer f) :=
  Decodes.of_word .noticeAckBalloon rfl rfl rfl (Decodes.split_noticeAckTimer f)
theorem Decodes.endwg (f : Form) : Decodes.Statement (.endwg f) :=
  Decodes.of_word .endwg rfl rfl rfl fun _ => rfl
theorem Decodes.tileNext (f : Form) : Decodes.Statement (.tileNext f) :=
  Decodes.of_word .tileNext rfl rfl rfl fun _ => rfl
theorem Decodes.yieldpoint (f : Form) : Decodes.Statement (.yieldpoint f) :=
  Decodes.of_word .yieldpoint rfl rfl rfl fun _ => rfl
theorem Decodes.kslotLoad (f : Form) : Decodes.Statement (.kslotLoad f) :=
  Decodes.of_word .kslotLoad rfl rfl rfl (Decodes.split_kslotLoad f)
theorem Decodes.kslotRevoke (f : Form) : Decodes.Statement (.kslotRevoke f) :=
  Decodes.of_word .kslotLoad rfl rfl rfl (Decodes.split_kslotRevoke f)
theorem Decodes.convCloseCompletion (team lane : Nat) :
    Decodes.Statement (.convCloseCompletion team lane) := Decodes.of_event rfl
theorem Decodes.collectiveCompletion (team inst : Nat) :
    Decodes.Statement (.collectiveCompletion team inst) := Decodes.of_event rfl
theorem Decodes.feLoadCompletion (load : Nat) :
    Decodes.Statement (.feLoadCompletion load) := Decodes.of_event rfl
theorem Decodes.copyWaitCompletion (team : Nat) :
    Decodes.Statement (.copyWaitCompletion team) := Decodes.of_event rfl
theorem Decodes.mmaEnqueueResume (team : Nat) :
    Decodes.Statement (.mmaEnqueueResume team) := Decodes.of_event rfl
theorem Decodes.collWaitCompletion (team : Nat) :
    Decodes.Statement (.collWaitCompletion team) := Decodes.of_event rfl
theorem Decodes.barCompletion (wg : Nat) :
    Decodes.Statement (.barCompletion wg) := Decodes.of_event rfl
theorem Decodes.barGangCompletion (gang : Nat) :
    Decodes.Statement (.barGangCompletion gang) := Decodes.of_event rfl
theorem Decodes.pbarWaitCompletion (team : Nat) :
    Decodes.Statement (.pbarWaitCompletion team) := Decodes.of_event rfl
theorem Decodes.sleepEnd (team : Nat) :
    Decodes.Statement (.sleepEnd team) := Decodes.of_event rfl
theorem Decodes.firmwareServiceAnswer (team count : Nat) :
    Decodes.Statement (.firmwareServiceAnswer team count) := Decodes.of_event rfl
theorem Decodes.keyScrubPage (port slot : Nat) :
    Decodes.Statement (.keyScrubPage port slot) := Decodes.of_event rfl
theorem Decodes.noticeTimer (team : Nat) :
    Decodes.Statement (.noticeTimer team) := Decodes.of_event rfl
theorem Decodes.noticeTrap (team : Nat) :
    Decodes.Statement (.noticeTrap team) := Decodes.of_event rfl
theorem Decodes.haltBroadcast (team : Nat) :
    Decodes.Statement (.haltBroadcast team) := Decodes.of_event rfl
theorem Decodes.pledgeRequest (msg : Nat) :
    Decodes.Statement (.pledgeRequest msg) := Decodes.of_event rfl
theorem Decodes.merge (msg : Nat) :
    Decodes.Statement (.merge msg) := Decodes.of_event rfl
theorem Decodes.engineWriteLanding (msg : Nat) :
    Decodes.Statement (.engineWriteLanding msg) := Decodes.of_event rfl
theorem Decodes.homeStrongAccess (msg : Nat) :
    Decodes.Statement (.homeStrongAccess msg) := Decodes.of_event rfl
theorem Decodes.pledgeOwnerChange (msg : Nat) :
    Decodes.Statement (.pledgeOwnerChange msg) := Decodes.of_event rfl
theorem Decodes.acquireRequest (line : Nat) :
    Decodes.Statement (.acquireRequest line) := Decodes.of_event rfl
theorem Decodes.holdTakeback (msg : Nat) :
    Decodes.Statement (.holdTakeback msg) := Decodes.of_event rfl
theorem Decodes.surrender (msg : Nat) :
    Decodes.Statement (.surrender msg) := Decodes.of_event rfl
theorem Decodes.surrenderAck (msg : Nat) :
    Decodes.Statement (.surrenderAck msg) := Decodes.of_event rfl
theorem Decodes.acquireGrant (msg : Nat) :
    Decodes.Statement (.acquireGrant msg) := Decodes.of_event rfl
theorem Decodes.dieCopyRead (msg : Nat) :
    Decodes.Statement (.dieCopyRead msg) := Decodes.of_event rfl
theorem Decodes.forwardedRead (msg : Nat) :
    Decodes.Statement (.forwardedRead msg) := Decodes.of_event rfl
theorem Decodes.dieCopyInvalidate (msg : Nat) :
    Decodes.Statement (.dieCopyInvalidate msg) := Decodes.of_event rfl
theorem Decodes.backInvalidation (msg : Nat) :
    Decodes.Statement (.backInvalidation msg) := Decodes.of_event rfl
theorem Decodes.ownerEvictionNotice (die line : Nat) :
    Decodes.Statement (.ownerEvictionNotice die line) := Decodes.of_event rfl
theorem Decodes.remoteCopyExpiry (die line : Nat) :
    Decodes.Statement (.remoteCopyExpiry die line) := Decodes.of_event rfl
theorem Decodes.leaseWaitEnd (line : Nat) :
    Decodes.Statement (.leaseWaitEnd line) := Decodes.of_event rfl
theorem Decodes.tlbWalk (msg : Nat) :
    Decodes.Statement (.tlbWalk msg) := Decodes.of_event rfl
theorem Decodes.copyExecution (core : Nat) :
    Decodes.Statement (.copyExecution core) := Decodes.of_event rfl
theorem Decodes.releaseFlagRecord (core cmd : Nat) :
    Decodes.Statement (.releaseFlagRecord core cmd) := Decodes.of_event rfl
theorem Decodes.matrixOperation (core half : Nat) :
    Decodes.Statement (.matrixOperation core half) := Decodes.of_event rfl
theorem Decodes.accumulatorTransfer (core half : Nat) :
    Decodes.Statement (.accumulatorTransfer core half) := Decodes.of_event rfl
theorem Decodes.collExecution (core : Nat) (parts : List CollPart) :
    Decodes.Statement (.collExecution core parts) := Decodes.of_event rfl
theorem Decodes.gangPlacement (die cluster core : Nat) :
    Decodes.Statement (.gangPlacement die cluster core) := Decodes.of_event rfl
theorem Decodes.walkerSplit (die core : Nat) :
    Decodes.Statement (.walkerSplit die core) := Decodes.of_event rfl
theorem Decodes.l1FusionSwitch (die cluster : Nat) (fuse : Bool) :
    Decodes.Statement (.l1FusionSwitch die cluster fuse) := Decodes.of_event rfl
theorem Decodes.preemptRequest (gang : Nat) :
    Decodes.Statement (.preemptRequest gang) := Decodes.of_event rfl
theorem Decodes.preemptWithdraw (gang : Nat) :
    Decodes.Statement (.preemptWithdraw gang) := Decodes.of_event rfl
theorem Decodes.graceExpiry (gang : Nat) :
    Decodes.Statement (.graceExpiry gang) := Decodes.of_event rfl
theorem Decodes.instructionLevelHalt (gang : Nat) :
    Decodes.Statement (.instructionLevelHalt gang) := Decodes.of_event rfl
theorem Decodes.killExpiry (gang : Nat) :
    Decodes.Statement (.killExpiry gang) := Decodes.of_event rfl
theorem Decodes.gangRestore (gang cluster core : Nat) :
    Decodes.Statement (.gangRestore gang cluster core) := Decodes.of_event rfl
theorem Decodes.workgroupEnd (wg : Nat) :
    Decodes.Statement (.workgroupEnd wg) := Decodes.of_event rfl
theorem Decodes.gangRetirement (gang : Nat) :
    Decodes.Statement (.gangRetirement gang) := Decodes.of_event rfl
theorem Decodes.nopPacket (ring : Nat) :
    Decodes.Statement (.nopPacket ring) := Decodes.of_event rfl
theorem Decodes.launchPacket (ring : Nat) :
    Decodes.Statement (.launchPacket ring) := Decodes.of_event rfl
theorem Decodes.waitValuePacket (ring : Nat) :
    Decodes.Statement (.waitValuePacket ring) := Decodes.of_event rfl
theorem Decodes.waitValueTimeout (ring : Nat) :
    Decodes.Statement (.waitValueTimeout ring) := Decodes.of_event rfl
theorem Decodes.signalPacket (ring : Nat) :
    Decodes.Statement (.signalPacket ring) := Decodes.of_event rfl
theorem Decodes.copyPacket (ring : Nat) :
    Decodes.Statement (.copyPacket ring) := Decodes.of_event rfl
theorem Decodes.fencePacket (ring : Nat) :
    Decodes.Statement (.fencePacket ring) := Decodes.of_event rfl
theorem Decodes.linkPacket (ring : Nat) :
    Decodes.Statement (.linkPacket ring) := Decodes.of_event rfl
theorem Decodes.timestampPacket (ring : Nat) :
    Decodes.Statement (.timestampPacket ring) := Decodes.of_event rfl
theorem Decodes.regionCreate (ring : Nat) :
    Decodes.Statement (.regionCreate ring) := Decodes.of_event rfl
theorem Decodes.regionDestroy (ring : Nat) :
    Decodes.Statement (.regionDestroy ring) := Decodes.of_event rfl
theorem Decodes.regionFieldWrite (ring : Nat) :
    Decodes.Statement (.regionFieldWrite ring) := Decodes.of_event rfl
theorem Decodes.mapPages (ring : Nat) :
    Decodes.Statement (.mapPages ring) := Decodes.of_event rfl
theorem Decodes.unmapPages (ring : Nat) :
    Decodes.Statement (.unmapPages ring) := Decodes.of_event rfl
theorem Decodes.grantSectors (ring : Nat) :
    Decodes.Statement (.grantSectors ring) := Decodes.of_event rfl
theorem Decodes.ringDoorbell (ring : Nat) (value : DWord) :
    Decodes.Statement (.ringDoorbell ring value) := Decodes.of_event rfl
theorem Decodes.doorbellResume (ring : Nat) :
    Decodes.Statement (.doorbellResume ring) := Decodes.of_event rfl
theorem Decodes.ringPoll (ring : Nat) :
    Decodes.Statement (.ringPoll ring) := Decodes.of_event rfl
theorem Decodes.bookkeepingWriteRetry (ring : Nat) :
    Decodes.Statement (.bookkeepingWriteRetry ring) := Decodes.of_event rfl
theorem Decodes.balloonPost (region seq sectors deadline : Nat) :
    Decodes.Statement (.balloonPost region seq sectors deadline) := Decodes.of_event rfl
theorem Decodes.balloonDeadline (region : Nat) :
    Decodes.Statement (.balloonDeadline region) := Decodes.of_event rfl
theorem Decodes.migration (part va off : Nat) :
    Decodes.Statement (.migration part va off) := Decodes.of_event rfl
theorem Decodes.heatSweep (port : Nat) :
    Decodes.Statement (.heatSweep port) := Decodes.of_event rfl
theorem Decodes.coneSample (die : Nat) (readings : List (BitVec 16)) :
    Decodes.Statement (.coneSample die readings) := Decodes.of_event rfl
theorem Decodes.marginPlanInstall (die : Nat) (hcap : Option (BitVec 16)) (energy : List Nat) :
    Decodes.Statement (.marginPlanInstall die hcap energy) := Decodes.of_event rfl
theorem Decodes.gaitSlotStart (link : Nat) :
    Decodes.Statement (.gaitSlotStart link) := Decodes.of_event rfl
theorem Decodes.noSlotAlert (link part : Nat) :
    Decodes.Statement (.noSlotAlert link part) := Decodes.of_event rfl
theorem Decodes.counterBlockUpdate (region : Nat) :
    Decodes.Statement (.counterBlockUpdate region) := Decodes.of_event rfl
theorem Decodes.pipeSample (pipe : Nat) :
    Decodes.Statement (.pipeSample pipe) := Decodes.of_event rfl
theorem Decodes.traceFrameClose (die : Nat) :
    Decodes.Statement (.traceFrameClose die) := Decodes.of_event rfl
theorem Decodes.memoryError (part va : Nat) (corrected : Bool) (syndrome : BitVec 16) :
    Decodes.Statement (.memoryError part va corrected syndrome) := Decodes.of_event rfl
theorem Decodes.powerAlarm :
    Decodes.Statement (.powerAlarm) := Decodes.of_event rfl
theorem Decodes.powerAlarmClear :
    Decodes.Statement (.powerAlarmClear) := Decodes.of_event rfl
theorem Decodes.connectionMatrixWrite (rq : Nat) (value : DWord) :
    Decodes.Statement (.connectionMatrixWrite rq value) := Decodes.of_event rfl
theorem Decodes.gaitCalendarWrite (link slot : Nat) (value : Byte) :
    Decodes.Statement (.gaitCalendarWrite link slot value) := Decodes.of_event rfl
theorem Decodes.mgmtRegisterWrite (host : Bool) (off : Nat) (value : DWord) :
    Decodes.Statement (.mgmtRegisterWrite host off value) := Decodes.of_event rfl
theorem Decodes.partitionSetup (p : PartSpec) :
    Decodes.Statement (.partitionSetup p) := Decodes.of_event rfl
theorem Decodes.partitionTeardown (part : Nat) :
    Decodes.Statement (.partitionTeardown part) := Decodes.of_event rfl
theorem Decodes.attestationRequest (part : Nat) (nonce : List Byte) :
    Decodes.Statement (.attestationRequest part nonce) := Decodes.of_event rfl
theorem Decodes.firmwareBoot (die : Nat) :
    Decodes.Statement (.firmwareBoot die) := Decodes.of_event rfl
theorem Decodes.firmwareRecoveryLoad (image sig : List Byte) :
    Decodes.Statement (.firmwareRecoveryLoad image sig) := Decodes.of_event rfl
theorem Decodes.deviceReset :
    Decodes.Statement (.deviceReset) := Decodes.of_event rfl
theorem Decodes.warmReset :
    Decodes.Statement (.warmReset) := Decodes.of_event rfl
theorem Decodes.linkTraining (link lease margin : Nat) :
    Decodes.Statement (.linkTraining link lease margin) := Decodes.of_event rfl
theorem Decodes.cxlLaneRetrain (lanes : Nat) :
    Decodes.Statement (.cxlLaneRetrain lanes) := Decodes.of_event rfl
theorem Decodes.linkLoss (package : Nat) :
    Decodes.Statement (.linkLoss package) := Decodes.of_event rfl
theorem Decodes.checkpoint (job : Nat) :
    Decodes.Statement (.checkpoint job) := Decodes.of_event rfl
theorem Decodes.orderLogFull (job : Nat) :
    Decodes.Statement (.orderLogFull job) := Decodes.of_event rfl
theorem Decodes.replay (job : Nat) (snapshot : Bool) :
    Decodes.Statement (.replay job snapshot) := Decodes.of_event rfl
theorem Decodes.captureEnable (job : Nat) (ring : CaptureRing) :
    Decodes.Statement (.captureEnable job ring) := Decodes.of_event rfl
theorem Decodes.jobMove (job : Nat) (received : List (List Byte)) :
    Decodes.Statement (.jobMove job received) := Decodes.of_event rfl
theorem Decodes.clockCycle :
    Decodes.Statement (.clockCycle) := Decodes.of_event rfl
theorem Decodes.loadDataReply (load : Nat) :
    Decodes.Statement (.loadDataReply load) := Decodes.of_event rfl
theorem Decodes.illegalInstructionWord (why : BadWord) :
    Decodes.Statement (.illegalInstructionWord why) := Decodes.of_event rfl

end Sys2Proof.Laws
end

