-- ==== Sys2Proof/Tests/Slice0.lean ====
section
/-!
SUPPORT. Tests: decoding of written-out words, the checks of WellFormed, results that the spec works out, and witnesses
that the hypotheses of the statements can be met together.
-/

namespace Sys2Proof.Tests

open Sys2Proof Sys2Proof.Machine

section

set_option Elab.async false

/-! Words written out field by field from R75-R90. -/

theorem test_words_integer : List.Forall (fun x : IWord × Instr => decode x.1 = .ok x.2) [
    (0x001C00030400600050020000, .add { ty := .s32, q := 1, d := .reg (.v 3), a := .v 1, b := .s 4 }),
    (0x005E40080000400133FF8000, .sub { h := { stall := 9 }, ty := .n64, d := .reg (.v 2), a := .v 4, b := .int 2047 }),
    (0x009C10010020E80060010000, .mul { h := { chain := true }, ty := .s8, d := .reg (.s 7), a := .s 1, b := .latch 2 }),
    (0x00DC00070000200080018000, .mulhi { ty := .n32, d := .reg (.v 1), a := .v 2, b := .v 3 }),
    (0x011C0002058020009001E005, .mad { ty := .s16, q := 1, d := .both (.v 1) 2, a := .v 2, b := .s 3, c := .int 5 }),
    (0x015C00040427880090018000, .div { ty := .s64, q := 1, d := .reg (.s 60), a := .s 2, b := .s 3 }),
    (0x019C0005001FE00040010000, .rem { ty := .n8, d := .reg (.v 255), a := .v 1, b := .v 2 }),
    (0x01DC000300002000B2000000, .min { ty := .s32, d := .reg (.v 1), a := .v 2, b := .int 1024 }),
    (0x021C000603C0000080018000, .max { ty := .n16, d := .latch 3, a := .v 2, b := .v 3 }),
    (0x025C00030401200200000000, .abs { ty := .s32, q := 1, d := .reg (.v 9), a := .v 8 }),
    (0x029C00040001000180000000, .neg { ty := .s64, d := .reg (.v 8), a := .v 6 }),
    (0x02DC000B0000200090018000, .and { ty := .b32, d := .reg (.v 1), a := .v 2, b := .s 3 }),
    (0x031C000C0020280090018000, .or { ty := .b64, d := .reg (.s 1), a := .s 2, b := .s 3 }),
    (0x035C00090000200080018000, .xor { ty := .b8, d := .reg (.v 1), a := .v 2, b := .v 3 }),
    (0x039C000A0000200080000000, .not { ty := .b16, d := .reg (.v 1), a := .v 2 }),
    (0x03DC000304002000B00F8000, .shl { ty := .s32, q := 1, d := .reg (.v 1), a := .v 2, b := .int 31 }),
    (0x041C00070000200090028000, .shr { ty := .n32, d := .reg (.v 1), a := .v 2, b := .s 5 }),
    (0x045C00040000400100030000, .sar { ty := .s64, d := .reg (.v 2), a := .v 4, b := .v 6 }),
    (0x04AC000B00002000B0038000, .rot { h := { ginv := true, gpred := 3 }, ty := .b32, d := .reg (.v 1), a := .v 2, b := .int 7 }),
    (0x04DC000300002000B0046004, .bfx { ty := .s32, d := .reg (.v 1), a := .v 2, b := .int 8, c := .int 4 }),
    (0x051C000B000020008001A009, .bfi { ty := .b32, d := .reg (.v 1), a := .v 2, b := .v 3, c := .s 9 }),
    (0x055C000C0020880140000000, .popc { ty := .b64, d := .reg (.s 4), a := .s 5 }),
    (0x059C000B0000200080000000, .clz { ty := .b32, d := .reg (.v 1), a := .v 2 }),
    (0x05DC00090000200080000000, .brev { ty := .b8, d := .reg (.v 1), a := .v 2 }),
    (0x061C000B00002000B0007005, .sel { ty := .b32, d := .reg (.v 1), a := .v 2, b := .int 0, c := .guard 5 }),
    (0x065C000B0030680240000000, .mov { ty := .b32, d := .reg (.f 3), a := .s 9 }),
    (0x065C000B00003C83C0000000, .mov { ty := .b32, d := .reg (.v 1), a := .fmt 15 }),
    (0x069C000B0C00E0001EADBEEF, .movi { ty := .b32, d := .reg (.v 7), imm := 0xDEADBEEF }),
    (0x069C00040427E00000008001, .movi { ty := .s64, d := .reg (.s 63), imm := 0x40008001 }),
    (0x06DC00080C00400100036000, .lea { ty := .n64, q := 3, d := .reg (.v 2), a := .v 4, b := .v 6, c := .int 0 }),
    (0x071C00021428400073FE8000, .cmp { ty := .s16, q := 5, d := .reg (.g 2), a := .v 1, b := .int 2045 }),
    (0x075C000000283C00B8018000, .gand { d := .reg (.g 1), a := .guard 2, b := .guard 3 }),
    (0x079C000000289C0178030000, .gor { d := .reg (.g 4), a := .guard 5, b := .guard 6 }),
    (0x07DC00000028FC0078000000, .gxor { d := .reg (.g 7), a := .guard 1, b := .guard 0 }),
    (0x081C000000283C01C0000000, .gnot { d := .reg (.g 1), a := .guard 7 }),
    (0x085C0000002879FFC0000000, .gset { d := .reg (.g 3), a := .int 2047 }),
    (0x089C00000028DC0080000000, .gmov { d := .reg (.g 6), a := .guard 2 })] := by decide

theorem test_words_control : List.Forall (fun x : IWord × Instr => decode x.1 = .ok x.2) [
    (0x200820000C0000003FFFFFF5, .bra { h := { gpred := 2, yld := true }, imm := 0xFFFFFFF5 }),
    (0x205C00000000000140000000, .brx { a := .v 5 }),
    (0x209C00000001400000008000, .call { d := .reg (.v 10), imm := 0x8000 }),
    (0x20DC00000000000280000000, .ret { a := .v 10 }),
    (0x212400000000000000000000, .exit { h := { ginv := true, gpred := 1 } }),
    (0x215C00000000000000000000, .convOpen {}),
    (0x219000000000000000000000, .convNext { h := { gpred := 4 } }),
    (0x21DC00000000000000000000, .convClose {}),
    (0x221C000008283C00800067FF, .vote { q := 2, d := .reg (.g 1), a := .guard 2, c := .int 2047 }),
    (0x225C000000213C008000200A, .ballot { d := .reg (.s 9), a := .guard 2, c := .s 10 }),
    (0x229C000B14002000B001A004, .shfl { ty := .b32, q := 5, d := .reg (.v 1), a := .v 2, b := .int 3, c := .s 4 }),
    (0x22DC000E00202000800067FF, .redux { ty := .f32, d := .reg (.s 1), a := .v 2, c := .int 2047 }),
    (0x231C000000286000000067FF, .elect { d := .reg (.g 3), c := .int 2047 }),
    (0x235C000C0028200080002003, .matchLanes { ty := .b64, d := .reg (.g 1), a := .v 2, c := .s 3 }),
    (0x239C000B00002000B002600F, .bcast { ty := .b32, d := .reg (.v 1), a := .v 2, b := .int 4, c := .int 15 }),
    (0x23C000000000000000000000, .yield { h := { gpred := 0 } }),
    (0x241FC8000000000000000000, .nop { h := { stall := 15, nopair := true } }),
    (0x245C00000000000000000000, .isync {})] := by decide

theorem test_words_float : List.Forall (fun x : IWord × Instr => decode x.1 = .ok x.2) [
    (0x401C000E04002000B5FE0000, .fadd { ty := .f32, q := 1, d := .reg (.v 1), a := .v 2, b := .flt 0x3FC }),
    (0x405C000F0800200090018000, .fsub { ty := .bf16, q := 2, d := .reg (.v 1), a := .v 2, b := .s 3 }),
    (0x409C10100C00300000018000, .fmul { h := { chain := true }, ty := .f16, q := 3, d := .reg (.v 1), a := .latch 0, b := .v 3 }),
    (0x40DC000E000020008001EDFC, .ffma { ty := .f32, d := .reg (.v 1), a := .v 2, b := .v 3, c := .flt 0x5FC }),
    (0x411C000E0020280090018000, .fmin { ty := .f32, d := .reg (.s 1), a := .s 2, b := .s 3 }),
    (0x4144100E0141300034000000, .fmax { h := { gpred := 1, chain := true }, ty := .f32, d := .both (.v 9) 1, a := .latch 0, b := .flt 0x000 }),
    (0x419C000E0C00200080000000, .frcp { ty := .f32, q := 3, d := .reg (.v 1), a := .v 2 }),
    (0x41DC00100000200080000000, .frsq { ty := .f16, d := .reg (.v 1), a := .v 2 }),
    (0x421C000E0400200080000000, .fsqrt { ty := .f32, q := 1, d := .reg (.v 1), a := .v 2 }),
    (0x425C000F0000200080000000, .fexp2 { ty := .bf16, d := .reg (.v 1), a := .v 2 }),
    (0x429C000E0000200080000000, .flog2 { ty := .f32, d := .reg (.v 1), a := .v 2 }),
    (0x42DC00100340000080000000, .ftanh { ty := .f16, d := .latch 1, a := .v 2 }),
    (0x431C000E1C282000B4000000, .fcmp { ty := .f32, q := 7, d := .reg (.g 1), a := .v 2, b := .flt 0x000 }),
    (0x435C000E00282000B1FF8000, .fclass { ty := .f32, d := .reg (.g 1), a := .v 2, b := .int 1023 }),
    (0x439C000F0C00200080000000, .frnd { ty := .bf16, q := 3, d := .reg (.v 1), a := .v 2 }),
    (0x43DC0010080020008001A004, .hfma2 { ty := .f16, q := 2, d := .reg (.v 1), a := .v 2, b := .v 3, c := .s 4 })] := by decide

theorem test_words_format : List.Forall (fun x : IWord × Instr => decode x.1 = .ok x.2) [
    (0x6004100F038010004000760E, .cvt { h := { gpred := 1, chain := true }, ty := .bf16, d := .latch 2, a := .latch 1, c := .ty .f32 }),
    (0x601C00030400200080007624, .cvt { ty := .s32, q := 1, d := .reg (.v 1), a := .v 2, c := .ty (.fmt 4) }),
    (0x605C0023140020008001F60E, .cvtQ { ty := .fmt 3, q := 5, d := .reg (.v 1), a := .v 2, b := .v 3, c := .ty .f32 }),
    (0x609C000E00002800B0007629, .cvtW { ty := .f32, d := .reg (.v 1), a := .s 2, b := .int 0, c := .ty (.fmt 9) }),
    (0x60DC002F2C0020021001F60E, .qpack { ty := .fmt 15, q := 11, d := .reg (.v 1), a := .v 8, b := .s 3, c := .ty .f32 }),
    (0x611C000E08010000703FF622, .qunpack { ty := .f32, q := 2, d := .reg (.v 8), a := .v 1, b := .int 127, c := .ty (.fmt 2) }),
    (0x615C0021000020008000760E, .bscale { ty := .fmt 1, d := .reg (.v 1), a := .v 2, c := .ty .f32 }),
    (0x619C0020000020008001E800, .bdot4 { ty := .fmt 0, d := .reg (.v 1), a := .v 2, b := .v 3, c := .flt 0x000 })] := by decide

theorem test_words_memory : List.Forall (fun x : IWord × Instr => decode x.1 = .ok x.2) [
    (0x801C000240002000B0020000, .ld { ty := .s16, q := 16, d := .reg (.v 1), a := .v 2, b := .int 4 }),
    (0x801C000D28008800B3F80000, .ld { ty := .b128, q := 10, d := .reg (.v 4), a := .s 2, b := .int 2032 }),
    (0x801C000B9000600070000000, .ld { ty := .b32, q := 36, d := .reg (.v 3), a := .v 1, b := .int 0 }),
    (0x8044100A0000080200024002, .st { h := { gpred := 1, chain := true }, ty := .b16, a := .s 8, b := .v 4, c := .latch 2 }),
    (0x805C000DA000080230080004, .st { ty := .b128, q := 40, a := .s 8, b := .int 16, c := .v 4 }),
    (0x809C000B700020008001A004, .atom { ty := .b32, q := 28, d := .reg (.v 1), a := .v 2, b := .v 3, c := .s 4 }),
    (0x80DC000E04000000B0046BF8, .red { ty := .f32, q := 1, a := .v 2, b := .int 8, c := .flt 0x3F8 }),
    (0x811C000090000800B0000000, .acq { q := 36, a := .s 2, b := .int 0 }),
    (0x815C00000C00181030000000, .rel { q := 3, a := .int 64, b := .int 0 }),
    (0x819C000080202800B1002004, .bind { q := 32, d := .reg (.s 1), a := .s 2, b := .int 512, c := .s 4 }),
    (0x81DC00000000080040000000, .unbind { a := .s 1 }),
    (0x821C00001400000000000000, .fence { q := 5 }),
    (0x825C0000C000000070400000, .pref { q := 48, a := .v 1, b := .int 128 }),
    (0x825C00000400080070000000, .pref { q := 1, a := .s 1, b := .int 0 }),
    (0x829C000F0020A80270000006, .stSparse { ty := .bf16, d := .reg (.s 5), a := .s 9, b := .int 0, c := .v 6 }),
    (0x82DC00106000680270026020, .ldExpand { ty := .f16, q := 24, d := .reg (.v 3), a := .s 9, b := .int 4, c := .int 32 }),
    (0x831C00000000080070000000, .cwb { a := .s 1, b := .int 0 }),
    (0x831C00008000000000000000, .cwb { q := 32 }),
    (0x835C00000000000050010000, .cinv { a := .v 1, b := .s 2 }),
    (0x839C00000000080070060000, .icinv { a := .s 1, b := .int 12 }),
    (0x83DC000000002000B0000000, .bsize { d := .reg (.v 1), a := .v 2, b := .int 0 })] := by decide

theorem test_words_engine : List.Forall (fun x : IWord × Instr => decode x.1 = .ok x.2) [
    (0xA01C0000080008B291226001, .copy { q := 2, a := .pair 10 11, b := .pair 4 9, c := .int 1 }),
    (0xA01C0000E00008B291222081, .copy { q := 56, a := .pair 10 11, b := .pair 4 9, c := .pair 1 2 }),
    (0xA05C00000000082050A1A006, .copyGen { a := .pair 1 2, b := .pair 3 5, c := .s 6 }),
    (0xA09C00000021200000000000, .copySeal { d := .reg (.s 9) }),
    (0xA0DC00000000180040000000, .copyWait { a := .int 1 }),
    (0xA11C000E0020200030022003, .obres { ty := .f32, d := .reg (.s 1), b := .int 4, c := .s 3 }),
    (0xA15C00000000080040000000, .obrel { a := .s 1 }),
    (0xA19C00270000080040006000, .obfmt { ty := .fmt 7, a := .s 1, c := .int 0 }),
    (0xA1DC000F000008B291A66000, .mma { ty := .bf16, a := .pair 10 11, b := .pair 12 13, c := .int 0 }),
    (0xA1DC00220000000800202001, .mma { ty := .fmt 2, a := .v 32, b := .v 64, c := .s 1 }),
    (0xA21C000E000400003001A001, .accldGet { ty := .f32, d := .reg (.v 32), b := .int 3, c := .s 1 }),
    (0xA21C000E4000000810012001, .accldPut { ty := .f32, q := 16, a := .v 32, b := .s 2, c := .s 1 }),
    (0xA21C000E4000083080002001, .accldPut { ty := .f32, q := 16, a := .pair 2 3, c := .s 1 }),
    (0xA21C000E8000000000002001, .accldZero { ty := .f32, q := 32, c := .s 1 }),
    (0xA25C000F1000083080006005, .accst { ty := .bf16, q := 4, a := .pair 2 3, c := .int 5 }),
    (0xA25C00212400080090026005, .accst { ty := .fmt 1, q := 9, a := .s 2, b := .s 4, c := .int 5 }),
    (0xA29C000F0800082050818000, .coll { ty := .bf16, q := 2, a := .pair 1 2, b := .pair 3 4 }),
    (0xA2DC00000000180000000000, .collWait { a := .int 0 })] := by decide

theorem test_words_system : List.Forall (fun x : IWord × Instr => decode x.1 = .ok x.2) [
    (0xC01C00000000000000000000, .bar {}),
    (0xC05C00000000000000000000, .barGang {}),
    (0xC09C00004000181030006001, .pbarArrive { q := 16, a := .int 64, b := .int 0, c := .int 1 }),
    (0xC0DC000080000800F0026000, .pbarWait { q := 32, a := .s 3, b := .int 4, c := .int 0 }),
    (0xC11C00000000181900000000, .sleep { a := .int 100 }),
    (0xC15C000000001801C0000000, .trap { a := .int 7 }),
    (0xC15C00000020383C10012003, .trapService { d := .reg (.s 1), a := .int 240, b := .s 2, c := .s 3 }),
    (0xC19C00000000000000000000, .rett {}),
    (0xC1DC000000003D0400000000, .sread { d := .reg (.v 1), a := .sys 0x010 }),
    (0xC21C000000001D0550048000, .swrite { a := .sys 0x015, b := .s 9 }),
    (0xC25C00000000180090A20000, .segld { a := .int 2, b := .pair 4 5 }),
    (0xC29C00000000080070018000, .tlbinv { a := .s 1, b := .int 3 }),
    (0xC29C00008000000010010000, .tlbinv { q := 32, b := .s 2 }),
    (0xC2DC00000027A00000000000, .rsvRead { d := .reg (.s 61) }),
    (0xC31C00000020280080000000, .rsvAsk { d := .reg (.s 1), a := .s 2 }),
    (0xC35C000000202800B0008000, .pgsurr { d := .reg (.s 1), a := .s 2, b := .int 1 }),
    (0xC39C00000000080580000000, .noticeAckBalloon { a := .s 22 }),
    (0xC39C00000400000000000000, .noticeAckTimer { q := 1 }),
    (0xC3DC000000001800C0000000, .endwg { a := .int 3 }),
    (0xC41C00000028200000000000, .tileNext { d := .reg (.g 1) }),
    (0xC45C00000000000000000000, .yieldpoint {}),
    (0xC49C00000020280090018000, .kslotLoad { d := .reg (.s 1), a := .s 2, b := .s 3 }),
    (0xC49C00000420280080000000, .kslotRevoke { q := 1, d := .reg (.s 1), a := .s 2 })] := by decide


/-! WellFormed refuses a term that fails one check of it. -/

/-- A reserved qualifier bit, in an `add`. -/
theorem test_illformed_qualifier :
    (Instr.add { ty := .s32, q := 2, d := .reg (.v 1), a := .v 2, b := .v 3 }).wf = false := by decide
/-- An immediate outside Format I. -/
theorem test_illformed_immediate :
    (Instr.add { ty := .s32, d := .reg (.v 1), a := .v 2, b := .v 3, imm := 1 }).wf = false := by decide
/-- Source fields under Format I. -/
theorem test_illformed_format_I : (Instr.bra { b := .v 1, imm := 1 }).wf = false := by decide
/-- A form that the opcode splits to another mnemonic. -/
theorem test_illformed_split : (Instr.accldGet { ty := .f32, q := 0x20, c := .s 1 }).wf = false := by decide
/-- A type, a source kind and a destination class that the mnemonic does not accept. -/
theorem test_illformed_type :
    (Instr.add { ty := .f32, d := .reg (.v 1), a := .v 2, b := .v 3 }).wf = false := by decide
theorem test_illformed_source :
    (Instr.add { ty := .s32, d := .reg (.v 1), a := .guard 2, b := .v 3 }).wf = false := by decide
theorem test_illformed_destination :
    (Instr.add { ty := .s32, d := .reg (.g 1), a := .v 2, b := .v 3 }).wf = false := by decide
theorem test_wellformed : (Instr.add { ty := .s32, q := 1, d := .reg (.v 1), a := .v 2, b := .int 3 }).wf = true := by
  decide

/-! A small machine: team 0 alone at the port with all its lanes. -/

/-- The group at the port. -/
def is0 : Issue := { team := 0, lanes := BitVec.allOnes 32, pc := 0, word := 0, port := 1 }

/-- A team with 64 KiB of global memory at address 65536, and 4 KiB of each other segment. -/
def team0 : Team :=
  { loadTeam with segs := [(0, { base := 65536, limit := 65536 }), (1, { limit := 4096 }), (2, { limit := 4096 }),
                           (3, { limit := 4096 }), (4, { base := 65536, limit := 4096 }), (5, { limit := 4096 })] }

/-- The machine of the load, its workgroup with a scratchpad of 8 KiB and 16 granules of operand buffer, and the page of
the global segment in the core's TLB. -/
def base0 : State :=
  let s := State.reset.load []
  { s with
    wgs := [(0, { gang := 0, core := loadCore, teams := [0], spadSize := 8192, obufCount := 16, matrix := .whole,
                  globBase := 65536, globLimit := 65536, kargLimit := 4096 })]
    cores := [(loadCore, { tlb := [{ part := 0, shift := 16, lead := 1, leaf := leafEntry 0 131072 }],
                           matrix := { split := false } })]
    regions := [(0, { globBase := 65536, globLimit := 65536, rsvg := 1000 })]
    issue := some is0 }

/-- The machine with one message on its way. -/
def homeMsg (b : MsgBody) : State :=
  { base0 with msgs := [(0, { cls := .request, due := 0, chan := none, body := b })] }

/-- The machine with its team replaced. -/
def stand (t : Team) (s : State) : State := { s with teams := [(0, t)] }

/-- Every lane at level 1, its token opened at PC 3. -/
def openTeam : Team :=
  { team0 with lanes := allLanes.map (fun l => (l, { level := 1 }))
               v := allLanes.map fun l => (32 * 255 + l, 0x300) }

/-- A team whose lanes wait: all 32 for the same thing. -/
def waitTeam (w : Wait) : Team := { openTeam with lanes := allLanes.map fun l => (l, { level := 1, st := .waiting, wait := some w }) }

theorem stand_ok (t : Team) (s : State) (hs : s.issue = some is0) (h : t.lanes = loadTeam.lanes) :
    Standing (stand t s) is0 t where
  port := hs
  team := rfl
  runs l hl _ := by rw [Team.lane, h]; revert l; decide
  at_ l hl _ := by rw [Team.lane, h]; revert l; decide

/-- No fault of the word, and no format register as destination. -/
def plain (s : State) (i : Instr) : Bool :=
  match i.word? with
  | some (o, f) => decide (wordFault (ctxOf o f s is0) = none) &&
      match f.d.dst with | some (.f _) => false | _ => true
  | none => false

/-- The words of a list are met in a state: each is a word, its group stands, and no fault of the word is due. -/
def Met (s : State) (t : Team) (is : List Instr) : Prop :=
  Standing s is0 t ∧ ∀ i ∈ is, ∃ o f, i.word? = some (o, f) ∧ Clear o f s is0 ∧ ∀ k, f.d.dst ≠ some (.f k)

theorem met_of (t : Team) (s : State) (is : List Instr) (hs : s.issue = some is0) (h : t.lanes = loadTeam.lanes)
    (hp : is.all (plain (stand t s)) = true) : Met (stand t s) t is := by
  refine ⟨stand_ok t s hs h, fun i hi => ?_⟩
  have := List.all_eq_true.mp hp i hi
  unfold plain at this
  split at this
  · rename_i o f hw
    rw [Bool.and_eq_true, decide_eq_true_eq] at this
    refine ⟨o, f, hw, this.1, fun k hk => ?_⟩
    rw [hk] at this
    simp at this
  · cases this

/-! Witnesses: the hypotheses of the statements about words, one instruction of each kind that a statement names. -/

/-- What a binary and a unary word of the tests look like. -/
def bin (t : Ty) : Form := { ty := t, d := .reg (.v 2), a := .v 4, b := .v 6 }
def un (t : Ty) : Form := { ty := t, d := .reg (.v 2), a := .v 4 }

theorem witness_IntegerResults : Met (stand team0 base0) team0
    [.add (bin .s32), .sub (bin .n64), .mul (bin .s8), .mulhi (bin .n32), .mad { bin .s16 with c := .int 5 }, .div (bin .s64),
     .rem (bin .n8), .min (bin .s32), .max (bin .n16), .abs (un .s32), .neg (un .s64), .and (bin .b32), .or (bin .b64),
     .xor (bin .b8), .not (un .b16), .shl { bin .s32 with q := 1 }, .shr (bin .b32), .sar (bin .s64), .rot (bin .b32),
     .bfx { bin .s32 with c := .int 4 }, .bfi { bin .b32 with c := .s 9 }, .popc (un .b64), .clz (un .b32), .brev (un .b8),
     .sel { bin .b32 with c := .guard 7 }, .mov (un .b32), .movi { ty := .s64, d := .reg (.s 63), imm := 0xFFFFFFFF },
     .lea { bin .n64 with q := 7, c := .int 0 }] :=
  met_of _ _ _ rfl rfl (by decide +kernel)

theorem witness_GuardResults : Met (stand team0 base0) team0
    ([0, 1, 2, 3, 4, 5].map (fun q => .cmp { ty := .s32, q := q, d := .reg (.g 1), a := .v 4, b := .int 3 }) ++
     [.gand { d := .reg (.g 7), a := .guard 2, b := .guard 7 }, .gor { d := .reg (.g 1), a := .guard 2, b := .guard 1 },
      .gxor { d := .reg (.g 1), a := .guard 2, b := .guard 3 }, .gnot { d := .reg (.g 0), a := .guard 0 },
      .gmov { d := .reg (.g 1), a := .guard 7 }, .gset { d := .reg (.g 1), a := .int 0x7FF },
      .gset { d := .reg (.g 1), a := .v 3 }]) :=
  met_of _ _ _ rfl rfl (by decide +kernel)

theorem witness_FormatRegisterMoves : ∃ w, Standing (stand team0 base0) is0 team0 ∧
    Clear .mov { ty := .b32, d := .reg (.f 15), a := .s 9 } (stand team0 base0) is0 ∧
    Clear .movi { ty := .b32, d := .reg (.f 0), imm := 0xFFFFFFFF } (stand team0 base0) is0 ∧
    Tbl.find? (stand team0 base0).wgs team0.wg = some w :=
  ⟨_, stand_ok _ _ rfl rfl, by unfold Clear; decide +kernel, by unfold Clear; decide +kernel, rfl⟩

theorem witness_FloatResults : Met (stand team0 base0) team0
    [.fadd (bin .f32), .fsub { bin .bf16 with q := 3 }, .fmul (bin .f16), .ffma { bin .f32 with c := .v 8 }, .fmin (bin .f32),
     .fmax (bin .bf16), .frcp (un .f32), .frsq (un .f16), .fsqrt (un .f32), .fexp2 (un .bf16), .flog2 (un .f32),
     .ftanh (un .f16), .fcmp { bin .f32 with q := 7, d := .reg (.g 1) },
     .fclass { ty := .f32, d := .reg (.g 1), a := .v 4, b := .int 1023 }, .frnd (un .f32),
     .hfma2 { bin .f16 with c := .s 4 }] :=
  met_of _ _ _ rfl rfl (by decide +kernel)

theorem witness_BranchTargets : Met (stand team0 base0) team0
    [.bra { imm := 0xFFFFFFF5 }, .brx { a := .v 5 }, .call { d := .reg (.v 10), imm := 0 }, .ret { a := .v 10 }] :=
  met_of _ _ _ rfl rfl (by decide +kernel)

theorem witness_ExitEnds_HintsAdvance_Fences : Met (stand team0 base0) team0
    [.exit {}, .nop {}, .yield {}, .isync {}, .fence { q := 1 }, .fence { q := 5 }, .pref { a := .s 1, b := .int 0 }] :=
  met_of _ _ _ rfl rfl (by decide +kernel)

/-! Formats: fmt1 is a sign, 4 exponent bits, 3 mantissa bits and bias 7; s4 holds 1.5 in FP32, s5 its code 0x3C in fmt1. -/

def fmtBase : State :=
  { base0 with wgs := base0.wgs.updIf 0 fun w => { w with fmts := [(1, 0x1DC80)] } }
def fmtTeam : Team := { team0 with s := [(4, 0x3FC00000), (5, 0x3C)] }
def fmtState : State := stand fmtTeam fmtBase
def cvtF : Form := { ty := .bf16, d := .reg (.v 2), a := .s 4, c := .ty .f32 }
def cvtI : Form := { ty := .s32, d := .reg (.v 2), a := .s 4, c := .ty .f32 }
def cvtQF : Form := { ty := .fmt 1, d := .reg (.v 2), a := .s 4, b := .int 0, c := .ty .f32 }
def cvtWF : Form := { ty := .f32, d := .reg (.v 2), a := .s 5, b := .int 0, c := .ty (.fmt 1) }
def qpackF : Form := { ty := .fmt 1, d := .reg (.v 2), a := .v 4, b := .int 0, c := .ty .f32 }
def bscaleF : Form := { ty := .fmt 1, d := .reg (.v 2), a := .s 4, c := .ty .f32 }
def bdotF : Form := { ty := .fmt 1, d := .reg (.v 2), a := .s 5, b := .s 5, c := .v 8 }
def qunpackF : Form := { ty := .f32, d := .reg (.v 8), a := .s 5, b := .int 0, c := .ty (.fmt 1) }

theorem witness_FormatResults_legal : Met fmtState fmtTeam
    [.cvt cvtF, .cvt cvtI, .cvtQ cvtQF, .cvtW cvtWF, .qpack qpackF, .bscale bscaleF, .bdot4 bdotF] ∧
    ∀ x ∈ [(Op.cvt, cvtF), (.cvt, cvtI), (.cvtQ, cvtQF), (.cvtW, cvtWF), (.qpack, qpackF), (.bscale, bscaleF),
      (.bdot4, bdotF)], (issued x.1 x.2 fmtState is0).illegal = none :=
  ⟨met_of _ _ _ rfl rfl (by decide +kernel), by decide +kernel⟩

/-- 1.5 to bfloat16, to an integer (a tie to even, inexact) and to fmt1, and 0x3C of fmt1 to FP32. -/
theorem witness_FormatResults_values :
    (∀ l ∈ (issued .cvt cvtF fmtState is0).lanes, Conv.ok 0x3FC0 0 =
      convF ((issued .cvt cvtF fmtState is0).fmtFor .bf16) 0 cvtF.ovf
        ((issued .cvt cvtF fmtState is0).convSrc cvtF.a .f32 l)) ∧
    (∀ l ∈ (issued .cvt cvtI fmtState is0).lanes,
      (2, 1) = convInt true 32 0 ((issued .cvt cvtI fmtState is0).convSrc cvtI.a .f32 l)) ∧
    (∀ l ∈ (issued .cvtQ cvtQF fmtState is0).lanes, Conv.ok 0x3C 0 = (issued .cvtQ cvtQF fmtState is0).quantise
      (narrowFmt 0x1DC80) ((issued .cvtQ cvtQF fmtState is0).convSrc cvtQF.a .f32 l)
        ((issued .cvtQ cvtQF fmtState is0).sigma cvtQF.b l)) ∧
    ∀ l ∈ (issued .cvtW cvtWF fmtState is0).lanes, Conv.ok 0x3FC00000 0 = (issued .cvtW cvtWF fmtState is0).widen
      ((issued .cvtW cvtWF fmtState is0).convSrc cvtWF.a (.fmt 1) l) ((issued .cvtW cvtWF fmtState is0).sigma cvtWF.b l) := by
  decide +kernel

/-- `qpack` of zeros, where the range of registers fits. -/
theorem witness_FormatResults_qpack :
    4 + fmtCount ((issued .qpack qpackF fmtState is0).fmtOf (.fmt 1)) ≤ fmtTeam.vregs - fmtTeam.depth ∧
    ∀ l ∈ (issued .qpack qpackF fmtState is0).lanes, [Conv.ok 0 0, .ok 0 0, .ok 0 0, .ok 0 0] =
      (List.range (fmtCount ((issued .qpack qpackF fmtState is0).fmtOf (.fmt 1)))).map fun j =>
        (issued .qpack qpackF fmtState is0).quantise (narrowFmt 0x1DC80) (fp32.value (fmtTeam.readV (4 + j) l).toNat)
          ((issued .qpack qpackF fmtState is0).sigma qpackF.b l) := by
  decide +kernel

/-- `qunpack` of the four containers 0x3C, 0, 0, 0. -/
theorem witness_UnpackResults : Standing fmtState is0 fmtTeam ∧ Clear .qunpack qunpackF fmtState is0 ∧
    (issued .qunpack qunpackF fmtState is0).illegal = none ∧
    8 + fmtCount ((issued .qunpack qunpackF fmtState is0).fmtOf (.fmt 1)) ≤ fmtTeam.vregs - fmtTeam.depth ∧
    ∀ l ∈ (issued .qunpack qunpackF fmtState is0).lanes, ∀ j,
      j < fmtCount ((issued .qunpack qunpackF fmtState is0).fmtOf (.fmt 1)) →
      Conv.ok (if j = 0 then 0x3FC00000 else 0) 0 = (issued .qunpack qunpackF fmtState is0).widen
        (element ((issued .qunpack qunpackF fmtState is0).fmtOf (.fmt 1))
          ((issued .qunpack qunpackF fmtState is0).u32 qunpackF.a l) j)
        ((issued .qunpack qunpackF fmtState is0).sigma qunpackF.b l) :=
  ⟨stand_ok _ _ rfl rfl, by unfold Clear; decide +kernel, by decide +kernel⟩

/-! Convergence regions and group-collectives. -/

theorem witness_ConvergenceTokens_open : Met (stand team0 base0) team0 [.convOpen {}] ∧
    ∀ l, l < 32 → (activeMask team0 is0.lanes {}).getLsbD l = true → (team0.lane l).level < team0.depth :=
  ⟨met_of _ _ _ rfl rfl (by decide +kernel), by decide +kernel⟩

theorem standing_open : Standing (stand openTeam base0) is0 openTeam :=
  ⟨rfl, rfl, by decide +kernel, by decide +kernel⟩

theorem witness_ConvergenceTokens_next : Standing (stand openTeam base0) is0 openTeam ∧
    Clear .convNext {} (stand openTeam base0) is0 ∧
    ∀ l, l < 32 → (activeMask openTeam is0.lanes {}).getLsbD l = true → (openTeam.lane l).level ≠ 0 :=
  ⟨standing_open, by unfold Clear; decide +kernel, by decide +kernel⟩

/-- Faults: depth 0 at `conv.open`, level 0 at the others; and no lane beyond its depth. -/
theorem witness_ConvergenceTokens_fault :
    Met (stand { team0 with depth := 0 } base0) { team0 with depth := 0 } [.convOpen {}] ∧
    Met (stand team0 base0) team0 [.convNext {}, .convClose {}] ∧
    (∀ l, l < 32 → (({ team0 with depth := 0 } : Team).lane l).level = 0) ∧ (∀ l, l < 32 → (team0.lane l).level = 0) ∧
    (issued .convOpen {} (stand { team0 with depth := 0 } base0) is0).active ≠ 0 ∧
    (issued .convNext {} (stand team0 base0) is0).active ≠ 0 :=
  ⟨met_of _ _ _ rfl rfl (by decide +kernel), met_of _ _ _ rfl rfl (by decide +kernel), by decide +kernel⟩

theorem witness_CloseWaits : Standing (stand openTeam base0) is0 openTeam ∧
    Clear .convClose {} (stand openTeam base0) is0 ∧
    ∀ l, l < 32 → (activeMask openTeam is0.lanes {}).getLsbD l = true → (openTeam.lane l).level ≠ 0 :=
  ⟨standing_open, by unfold Clear; decide +kernel, by decide +kernel⟩

theorem witness_CloseCompletes :
    let t := waitTeam (.close 3 [])
    (t.lane 31).st = .waiting ∧ (t.lane 31).wait = some (.close 3 []) ∧ t.parked 31 = false ∧ t.stopping = false ∧
    ((State.partners t).getLsbD 31 && State.closeMember t 1 3 [] 31) = true ∧
    ∀ j, j < 32 → ((State.partners t).getLsbD j && State.closeMember t 1 3 [] j) = true →
      (t.lane j).st = .waiting ∧ (t.lane j).wait = some (.close 3 []) ∧ t.parked j = false ∧ (t.lane j).level = 1 := by
  decide +kernel

theorem witness_CollectivesArrive : Met (stand team0 base0) team0
    [.vote { q := 3, d := .reg (.g 1), a := .guard 2, c := .int 0x7FF }, .ballot { d := .reg (.s 1), a := .guard 2, c := .int 0x7FF },
     .shfl { ty := .b32, q := 5, d := .reg (.v 1), a := .v 2, b := .int 3, c := .int 0x7FF },
     .redux { ty := .f32, d := .reg (.s 1), a := .v 2, c := .int 0x7FF }, .elect { d := .reg (.g 3), c := .int 0x7FF },
     .matchLanes { ty := .b64, d := .reg (.g 1), a := .v 2, c := .int 0x7FF },
     .bcast { ty := .b32, d := .reg (.v 1), a := .v 2, b := .int 4, c := .int 0x7FF }] ∧
    Tbl.wf team0.colls = true ∧ team0.colls.length ≤ 32 ∧
    activeMask team0 is0.lanes {} &&&
      ~~~(((issued .elect { d := .reg (.g 3), c := .int 0x7FF } (stand team0 base0) is0).sc (.int 0x7FF)).setWidth 32) = 0 :=
  ⟨met_of _ _ _ rfl rfl (by decide +kernel), by decide +kernel⟩

/-- An `elect` at which every lane has arrived. -/
def wholeColl : CollInst :=
  { op := .elect, form := { d := .reg (.g 3), c := .int 0x7FF }, pc := 0, mask := BitVec.allOnes 32, token := [0x300],
    handler := false, arrived := BitVec.allOnes 32, contrib := BitVec.allOnes 32 }
def collTeam : Team := { waitTeam (.coll 0) with colls := [(0, wholeColl)] }

theorem witness_CollectiveCompletes :
    Tbl.find? (stand collTeam base0).teams 0 = some collTeam ∧ Tbl.find? collTeam.colls 0 = some wholeColl ∧
    State.collWhole collTeam wholeColl = true ∧ ∀ r, wholeColl.form.d.dst ≠ some (.f r) :=
  ⟨rfl, rfl, by decide +kernel, fun _ h => by cases h⟩

/-- The tail of a word that delivers: the context of an `add`. -/
theorem witness_DeliveryTail :
    let c := issued .add (bin .s32) (stand team0 base0) is0
    Tbl.find? c.s.teams c.is.team = some team0 ∧ (∀ k, c.f.d.dst ≠ some (.f k)) ∧
    ∀ l, l < 32 → c.is.lanes.getLsbD l = true → (team0.lane l).st = .running ∨ (team0.lane l).st = .waiting :=
  ⟨by decide +kernel, fun _ h => (by cases h), by decide +kernel⟩

/-! Loads and stores. In each the lanes address offset 0, and lane l offset 4 l where v4 says so. -/

/-- Lane l's v4 holds 4 l, its v6 holds l. -/
def memTeam : Team :=
  { team0 with v := (allLanes.map fun l => (32 * 4 + l, BitVec.ofNat 32 (4 * l))) ++
                    (allLanes.map fun l => (32 * 6 + l, BitVec.ofNat 32 l)) }
/-- Line 512 valid and clean in the L1. -/
def l1Base : State :=
  { base0 with cores := base0.cores.updIf loadCore fun c => { c with l1 := [(512, { valid := BitVec.allOnes 32, data := 77 })] } }
def memState : State := stand memTeam l1Base
def ldS : Form := { ty := .b32, q := 0x10, d := .reg (.v 2), a := .v 4, b := .int 64 }
def ldG : Form := { ty := .b32, d := .reg (.v 2), a := .v 4, b := .int 0 }
def ldFe : Form := { ty := .b32, q := 0x14, d := .reg (.v 2), a := .v 4, b := .int 64 }
def ldStrong : Form := { ty := .b32, q := 0x0A, d := .reg (.v 2), a := .v 4, b := .int 0 }

/-- The scratchpad arm, all lanes inside; the last byte of the segment is in reach and the next is not. -/
theorem witness_LoadsDeliver_scratchpad : Standing memState is0 memTeam ∧ Clear .ld ldS memState is0 ∧
    ldS.space = 1 ∧ ldS.fe = 0 ∧ (issued .ld ldS memState is0).Aligned 1 4 ∧
    (issued .ld ldS memState is0).within 1 4 = BitVec.allOnes 32 ∧
    (issued .ld ldS memState is0).inSeg 1 4092 4 = true ∧ (issued .ld ldS memState is0).inSeg 1 4093 4 = false :=
  ⟨stand_ok _ _ rfl rfl, by unfold Clear; decide +kernel, by decide, by decide, by unfold Ctx.Aligned; decide +kernel,
    by decide +kernel⟩

/-- The arm of a weak load that hits its L1. -/
theorem witness_LoadsDeliver_hit : Standing memState is0 memTeam ∧ Clear .ld ldG memState is0 ∧
    ldG.space = 0 ∧ ldG.strong = false ∧ (issued .ld ldG memState is0).Aligned 0 4 ∧
    (issued .ld ldG memState is0).within 0 4 = BitVec.allOnes 32 ∧
    (issued .ld ldG memState is0).Mapped 0 (BitVec.allOnes 32) false ∧
    ∀ l ∈ lanesOf (BitVec.allOnes 32), memState.l1Hit loadCore (65536 + 4 * l) 4 = true ∧
      memState.strongOn loadCore 512 = false :=
  ⟨stand_ok _ _ rfl rfl, by unfold Clear; decide +kernel, by decide, by decide, by unfold Ctx.Aligned; decide +kernel,
    by decide +kernel, by unfold Ctx.Mapped; decide +kernel, by decide +kernel⟩

theorem witness_LoadsLeave : Standing memState is0 memTeam ∧ Standing (stand memTeam base0) is0 memTeam ∧
    Clear .ld ldFe memState is0 ∧ ldFe.fe ≠ 0 ∧ (issued .ld ldFe memState is0).Aligned 1 4 ∧
    Clear .ld ldStrong memState is0 ∧ ldStrong.strong = true ∧ (issued .ld ldStrong memState is0).Aligned 0 4 ∧
    (issued .ld ldStrong memState is0).Mapped 0 ((issued .ld ldStrong memState is0).within 0 4) false ∧
    Clear .ld ldG (stand memTeam base0) is0 ∧ (issued .ld ldG (stand memTeam base0) is0).Aligned 0 4 ∧
    (issued .ld ldG (stand memTeam base0) is0).Mapped 0 ((issued .ld ldG (stand memTeam base0) is0).within 0 4) false ∧
    (stand memTeam base0).l1Hit loadCore 65536 4 = false :=
  ⟨stand_ok _ _ rfl rfl, stand_ok _ _ rfl rfl, by unfold Clear; decide +kernel, by decide,
    by unfold Ctx.Aligned; decide +kernel, by unfold Clear; decide +kernel, by decide, by unfold Ctx.Aligned; decide +kernel,
    by unfold Ctx.Mapped; decide +kernel, by unfold Clear; decide +kernel, by unfold Ctx.Aligned; decide +kernel,
    by unfold Ctx.Mapped; decide +kernel, by decide +kernel⟩

/-- Every granule that `ldFe` reaches is full: 64 to 191. -/
def fullState : State :=
  { memState with cores := memState.cores.updIf loadCore fun c => { c with full := [4, 5, 6, 7, 8, 9, 10, 11].map (·, true) } }
theorem witness_LoadsInFlight_full : Standing fullState is0 memTeam ∧ Clear .ld ldFe fullState is0 ∧ ldFe.space = 1 ∧
    (issued .ld ldFe fullState is0).Aligned 1 4 ∧ (issued .ld ldFe fullState is0).within 1 4 = BitVec.allOnes 32 ∧
    (∀ l ∈ allLanes, ∀ j ∈ [0, 1, 2, 3],
      (issued .ld ldFe fullState is0).spadAt 1 (((issued .ld ldFe fullState is0).offset l).toNat + j) =
        some (loadCore, 64 + 4 * l + j, false)) ∧
    (∀ l ∈ allLanes, ∀ j ∈ [0, 1, 2, 3], fullState.seenFull loadCore (spadCell (64 + 4 * l + j) false) = true) ∧
    memState.seenFull loadCore (spadCell 64 false) = false :=
  ⟨stand_ok memTeam { l1Base with cores := _ } rfl rfl, by unfold Clear; decide +kernel, by decide,
    by unfold Ctx.Aligned; decide +kernel, by decide +kernel⟩

/-- A strong load whose value has come, and a `.fec` load whose granule is full. -/
def homeLoad : Load :=
  { team := 0, core := loadCore, lanes := 1, ty := .b32, n := 4, dest := .vec 255, vals := [(0, [1, 2, 3, 4])] }
def feLoad : Load := { team := 0, core := loadCore, lanes := 1, ty := .b32, n := 4, dest := .vec 2, fe := 2, offs := [(0, 64)] }
def loadState : State := { stand (waitTeam (.fe 1)) base0 with loads := [(0, homeLoad), (1, feLoad)] }

theorem witness_LoadReplies : Tbl.find? loadState.loads 0 = some homeLoad ∧
    Tbl.find? loadState.teams homeLoad.team = some (waitTeam (.fe 1)) ∧ loadState.loadReady homeLoad = true ∧
    ∀ r, homeLoad.dest = .vec r → r < 256 :=
  ⟨rfl, rfl, by decide +kernel, fun r h => by cases h; decide⟩

theorem witness_FullEmptyCompletes : Tbl.find? loadState.loads 1 = some feLoad ∧ feLoad.fe ≠ 0 ∧
    (waitTeam (.fe 1)).waiters (fun w => w == .fe 1) ≠ 0 ∧
    ({ loadState with cores := loadState.cores.updIf loadCore fun c => { c with full := [(State.granule 64, true)] } } : State).feFull feLoad
      = true := by
  decide +kernel

def stS : Form := { ty := .b32, q := 0x10, a := .v 4, b := .int 64, c := .v 6 }
theorem witness_ScratchpadStores : Standing memState is0 memTeam ∧ Clear .st stS memState is0 ∧ stS.space = 1 ∧
    (issued .st stS memState is0).Aligned 1 4 :=
  ⟨stand_ok _ _ rfl rfl, by unfold Clear; decide +kernel, by decide, by unfold Ctx.Aligned; decide +kernel⟩

/-- Atomic operation 0 and a compare-and-swap of the scratchpad, and a reduction. -/
def atomS : Form := { ty := .s32, q := 0x01, d := .reg (.v 2), a := .v 4, b := .int 64, c := .v 6 }
def casS : Form := { ty := .b32, q := 0x1D, d := .reg (.v 2), a := .v 4, b := .v 6, c := .v 6 }
def redS : Form := { ty := .s32, q := 0x01, a := .v 4, b := .int 64, c := .v 6 }
theorem witness_ScratchpadAtomics : Met memState memTeam [.atom atomS, .atom casS, .red redS] ∧
    atomS.atomSpace = 1 ∧ casS.atomSpace = 1 ∧ casS.atomOp = 7 ∧ redS.atomSpace = 1 ∧
    (∀ l, l < 32 → ((issued .atom atomS memState is0).base 1 + (issued .atom atomS memState is0).offset l) % (4 : Int) = 0) ∧
    ∀ l, l < 32 → ((issued .atom casS memState is0).base 1 + (issued .atom casS memState is0).offsetA l) % (4 : Int) = 0 :=
  ⟨met_of _ _ _ rfl rfl (by decide +kernel), by decide, by decide, by decide, by decide, by decide +kernel, by decide +kernel⟩

/-- Global writes: a store, an atomic and a reduction whose pages the TLB holds, with and without the block's mark. -/
def stG : Form := { ty := .b32, a := .v 4, b := .int 0, c := .v 6 }
def atomG : Form := { ty := .s32, d := .reg (.v 2), a := .v 4, b := .int 0, c := .v 6 }
def redG : Form := { ty := .s32, a := .v 4, b := .int 0, c := .v 6 }
theorem witness_GlobalWrites : Met memState memTeam [.st stG, .atom atomG, .red redG] ∧
    stG.space = 0 ∧ atomG.atomSpace = 0 ∧ redG.atomSpace = 0 ∧
    (∀ l, l < 32 → ((issued .st stG memState is0).base 0 + (issued .st stG memState is0).offset l) % (4 : Int) = 0) ∧
    (∀ l ∈ allLanes, memState.translate loadCore 0 (65536 + 4 * l) true = .ok ∧
      memState.tokenLacking 0 (65536 + 4 * l) 4 = false ∧ memState.strongOn loadCore 512 = false) ∧
    (∀ l ∈ allLanes, (issued .st stG memState is0).va 0 ((issued .st stG memState is0).offset l) = 65536 + 4 * l) ∧
    (memState.core loadCore).pledges = [] ∧ memState.loads = [] :=
  ⟨met_of _ _ _ rfl rfl (by decide +kernel), by decide, by decide, by decide, by decide +kernel⟩

theorem witness_GlobalWrites_marked : 128 ∈ (({ memState with cores := memState.cores.updIf loadCore fun c =>
    { c with pledges := [128] } } : State).core (memState.unit loadCore)).pledges ∧
    (memState.fillShut loadCore (allLanes.map fun l => (l, 65536 + 4 * l, [1, 2, 3, 4]))).isNone = true := by decide +kernel

/-- A store that waits for the decision on its pledge, by a region with and without the sectors. -/
def pledgeReq : StoreReq :=
  { team := 0, core := loadCore, lanes := BitVec.allOnes 32, writes := [(0, 65536, [1])], stores := 1 }
def pledgeState (rsvg : Int) : State :=
  { stand team0 base0 with
    msgs := [(0, { cls := .request, due := 0, chan := none, body := .pledge [128] pledgeReq })]
    regions := [(0, { rsvg := rsvg })] }

theorem witness_PledgeDecisions : Tbl.find? (pledgeState 8).msgs 0 =
      some { cls := .request, due := 0, chan := none, body := .pledge [128] pledgeReq } ∧
    (pledgeState 8).stopped 0 pledgeReq.lanes = false ∧
    (∀ k ∈ [128], entPledged ((pledgeState 8).blockEntry k) = true →
      entOwner ((pledgeState 8).blockEntry k) = (pledgeState 8).unit loadCore) ∧
    (pledgeState 8).migrating (512 * 128) = false ∧ (pledgeState 8).unmappedLanes pledgeReq = 0 ∧
    ((pledgeState 8).fillShut pledgeReq.core pledgeReq.writes).isNone = true ∧
    ((pledgeState 8).core loadCore).pledges.length + 1 ≤ 512 ∧ ((pledgeState 8).dropMsg 0).uncovered [128] = none ∧
    ((pledgeState 7).dropMsg 0).uncovered [128] = some (0, 8, 7) ∧
    (∃ g, Tbl.find? (pledgeState 8).regions 0 = some g) :=
  ⟨rfl, by decide +kernel, by decide +kernel, by decide +kernel, by decide +kernel, by decide +kernel, by decide +kernel,
    by decide +kernel, by decide +kernel, ⟨_, rfl⟩⟩

/-- A mark that another core asks for, with no dirty word left behind. -/
def markedState : State :=
  let s : State := { stand team0 base0 with
    msgs := [(0, { cls := .request, due := 0, chan := none, body := .ownerChange 128 loadCore })] }
  s.markBlock loadCore 128

theorem witness_PledgeDecisions_ownerChange : Tbl.find? markedState.msgs 0 =
      some { cls := .request, due := 0, chan := none, body := .ownerChange 128 loadCore } ∧
    entPledged (markedState.blockEntry 128) = true ∧ entOwner (markedState.blockEntry 128) = loadCore ∧
    markedState.holdsDirty loadCore 128 = false := by decide +kernel

/-- A store at the end of a line, a write-back, a strong load and a strong store of line 512, and an engine's landing. -/
theorem witness_WeakStoreReads : 65663 % 128 + 1 ≤ 128 ∧ [(1 : Byte)] ≠ [] ∧ 65663 / 128 = 65663 / 128 ∧
    Tbl.find? base0.msgs base0.nextId = none := by decide +kernel

theorem witness_MergesLand : ∃ m, Tbl.find? (homeMsg (.merge loadCore 512 1 7)).msgs 0 = some m ∧
    m.body = .merge loadCore 512 1 7 ∧ 0 < (homeMsg (.merge loadCore 512 1 7)).nextId ∧
    (homeMsg (.merge loadCore 512 1 7)).mergeWait 0 (coreDie loadCore) 512 = none ∧
    (homeMsg (.merge loadCore 512 1 7)).mapped 512 = true ∧ (512 : Nat) < 2 ^ 64 :=
  ⟨_, rfl, rfl, by decide +kernel⟩

/-- A page holds fewer than 32 frames, so a write-back finds its frames wherever 31 are free (R198, R220). -/
theorem page_frames_lt (s : State) (line : Nat) : s.pageFrames line < 32 := by
  unfold State.pageFrames
  cases s.pageAt (128 * line) with
  | none => exact Nat.zero_lt_succ _
  | some x => exact (BitVec.extractLsb' 36 (40 + 1 - 36) x.2.word).isLt

theorem witness_MergesLand_frames (s' : State) : (homeMsg (.merge loadCore 512 1 7)).hasFrames s' 512 = true := by
  have h := page_frames_lt s' 512
  have h1 : (homeMsg (.merge loadCore 512 1 7)).framesHeld ((homeMsg (.merge loadCore 512 1 7)).homePort 512) + 31 ≤
      portFrames ((homeMsg (.merge loadCore 512 1 7)).homePort 512) := by decide +kernel
  unfold State.hasFrames
  simp only [Bool.or_eq_true, decide_eq_true_eq]
  omega

theorem witness_StrongAccesses (write : Bool) :
    let b := MsgBody.strong loadCore 512 0 0 write none [{ lane := 0, addr := 65536, n := 4, bytes := [1, 2, 3, 4] }]
    ∃ m, Tbl.find? (homeMsg b).msgs 0 = some m ∧ m.body = b ∧ 0 < (homeMsg b).nextId ∧
      (homeMsg b).mergeWait 0 (coreDie loadCore) 512 = none ∧ (homeMsg b).olderOnChan 0 = false ∧
      (homeMsg b).migrating (128 * 512) = false ∧ (homeMsg b).mapped 512 = true :=
  by cases write <;> exact ⟨_, rfl, rfl, by decide +kernel⟩

/-- A copy command whose last block is to land. -/
def landCmd : Cmd := { id := 3, number := 1, wg := 0, teams := [0], body := .copy [] false false 0 none, st := .landing,
                       landings := [(128, [(65536, 9)])] }
def landState : State :=
  { homeMsg (.landing loadCore 3 128) with cores := base0.cores.updIf loadCore fun c => { c with copyQ := [landCmd] } }

theorem witness_MergesLand_engine : landState.findCmd loadCore 3 = some landCmd ∧
    Tbl.find? landCmd.landings 128 = some [(65536, 9)] ∧
    ([(65536, (9 : Byte))].map (·.1)).Nodup ∧
    (∀ y ∈ (landState.core loadCore).copyQ.takeWhile (fun y => y.id != 3), ∀ b ∈ y.landings, b.1 ≠ 128) ∧
    landState.mergeWait 0 (coreDie loadCore) 512 = none ∧ landState.mapped (65536 / 128) = true := by decide +kernel

/-- Acquire and release at a line that nobody holds, one that the core holds, and at the scope of the workgroup. -/
def acqF (q : BitVec 6) : Form := { q := q, a := .int 0, b := .int 0 }
theorem witness_AcquireAndRelease : Met (stand team0 base0) team0
      [.acq (acqF 0x24), .acq (acqF 4), .acq (acqF 1), .rel (acqF 4), .rel (acqF 0)] ∧
    (issued .acq (acqF 0x24) (stand team0 base0) is0).active ≠ 0 ∧
    (issued .acq (acqF 0x24) (stand team0 base0) is0).inSeg 0 0 128 = true ∧
    (stand team0 base0).translate loadCore 0 65536 false = .ok ∧
    (∀ l ∈ ((stand team0 base0).core loadCore).holds, l.1 ≠ 512) ∧ ((stand team0 base0).syncs.get {} 512).excl = none :=
  ⟨met_of _ _ _ rfl rfl (by decide +kernel), by decide +kernel⟩

theorem witness_AcquireAndRelease_held :
    ((({ stand team0 base0 with cores := base0.cores.updIf loadCore fun c => { c with holds := [(512, false)] } } : State).core
      loadCore).holds.any (·.1 == 512)) = true := by decide +kernel

/-! Sync objects, bindings, caches, sparse records. -/

/-- A sync object at line 512 with one request of the core, and who holds it and released it last. -/
def syncReq (stage : Nat) : SyncReq :=
  { core := loadCore, team := some 0, lanes := BitVec.allOnes 32, launch := 0, widx := 0, excl := true, release := false,
    stage := stage, va := 65536 }
def syncState (stage : Nat) (hold last : Option Nat) : State :=
  { stand team0 base0 with syncs := [(512, { hold := hold, last := last, queue := [syncReq stage] })] }

/-- Stage 0 with no holder and with another core's hold; stage 2 with no release, with another's; stage 4. -/
theorem witness_SyncProtocol_home : ∀ x ∈ [(0, none, none), (0, some 5, none), (2, none, none), (2, none, some 5), (4, none, none)],
    (∃ m, Tbl.find? (syncState x.1 x.2.1 x.2.2).syncs 512 = some m ∧ m.queue = [syncReq x.1] ∧ m.excl = none ∧
      m.hold = x.2.1 ∧ m.last = x.2.2) ∧ ((syncState x.1 x.2.1 x.2.2).pageAt (128 * 512)).isSome = true := by
  intro x hx
  simp only [List.mem_cons, List.not_mem_nil, or_false] at hx
  rcases hx with rfl | rfl | rfl | rfl | rfl <;> exact ⟨⟨_, rfl, rfl, rfl, rfl, rfl⟩, by decide +kernel⟩

/-- The messages of the protocol, first on their channels; the grant finds its team ready to go on. -/
theorem witness_SyncProtocol_messages : ∀ b ∈ [MsgBody.takeback loadCore 512, .surrender loadCore 512 none,
      .surrender loadCore 512 (some 1), .surrenderAck loadCore 512 1, .grant 512 (syncReq 4)],
    (∃ m, Tbl.find? ({ stand team0 base0 with msgs := (homeMsg b).msgs } : State).msgs 0 = some m ∧ m.body = b) ∧
    ({ stand team0 base0 with msgs := (homeMsg b).msgs } : State).olderOnChan 0 = false := by
  intro b hb
  simp only [List.mem_cons, List.not_mem_nil, or_false] at hb
  rcases hb with rfl | rfl | rfl | rfl | rfl <;> exact ⟨⟨_, rfl, rfl⟩, by decide +kernel⟩

theorem witness_SyncProtocol_grant : (syncReq 4).team = some 0 ∧ ∀ l, l < 32 → ((stand team0 base0).team 0).parked l = false := by
  decide +kernel

def bindTeam : Team := { team0 with s := [(2, 128), (3, 128), (4, 4095)] }
def bindF : Form := { q := 0x20, d := .reg (.s 1), a := .s 2, b := .s 3, c := .int 0 }
theorem witness_BindingWords : Met (stand bindTeam base0) bindTeam [.bind bindF, .unbind { a := .s 4 }] ∧
    (issued .bind bindF (stand bindTeam base0) is0).active ≠ 0 ∧
    (128 : Nat) + 128 ≤ (issued .bind bindF (stand bindTeam base0) is0).limit 0 ∧
    (stand bindTeam base0).translate loadCore 0 65536 false = .ok ∧
    ((stand bindTeam base0).region (issued .bind bindF (stand bindTeam base0) is0).region).bindings.freeKey 4096 = some 0 ∧
    ((issued .unbind { a := .s 4 } (stand bindTeam base0) is0).sc (.s 4)).toNat = 4095 :=
  ⟨met_of _ _ _ rfl rfl (by decide +kernel), by decide +kernel⟩

theorem witness_BlockSizes : Met (stand team0 base0) team0 [.bsize { d := .reg (.v 1), a := .v 2, b := .int 0 }] ∧
    (issued .bsize { d := .reg (.v 1), a := .v 2, b := .int 0 } (stand team0 base0) is0).Mapped 0
      ((issued .bsize { d := .reg (.v 1), a := .v 2, b := .int 0 } (stand team0 base0) is0).within 0 1) false ∧
    (stand team0 base0).inFlight loadCore 128 = false :=
  ⟨met_of _ _ _ rfl rfl (by decide +kernel), by unfold Ctx.Mapped; decide +kernel, by decide +kernel⟩

theorem witness_CacheControl : Met (stand team0 base0) team0
      [.cwb { a := .s 1, b := .int 0 }, .cwb { q := 0x20 }, .cinv { a := .s 1, b := .int 0 }, .icinv { a := .s 1, b := .int 0 }] ∧
    (issued .cwb { q := 0x20 } (stand team0 base0) is0).active ≠ 0 ∧
    (∀ l ∈ (issued .cwb { a := .s 1, b := .int 0 } (stand team0 base0) is0).cacheLines 1 |>.2,
      ((stand team0 base0).l1 loadCore l).dirty = 0) ∧ (stand team0 base0).msgs = [] :=
  ⟨met_of _ _ _ rfl rfl (by decide +kernel), by decide +kernel⟩

/-- The cursor of R274's example, LEN 40 and CAP 16, and a lane's element 1.0 under bfloat16 in v6. -/
def sparseTeam : Team := { team0 with s := [(5, 0x0028001000000000)], v := [(32 * 6 + 1, 0x3F80)] }
def spS : Form := { ty := .bf16, q := 0x10, d := .reg (.s 5), a := .int 512, b := .int 0, c := .v 6 }
def spG : Form := { ty := .bf16, d := .reg (.s 5), a := .int 512, b := .int 0, c := .v 6 }
theorem witness_SparseStores : Met (stand sparseTeam base0) sparseTeam [.stSparse spS, .stSparse spG] ∧
    spS.space = 1 ∧ spG.space = 0 ∧ (issued .stSparse spS (stand sparseTeam base0) is0).active ≠ 0 ∧
    bitsOf (sparseTeam.readS 5) 63 48 = 40 ∧ bitsOf (sparseTeam.readS 5) 47 32 = 16 ∧
    bitsOf (sparseTeam.readS 5) 31 16 = 0 ∧ bitsOf (sparseTeam.readS 5) 15 0 = 0 ∧
    (issued .stSparse spS (stand sparseTeam base0) is0).inSeg 1 512 (12 + 2 * 16) = true ∧
    ((issued .stSparse spS (stand sparseTeam base0) is0).lanes.filter fun l =>
      decide ((issued .stSparse spS (stand sparseTeam base0) is0).bits spS.c 16 l ≠ 0)).length = 1 ∧
    (stand sparseTeam base0).translate loadCore 0 66048 true = .ok ∧
    (stand sparseTeam base0).tokenLacking 0 66048 44 = false ∧ (stand sparseTeam base0).strongOn loadCore 516 = false ∧
    (stand sparseTeam base0).loads = [] :=
  ⟨met_of _ _ _ rfl rfl (by decide +kernel), by decide, by decide, by decide +kernel⟩

/-- The same with the record's block marked at the core. -/
def sparseMarked : State := stand sparseTeam { base0 with cores := base0.cores.updIf loadCore fun c => { c with pledges := [129] } }
theorem witness_SparseStores_marked : Standing sparseMarked is0 sparseTeam ∧ Clear .stSparse spG sparseMarked is0 ∧
    66048 / 512 ∈ (sparseMarked.core (sparseMarked.unit loadCore)).pledges ∧ (66048 + 43) / 512 = 129 ∧
    (sparseMarked.fillShut loadCore [(0, 66048, List.replicate 44 0)]).isNone = true :=
  ⟨stand_ok sparseTeam { base0 with cores := _ } rfl rfl, by unfold Clear; decide +kernel⟩

def expF (e0 : BitVec 11) : Form := { ty := .f16, q := 0x10, d := .reg (.v 3), a := .int 64, b := .int 0, c := .int e0 }
theorem witness_ExpandLoads : Met (stand team0 base0) team0 [.ldExpand (expF 0), .ldExpand (expF 32)] ∧
    (expF 32).space = 1 ∧ (issued .ldExpand (expF 32) (stand team0 base0) is0).active ≠ 0 ∧
    (issued .ldExpand (expF 32) (stand team0 base0) is0).inSeg 1 64 4 = true ∧
    (issued .ldExpand (expF 32) (stand team0 base0) is0).inSeg 1 68 8 = true :=
  ⟨met_of _ _ _ rfl rfl (by decide +kernel), by decide, by decide +kernel⟩

/-! Engines: a copy of 2 rows of 4 halfwords from global offset 0 to scratchpad offset 256, and a coordinate program. -/

/-- s2:s3 the descriptor, s4:s5 the global offset and control word (ESIZE 1, 2 rows, 4 columns), s6 the mask; s7 the
control word of a program at scratchpad offset 192. -/
def copyTeam : Team :=
  { team0 with s := [(2, 0x100), (3, 0x10), (5, 0x1001003000000000), (6, 1), (8, 0x1001003000000000 + 192 * 256)] }
def copyF : Form := { q := 2, a := .pair 2 3, b := .pair 4 5, c := .s 6 }
def genF : Form := { q := 2, a := .pair 2 3, b := .pair 7 8, c := .s 6 }
def copyState : State := stand copyTeam base0

theorem witness_CopiesAssemble : Standing copyState is0 copyTeam ∧ Clear .copy copyF copyState is0 ∧
    (∃ w, Tbl.find? copyState.wgs 0 = some w ∧ w.asm.length < 8) ∧ (issued .copy copyF copyState is0).active ≠ 0 ∧
    (∀ k, (issued .copy copyF copyState is0).descs [copyF.a] k = k) ∧
    (issued .copy copyF copyState is0).copyConds 1 = (false, false, false) ∧
    ((issued .copy copyF copyState is0).desc copyF.a).endOf (cwTiles 0x1001003000000000) (cwRows 0x1001003000000000)
      (cwCols 0x1001003000000000 * cwE 0x1001003000000000) ≤ (copyTeam.seg 1).limit.toNat ∧
    (∀ x ∈ [((0 : Int), 8), (0, 8)], (issued .copy copyF copyState is0).inSeg 0 x.1 x.2 = true) ∧
    (issued .copy copyF copyState is0).Passes [(65536, 8), (65536, 8)] [] none ∧
    (issued .copy copyF copyState is0).openInst 1 = none ∧ (issued .copy copyF copyState is0).named 1 = [0] ∧
    (copyState.core loadCore).copyQ.length < 32 :=
  ⟨stand_ok _ _ rfl rfl, by unfold Clear; decide +kernel, ⟨_, rfl, by decide⟩, by decide +kernel, fun _ => rfl,
    by decide +kernel, by decide +kernel, by decide +kernel, fun _ => rfl, by decide +kernel⟩

/-- The program: `emit` of 8 elements, and `end`. -/
def genState : State :=
  { copyState with cores := base0.cores.updIf loadCore fun c => { c with spad :=
      [(192, 0x08), (199, 0x50)] } }
theorem witness_CopiesAssemble_program : Standing genState is0 copyTeam ∧ Clear .copyGen genF genState is0 ∧
    (∀ k, (issued .copyGen genF genState is0).descs [genF.a] k = k) ∧
    (let bs := (issued .copyGen genF genState is0).spadRead (issued .copyGen genF genState is0).s 1 192 64 false
     bitsOf (copyTeam.readS 8) 7 0 = 0 ∧ bitsOf (copyTeam.readS 8) 26 8 = 192 ∧ (copyTeam.readS 8).getLsbD 27 = false ∧
     (issued .copyGen genF genState is0).inSeg 1 192 64 = true ∧ programOk (microsOf bs) [] false false = true ∧
      (programRuns (microsOf bs)).foldl (fun n x => n + x.2) 0 = 8 ∧ programRuns (microsOf bs) = [(0, 8)]) ∧
    (genState.engineShut (coreDie loadCore) 65536 64).isNone = true :=
  ⟨stand_ok copyTeam { base0 with cores := _ } rfl rfl, by unfold Clear; decide +kernel, fun _ => rfl, by decide +kernel⟩

/-- The same program in the constants at offset 192. -/
def genTeam : Team := { copyTeam with s := copyTeam.s.put 8 (0x1001003000000000 + 192 * 256 + 0x8000000) }
def genConst : State := stand genTeam { base0 with mem := [(65728, 0x08), (65735, 0x50)] }
theorem witness_CopiesAssemble_constants : Standing genConst is0 genTeam ∧ Clear .copyGen genF genConst is0 ∧
    (genTeam.readS 8).getLsbD 27 = true ∧ bitsOf (genTeam.readS 8) 26 8 = 192 ∧
    (issued .copyGen genF genConst is0).inSeg 3 192 64 = true ∧ genConst.translate loadCore 0 65728 false = .ok ∧
    genConst.translate loadCore 0 (65728 + 63) false = .ok ∧
    (let c := issued .copyGen genF genConst is0
     let u := c.touched [(c.va 3 192, c.active), (c.va 3 (192 + 63), c.active)]
     programRuns (microsOf (u.s.engineBytes (coreDie loadCore) (c.gaddr 3 192) 64)) = [(0, 8)]) :=
  ⟨stand_ok genTeam { base0 with mem := _ } rfl rfl, by unfold Clear; decide +kernel, by decide +kernel⟩

theorem witness_SealedBatches : Met (stand team0 base0) team0 [.copySeal { d := .reg (.s 9) }] ∧
    activeMask team0 is0.lanes {} ≠ 0 := ⟨met_of _ _ _ rfl rfl (by decide +kernel), by decide +kernel⟩

/-- No batch left, and one left. -/
def batchTeam : Team := { team0 with sealed := [{ number := 0, cmds := [5] }], collCmds := [{ number := 6, cmds := [6] }] }
theorem witness_EngineWaits : Met (stand batchTeam base0) batchTeam
      [.copyWait { a := .int 0 }, .copyWait { a := .int 1 }, .collWait { a := .int 0 }, .collWait { a := .int 1 }] ∧
    (issued .copyWait { a := .int 0 } (stand batchTeam base0) is0).active ≠ 0 ∧
    (State.unfinished batchTeam.sealed).length = 1 ∧ (State.unfinished batchTeam.collCmds).length = 1 :=
  ⟨met_of _ _ _ rfl rfl (by decide +kernel), by decide +kernel⟩

/-- The command at the head of a copy queue, without and with an acquire, and one that waits to release. -/
def copyCmd (acq : Bool) (st : CmdState) : Cmd :=
  { id := 3, number := 1, wg := 0, teams := [0], body := .copy [] acq true 2 (some 512), st := st }
def queueState (x : Cmd) : State :=
  { stand team0 base0 with cores := base0.cores.updIf loadCore fun c => { c with copyQ := [x] } }
theorem witness_CopyEngine : ∀ x ∈ [copyCmd true .queued, copyCmd false .queued, copyCmd true .acquiring, copyCmd false .running],
    State.nextCopy ((queueState x).core loadCore).copyQ [] = some x := by decide +kernel
theorem witness_CopyEngine_release : (queueState (copyCmd false .releasing)).findCmd loadCore 3 =
      some (copyCmd false .releasing) ∧
    ((queueState (copyCmd false .releasing)).syncs.get {} 512).queue = [] ∧
    (queueState (copyCmd false .releasing)).exclOther 0 512 = false := by decide +kernel

/-- An accumulator record of 16 granules of type FP32 at index 0. -/
def accRecord : ObRec := obRecOf 0 0 0 16 .f32 0 0
def accState (t : Team) : State :=
  { stand t base0 with cores := base0.cores.updIf loadCore fun c => { c with recs := [(0, accRecord)] } }
def obresF (n : BitVec 11) : Form := { ty := .f32, d := .reg (.s 1), b := .int n, c := .int 0 }
theorem witness_ReservationRecords : Met (stand team0 base0) team0 [.obres (obresF 1), .obres (obresF 64)] ∧
    (∃ w, Standing (accState team0) is0 w ∧ Clear .obrel { a := .int 0 } (accState team0) is0 ∧
      Clear .obfmt { ty := .f32, a := .int 0, c := .int 0 } (accState team0) is0) ∧
    (issued .obres (obresF 1) (stand team0 base0) is0).active ≠ 0 ∧
    (issued .obres (obresF 1) (stand team0 base0) is0).illegal = none ∧
    freeRun (issued .obres (obresF 1) (stand team0 base0) is0) 1 = some 0 ∧
    freeRun (issued .obres (obresF 64) (stand team0 base0) is0) 64 = none ∧
    ((issued .obfmt { ty := .f32, a := .int 0, c := .int 0 } (accState team0) is0).record 0).isSome = true :=
  ⟨met_of _ _ _ rfl rfl (by decide +kernel), ⟨team0, stand_ok team0 { base0 with cores := _ } rfl rfl,
    by unfold Clear; decide +kernel, by unfold Clear; decide +kernel⟩, by decide +kernel⟩

/-- The operands of the accumulator words: s2:s3 a descriptor, s7 a global offset, s8 a pitch. -/
def accTeam : Team := { team0 with s := [(2, 0x100), (3, 16), (7, 0), (8, 256)] }
theorem standing_acc : Standing (accState accTeam) is0 accTeam := stand_ok accTeam { base0 with cores := _ } rfl rfl
def getF : Form := { ty := .f32, d := .reg (.v 32), b := .int 3, c := .int 0 }
def putF : Form := { ty := .f32, q := 0x10, a := .v 32, b := .int 3, c := .int 0 }
def putD : Form := { ty := .f32, q := 0x10, a := .pair 2 3, c := .int 0 }
def zeroF : Form := { ty := .f32, q := 0x20, c := .int 0 }
def accstS : Form := { ty := .bf16, a := .pair 2 3, c := .int 0 }
def accstG : Form := { ty := .bf16, a := .s 7, b := .s 8, c := .int 0 }
theorem witness_AccumulatorWords : Standing (accState accTeam) is0 accTeam ∧
    (∀ x ∈ [(Op.accldGet, getF), (.accldPut, putF), (.accldPut, putD), (.accldZero, zeroF), (.accst, accstS), (.accst, accstG)],
      Clear x.1 x.2 (accState accTeam) is0 ∧ (issued x.1 x.2 (accState accTeam) is0).w.matrix ≠ .none ∧
      (issued x.1 x.2 (accState accTeam) is0).active ≠ 0 ∧
      (issued x.1 x.2 (accState accTeam) is0).accRec x.2.c = some accRecord ∧
      (issued x.1 x.2 (accState accTeam) is0).illegal = none) ∧
    (accState accTeam).matrixRoom 0 = true ∧ (issued .accldGet getF (accState accTeam) is0).blocksQ = 4 ∧
    32 + 32 ≤ accTeam.vregs - accTeam.depth ∧ descFault (accTeam.readS 2) (accTeam.readS 3) = none ∧
    (issued .accldPut putD (accState accTeam) is0).descIn ((issued .accldPut putD (accState accTeam) is0).desc putD.a) 1 64 256
      = true ∧
    (issued .accst accstS (accState accTeam) is0).descIn ((issued .accst accstS (accState accTeam) is0).desc accstS.a) 1 64
      (storeRow .bf16 0) = true :=
  ⟨standing_acc, by unfold Clear; decide +kernel, by decide +kernel⟩

theorem witness_AccumulatorWords_global :
    (issued .accst accstG (accState accTeam) is0).inSeg 0 0 (63 * 256 + 128) = true ∧
    (issued .accst accstG (accState accTeam) is0).Passes [] [(65536, 63 * 256 + 128)] none :=
  ⟨by decide +kernel, fun _ => rfl⟩

/-! Matrix multiplies and collectives. -/

def mmaF : Form := { ty := .bf16, a := .v 32, b := .pair 2 3, c := .int 0 }
theorem witness_MatrixMultiplies : Standing (accState accTeam) is0 accTeam ∧ Clear .mma mmaF (accState accTeam) is0 ∧
    (issued .mma mmaF (accState accTeam) is0).w.matrix ≠ .none ∧ (issued .mma mmaF (accState accTeam) is0).active ≠ 0 ∧
    (issued .mma mmaF (accState accTeam) is0).illegal = none ∧ contBits .bf16 0 = 16 ∧
    32 + 32 ≤ accTeam.vregs - accTeam.depth ∧ descFault (accTeam.readS 2) (accTeam.readS 3) = none ∧
    (issued .mma mmaF (accState accTeam) is0).descIn ((issued .mma mmaF (accState accTeam) is0).desc mmaF.b) 1 64
      (depthK 16 * 16 / 8) = true ∧
    (issued .mma mmaF (accState accTeam) is0).accRec mmaF.c = some accRecord ∧ (accState accTeam).matrixRoom 0 = true :=
  ⟨standing_acc, by unfold Clear; decide +kernel, by decide +kernel⟩

/-- An `mma` of 32 operations, 8 of them enqueued, whose queue has a free place. -/
def mmaCmd : Cmd := { id := 0, number := 0, wg := 0, teams := [0], body := .mat .zero 0 0 16 0 0 0 }
def mmaWord : IWord := 0xA1DC_000F_0000_0008_0000_6000
def mmaWait : Team := waitTeam (.mma 8 10 (BitVec.allOnes 32) mmaWord mmaCmd)
theorem witness_MatrixResumes : (mmaWait.lane 0).st = .waiting ∧ mmaWait.parked 0 = false ∧ mmaWait.stopping = false ∧
    (∀ j, j < 32 → (mmaWait.lane j).wait = some (.mma 8 10 (BitVec.allOnes 32) mmaWord mmaCmd) ∧ mmaWait.parked j = false ∧
      (mmaWait.lane j).pc = (mmaWait.lane 0).pc) ∧
    (decodeRaw (Raw.ofWord mmaWord)).toOption.isSome = true ∧
    8 - ((stand mmaWait base0).matrixQueue ((stand mmaWait base0).wg 0)).length ≠ 0 := by decide +kernel

/-- An operation that has had its cycles at the head of the queue. -/
def ripeCmd (op : MatOp) : Cmd :=
  { id := 3, number := 1, wg := 0, teams := [0], body := .mat op 0 0 16 0 0 0, st := .running }
def ripeState (op : MatOp) : State :=
  { stand team0 base0 with cores := base0.cores.updIf loadCore fun c => { c with matrix := { q0 := [ripeCmd op] } } }
theorem witness_MatrixQueue (op : MatOp) : (ripeState op).matHead loadCore 0 = some (ripeCmd op) ∧
    (ripeState op).ripe (ripeCmd op) = true ∧ ∃ y, Tbl.find? (ripeState op).teams 0 = some y := ⟨rfl, rfl, _, rfl⟩

/-- A collective of one package: its record, at global offset 0, names P = 1 and rank 0. -/
def collTeam2 : Team := { team0 with s := [(1, 1024), (2, 2048), (3, 4)] }
def collF : Form := { ty := .f32, a := .pair 1 2, b := .pair 3 4 }
def collState : State := stand collTeam2 { base0 with mem := [(65536, 1)] }
theorem witness_CollectiveWords : Standing collState is0 collTeam2 ∧ Clear .coll collF collState is0 ∧
    (issued .coll collF collState is0).active ≠ 0 ∧ (issued .coll collF collState is0).inSeg 0 0 64 = true ∧
    collState.translate loadCore 0 65536 false = .ok ∧
    (let u := (issued .coll collF collState is0).touched [(65536, (issued .coll collF collState is0).active)]
     groupBad (u.s.engineBytes (coreDie loadCore) 65536 64) ((issued .coll collF collState is0).limit 0) = false ∧
       ({ u with s := u.s.engineHeat (coreDie loadCore) 65536 64 } : Ctx).Passes [(66560, 16), (65536, 8)]
         [(67584, 16), (65552, 16)] none ∧ (u.s.engineShut (coreDie loadCore) 65536 64).isNone = true) ∧
    (collState.core loadCore).copyQ.length < 32 ∧ (State.unfinished collTeam2.collCmds).length < 32 :=
  ⟨stand_ok collTeam2 { base0 with mem := _ } rfl rfl, by unfold Clear; decide +kernel, by decide +kernel, by decide +kernel,
    by decide +kernel, ⟨by decide +kernel, fun _ => rfl, by decide +kernel⟩, by decide +kernel, by decide +kernel⟩

/-- A collective of two packages that runs, and the other's part: lost, disagreeing, and agreeing. -/
def collCmd : Cmd := { id := 3, number := 1, wg := 0, teams := [0], body := .coll 0 .f32 1 66560 67584 65536 0 2 0 0 0, st := .running }
def part1 (lost : Bool) (p : Nat) : CollPart :=
  { rank := 1, p := p, tag := 0, op := 0, ty := .f32, count := 1, flits := [], lost := lost }
theorem witness_CollectivesRun : ((queueState collCmd).core loadCore).copyQ = [collCmd] ∧ collCmd.st = .running ∧
    (∀ x ∈ [(true, 2), (false, 3), (false, 2)],
      State.collPick ((queueState collCmd).core loadCore).copyQ [part1 x.1 x.2] = some collCmd) ∧
    (queueState collCmd).teamsStrongOut collCmd.teams = false ∧
    (queueState collCmd).away (coreDie loadCore) [(66560, 4)] = [520] ∧
    ({ queueState collCmd with copies := [(State.copyKey (coreDie loadCore) 520, { st := .e, data := 0 })] } : State).away
      (coreDie loadCore) [(66560, 4)] = [] := by decide +kernel

/-! Waits, barriers and phases. -/

theorem witness_WaitingWords : Met (stand team0 base0) team0
      [.bar {}, .barGang {}, .pbarWait { q := 0x10, a := .int 64, b := .int 0, c := .int 1 }, .sleep { a := .int 100 }] ∧
    (issued .bar {} (stand team0 base0) is0).active ≠ 0 ∧
    (issued .bar {} (stand team0 base0) is0).s.lanesOut 0 (BitVec.allOnes 32) = false ∧
    (issued .sleep { a := .int 100 } (stand team0 base0) is0).u32 (.int 100) 0 ≠ 0 ∧
    (issued .pbarWait { q := 0x10, a := .int 64, b := .int 0, c := .int 1 } (stand team0 base0) is0).inSeg 1 64 4 = true :=
  ⟨met_of _ _ _ rfl rfl (by decide +kernel), by decide +kernel⟩

/-- The waits that can end: no unfinished batch, phase 0 awaited to differ from 1, a deadline reached. -/
theorem witness_WaitsEnd : ∀ w ∈ [Wait.copyWait 0, .collWait 0, .pbar loadCore (some 128) true false, .sleep 0 0],
    (((waitTeam w).lane 31).st == .waiting && !(waitTeam w).parked 31) = true ∧ (waitTeam w).stopping = false ∧
    (State.unfinished (waitTeam w).sealed).length = 0 ∧ (State.unfinished (waitTeam w).collCmds).length = 0 ∧
    ((stand (waitTeam w) base0).phaseGet loadCore 128).getLsbD 31 = false ∧ (0 : DWord) ≤ (waitTeam w).run := by
  decide +kernel

theorem witness_BarriersComplete :
    (stand (waitTeam .bar) base0).allWait [0] (fun _ x => x == .bar) = true ∧
    (stand (waitTeam (.barGang 1)) base0).allWait [0] (fun t x => match x with
      | .barGang n => (stand (waitTeam (.barGang 1)) base0).drained ((stand (waitTeam (.barGang 1)) base0).unit t.core) n
      | _ => false) = true ∧
    ((stand (waitTeam .bar) base0).wg 0).teams = [0] ∧ ((stand (waitTeam .bar) base0).wg 0).guardRec = none ∧
    ((stand (waitTeam .bar) base0).gangs.get { launch := 0 } 0).wgs = [0] := by decide +kernel

def arriveF (n : BitVec 11) : Form := { q := 0x10, a := .int 64, b := .int 0, c := .int n }
theorem witness_PhaseArrivals : Met (stand team0 base0) team0 [.pbarArrive (arriveF 1)] ∧
    (issued .pbarArrive (arriveF 1) (stand team0 base0) is0).active ≠ 0 ∧
    (issued .pbarArrive (arriveF 1) (stand team0 base0) is0).inSeg 1 64 4 = true ∧
    (issued .pbarArrive (arriveF 1) (stand team0 base0) is0).spadAt 1 64 = some (loadCore, 64, false) ∧
    (issued .pbarArrive (arriveF 1) (stand team0 base0) is0).s.lanesOut 0 (BitVec.allOnes 32) = false :=
  ⟨met_of _ _ _ rfl rfl (by decide +kernel), by decide +kernel⟩

/-! Exceptions. -/

/-- A register beyond the program registers. -/
theorem witness_WordFaults : ∃ fi, wordFault (ctxOf .add { ty := .s32, d := .reg (.v 252), a := .v 1, b := .v 2 }
    (stand team0 base0) is0) = some fi ∧ fi.cause = 2 ∧ fi.sub = 1 := by
  refine ⟨(wordFault (ctxOf .add { ty := .s32, d := .reg (.v 252), a := .v 1, b := .v 2 } (stand team0 base0) is0)).get
    (by decide +kernel), by decide +kernel⟩

/-- One word of each kind at a level that may not issue it. -/
theorem witness_PrivilegeFaults :
    ∀ x ∈ [(Op.bar, ({} : Form), (1 : BitVec 2)), (.barGang, {}, 1), (.pbarWait, { q := 0x10, a := .int 64, b := .int 0, c := .int 1 }, 1),
      (.rett, {}, 0), (.segld, { a := .int 2, b := .pair 4 5 }, 0), (.tlbinv, { a := .s 1, b := .int 3 }, 0),
      (.kslotLoad, { d := .reg (.s 1), a := .s 2, b := .s 3 }, 1), (.kslotRevoke, { q := 1, d := .reg (.s 1), a := .s 2 }, 0),
      (.pgsurr, { d := .reg (.s 1), a := .s 2, b := .int 1 }, 2)],
    Standing (stand { team0 with priv := x.2.2 } base0) is0 { team0 with priv := x.2.2 } ∧
    operandFault (ctxOf x.1 x.2.1 (stand { team0 with priv := x.2.2 } base0) is0) = none := by
  intro x hx
  refine ⟨stand_ok _ _ rfl rfl, ?_⟩
  revert x
  decide +kernel

theorem witness_DoubleFaults : ∃ w, Tbl.find? (stand { team0 with priv := 1 } base0).wgs 0 = some w ∧ w.ending = none ∧
    w.ended = false ∧ ({ team0 with priv := 2, handler := some { lanes := 1, at_ := 0, fault := true } } : Team).handler.isSome = true :=
  ⟨_, rfl, rfl, rfl, rfl⟩

/-- Team 0 at level 0, with a save slot at 65,536; its workgroup's teams are not in a handler. -/
def slotTeam : Team := { team0 with slotVa := 65536 }
theorem witness_HandlerEntry : ∃ w, Tbl.find? (stand slotTeam base0).wgs 0 = some w ∧ slotTeam.priv ≠ 1 ∧
    slotTeam.handler = none ∧ slotTeam.haltDue = none ∧ slotTeam.chain = none ∧ w.teams = [0] ∧ (∀ y, Tbl.find? (stand slotTeam base0).teams 0 = some y → y.handler = none) ∧
    ∀ line ∈ [512, 513, 514], (stand slotTeam base0).mapped line = true ∧ (stand slotTeam base0).leases.has line = false :=
  ⟨_, rfl, by decide, rfl, rfl, rfl, rfl, fun y h => by cases h; rfl, by decide +kernel⟩

theorem witness_SoftwareTraps : Met (stand team0 base0) team0 [.trap { a := .int 239 }, .trap { a := .int 241 }] ∧
    (issued .trap { a := .int 239 } (stand team0 base0) is0).active ≠ 0 ∧ team0.trapmask.getLsbD 0 = false ∧
    ((issued .trap { a := .int 239 } (stand team0 base0) is0).sc (.int 239)).toNat % 256 = 239 ∧
    ((issued .trap { a := .int 241 } (stand team0 base0) is0).sc (.int 241)).toNat % 256 = 241 :=
  ⟨met_of _ _ _ rfl rfl (by decide +kernel), by decide +kernel⟩

/-- A request over the one page of the segment, and the team held for its answer. -/
def serviceTeam : Team := { team0 with s := [(2, 0), (3, 1)] }
def serviceF : Form := { d := .reg (.s 1), a := .int 240, b := .s 2, c := .s 3 }
theorem witness_ServiceRequests : Met (stand serviceTeam base0) serviceTeam [.trapService serviceF, .trap { serviceF with d := .none }] ∧
    ((issued .trap { serviceF with d := .none } (stand serviceTeam base0) is0).sc (.int 240)).toNat % 256 = 240 ∧
    (issued .trapService serviceF (stand serviceTeam base0) is0).active ≠ 0 ∧
    0 + 65536 * 1 ≤ (issued .trapService serviceF (stand serviceTeam base0) is0).limit 0 :=
  ⟨met_of _ _ _ rfl rfl (by decide +kernel), by decide +kernel, by decide +kernel, by decide +kernel⟩

def heldTeam : Team :=
  { team0 with lanes := allLanes.map fun l => (l, { hold := some (.service (some 1) 65536 1) }) }
theorem witness_ServiceAnswers : (heldTeam.lane 31).st = .running ∧
    (heldTeam.lane 31).hold = some (.service (some 1) 65536 1) ∧
    ∀ j, j < 32 → (heldTeam.lane j).hold = some (.service (some 1) 65536 1) ∧ (heldTeam.lane j).st = .running ∧
      heldTeam.parked j = false := by decide +kernel

def handlerTeam : Team := { team0 with priv := 1, trapmask := 1, handler := some { lanes := BitVec.allOnes 32, at_ := 0, fault := true } }
theorem witness_HandlerReturn : Met (stand handlerTeam base0) handlerTeam [.rett {}] ∧
    activeMask handlerTeam is0.lanes {} ≠ 0 ∧ (stand handlerTeam base0).accessOut 0 = false ∧
    handlerTeam.handler = some { lanes := BitVec.allOnes 32, at_ := 0, fault := true } ∧ handlerTeam.chain = none ∧
    ((issued .rett {} (stand handlerTeam base0) is0).s.readShut 0 (gaOf 0 handlerTeam.slotVa) 384).isNone = true :=
  ⟨met_of _ _ _ rfl rfl (by decide +kernel), by decide +kernel, by decide +kernel, rfl, rfl, by decide +kernel⟩

/-! System registers, segments, the reserve. -/

theorem witness_SystemReads : Met (stand team0 base0) team0
    ([0x000, 0x001, 0x002, 0x003, 0x004, 0x005, 0x006, 0x007, 0x008, 0x009, 0x00A, 0x00B, 0x00C, 0x010, 0x011, 0x012, 0x013,
      0x014, 0x015, 0x016, 0x017, 0x018, 0x020, 0x021, 0x022].map fun n => .sread { d := .reg (.s 63), a := .sys n }) :=
  met_of _ _ _ rfl rfl (by decide +kernel)

theorem witness_SystemWrites : Met (stand { team0 with priv := 2 } base0) { team0 with priv := 2 }
      [.swrite { a := .sys 0x010, b := .s 9 }] ∧
    Met (stand team0 base0) team0 ([0x012, 0x015, 0x016, 0x017].map fun n => .swrite { a := .sys n, b := .s 9 }) ∧
    activeMask team0 is0.lanes {} ≠ 0 ∧ (team0.readS 9).getLsbD 0 = team0.trapmask.getLsbD 0 :=
  ⟨met_of _ _ _ rfl rfl (by decide +kernel), met_of _ _ _ rfl rfl (by decide +kernel), by decide +kernel, by decide +kernel⟩

/-- `segld` of `sg.glob` within the bound that dispatch gave, and of `sg.save`. -/
def segTeam : Team := { team0 with priv := 1, s := [(4, 65536), (5, 65536)] }
theorem witness_SegmentLoads : Met (stand segTeam base0) segTeam
      [.segld { a := .int 0, b := .pair 4 5 }, .segld { a := .int 5, b := .pair 6 7 }] ∧
    (issued .segld { a := .int 0, b := .pair 4 5 } (stand segTeam base0) is0).segBound 0 = (65536, 65536) ∧
    ((issued .segld { a := .int 5, b := .pair 6 7 } (stand segTeam base0) is0).segBound 5).1 ≤ 0 :=
  ⟨met_of _ _ _ rfl rfl (by decide +kernel), by decide +kernel, by decide +kernel⟩

/-- A child region of a root, and a root. -/
def childBase : State :=
  { base0 with regions := [(0, { level := 1, parent := 1, rsvg := 10 }), (1, { rsvg := 100 })] }
theorem witness_ReserveWords : Met (stand team0 base0) team0 [.rsvRead { d := .reg (.s 61) }, .rsvRead { d := .reg (.s 62) },
      .rsvAsk { d := .reg (.s 1), a := .s 2 }] ∧ Met (stand team0 childBase) team0 [.rsvAsk { d := .reg (.s 1), a := .s 2 }] ∧
    activeMask team0 is0.lanes {} ≠ 0 ∧ (stand team0 childBase).regionOf team0.wg = 0 ∧
    ((stand team0 childBase).region 0).parentKey 0 = some 1 ∧ ((stand team0 base0).region 0).parentKey 0 = none ∧
    ∃ r q, Tbl.find? (stand team0 childBase).regions 0 = some r ∧ Tbl.find? (stand team0 childBase).regions 1 = some q :=
  ⟨met_of _ _ _ rfl rfl (by decide +kernel), met_of _ _ _ rfl rfl (by decide +kernel), by decide +kernel, by decide +kernel,
    by decide +kernel, by decide +kernel, ⟨_, _, rfl, rfl⟩⟩

def surrF : Form := { d := .reg (.s 1), a := .s 2, b := .int 1 }
theorem witness_PageSurrenders : Met (stand team0 base0) team0 [.pgsurr surrF] ∧
    (issued .pgsurr surrF (stand team0 base0) is0).active ≠ 0 ∧
    0 + 65536 * 1 ≤ (issued .pgsurr surrF (stand team0 base0) is0).limit 0 ∧
    ∀ j, j < 1 → (issued .pgsurr surrF (stand team0 base0) is0).surrFault (65536 + 0 + 65536 * j) = none :=
  ⟨met_of _ _ _ rfl rfl (by decide +kernel), by decide +kernel⟩

theorem witness_SettlementAccounts : (stand team0 base0).ownerOf 128 = some 0 ∧
    (Tbl.find? (stand team0 base0).regions 0).isSome = true := by decide +kernel


/-! Further system words: notices, the end of a workgroup, tiles, keys. -/

theorem witness_SystemActions :
    Met (stand { team0 with priv := 2 } base0) { team0 with priv := 2 } [.tlbinv { a := .s 1, b := .int 0 }] ∧
    Met (stand team0 base0) team0 [.noticeAckBalloon { a := .s 2 }, .noticeAckTimer {}, .endwg { a := .int 5 }] ∧
    activeMask team0 is0.lanes {} ≠ 0 ∧
    ((issued .tlbinv { a := .s 1, b := .int 0 } (stand { team0 with priv := 2 } base0) is0).sc (.int 0)).toNat ≤ 19 ∧
    base0.parts.has 0 = true :=
  ⟨met_of _ _ _ rfl rfl (by decide +kernel), met_of _ _ _ rfl rfl (by decide +kernel), by decide +kernel⟩

/-- A launch with one persistent gang and a walker bound to the core; the same with a request on the gang. -/
def tileBase : State :=
  { base0 with launches := base0.launches.map fun (k, l) =>
      (k, { l with persist := 1, tiles := 4, walkers := [(0, { next := 0, stop := 4, core := some loadCore })] }) }
def pressed (s : State) : State := { s with gangs := s.gangs.map fun (k, g) => (k, { g with req := some { posted := 0 } }) }

theorem witness_TileWords :
    Met (stand team0 tileBase) team0 [.yieldpoint {}, .tileNext { d := .reg (.g 1) }] ∧
    Met (stand team0 (pressed tileBase)) team0 [.yieldpoint {}, .tileNext { d := .reg (.g 1) }] ∧
    Met (stand team0 { base0 with launches := [] }) team0 [.tileNext { d := .reg (.g 1) }] ∧
    activeMask team0 is0.lanes {} ≠ 0 ∧ (∀ l, l < 32 → team0.parked l = false) ∧
    (stand team0 tileBase).softPending 0 = false ∧
    (stand team0 (pressed tileBase)).softPending 0 = true ∧
    (stand team0 { base0 with launches := [] }).softPending 0 = false ∧
    (∃ l k tile s1, Tbl.find? tileBase.launches 0 = some l ∧ l.persist ≠ 0 ∧
      tileBase.boundWalker 0 loadCore = some k ∧
      (issued .tileNext { d := .reg (.g 1) } (stand team0 tileBase) is0).s.draw? 0 k = some (tile, s1)) :=
  ⟨met_of _ _ _ rfl rfl (by decide +kernel), met_of _ _ _ rfl rfl (by decide +kernel),
    met_of _ _ _ rfl rfl (by decide +kernel), by decide +kernel, by decide +kernel, by decide +kernel, by decide +kernel, by decide +kernel,
    ⟨_, 0, _, _, rfl, by decide, by decide +kernel, rfl⟩⟩

/-- Slot 1 of port 0, and the 64 bytes at 65,536; the slot is empty, active, or under revocation. -/
def keyTeam : Team := { team0 with priv := 2, s := [(2, 0x100), (3, 65536)] }
theorem witness_KeySlots :
    Met (stand keyTeam base0) keyTeam [.kslotLoad { d := .reg (.s 1), a := .s 2, b := .s 3 },
      .kslotRevoke { q := 1, d := .reg (.s 1), a := .s 2 }] ∧
    activeMask keyTeam is0.lanes {} ≠ 0 ∧ bitsOf (keyTeam.readS 2) 5 0 < 32 ∧ bitsOf (keyTeam.readS 2) 12 8 = 1 ∧
    (stand keyTeam base0).translate loadCore 0 65536 false = .ok ∧
    (stand keyTeam base0).translate loadCore 0 (65536 + 63) false = .ok ∧
    (stand keyTeam base0).migrating (65536 + 63) = false ∧ ((stand keyTeam base0).readShut 0 65536 64).isNone = true ∧
    bitsOf (({ base0 with keys := [(1, { word := 0x8000000000000000 })] } : State).keys.get {} (0 * 32 + 1)).word 63 62 = 2 ∧
    (({ base0 with keys := [(1, { word := 0x8000000000000000 })] } : State).slotPages 0 1).length ≤ 2 ^ 32 :=
  ⟨met_of _ _ _ rfl rfl (by decide +kernel), by decide +kernel⟩

theorem witness_Notices :
    ({ team0 with tmrcmp := 0 } : Team).tmrcmp ≤ team0.run ∧
    State.noticeDue { team0 with notice := 1, trapmask := 0x10 } = true ∧
    State.selecting { team0 with notice := 1, trapmask := 0x10 } = true ∧
    ({ team0 with notice := 1, trapmask := 0x10 } : Team).nten.testBit 0 = true ∧
    orderGroups { team0 with notice := 1, trapmask := 0x10 } ((stand { team0 with notice := 1, trapmask := 0x10 } base0).wg 0).fpp
      ((stand { team0 with notice := 1, trapmask := 0x10 } base0).ready 0) = [(0, BitVec.allOnes 32)] ∧
    ({ team0 with haltDue := some 1 } : Team).haltDue ≠ none ∧ ({ team0 with haltDue := some 1 } : Team).chain = none ∧
    base0.issue = some is0 := by decide +kernel

theorem witness_DieCopies :
    (homeMsg (.copyRead 0 4 512 0)).ownerDie 512 = none ∧ (homeMsg (.copyRead 0 4 512 0)).copyOf 0 512 = none ∧
    (homeMsg (.copyRead 4 4 512 0)).copyOf 4 512 = none ∧ (homeMsg (.fwdRead 1 0 4 512 0)).copyOf 0 512 = none ∧
    (homeMsg (.copyRead 0 4 512 0)).mapped 512 = true ∧ (homeMsg (.copyRead 0 4 512 0)).migrating (128 * 512) = false ∧
    ((homeMsg (.copyRead 0 4 512 0)).entryWait 512).isNone = true ∧
    (Tbl.find? (homeMsg (.invalidate 0 512)).msgs 0).map (·.body) = some (.invalidate 0 512) ∧
    (Tbl.find? (homeMsg (.backInv 0 512)).msgs 0).map (·.body) = some (.backInv 0 512) ∧
    (Tbl.find? ({ base0 with copies := [(State.copyKey 0 512, { st := .m, data := 0 })] } : State).copies
      (State.copyKey 0 512)).map (·.st) = some .m ∧
    (0 : DWord).toNat ≤ base0.clk.toNat + base0.leaseMargin ∧ (0 : DWord) ≤ base0.clk := by decide +kernel

/-- A group that waits for the walk of one page, a mapped one or the page at 0. -/
def walkHold (va : Nat) : Hold := .walk [0] [(va, BitVec.allOnes 32)] false 0
def walker (va : Nat) : State :=
  stand { team0 with lanes := allLanes.map fun l => (l, { hold := some (walkHold va) }) }
    (homeMsg (.walk (coreRq loadCore) 0 (va / 65536)))
theorem witness_WalksEnd :
    (Tbl.find? (walker 65536).msgs 0).map (·.body) = some (.walk (coreRq loadCore) 0 1) ∧
    (walker 65536).walkRuns (coreRq loadCore) 0 = true ∧ (walker 65536).walkRuns 0 0 = false ∧
    (walker 65536).walkWaiters (coreRq loadCore) 0 = [(0, BitVec.allOnes 32, walkHold 65536)] ∧
    (walker 0).stopped 0 (BitVec.allOnes 32) = false ∧
    (∃ e, (walker 65536).walkPage loadCore 0 65536 false = .inr e) ∧
    (∃ sub, (walker 0).walkPage loadCore 0 0 false = .inl sub ∧
      (([(0, BitVec.allOnes 32)] : List (Nat × Mask)).filter fun x => (walker 0).walkPage loadCore 0 x.1 false == .inl sub)
        = [(0, BitVec.allOnes 32)]) ∧
    lowest (BitVec.allOnes 32 : Mask) = some 0 ∧ ∃ j ∈ [0, 1], j ≠ 0 :=
  ⟨rfl, by decide +kernel, by decide +kernel, by decide +kernel, by decide +kernel, ⟨_, rfl⟩, ⟨_, rfl, by decide +kernel⟩,
    by decide +kernel, by decide⟩

/-! Placement and the life of gangs. -/

/-- A launch of four tiles in two walkers on a die of which one cluster belongs to the partition. -/
def queued : State :=
  { State.reset with
    regions := [(0, { budgets := BitVec.allOnes 64, saveBase := 65536, saveSize := 0x1000000, globBase := 65536, globLimit := 65536 })]
    parts := [(0, { clusters := [1], ports := [0] })]
    codes := [(65536, { count := 1, roles := [{ role := 3, teams := 1, entry := 0, vregs := 32, depth := 2 }], spad := 0,
                        guard := 1, obuf := 0, kSize := 0, matrix := false })]
    launches := [(7,
      { region := 0, part := 0, die := 0, lid := 7, record := 0, code := 65536, karg := 0, signal := 0,
        saveArr := 0, ext := [4], tileShape := [1], minsplit := 1, ctrl := 0, persist := 0, slots := 2, dims := [4],
        tiles := 4, walkers := [(0, { next := 0, stop := 4 })], order := 7, ring := 0, packet := 0 })] }

/-- The same with its one walker bound to another core, so that an idle core finds nothing until the walker is split. -/
def bound : State :=
  { queued with launches := queued.launches.map fun (k, l) =>
      (k, { l with ctrl := 0x200000000, walkers := [(0, { next := 0, stop := 4, core := some 5 })] }) }

theorem witness_PlacingWork :
    queued.chosen 0 ((0 * 12 + 1) * 4 + 0) = some (7, .tile 0) ∧ (Tbl.find? queued.launches 7).isSome = true ∧
    bound.chosen 0 4 = none ∧
    (bound.launches.filter fun (k, l) => l.die == 0 && l.splitOk && l.persist == 0
      && (bound.boundWalker k 4).isNone && bound.fits l (.tile 0) 4 && bound.fusionOk l (.tile 0) 4) = bound.launches ∧
    (bound.split 7 4).isSome = true ∧
    (Tbl.find? bound.launches 7).any (fun l => l.splitOk && (State.splittable l).isSome && (State.freeSlot l).isSome) = true ∧
    queued.clusterEmpty 1 = true ∧ (queued.cluster 1).fused ≠ true ∧
    (∀ c ∈ (List.range 4).map (4 * 1 + ·),
      (((List.range 4).map (4 * 1 + ·)).foldl (fun s c => s.writeBackAll c) queued).drained c
        (((List.range 4).map (4 * 1 + ·)).foldl (fun s c => s.writeBackAll c) queued).nextId = true) := by decide +kernel

/-- The gang of the small machine under a request; `late` is the clock. -/
def asked (r : PreReq) (t : Team) (late : DWord) : State :=
  { stand t base0 with clk := late, gangs := [(0, { launch := 0, wgs := [0], cluster := 1, core := 4, req := some r })] }
theorem witness_PreemptionLadder :
    (∃ g, Tbl.find? (stand team0 base0).gangs 0 = some g ∧ g.resident = true ∧ g.retiring = none ∧ g.req = none) ∧
    (∀ x ∈ [{ posted := 0 }, ({ posted := 0, halting := true } : PreReq)], x.inPlace = false ∧
      (x.halting = false ∨ ∀ k ∈ (asked x team0 0).gangTeams 0, ((asked x team0 0).team k).stopping = false)) ∧
    (0 : Nat) + ((asked { posted := 0 } team0 200000).part 0).grace.toNat ≤ (asked { posted := 0 } team0 200000).clk.toNat ∧
    0 + ((asked { posted := 0 } team0 20000000).part 0).kill.toNat ≤ (asked { posted := 0 } team0 20000000).clk.toNat ∧
    (let s := asked { posted := 0, halting := true, upTo := some 1 } { team0 with stopping := true } 0
     s.liveOf 0 ≠ [] ∧ (∀ t ∈ s.gangTeams 0, (s.team t).stopping = true ∨ (s.team t).resident = false) ∧
     (s.withdraw 0).haltBusy 0 = false ∧
     ∀ w ∈ s.liveOf 0, (s.withdraw 0).drained ((s.withdraw 0).unit (s.wg w).core) 1 = true) ∧
    (let s : State := { base0 with gangs := [(0, { launch := 0, wgs := [0], resident := false, req := some { posted := 0, inPlace := true } })] }
     ∃ g r, Tbl.find? s.gangs 0 = some g ∧ g.req = some r ∧ r.inPlace = true ∧ g.resident = false) ∧
    (Tbl.find? base0.launches 0).isSome = true :=
  ⟨⟨_, rfl, rfl, rfl, rfl⟩, by decide +kernel, by decide +kernel, by decide +kernel, by decide +kernel,
    ⟨_, _, rfl, rfl, rfl, rfl⟩, by decide +kernel⟩

/-- Every lane has exited; the workgroup has ended; its gang is on its way out. -/
def gone : Team := { team0 with lanes := allLanes.map fun l => (l, { st := .exited }) }
def ended : State := { stand gone base0 with wgs := [(0, { gang := 0, core := loadCore, teams := [0], resident := false, ended := true })] }
def leaving : State := { ended with gangs := [(0, { launch := 0, wgs := [0], cluster := 1, core := 4, retiring := some 1 })] }
theorem witness_WorkEnds :
    (∃ w, Tbl.find? (stand gone base0).wgs 0 = some w ∧ w.resident = true ∧ w.ended = false ∧
      (∀ t ∈ w.teams, ((stand gone base0).team t).live = 0)) ∧
    (stand gone base0).cmdsOf 0 = [] ∧ (stand gone base0).loads = [] ∧
    (∃ g, Tbl.find? ended.gangs 0 = some g ∧ (∀ w ∈ g.wgs, (ended.wg w).ended = true) ∧ g.retiring = none) ∧
    (∃ g l, Tbl.find? leaving.gangs 0 = some g ∧ (∀ w ∈ g.wgs, (leaving.wg w).ended = true) ∧ g.retiring = some 1 ∧
      Tbl.find? leaving.launches g.launch = some l ∧ l.signal = 0) ∧
    leaving.drained (leaving.unit (leaving.wg 0).core) 1 = true :=
  ⟨⟨_, rfl, rfl, rfl, by decide +kernel⟩, by decide +kernel, by decide +kernel, ⟨_, rfl, by decide +kernel, rfl⟩,
    ⟨_, _, rfl, by decide +kernel, rfl, rfl, rfl⟩, by decide +kernel⟩

/-! Rings: one ring in host memory, its slot at 4,096. -/

def packet (op flags : Nat) (body : List Byte) : List Byte :=
  [BitVec.ofNat 8 op, 1, BitVec.ofNat 8 flags, 0, 0, 0, 0, 0] ++ (body ++ List.replicate 56 0).take 56
def w8 (x : Nat) : List Byte := bytesOf 8 (BitVec.ofNat 64 x)
def ringOf (cw : DWord) (p : List Byte) : State :=
  { base0 with dies := [(0, { booted := true })]
               hostMem := memWriteBytes (memWriteBytes [] 0 (bytesOf 8 (4096 : BitVec 64) ++ bytesOf 8 cw)) 4096 p
               parts := [(0, { ptRoot := tableEntry 0 16384, ports := [0] })]
               rings := [(0, { ref := { host := true, part := 0, addr := 0 }, seen := true })] }
/-- A booted machine of which no access crosses a link. -/
theorem crosses_none (s : State) (ring : Nat) (links : List Nat) (h : links = []) : s.Crosses ring links := by
  subst h
  exact fun _ h => nomatch h

/-- A packet stands at READ, passes the checks of every packet, and has some property. -/
def servedB (s : State) (op : Nat) (used : List (Nat × Nat)) (more : Pkt → Bool) : Bool :=
  match s.packet? 0 with
  | some p => p.op == op && p.basic used == none && (s.ring 0).open_ == [] && more p
  | none => false

theorem served_of (s : State) (op : Nat) (used : List (Nat × Nat)) (barred : Bool) (more : Pkt → Bool)
    (h : servedB s op used more = true) : ∃ p, s.Served 0 op p used barred ∧ more p = true := by
  unfold servedB at h
  split at h
  · rename_i p hp
    simp only [Bool.and_eq_true, beq_iff_eq] at h
    exact ⟨p, ⟨hp, h.1.1.1, h.1.1.2, fun _ => h.1.2⟩, h.2⟩
  · cases h

/-- A wait for a value that the word at 65,536 has or has not, with a timeout of one microsecond. -/
def waits (x : Nat) : State :=
  { ringOf 0 (packet 3 0 (w8 65536 ++ w8 x ++ w8 (2 ^ 64 - 1) ++ [0, 0, 0, 0, 1])) with clk := 2000 }
theorem witness_PacketsComplete :
    (∃ p, (ringOf 0 (packet 1 0 [])).Served 0 1 p [] false ∧ true = true) ∧
    (∃ p, (ringOf 0 (packet 7 0 [])).Served 0 7 p [] true ∧ true = true) ∧
    (∃ p, (ringOf (1#64 <<< 58) (packet 8 0 (w8 0x20000))).Served 0 8 p [(8, 8)] false ∧
      (p.d.growing && p.word 8 % 65536 == 0) = true) ∧
    (∃ p, (waits 0).Served 0 3 p waitBody false ∧ (waitCheck p == none && p.waitHolds 0 && p.d.die == 0 &&
      p.word 8 == 65536) = true) ∧
    (∃ p, (waits 1).Served 0 3 p waitBody false ∧
      (waitCheck p == none && !p.waitHolds 0 && p.n 36 4 == 1 && decide (0 + 2000 * p.n 36 4 ≤ (waits 1).clk.toNat))
        = true) ∧ (waits 0).Crosses 0 ((waits 0).pathLinks 0 ((waits 0).ringPart 0) 65536 8 true) ∧ (waits 0).readFault ((waits 0).ringPart 0) 65536 8 = none ∧
    ({ waits 0 with poisoned := [(128, 0)] } : State).readFault ((waits 0).ringPart 0) 65536 8 = some (4, 65536) ∧
    loadNat ((waits 0).homeLoad (gaOf ((waits 0).ringPart 0) 65536) 8) = 0 ∧
    (waits 0).migrating (gaOf ((waits 0).ringPart 0) 65536) = false ∧
    ({ waits 0 with pages := (waits 0).pages.map fun (k, r) => (k, { r with word := setBits r.word 29 29 1 }) } : State).migrating
      (gaOf ((waits 0).ringPart 0) 65536) = true :=
  ⟨served_of _ _ _ _ (fun _ => true) (by decide +kernel), served_of _ _ _ _ (fun _ => true) (by decide +kernel),
    served_of _ _ _ _ (fun p => p.d.growing && p.word 8 % 65536 == 0) (by decide +kernel),
    served_of _ _ _ _ (fun p => waitCheck p == none && p.waitHolds 0 && p.d.die == 0 && p.word 8 == 65536) (by decide +kernel),
    served_of _ _ _ _ (fun p => waitCheck p == none && !p.waitHolds 0 && p.n 36 4 == 1 && decide (0 + 2000 * p.n 36 4 ≤ (waits 1).clk.toNat))
      (by decide +kernel), crosses_none _ _ _ (by decide +kernel), by decide +kernel⟩

def signals : State := ringOf 0 (packet 4 0 (w8 65536 ++ w8 5))
def stamps : State := ringOf 0 (packet 9 0 (w8 65536))
def copies : State := ringOf 0 (packet 5 0 (w8 65536 ++ w8 66048 ++ w8 512))
/-- A launch record at 65,536: the loaded code object, the save array at 66,560, extent 4, tile 1, one slot. -/
def launches (slots : Nat) : State :=
  { ringOf 0 (packet 2 0 (w8 65536)) with
    mem := memWriteBytes [] 65536 (w8 65536 ++ List.replicate 16 0 ++ w8 66560 ++ bytesOf 4 (4 : BitVec 32) ++ List.replicate 12 0 ++ [1]
      ++ List.replicate 27 0 ++ bytesOf 4 (BitVec.ofNat 32 slots))
    regions := [(0, { rsvg := 1000, saveSize := 0x1000000 })] }
theorem witness_PacketsWrite :
    (∃ p, signals.Served 0 4 p [(8, 17)] true ∧ (decide (p.n 24 1 ≤ 1) && p.word 8 == 65536 && p.d.die == 0) = true) ∧
    (∃ p, stamps.Served 0 9 p [(8, 8)] true ∧ (p.word 8 == 65536 && p.d.die == 0) = true) ∧
    signals.Crosses 0 (signals.pathLinks 0 0 65536 8 false) ∧ copies.Crosses 0 (copies.pathLinks 0 0 65536 512 false
      ++ copies.pathLinks 0 0 66048 512 false) ∧ (launches 0).Crosses 0 ((launches 0).pathLinks 0 0 65536 128 true) ∧
    (launches 1).Crosses 0 ((launches 1).pathLinks 0 0 65536 128 true) ∧
    signals.ringPart 0 = 0 ∧ signals.translateNow 0 none 65536 true false = none ∧
    (signals.pageAt (128 * (gaOf 0 65536 / 128))).isSome = true ∧ signals.uncovered (blocksOf (gaOf 0 65536) 8) = none ∧
    signals.homeWait 0 (gaOf 0 65536) 8 = none ∧
    (∃ p, copies.Served 0 5 p [(8, 25), (40, 8)] false ∧ (State.copyCheck p == none && p.word 24 == 512 && p.d.die == 0 &&
      p.word 8 == 65536 && p.word 16 == 66048 && p.word 40 == 0 && p.n 32 1 == 0) = true) ∧
    (copies.ring 0).copies = [] ∧ copies.readFault 0 65536 512 = none ∧
    (∀ a ∈ pagesOf 66048 512, copies.translateNow 0 none a true false = none) ∧
    (copies.uncovered (blocksOf (gaOf 0 66048) 512).eraseDups = none) ∧
    (∃ p, (launches 0).Served 0 2 p [(8, 8)] false ∧ (p.word 8 == 65536) = true) ∧
    (∃ p, (launches 1).Served 0 2 p [(8, 8)] false ∧ (p.word 8 == 65536) = true) ∧
    (launches 0).launchRefused 0 ((launches 0).homeLoad (gaOf 0 65536) 128) = true ∧
    (launches 1).launchRefused 0 ((launches 1).homeLoad (gaOf 0 65536) 128) = false ∧
    (State.launchOf? 0 0 0 0 1 65536 ((launches 1).homeLoad (gaOf 0 65536) 128) []).tiles = 4 :=
  ⟨served_of _ _ _ _ (fun p => decide (p.n 24 1 ≤ 1) && p.word 8 == 65536 && p.d.die == 0) (by decide +kernel),
    served_of _ _ _ _ (fun p => p.word 8 == 65536 && p.d.die == 0) (by decide +kernel), crosses_none _ _ _ (by decide +kernel),
    crosses_none _ _ _ (by decide +kernel), crosses_none _ _ _ (by decide +kernel), crosses_none _ _ _ (by decide +kernel), by decide +kernel, by decide +kernel, by decide +kernel,
    by decide +kernel, by decide +kernel, served_of _ _ _ _ (fun p => State.copyCheck p == none && p.word 24 == 512 && p.d.die == 0 &&
      p.word 8 == 65536 && p.word 16 == 66048 && p.word 40 == 0 && p.n 32 1 == 0) (by decide +kernel),
    rfl, by decide +kernel, by decide +kernel, by decide +kernel,
    served_of _ _ _ _ (fun p => p.word 8 == 65536) (by decide +kernel), served_of _ _ _ _ (fun p => p.word 8 == 65536) (by decide +kernel),
    by decide +kernel⟩

theorem witness_PacketsWrite_launch :
    (launches 1).homeWait 0 (gaOf 0 66560) (saveArrBytes 1) = none ∧ (launches 1).readFault 0 65536 128 = none ∧
    (launches 1).uncovered (blocksOf (gaOf 0 66560) (saveArrBytes 1)) = none ∧ (launches 1).migrating (gaOf 0 65536) = false ∧
    ((launches 1).region 0).queue.length < 4096 := by decide +kernel

/-- A copy packet of one chunk, in device or host memory, from one bound to the other. -/
def oneChunk (host : Bool) (left : List (Nat × Nat)) (hand : Option (Nat × List Byte)) (signal : Nat) : QCopy :=
  { index := 0, src := 65536, dst := 66048, count := 512, srcHost := host, dstHost := host, signal := signal, left := left
    pledged := [], hand := hand }
/-- A copy packet under way, whichever number is drawn. -/
def copyingOf (c : QCopy) : State := { ringOf 0 [] with rings := [(0, { ref := { host := true, part := 0, addr := 0 }, copies := [c] })] }
def copying : State := copyingOf (oneChunk false [(129, 1)] none 0)
theorem witness_PacketsWrite_chunk : copying.packet? 0 = none ∧
    ∃ c, (copying.ring 0).copies[copying.draw.1 % (copying.ring 0).copies.length]? = some c := by
  refine ⟨by decide +kernel, (copying.ring 0).copies.head (by decide +kernel), ?_⟩
  show (copying.ring 0).copies[copying.draw.1 % 1]? = _
  rw [Nat.mod_one]
  rfl

/-- A chunk is read, from the home or from host memory: nothing is in hand, and the one chunk left is taken. -/
theorem witness_PacketsWrite_fetch : ∀ host ∈ [false, true],
    let c := oneChunk host [(129, 1)] none 0
    let s := copyingOf c
    (∃ g, Tbl.find? s.rings 0 = some g ∧ c ∈ g.copies) ∧
    (∀ m, takeChunk c.left (if c.wait.isSome then 0 else m % c.left.foldl (fun n x => n + x.2) 0) = some (129, [])) ∧
    (∀ l ∈ s.draw.2.away 0 [(gaOf 0 65536, 512)], s.draw.2.migrating (128 * l) = false ∧ s.draw.2.entryWait l = none) ∧
    s.draw.2.legs 0 (s.draw.2.away 0 [(gaOf 0 65536, 512)]) = [] := by
  intro host _ c s
  refine ⟨⟨_, rfl, List.mem_singleton.2 rfl⟩, fun m => ?_, ?_⟩
  · show takeChunk [(129, 1)] (m % 1) = _
    rw [Nat.mod_one]
    rfl
  · revert c s
    cases host <;> decide +kernel

/-- A chunk in hand lands, in host memory or at the home. -/
theorem witness_PacketsWrite_land : ∀ host ∈ [false, true],
    let c := oneChunk host [] (some (129, List.replicate 512 7)) 0
    let s := copyingOf c
    let ga := gaOf 0 66048
    (∃ g, Tbl.find? s.rings 0 = some g ∧ c ∈ g.copies) ∧ max c.dst (512 * 129) = 66048 ∧ ga % 512 + 512 ≤ 512 ∧
    c.gone.contains (ga / 65536) = false ∧ (∀ i ∈ List.range 4, (s.pageAt (128 * ((ga + 128 * i) / 128))).isSome = true) ∧
    s.legs 0 [ga / 128] = [] ∧ s.homeWait 0 ga 512 = none ∧ Memory.wf s.mem = true := by
  intro host _ c s ga
  refine ⟨⟨_, rfl, List.mem_singleton.2 rfl⟩, ?_⟩
  revert c s ga
  cases host <;> decide +kernel

/-- Nothing is left of a copy, with a signal and without. -/
theorem witness_PacketsWrite_done : ∀ sig ∈ [0, 65536],
    let c := oneChunk false [] none sig
    let s := copyingOf c
    c.hand = none ∧ c.left.foldl (fun n x => n + x.2) 0 = 0 ∧ s.homeWait 0 (gaOf 0 sig) 8 = none ∧ gaOf 0 sig % 8 = 0 ∧
    (sig ≠ 0 → (s.pageAt (128 * (gaOf 0 sig / 128))).isSome = true) := by decide +kernel

/-- One packet of each region operation, on a ring with and without PRIV. -/
def regionPacket (cw : DWord) (code : Nat) (used : List (Nat × Nat)) (x : Nat) : Bool :=
  servedB (ringOf cw (packet 6 0 ([BitVec.ofNat 8 code, 0, 0, 0, 0, 0, 0, 0] ++ w8 x))) 6 ((8, 4) :: used)
    fun p => p.n 8 2 == code && p.d.priv == (cw != 0) && p.word 16 == x
def regionPackets (cw : DWord) : Bool :=
  regionPacket cw 0 [(12, 2), (16, 8)] 65536 && regionPacket cw 1 [] 0 && regionPacket cw 2 [(12, 2), (16, 8)] 5 &&
  regionPacket cw 3 [(16, 8), (24, 4), (28, 1)] 131072 && regionPacket cw 4 [(16, 8), (24, 4)] 65536 &&
  regionPacket cw 5 [(16, 8)] 10
theorem witness_RegionOperations : regionPackets 0 = true ∧ regionPackets 0x200000000000000 = true := by decide +kernel

theorem witness_RingService :
    ((ringOf 0 (packet 1 0 [])).packet? 0).map (State.packetEvent 0) = some (.inl (.nopPacket 0)) ∧
    ((ringOf 0 (packet 10 0 [])).packet? 0).map (State.packetEvent 0) = some (.inr 0) ∧
    (Tbl.find? (ringOf 0 (packet 1 0 [])).rings 0).isSome = true ∧ (5 : DWord).getLsbD 63 = false ∧
    ((ringOf 0 (packet 1 0 [])).die 0).booted = true := by decide +kernel

/-- A ring in device memory whose first packet has not been read. -/
def unread : State :=
  { base0 with dies := [(0, { booted := true })]
               mem := memWriteBytes [] 65536 (bytesOf 8 (66048 : BitVec 64) ++ List.replicate 504 0 ++ packet 1 0 [])
               parts := [(0, { ptRoot := tableEntry 0 16384, ports := [0] })]
               rings := [(0, { ref := { host := false, part := 0, addr := 65536 } })] }
theorem witness_RingService_unread :
    (unread.packet? 0).isNone = true ∧ (unread.ring 0).seen = false ∧
    (let p := (unread.updRing 0 fun g => { g with seen := true }).packet? 0
     p.map (State.packetEvent 0) = some (.inl (.nopPacket 0)) ∧ p.map (fun p => (p.d.die, p.addr)) = some (0, 66048)) ∧
    (unread.die 0).booted = true ∧ (∀ a ∈ [65536, 66048], unread.ringReach (unread.ring 0).ref a = true ∧
      unread.ringMoves (unread.ring 0).ref a = false ∧ unread.ringLinks (unread.ring 0).ref a 128 = [] ∧
      unread.ringLinks (unread.ring 0).ref a 64 = []) := by decide +kernel

/-! Firmware and the host. -/

/-- A region with a balloon request outstanding since CLK 0. -/
def ballooned : State := { base0 with clk := 20000000, regions := [(0, { balloon := 0x1000000000000 })] }

/-- A link, and a message of a partition without a slot that has waited for it. -/
def linked : State :=
  { base0 with clk := 3840, links := [(1, {})]
               msgs := [(0, { cls := .request, due := 0, chan := none, link := some 1, body := .invalidate 0 0 })] }
/-- Partition 0 with its page on port 0 and the paired port, the migration of the page begun or not. -/
def migrated (begun : Bool) : State :=
  let s : State := { base0 with parts := [(0, { ptRoot := tableEntry 0 16384, ports := [0, 32] })] }
  if !begun then s else
  { s with pages := s.pages.map (fun (k, r) => (k, { r with word := setBits r.word 29 29 1 }))
           migs := s.pages.map fun (k, _) => (k, 0, 0) }

theorem witness_BalloonsAndFirmwareTables :
    (∃ g, Tbl.find? base0.regions 0 = some g ∧ bitsOf g.balloon 63 48 = 0) ∧
    (∃ g, Tbl.find? ballooned.regions 0 = some g ∧ ballooned.balloonDue 0 = true) ∧
    (∃ key r, (migrated false).pageAt (gaOf 0 65536) = some (key, r) ∧ r.migr = false ∧
      ((migrated false).part 0).ports.find? (fun p => pairedPorts r.home p) = some 32) ∧
    (∃ key r, (migrated true).pageAt (gaOf 0 65536) = some (key, r) ∧ r.migr = true ∧
      Tbl.find? (migrated true).migs key = some (0, 0) ∧ 0 ≤ (migrated true).cycle) ∧
    (migrated true).hardwarePage 0 65536 = false ∧
    (∀ k ∈ base0.pages.keys ++ base0.ptes.keys, k < 32 * 2 ^ 38 + 0 ∨ 32 * 2 ^ 38 + 0 + 1152 ≤ k) ∧
    (∀ j, j < 128 → entPledged (base0.blockEntry (gaOf 0 (65536 / 65536 * 65536) / 512 + j)) = false) ∧
    (∃ pte pk, base0.walk 0 65536 = .leaf pte 16 pk) ∧
    ((({ base0 with clk := 2000000 } : State).die 0).coneAt.toNat + 2000000 ≤ ({ base0 with clk := 2000000 } : State).clk.toNat) ∧
    State.validLink 1 = true ∧ linked.clk.toNat / 16 % 240 = 0 ∧ linked.ownsSlot 1 0 = false ∧
    (∃ m, Tbl.find? linked.msgs 0 = some m ∧ m.link = some 1 ∧ m.part = 0 ∧ m.waitFrom + 3840 ≤ linked.clk.toNat) ∧
    base0.clusterEmpty 2 = true := by
  refine ⟨⟨_, rfl, by decide⟩, ⟨_, rfl, by decide +kernel⟩, ⟨_, _, rfl, by decide +kernel⟩, ⟨_, _, rfl, by decide +kernel⟩,
    by decide +kernel, by decide +kernel, by decide +kernel, ⟨_, _, rfl⟩, by decide +kernel, by decide +kernel,
    by decide +kernel, by decide +kernel, ⟨_, rfl, rfl, rfl, by decide +kernel⟩, by decide +kernel⟩

/-- A counter block at 65,536, its update due or under way; the pipe of team 0 with a sampling period; an open frame. -/
def counted (seq : Nat) : State := { base0 with clk := 2000000, regions := [(0, { counters := 65536, cbSeq := seq })] }
def sampled : State :=
  { stand team0 base0 with cores := [(loadCore, { pipes := [(0, { sample := some 6 })] })]
                           dies := [(0, { traceOpen := some 0, sink := some { host := true, addr := 0, size := 4096 } })]
                           clk := 20000 }
theorem witness_RecordsAndCycles :
    (∃ g, Tbl.find? (counted 0).regions 0 = some g ∧ g.cbSeq % 2 = 0 ∧ g.cbLast.toNat + 2000000 ≤ (counted 0).clk.toNat ∧
      g.counters ≠ 0) ∧ (counted 0).effFrom 5 9 0 = 0 ∧
    (∃ g, Tbl.find? (counted 1).regions 0 = some g ∧ g.cbSeq % 2 = 1) ∧ (counted 1).effFrom 5 9 0 = 0 ∧
    ((sampled.core 4).pipes.get {} 0).sample = some 6 ∧ ((sampled.core 4).pipes.get {} 0).issued = false ∧
    sampled.cycle % 2 ^ 6 = 0 ∧ (State.oldest ((sampled.onPipe 4 0).filter fun x => !x.2.halted && !x.2.stopping)).isSome = true ∧
    (sampled.die 0).traceOpen = some 0 ∧ (0 : DWord).toNat + 20000 ≤ sampled.clk.toNat ∧
    (base0.pageAt (gaOf 0 65536)).isSome = true ∧ Tbl.wf sampled.teams = true ∧
    (Tbl.find? sampled.teams 0).isSome = true :=
  ⟨⟨_, rfl, by decide +kernel⟩, by decide +kernel, ⟨_, rfl, by decide +kernel⟩, by decide +kernel⟩

/-- Partition 3 with cluster 1 and port 0 of die 0. -/
def setup : PartSpec :=
  { part := 3, clusters := [1], ports := [0], expansion := 1, ptRoot := tableEntry 0 16384, rtBase := 0, slots := [],
    keys := [(0, 0, [])], root := 0, image := List.replicate 256 0, grant := 1000 }
/-- The package after reset, with die 0 booted. -/
def bootedDie : State := { State.reset with dies := [(0, { booted := true })] }
/-- What is there after its setup, as the rule says; and after the first of the teardown. -/
def held (accepted : Bool) : State :=
  { State.reset with parts := [(3, { clusters := [1], ports := [0], accepted := accepted })] }
theorem witness_PartitionsIdentityAndLinks :
    bootedDie.partitionOk setup = true ∧
    (((bootedDie.setUp setup).createRegion 3 0 0xFFFF setup.image).bind fun s1 => Tbl.find? s1.regions (3 * 65536)).isSome = true ∧
    (∃ p, Tbl.find? (held true).parts 3 = some p ∧ p.accepted = true) ∧
    (∃ p, Tbl.find? (held false).parts 3 = some p ∧ p.accepted = false ∧ ∀ m ∈ p.ports, (held false).slotsEmpty m = true) ∧
    (held true).launches = [] ∧ base0.parts.has 0 = true ∧ 8 ≤ base0.cxlLanes ∧
    ((queueState collCmd).core loadCore).copyQ = [collCmd] ∧ (queueState collCmd).collNames collCmd 0 = true ∧
    collCmd.gone = [] ∧ 65536 + 24 + 8 ≤ 67584 :=
  ⟨by decide +kernel, by decide +kernel, ⟨_, rfl, rfl⟩, ⟨_, rfl, rfl, by decide +kernel⟩, rfl, by decide +kernel, by decide +kernel⟩

/-- The job of partition 0: at rest with its checkpoint due, and halting with its one gang saved or not. -/
def jobs (j : Job) (gangs : Tbl Gang) : State := { base0 with clk := 100000000, jobs := [(0, j)], gangs := gangs }
def noSnap : Snap :=
  { teams := [], wgs := [], gangs := [], launches := [], regions := [], pages := [], ptes := [], syncs := [], loads := [],
    cmdPledges := [], clk := 0, fresh := 3, rot := [], turns := [], cores := [], clusters := [], msgs := [], dir := [],
    copies := [], leases := [], rings := [], image := [(128, 0)] }
theorem witness_Checkpoints :
    (jobs {} []).ckptDue {} = true ∧ (jobs { halting := true } []).ckptReady 0 = true ∧
    (jobs { halting := true } [(0, { launch := 0, wgs := [0], cluster := 1, core := 4 })]).ckptReady 0 = false ∧
    ({} : Job).lastAt.toNat + ({} : Job).interval.toNat ≤ (jobs {} []).clk.toNat ∧
    (∀ k ∈ (jobs {} []).jobs, k.2.capture = none ∧ k.2.pendingCapture = none) ∧ Tbl.wf noSnap.image = true ∧
    Tbl.find? (jobs { ckpt := some noSnap } []).jobs 0 = some { ckpt := some noSnap } := by
  refine ⟨by decide +kernel, by decide +kernel, by decide +kernel, by decide +kernel, ?_, by decide +kernel, rfl⟩
  intro k hk
  cases hk with
  | head => exact ⟨rfl, rfl⟩
  | tail _ h => cases h

/-! The machine as a whole. -/

/-- The word of `add.n32 v3, v1, 6`, the next to issue after reset. -/
def addWord : IWord := (encode (.add { ty := .n32, d := .reg (.v 3), a := .v 1, b := .int 6 })).getD 0
def loaded : State := State.reset.withFetchWord 96 addWord.toNat

theorem witness_EncodeThenDecode : (Instr.add { ty := .n32, d := .reg (.v 3), a := .v 1, b := .int 6 }).wf = true ∧
    (encode (.add { ty := .n32, d := .reg (.v 3), a := .v 1, b := .int 6 })).isSome = true ∧
    (decode addWord).toOption.isSome = true := by decide

theorem witness_UnassignedAndReservedRefused :
    opcodeOp ((0 : IWord).extractLsb' 86 10) = some .add ∧ opcodeOp ((BitVec.allOnes 96 : IWord).extractLsb' 86 10) = none ∧
    (BitVec.allOnes 96 : IWord).extractLsb' 70 5 ≠ 0 ∧ Ty.ofCode ((BitVec.allOnes 96 : IWord).extractLsb' 64 6) = none ∧
    (0x40 <<< 64 ||| 1 <<< 70 : IWord).extractLsb' 70 5 ≠ 0 := by decide

/-- What the premises of the two statements about a step ask of a state whose team 0 is to issue. -/
def standsToIssue (s : State) (w : IWord) : Bool :=
  match s.scan s.todo s.turn, Tbl.find? s.teams 0 with
  | some (todo, turn, k), some t =>
    let s1 := ({ s with todo := todo, turn := turn } : State).updCore t.core fun c =>
      { c with pipes := c.pipes.upd {} t.pipe fun p => { p with last := t.slot } }
    k == 0 && s.agenda == [] && s.second == none && !State.noticeDue t &&
      orderGroups t (s1.teamWg 0).fpp (s1.ready 0) == [(0, BitVec.allOnes 32)] && (s1.fetch 0 0).1 == .word w
  | _, _ => false

theorem witness_StepRunsDecoded : standsToIssue loaded addWord = true ∧
    standsToIssue (State.reset.withFetchWord 96 (2 ^ 96 - 1)) (BitVec.allOnes 96) = true ∧
    loaded.loopWord 0 0 = none ∧ loadTeam.ahead = [] ∧
    (loaded.codes.find? (gaOf (loaded.teamPart 0) (loaded.codeOf 0))).isSome = true ∧
    (loaded.fetchPage loadTeam.core 0 (loaded.codeOf 0)).1 = none ∧
    ((loaded.fetchPage loadTeam.core 0 (loaded.codeOf 0)).2.fetchPage loadTeam.core 0 (loaded.codeOf 0 + 11)).1 = none ∧
    (loaded.core loadTeam.core).fcopy = [] ∧ loadTeam.firm = false := by decide +kernel

theorem witness_LoadedWordRuns : ∃ i, decode addWord = .ok i := ⟨_, rfl⟩
theorem witness_EveryStepGoesOn : loaded.Orderly := fun i hi => by cases hi
theorem witness_MemoryStaysCanonical : loaded.Canonical ∧
    (match step loaded with | .next _ => true | _ => false) = true := by
  refine ⟨⟨by decide +kernel, by decide +kernel⟩, by decide +kernel⟩
theorem witness_IntegerLaws : 0 < Ty.s32.width ∧ -((2 ^ 31 : Nat) : Int) ≤ -7 ∧ (-7 : Int) ≤ ((2 ^ 31 : Nat) : Int) - 1 := by
  decide

/-! Witnesses of further clauses. -/

/-- An instance of which lane 31 is a contributor, the lowest lane 0. -/
def someColl (op : Op) (t : Ty) : CollInst :=
  { op := op, form := { ty := t, d := .reg (.s 3), a := .v 2 }, pc := 0, mask := 0x80000001, token := [], handler := false,
    arrived := 0x80000001, contrib := 0x80000001, vals := [(0, 5), (31, 9)], lanes := [(0, 31), (31, 1)] }
theorem witness_GroupCollectives_values : ∀ x ∈ [someColl .vote .none, someColl .ballot .none, someColl .shfl .b32,
      someColl .redux .s32, someColl .redux .f32, someColl .elect .none, someColl .matchLanes .b64, someColl .bcast .b32],
    x.contrib.getLsbD 31 = true ∧ lanesOf x.contrib = [0, 31] ∧
    ∀ k ∈ lanesOf x.contrib, (x.vals.get 0 k).toNat < 2 ^ 32 := by decide +kernel

/-! Accesses of 16 bytes: v5 holds zeros, the offset is 64. -/

def ld16 (q : BitVec 6) : Form := { ty := .b128, q := q, d := .reg (.v 8), a := .v 5, b := .int 64 }
def st16 : Form := { ty := .b128, q := 0x10, a := .v 5, b := .int 64, c := .v 8 }
theorem witness_LoadsDeliver_halves : Standing memState is0 memTeam ∧ Clear .ld (ld16 0x10) memState is0 ∧
    (ld16 0x10).space = 1 ∧ (ld16 0x10).fe = 0 ∧ (ld16 0x10).ty.width / 8 = 16 ∧
    (issued .ld (ld16 0x10) memState is0).Aligned 1 16 ∧ Clear .st st16 memState is0 ∧ st16.space = 1 ∧
    (issued .st st16 memState is0).Aligned 1 16 :=
  ⟨stand_ok _ _ rfl rfl, by unfold Clear; decide +kernel, by decide, by decide, by decide,
    by unfold Ctx.Aligned; decide +kernel, by unfold Clear; decide +kernel, by decide, by unfold Ctx.Aligned; decide +kernel⟩

/-- The weak form, whose line the L1 holds or lacks. -/
theorem witness_LoadsInFlight_halves : Standing memState is0 memTeam ∧ Standing (stand memTeam base0) is0 memTeam ∧
    Clear .ld (ld16 0) memState is0 ∧ Clear .ld (ld16 0) (stand memTeam base0) is0 ∧ (ld16 0).strong = false ∧
    (issued .ld (ld16 0) memState is0).Aligned 0 16 ∧
    (issued .ld (ld16 0) memState is0).Mapped 0 ((issued .ld (ld16 0) memState is0).within 0 16) false ∧
    (issued .ld (ld16 0) (stand memTeam base0) is0).Aligned 0 16 ∧
    (issued .ld (ld16 0) (stand memTeam base0) is0).Mapped 0
      ((issued .ld (ld16 0) (stand memTeam base0) is0).within 0 16) false ∧
    memState.strongOn loadCore 512 = false ∧ memState.l1Hit loadCore 65600 8 = true ∧
    (stand memTeam base0).l1Hit loadCore 65600 8 = false ∧ (stand memTeam base0).strongOn loadCore 512 = false :=
  ⟨stand_ok _ _ rfl rfl, stand_ok _ _ rfl rfl, by unfold Clear; decide +kernel, by unfold Clear; decide +kernel, by decide,
    by unfold Ctx.Aligned; decide +kernel, by unfold Ctx.Mapped; decide +kernel, by unfold Ctx.Aligned; decide +kernel,
    by unfold Ctx.Mapped; decide +kernel, by decide +kernel⟩

/-- The upper half of such a load at the end of a cycle. -/
def halfLoad : Load :=
  { team := 0, core := loadCore, lanes := 1, ty := .b128, n := 8, dest := .vec 255, offs := [(0, 72)] }
theorem witness_LoadsDeliver_end : Tbl.find? base0.teams halfLoad.team = some (base0.team 0) ∧ halfLoad.n = 8 ∧
    ∀ r, halfLoad.dest = .vec r → r < 256 := ⟨rfl, rfl, fun r h => by cases h; decide⟩

/-- A full table of marks, the oldest first, that does not hold the block asked for. -/
def fullMarks : State :=
  { pledgeState 8 with cores := base0.cores.updIf loadCore fun c => { c with pledges := (List.range 512).map (1000 + ·) } }
theorem witness_PledgeDecisions_full : (fullMarks.core (fullMarks.unit loadCore)).pledges.head? = some 1000 ∧
    512 < (fullMarks.core (fullMarks.unit loadCore)).pledges.length + 1 ∧
    ([128].filter fun k => !(fullMarks.core (fullMarks.unit loadCore)).pledges.contains k).length = 1 ∧
    (∀ k ∈ [128], entPledged (fullMarks.blockEntry k) = false) ∧ (∀ k ∈ [128], fullMarks.migrating (512 * k) = false) ∧
    fullMarks.stopped 0 pledgeReq.lanes = false ∧ (fullMarks.fillShut pledgeReq.core pledgeReq.writes).isNone = true ∧
    Tbl.find? fullMarks.msgs 0 = some { cls := .request, due := 0, chan := none, body := .pledge [128] pledgeReq } :=
  by decide +kernel

/-- A release that waits: for a load, for a strong access, or for nothing; its line held or not, and who has it. -/
def relState (loads : Tbl Load) (msgs : Tbl Msg) (hold : Bool) (excl : Option (Nat × Nat)) : State :=
  { stand team0 base0 with
    loads := loads, msgs := msgs, syncs := [(512, { excl := excl })]
    cores := base0.cores.updIf loadCore fun c => { c with holds := if hold then [(512, false)] else [] } }
def strongMsg : Msg := { cls := .request, due := 0, chan := none, body := .strong loadCore 512 0 0 true none [] }
theorem witness_AcquireAndRelease_later :
    (relState [(0, homeLoad)] [] true none).loadsOut 0 = true ∧ (relState [] [(0, strongMsg)] true none).strongOut 0 = true ∧
    (∀ x ∈ [(true, (none : Option (Nat × Nat))), (true, some (0, 0)), (true, some (7, 7)), (false, none)],
      let s := relState [] [] x.1 x.2
      s.loadsOut 0 = false ∧ s.strongOut 0 = false ∧
      ((s.core (s.unit loadCore)).holds.any (·.1 == 512)) = x.1 ∧ (s.syncs.get {} 512).excl = x.2) ∧
    (∀ l, l < 32 → ((relState [] [] true none).team 0).parked l = false) ∧
    ((base0.wg 0).gang, (base0.wg 0).wgid) = (0, 0) ∧ (Tbl.find? (relState [] [] true none).teams 0).isSome = true := by
  decide +kernel

/-- No migration and no write of hardware on its way, as some premises ask. -/
theorem witness_NoMigration : base0.migrating (512 * 128) = false ∧ base0.migrating 65536 = false ∧
    base0.hwOut 65536 64 = false ∧ base0.hwOut 65536 384 = false ∧ collState.migrating 65536 = false ∧
    collState.hwOut 65536 64 = false ∧ (stand slotTeam base0).hwOut 65536 384 = false ∧
    (issued .pgsurr surrF (stand team0 base0) is0).surrFault 65536 = none := by decide +kernel

/-- A copy that acquires and may run: the words that it waited for have merged. -/
theorem witness_CopyEngine_acquired :
    let x := { copyCmd true .acquiring with busyUntil := 1 }
    State.nextCopy ((queueState x).core loadCore).copyQ [] = some x ∧ x.busyUntil ≠ 0 ∧
    (queueState x).drained ((queueState x).unit loadCore) x.busyUntil = true := by decide +kernel

/-- A slice of eight bytes between global memory and byte 64 of the scratchpad or of the operand buffer. -/
def someSlice (out obuf : Bool) : Slice :=
  { team := 0, teamid := 0, pc := 0, toGlobal := out, obuf := obuf, e := 2, rows := 1, cols := 4, tiles := 1, runs := [(65536, 8)],
    ext := [(65536, 8)], desc := { clus := false, col := false, rot := 0, seg := 64, base := 0, tpitch := 0, rpitch := 0 } }
theorem witness_CopyBatches_run : ∀ y ∈ [someSlice true false, someSlice false false, someSlice true true, someSlice false true],
    let x := { copyCmd false .running with body := .copy [y] false false 0 none }
    (queueState x).findCmd loadCore 3 = some x ∧
    ∀ i ∈ [0, 1, 2, 3], ∀ k ∈ [0, 1], (y.place (queueState x) ((queueState x).wg 0) i k).map (fun z =>
      decide (z.2.1 < 2 ^ 32) && (decide (z.2.1 < 2 ^ 31) == !y.obuf) && !z.2.2) = some true := by decide +kernel

/-- What a later command reads: a byte that an earlier one has still to land, or the home's. -/
theorem witness_CopyBatches_source :
    ((landState.core loadCore).copyQ = [] ++ landCmd :: []) ∧
    ((Tbl.find? landCmd.landings (65536 / 512)).bind fun l => l.find? fun x => x.1 == 65536).map (·.2) = some 9 ∧
    ((Tbl.find? (copyCmd false .queued).landings (65536 / 512)).bind fun l => l.find? fun x => x.1 == 65536) = none := by
  decide +kernel

/-- The accumulator of reset, stored: +0 has its code in every format. -/
theorem witness_MatrixQueue_store : ∀ op ∈ [MatOp.storeSpad .bf16 0 0 0 (someSlice true false).desc,
      .storeGlobal .bf16 0 0 0 65536 256],
    (∀ m ∈ [0, 63], ∀ n ∈ [0, 63], convF (ieeeFmt .bf16) 0 0
      (fp32.value ((ripeState op).accGet ((ripeState op).wg 0) (State.recBase ((ripeState op).wg 0) 0) m n)) = .ok 0 0) ∧
    (ripeState op).findCmd loadCore 3 = some (ripeCmd op) ∧
    Tbl.find? (ripeState op).wgs 0 = some ((ripeState op).wg 0) := by decide +kernel

/-- A collective that has captured what it brings, and the other package's part, brought already or not, where a link
of the die is trained with its calendar for partition 0 or not. -/
def bringing (got : List CollPart) : Cmd := { collCmd with brings := some (part1 false 2, 0), got := got }
def slotted : Link := { trained := true, cal := (List.range 240).map fun k => (k, 0x80) }
theorem witness_CollectivesRun_slots :
    State.collPick ((queueState (bringing [])).core loadCore).copyQ [part1 false 2] = some (bringing []) ∧
    (bringing []).brings ≠ none ∧ collCmd.brings = none ∧ (∀ y ∈ [part1 false 2], y ∈ (bringing [part1 false 2]).got) ∧
    (∃ y ∈ [part1 false 2], y.lost = false ∧ y ∉ (bringing []).got) ∧
    (queueState (bringing [])).mayLeave (coreDie loadCore) 0 = false ∧
    ({ queueState (bringing []) with pallum := [(0, slotted)] } : State).mayLeave (coreDie loadCore) 0 = true := by decide +kernel

/-- A gang whose halt has begun, with one team at MASK 1 that is to clear it. -/
def halting (t : Team) : State :=
  { stand t base0 with gangs := [(0, { launch := 0, wgs := [0], cluster := 1, core := 4, req := some { posted := 0, halting := true } })] }
theorem witness_HaltTakesEffect :
    Met (stand handlerTeam (halting handlerTeam)) handlerTeam [.rett {}] ∧
    Met (stand { team0 with priv := 2, trapmask := 1 } (halting team0)) { team0 with priv := 2, trapmask := 1 }
      [.swrite { a := .sys 0x015, b := .s 9 }] ∧
    ((halting handlerTeam).gang ((halting handlerTeam).wg 0).gang).req = some { posted := 0, halting := true } ∧
    ((halting handlerTeam).gang 0).resident = true ∧ (halting handlerTeam).gangTeams 0 = [0] ∧
    (halting handlerTeam).accessOut 0 = false ∧ (team0.readS 9).getLsbD 0 = false :=
  ⟨met_of handlerTeam (halting handlerTeam) _ rfl rfl (by decide +kernel),
    met_of { team0 with priv := 2, trapmask := 1 } (halting team0) _ rfl rfl (by decide +kernel), by decide +kernel⟩

/-- A second service request while another group of the team, here its lane 31, is held for an answer. -/
def secondAsk : Team :=
  { serviceTeam with lanes := allLanes.map fun l => (l, { hold := if l = 31 then some (.service none 0 1) else none }) }
def is31 : Issue := { is0 with lanes := 0x7FFFFFFF }
def secondState : State := { stand secondAsk base0 with issue := some is31 }
theorem witness_ServiceRequests_second : Standing secondState is31 secondAsk ∧ Clear .trapService serviceF secondState is31 ∧
    (issued .trapService serviceF secondState is31).active ≠ 0 ∧ (secondAsk.lane 31).hold = some (.service none 0 1) ∧
    0 + 65536 * 1 ≤ (issued .trapService serviceF secondState is31).limit 0 :=
  ⟨⟨rfl, rfl, by decide +kernel, by decide +kernel⟩, by unfold Clear; decide +kernel, by decide +kernel⟩

/-- The word of `rsv.ask s1, s2`, and a team held with it in a child region. -/
def askF : Form := { d := .reg (.s 1), a := .s 2 }
def askWord : IWord := (encode (.rsvAsk askF)).getD 0
theorem witness_ReserveWords_served : decodeRaw (Raw.ofWord askWord) = .ok (.rsvAsk, askF) ∧
    (∀ l, l < 32 → (team0.lane l).st = .running ∧ team0.parked l = false) ∧ (∀ k, askF.d.dst ≠ some (.f k)) ∧
    activeMask team0 (BitVec.allOnes 32) askF.h ≠ 0 ∧
    (∃ r q, Tbl.find? (stand team0 childBase).regions 0 = some r ∧ r.parentKey 0 = some 1 ∧
      Tbl.find? (stand team0 childBase).regions 1 = some q) :=
  ⟨by decide +kernel, by decide +kernel, fun _ h => (by simp [askF, Dest.dst] at h), by decide +kernel, ⟨_, _, rfl, by decide +kernel, rfl⟩⟩

/-- A job with a checkpoint of a block of the page and of one beyond it; the page's slot is 0 of port 0, under revocation. -/
def revoking : State :=
  { base0 with keys := [(0, { word := 0x8000000000000000 })], jobs := [(0, { ckpt := some { noSnap with image := [(128, 1), (300, 2)] } })] }
theorem witness_SystemActions_pages :
    (∃ r, Tbl.find? revoking.pages 131072 = some r ∧ r.kslot = 0 ∧ gaOf r.part (65536 * r.page) / 512 = 128) ∧
    131072 / 2 ^ 38 = 0 ∧ revoking.slotPages 0 0 = [131072] ∧
    Tbl.wf revoking.pages = true ∧ (revoking.slotPages 0 0).length ≤ 2 ^ 32 ∧
    bitsOf (revoking.keys.get {} (0 * 32 + 0)).word 63 62 = 2 ∧
    ∃ j x, Tbl.find? revoking.jobs 0 = some j ∧ j.ckpt = some x ∧ Tbl.find? x.image 300 = some 2 ∧
      ∃ j' x', Tbl.find? (revoking.forgetSlot 0 0).jobs 0 = some j' ∧ j'.ckpt = some x' :=
  ⟨⟨_, rfl, by decide +kernel⟩, by decide, by decide +kernel, by decide +kernel, by decide +kernel, by decide +kernel, _, _, rfl, rfl, rfl, _, _, rfl, rfl⟩

/-- Lanes at `copy.wait` and `coll.wait`, one finished batch each, its extent the first word of line 512, clean in the L1. -/
def observing (w : Wait) : Team :=
  { waitTeam w with sealed := [{ number := 0, cmds := [], extents := [(65536, 4)] }]
                    collCmds := [{ number := 0, cmds := [], extents := [(65536, 4)] }] }
theorem witness_WaitsObserve : ∀ w ∈ [Wait.copyWait 0, .collWait 0], ((observing w).lane 5).st = .waiting ∧
    ((observing w).lane 5).wait = some w ∧ (observing w).parked 5 = false ∧ (observing w).stopping = false ∧
    (State.unfinished (observing w).sealed).length = 0 ∧ (State.unfinished (observing w).collCmds).length = 0 ∧
    ((stand (observing w) l1Base).l1 loadCore 512).dirty = 0 ∧
    ((stand (observing w) l1Base).l1 loadCore 512).valid.getLsbD 0 = true ∧
    128 * 512 + 4 * 0 < 65536 + 4 := by decide +kernel

theorem witness_WorkEnds_signal : leaving.homeWait 0 (gaOf 0 65536) 8 = none ∧
    (∃ l, Tbl.find? leaving.launches 0 = some l ∧ leaving.outputMoves l = false ∧ l.gone.contains (gaOf l.part 65536 / 65536) = false) ∧
    gaOf 0 65536 % 8 = 0 ∧ (leaving.pageAt (128 * (gaOf 0 65536 / 128))).isSome = true :=
  ⟨by decide +kernel, ⟨_, rfl, by decide +kernel⟩, by decide +kernel⟩

/-- A save slot at 65,536 that holds team 0 with one vector register. -/
def savedTeam : Team := { team0 with vregs := 1, slotVa := 65536 }
def savedState : State :=
  { base0 with mem := memWriteBytes (memWriteBytes [] 65792 (slotBytes savedTeam [])) 69632 ((vectorBytes savedTeam).take 128) }
theorem witness_PreemptionLadder_restored : (∀ l, l < 32 → (savedTeam.lane l).level < 16) ∧
    savedState.hwLoad (gaOf 0 (savedTeam.slotVa + 256)) 864 = slotBytes savedTeam [] ∧
    savedState.hwLoad (gaOf 0 (savedTeam.slotVa + 4096)) (128 * savedTeam.vregs) = (vectorBytes savedTeam).take (128 * savedTeam.vregs) ∧
    base0.mapped 512 = true ∧ base0.hwOut (128 * 512 + 0) 1 = false ∧ base0.msgs = [] := by decide +kernel

/-- A gang that waits to be restored on a core of its die, and a request that fell during a checkpoint. -/
def returning : State :=
  { queued with gangs := [(0, { launch := 7, wgs := [], cluster := 1, core := 4, resident := false })] }
theorem witness_PreemptionLadder_chosen : returning.chosen 0 4 = some (7, .restore 0) ∧
    (∃ g, Tbl.find? returning.gangs 0 = some g ∧ g.resident = false ∧ g.die = 0 ∧ g.launch = 7 ∧ g.req = none) ∧
    (Tbl.find? returning.launches 7).isSome = true ∧ (returning.restoreShut 0).isNone = true ∧ ({ posted := 0, ckpt := true } : PreReq).inPlace = false :=
  ⟨by decide +kernel, ⟨_, rfl, by decide⟩, by decide +kernel, by decide +kernel, rfl⟩

/-- An update that nothing holds back, one that a lease of the block's line holds back, and one due that waited. -/
theorem witness_HardwareRecords_waits :
    (counted 0).counterWait 0 = none ∧ (counted 1).counterWait 0 = none ∧
    ({ counted 0 with leases := [(512, 2000001)] } : State).counterWait 0 ≠ none ∧
    ({ counters := 65536, cbDue := true } : Region).cbSeq % 2 = 0 := by decide +kernel

/-- What cannot leave a die has waited for partition 0 on link 1 since CLK 0. -/
theorem witness_FirmwareTables_waits :
    let s : State := { base0 with clk := 3840, linkWaits := [(32 * 1 + 0, 0, 0)] }
    Tbl.find? s.linkWaits (32 * 1 + 0) = some (0, 0) ∧ 0 + 3840 ≤ s.clk.toNat ∧ s.ownsSlot 1 0 = false := by decide +kernel

/-- Region operations that nothing holds back: the image at 65,536 reads as zeros. -/
theorem witness_RegionOperations_ready :
    let s := ringOf 0x200000000000000 []
    s.readFault (s.ringPart 0) 65536 256 = none ∧ (∀ a ∈ pagesOf 65536 256, s.migrating (gaOf (s.ringPart 0) a) = false) ∧
    s.imageWait (s.ringPart 0 * 65536 + 5) (s.homeLoad (gaOf (s.ringPart 0) 65536) 256) = none ∧
    s.pathLinks 0 (s.ringPart 0) 65536 256 true = [] ∧
    s.fieldWait (s.ringPart 0 * 65536 + 0) 0 5 = none ∧ s.migrating (gaOf (s.ringPart 0) 65536) = false := by decide +kernel

/-- A collective under way while the job moves. -/
def movingState : State := { queueState collCmd with clk := 100000000, jobs := [(0, { moving := true })] }
theorem witness_Checkpoints_moving : Tbl.find? movingState.jobs 0 = some { moving := true } ∧
    movingState.ckptDue { moving := true } = true ∧ movingState.collRunning 0 = true ∧
    (let j : Job := { moving := true, halting := true, markers := [(0, 1)], lastAt := 100000000 }
     (∃ x ∈ j.markers, movingState.cycle < x.2) ∧ movingState.clk.toNat < j.lastAt.toNat + j.interval.toNat) ∧
    (let s : State := { movingState with pallum := [(0, slotted)] }
     (s.linkAt 16).trained = true ∧ s.ownsSlot 16 0 = true) := by decide +kernel

/-- A capture ring in host memory, and one in a root region's global memory. -/
theorem witness_Checkpoints_capture :
    let r : CaptureRing := { host := true, part := 0, base := 0, size := 4096 }
    let q : CaptureRing := { host := false, part := 0, base := 65536, size := 4096 }
    r.host = true ∧ q.part = 0 ∧ ∃ x ∈ base0.regions, x.1 / 65536 = 0 ∧ x.2.parent = 0xFFFF ∧
      x.2.globBase.toNat ≤ q.base ∧ q.base + q.size ≤ x.2.globBase.toNat + x.2.globLimit.toNat :=
  ⟨rfl, rfl, _, List.mem_cons_self, by decide +kernel⟩

/-- A replay of a checkpoint that CLK has gone past. -/
theorem witness_Checkpoints_replay :
    let s := jobs { ckpt := some noSnap } []
    noSnap.clk < s.clkSeen 0 ∧ s.clk.toNat + (s.clkSeen 0 - noSnap.clk).toNat < 2 ^ 64 := by decide +kernel

/-- A cycle at whose end nothing waits to be performed. -/
theorem witness_CyclesEnd : sampled.halves = [] ∧ sampled.jobs = [] ∧ sampled.served = [] ∧
    (sampled.team 0).resident = true ∧ ((sampled.updDie 0 fun d => { d with booted := true }).die (coreDie loadCore)).booted = true ∧
    (∀ l, l < 32 → ((sampled.team 0).lane l).hold = none) ∧ Tbl.wf sampled.teams = true ∧ sampled.rings = [] := by decide +kernel

/-- A device ring at 65,536 whose descriptor is owed, its page mapped or not. -/
def owed (va : Nat) : State :=
  { base0 with rings := [(0, { ref := { host := false, part := 0, addr := va }, image := List.replicate 128 7 })] }
theorem witness_RingService_descriptor : ((owed 65536).pageAt (gaOf 0 65536)).isSome = true ∧
    (owed 65536).uncovered (blocksOf (gaOf 0 65536) 128) = none ∧
    (owed 65536).homeWait (portDie ((owed 65536).homePort (gaOf 0 65536 / 128))) (gaOf 0 65536) 128 = none ∧
    ((owed 65536).ring 0).image.length = 128 ∧ gaOf 0 65536 % 128 = 0 ∧ ((owed 0).pageAt (gaOf 0 0)).isNone = true := by decide +kernel

/-! Results that the spec works out (05, 07, 11): one step from the word at the port, with some registers set. -/

/-- Team 0 after the step that issues a word, its lanes' first seven vector registers, scalars and formats as given. -/
def ran (i : Instr) (vs : List (Nat × Word)) (ss : Tbl DWord) (fmts : Tbl (BitVec 32)) : Option Team :=
  (encode i).bind fun w =>
    let s := State.reset.withFetchWord 96 w.toNat
    let s := { s with
      teams := [(0, { loadTeam with v := vs.flatMap fun (r, x) => allLanes.map fun l => (32 * r + l, x), s := ss })]
      wgs := s.wgs.map fun (k, g) => (k, { g with fmts := fmts }) }
    match step s with
    | .next s => Tbl.find? s.teams 0
    | _ => none

/-- A vector register in lane 31, a scalar register, and FPSTAT after it. -/
def outV (i : Instr) (vs : List (Nat × Word)) (r : Nat) : Option Word := (ran i vs [] []).map fun t => t.readV r 31
def outF (i : Instr) (vs : List (Nat × Word)) (ss : Tbl DWord) : Option (Word × BitVec 32) :=
  (ran i vs ss [(2, 0x0541DC80)]).map fun t => (t.readV 3 31, t.fpstat)

/-- 05, borderline results. -/
theorem test_add_wraps : outV (.add { ty := .s32, d := .reg (.v 3), a := .v 1, b := .int 1 }) [(1, 0x7FFFFFFF)] 3 = some 0x80000000 := by
  decide +kernel
theorem test_add_saturates :
    outV (.add { ty := .s32, q := 1, d := .reg (.v 3), a := .v 1, b := .int 1 }) [(1, 0x7FFFFFFF)] 3 = some 0x7FFFFFFF := by
  decide +kernel
theorem test_sub_saturates : outV (.sub { ty := .n32, q := 1, d := .reg (.v 3), a := .v 1, b := .int 5 }) [(1, 3)] 3 = some 0 := by
  decide +kernel
theorem test_add_narrow : outV (.add { ty := .s16, d := .reg (.v 3), a := .v 1, b := .int 1 }) [(1, 0x7FFF)] 3 = some 0x8000 := by
  decide +kernel
theorem test_add_scalar : (ran (.add { ty := .s16, d := .reg (.s 3), a := .v 1, b := .int 1 }) [(1, 0x7FFF)] [] []).map (·.readS 3) =
    some 0xFFFFFFFFFFFF8000 := by decide +kernel
theorem test_div_corner : outV (.div { ty := .s32, d := .reg (.v 3), a := .v 1, b := .int 0x7FF }) [(1, 0x80000000)] 3 = some 0x80000000 := by
  decide +kernel
theorem test_rem_sign : outV (.rem { ty := .s32, d := .reg (.v 3), a := .v 1, b := .int 2 }) [(1, 0xFFFFFFF9)] 3 = some 0xFFFFFFFF := by
  decide +kernel
theorem test_div_zero : outV (.div { ty := .n32, d := .reg (.v 3), a := .v 1, b := .int 0 }) [(1, 9)] 3 = some 0xFFFFFFFF := by
  decide +kernel
theorem test_mulhi_signed : outV (.mulhi { ty := .s32, d := .reg (.v 3), a := .v 1, b := .int 3 }) [(1, 0xFFFFFFFE)] 3 = some 0xFFFFFFFF := by
  decide +kernel
theorem test_mulhi_unsigned : outV (.mulhi { ty := .n32, d := .reg (.v 3), a := .v 1, b := .int 3 }) [(1, 0xFFFFFFFE)] 3 = some 2 := by
  decide +kernel
theorem test_shl_saturates :
    outV (.shl { ty := .s32, q := 1, d := .reg (.v 3), a := .v 1, b := .int 1 }) [(1, 0x40000000)] 3 = some 0x7FFFFFFF := by
  decide +kernel
theorem test_sar_beyond : outV (.sar { ty := .s32, d := .reg (.v 3), a := .v 1, b := .int 40 }) [(1, 0x80000000)] 3 = some 0xFFFFFFFF := by
  decide +kernel
theorem test_shl_beyond : outV (.shl { ty := .b32, d := .reg (.v 3), a := .v 1, b := .int 0x7FF }) [(1, 1)] 3 = some 0 := by
  decide +kernel
theorem test_bfx_signed : outV (.bfx { ty := .s32, d := .reg (.v 3), a := .v 1, b := .int 8, c := .int 4 }) [(1, 0xF00)] 3 = some 0xFFFFFFFF := by
  decide +kernel
theorem test_clz_zero : outV (.clz { ty := .b32, d := .reg (.v 3), a := .v 1 }) [(1, 0)] 3 = some 32 := by decide +kernel

/-- 07, fmt2 = 0x0541_DC80: 0.3 gives 0x2A with NX; 464.0 gives 0x7E with NX; 470.0 under `.sat` gives 0x7E with OF and
NX; 2^-10 gives 0 with UF and NX. -/
def cvt2 (x : Word) : Option (Word × BitVec 32) :=
  outF (.cvt { ty := .fmt 2, d := .reg (.v 3), a := .v 1, c := .ty .f32 }) [(1, x)] []
theorem test_cvt_rounds : (cvt2 0x3E99999A).map (·.1) = some 0x2A ∧ (cvt2 0x43E80000).map (·.1) = some 0x7E := by decide +kernel
theorem test_cvt_flags : (cvt2 0x43EB0000).map (·.1) = some 0x7E ∧ (cvt2 0x43EB0000).map (·.2) ≠ (cvt2 0x43E80000).map (·.2) := by
  decide +kernel
/-- 07, one rounding per group: four products of 1.0 added to 2^24. -/
theorem test_bdot4_once : outF (.bdot4 { ty := .fmt 2, d := .reg (.v 3), a := .v 1, b := .v 2, c := .v 4 })
    [(1, 0x38383838), (2, 0x38383838), (4, 0x4B800000)] [] = some (0x4B800002, 0) := by decide +kernel
/-- 07 R167: 3,000.0 takes the scale 3. -/
theorem test_bscale : (outF (.bscale { ty := .fmt 2, d := .reg (.v 3), a := .v 1, c := .ty .f32 }) [(1, 0x453B8000)] []).map (·.1) = some 3 := by
  decide +kernel
/-- 07 R159, R160: +0 is the greater of the zeros; -0.3 rounds to -0. -/
theorem test_fmax_zero : outV (.fmax { ty := .f32, d := .reg (.v 3), a := .v 1, b := .flt 0 }) [(1, 0x80000000)] 3 = some 0 := by
  decide +kernel
theorem test_frnd_sign : outV (.frnd { ty := .f32, d := .reg (.v 3), a := .v 1 }) [(1, 0xBE99999A)] 3 = some 0x80000000 := by
  decide +kernel

/-! The cipher and the hash that the spec names, on the examples of FIPS 202 and FIPS 197. -/

theorem test_shake256 : shake [] 4 = [0x46, 0xB9, 0xDD, 0x2B] := by decide +kernel
theorem test_aes256 :
    aesBlock (aesWords ((List.range 32).map (BitVec.ofNat 8))) ((List.range 16).map fun i => BitVec.ofNat 8 (0x11 * i)) =
      [0x8E, 0xA2, 0xB7, 0xCA, 0x51, 0x67, 0x45, 0xBF, 0xEA, 0xFC, 0x49, 0x90, 0x4B, 0x49, 0x60, 0x89] := by decide +kernel
end
end Sys2Proof.Tests
end

section
/-!
SUPPORT. What the decoder refuses, in the order of its checks (R93), and what a word comes to at an issue port.
-/

namespace Sys2Proof

theorem decodeRaw_of_unassigned (r : Raw) (h : opcodeOp r.opc = none) : decodeRaw r = .error .unassigned := by
  unfold decodeRaw
  rw [h]
  rfl

theorem decodeRaw_of_hint (r : Raw) (o : Op) (h : opcodeOp r.opc = some o) (hint : r.hints.extractLsb' 0 5 ≠ 0) :
    decodeRaw r = .error .reserved := by
  unfold decodeRaw
  rw [h]
  exact if_pos hint

/-- A type code outside the table is reserved; so is the word where a hint bit is refused before it. -/
theorem decodeRaw_of_type (r : Raw) (o : Op) (h : opcodeOp r.opc = some o) (ty : Ty.ofCode r.ty = none) :
    decodeRaw r = .error .reserved := by
  by_cases hint : r.hints.extractLsb' 0 5 = 0
  · unfold decodeRaw
    rw [h, hint, ty]
    rfl
  · exact decodeRaw_of_hint r o h hint

theorem decode_of_decodeRaw_error (w : IWord) (e : BadWord) (h : decodeRaw (Raw.ofWord w) = .error e) :
    decode w = .error e := by
  unfold decode
  rw [h]
  rfl

theorem decode_of_unassigned (w : IWord) (h : opcodeOp (w.extractLsb' 86 10) = none) :
    decode w = .error .unassigned := decode_of_decodeRaw_error w _ (decodeRaw_of_unassigned _ h)

/-- The reserved hint bits W[74:70] are the low five of the hint field (R78). -/
theorem hints_low (w : IWord) : (Raw.ofWord w).hints.extractLsb' 0 5 = w.extractLsb' 70 5 := by
  apply BitVec.eq_of_getLsbD_eq
  intro i hi
  have low : i < 12 := by omega
  simp [Raw.ofWord, hi, low]

end Sys2Proof

namespace Sys2Proof.Machine

/-- What a word comes to at an issue port: its instruction, or the fault of a word that holds none (R91). -/
def portInstr (w : IWord) : Instr :=
  match decode w with
  | .ok i => i
  | .error e => .illegalInstructionWord e

theorem portInstr_of_error (w : IWord) (e : BadWord) (h : decode w = .error e) :
    portInstr w = .illegalInstructionWord e := by
  unfold portInstr
  rw [h]

/-- The fault of a word with an unassigned opcode is raised for the group at the port, once the issue has counted. -/
theorem exec_unassigned (s : State) (is : Issue) (h : s.issue = some is) :
    ∃ s' : State, exec (.illegalInstructionWord .unassigned) s =
        .next (s'.raise is.team is.lanes is.pc is.word { cause := 1, sub := 0, mask := is.lanes } true) ∧
      s'.mem = s.mem ∧ s'.teams = s.teams := by
  refine ⟨s.countIssueOf (s.regionOf (s.team is.team).wg) (s.team is.team).core, ?_, rfl, rfl⟩
  show execIllegalInstructionWord .unassigned s = _
  unfold execIllegalInstructionWord
  rw [h]

/-! What happens in a cycle before a group issues. -/

/-- A state that differs from another in what is done before a group issues: stalls are counted (R358), halts that waited
for MASK stop their teams (R408), and held arrivals at barriers are made (R373). -/
def State.BeforeIssue (a b : State) : Prop :=
  b = { a with teams := b.teams, cores := b.cores, regions := b.regions, stallsDue := b.stallsDue }

namespace State.BeforeIssue

variable {a b c : State}

theorem refl (s : State) : BeforeIssue s s := rfl
theorem trans (h : BeforeIssue a b) (g : BeforeIssue b c) : BeforeIssue a c := by
  unfold BeforeIssue at *; rw [g, h]
theorem updTeam (s : State) (k : Nat) (f : Team → Team) : BeforeIssue s (s.updTeam k f) := rfl
theorem updCore (s : State) (i : Nat) (f : Core → Core) : BeforeIssue s (s.updCore i f) := rfl
theorem foldl {β : Type} (f : State → β → State) (h : ∀ s x, BeforeIssue s (f s x)) (xs : List β) (s : State) :
    BeforeIssue s (xs.foldl f s) := by
  induction xs generalizing s with
  | nil => exact refl s
  | cons x xs ih => exact (h s x).trans (ih _)

theorem countStall (s : State) (core pipe : Nat) : BeforeIssue s (s.countStall core pipe) := by
  unfold State.countStall
  dsimp only
  split
  · rfl
  · split <;> rfl

theorem countStalls (s : State) : BeforeIssue s s.countStalls := by
  unfold State.countStalls
  split
  · exact trans (b := { s with stallsDue := false }) rfl (foldl _ (fun s _ => countStall s _ _) _ _)
  · exact refl s

theorem stopPending (s : State) (g : Nat) : BeforeIssue s (s.stopPending g) := by
  unfold State.stopPending
  split
  · split
    · exact foldl _ (fun s t => (updCore s _ _).trans (updTeam _ t _)) _ _
    · exact refl s
  · exact refl s

theorem phaseArrive (s : State) (core cell n : Nat) : BeforeIssue s (s.phaseArrive core cell n) :=
  foldl _ (fun s _ => updCore s _ _) _ _

theorem heldArrivals (s : State) (rq bound : Nat) : BeforeIssue s (s.heldArrivals rq bound) :=
  foldl _ (fun s _ => (phaseArrive s _ _ _).trans (updTeam _ _ _)) _ _

theorem passOn (s : State) (todo : List Nat) (turn : Nat) : BeforeIssue s (s.passOn todo turn) := by
  have left := fun rqs : List Nat => foldl _ (fun s rq => heldArrivals s rq 40) rqs s
  unfold State.passOn
  split
  · exact (left _).trans (heldArrivals _ _ _)
  · exact left _

end State.BeforeIssue

/-! Stores to an L1. -/

/-- A state that differs from another in what a weak store changes: lines of L1s, and what is sent and read for them
(R188, R189); and in the second halves that stand. -/
structure State.ThroughL1 (a b : State) : Prop where
  rest : b = { a with cores := b.cores, fresh := b.fresh, nextId := b.nextId, msgs := b.msgs, served := b.served,
                      halves := b.halves }
  cores : ∀ i, b.core i = { a.core i with l1 := (b.core i).l1 }

namespace State.ThroughL1

variable {a b c : State}

theorem refl (s : State) : ThroughL1 s s := ⟨rfl, fun _ => rfl⟩
theorem trans (h : ThroughL1 a b) (g : ThroughL1 b c) : ThroughL1 a c :=
  ⟨by rw [g.rest, h.rest], fun i => by rw [g.cores i, h.cores i]⟩

theorem updCore (s : State) (j : Nat) (f : Core → Core) (h : ∀ c, f c = { c with l1 := (f c).l1 }) :
    ThroughL1 s (s.updCore j f) where
  rest := rfl
  cores i := by
    rw [State.updCore_core]
    split
    · exact h _
    · rfl

theorem setL1 (s : State) (core line : Nat) (x : L1Line) : ThroughL1 s (s.setL1 core line x) :=
  updCore s _ _ fun _ => rfl

theorem writeBackWords (s : State) (core line : Nat) (m : BitVec 32) : ThroughL1 s (s.writeBackWords core line m) := by
  unfold State.writeBackWords
  dsimp only
  split
  · exact refl s
  · exact (setL1 s core line _).trans ⟨rfl, fun _ => rfl⟩

theorem makeRoom (s : State) (core line : Nat) : ThroughL1 s (s.makeRoom core line) := by
  unfold State.makeRoom
  dsimp only
  split
  · exact refl s
  · exact (writeBackWords s _ _ _).trans (updCore _ _ _ fun _ => rfl)

theorem l1Store (s : State) (core ga : Nat) (bs : List Byte) : ThroughL1 s (s.l1Store core ga bs) := by
  unfold State.l1Store
  dsimp only
  refine (makeRoom s core (ga / 128)).trans (trans ?_ (setL1 _ _ _ _))
  split
  · exact ⟨rfl, fun _ => rfl⟩
  · exact refl _

theorem endHalves (s : State) (p : Half → Bool) : ThroughL1 s (s.endHalves p) := by
  have stores : ∀ (hs : List Half) (u : State), ThroughL1 u (hs.foldl (fun s h => s.l1Store h.core h.ga h.bytes) u) := by
    intro hs
    induction hs with
    | nil => exact refl
    | cons h hs ih => exact fun u => (l1Store u h.core h.ga h.bytes).trans (ih _)
  exact trans (b := { s with halves := s.halves.filter fun h => !p h }) ⟨rfl, fun _ => rfl⟩ (stores _ _)

end State.ThroughL1

/-! States in which a fetch from a code object gives the same word. -/

theorem State.setEntry_mem (s : State) (k : Nat) (e : DWord) : (s.setEntry k e).mem = s.mem := by
  unfold State.setEntry
  split <;> rfl

theorem State.errorRecord_mem (s : State) (die port rq kind cause syn loc region : Nat) :
    (s.errorRecord die port rq kind cause syn loc region).mem = s.mem := rfl

/-- A state that differs from another in nothing that a fetch past the loop buffer reads, but for the teams: main memory,
page tables, TLBs, fetch copies, code objects and workgroups are the same (R40, R272, R278, R283). -/
structure State.FetchAlike (a b : State) : Prop where
  rest : b = { a with teams := b.teams, cores := b.cores, second := b.second, fresh := b.fresh, nextId := b.nextId,
                      msgs := b.msgs, served := b.served, halves := b.halves, breaks := b.breaks }
  tlb : ∀ i, (b.core i).tlb = (a.core i).tlb
  fcopy : ∀ i, (b.core i).fcopy = (a.core i).fcopy

/-- Two answers that are the same, with states that are alike for the rest of a fetch. -/
def State.SameAnswer {α : Type} (x y : α × State) : Prop := y.1 = x.1 ∧ State.FetchAlike x.2 y.2

theorem State.SameAnswer.map {α β : Type} (f : α → β) {x y : α × State} (h : SameAnswer x y) :
    SameAnswer (x.map f id) (y.map f id) := ⟨congrArg f h.1, h.2⟩

theorem State.SameAnswer.fetchVia {x y : Option Nat × State} (h : SameAnswer x y) (va : Nat)
    (f g : State → Fetched × State) (go : ∀ u v : State, FetchAlike u v → SameAnswer (f u) (g v)) :
    SameAnswer (State.fetchVia va x f) (State.fetchVia va y g) := by
  obtain ⟨o, u⟩ := x
  obtain ⟨o', v⟩ := y
  obtain ⟨e, h⟩ := h
  cases (show o' = o from e)
  cases o with
  | some sub => exact ⟨rfl, h⟩
  | none => exact go u v h

namespace State.FetchAlike

variable {a b c : State}

theorem refl (s : State) : FetchAlike s s := ⟨rfl, fun _ => rfl, fun _ => rfl⟩
theorem trans (h : FetchAlike a b) (g : FetchAlike b c) : FetchAlike a c :=
  ⟨by rw [g.rest, h.rest], fun i => by rw [g.tlb i, h.tlb i], fun i => by rw [g.fcopy i, h.fcopy i]⟩

theorem updCore (s : State) (j : Nat) (f : Core → Core) (h : ∀ c, (f c).tlb = c.tlb ∧ (f c).fcopy = c.fcopy) :
    FetchAlike s (s.updCore j f) where
  rest := rfl
  tlb i := by rw [State.updCore_core]; split; exacts [(h _).1, rfl]
  fcopy i := by rw [State.updCore_core]; split; exacts [(h _).2, rfl]

theorem of_throughL1 (h : ThroughL1 a b) : FetchAlike a b where
  rest := by rw [h.rest]
  tlb i := by rw [h.cores i]
  fcopy i := by rw [h.cores i]

/-! What the parts of a fetch read. -/

theorem mem (h : FetchAlike a b) : b.mem = a.mem := by rw [h.rest]
theorem codes (h : FetchAlike a b) : b.codes = a.codes := by rw [h.rest]
theorem poisoned (h : FetchAlike a b) : b.poisoned = a.poisoned := by rw [h.rest]
theorem cluster (h : FetchAlike a b) (q : Nat) : b.cluster q = a.cluster q := by rw [h.rest]; rfl
theorem wg (h : FetchAlike a b) (w : Nat) : b.wg w = a.wg w := by rw [h.rest]; rfl
theorem regionOf (h : FetchAlike a b) (w : Nat) : b.regionOf w = a.regionOf w := by rw [h.rest]; rfl
theorem pageAt (h : FetchAlike a b) (ga : Nat) : b.pageAt ga = a.pageAt ga := by rw [h.rest]; rfl
theorem firmwareWord (h : FetchAlike a b) (pc : Word) : b.firmwareWord pc = a.firmwareWord pc := by rw [h.rest]; rfl
theorem walk (h : FetchAlike a b) (part va : Nat) : b.walk part va = a.walk part va := by rw [h.rest]; rfl
theorem leafFault (h : FetchAlike a b) (part : Nat) (rq : Option Nat) (pte : DWord) (shift va : Nat) (w f : Bool) :
    leafFault b part rq pte shift va w f = leafFault a part rq pte shift va w f := by rw [h.rest]; rfl
theorem tlbFind (h : FetchAlike a b) (core part va : Nat) : b.tlbFind core part va = a.tlbFind core part va := by
  simp only [State.tlbFind, h.tlb, h.cluster]

theorem repair_mem (h : FetchAlike a b) (ga : Nat) : (b.repair ga).mem = (a.repair ga).mem := by
  unfold State.repair
  rw [h.pageAt]
  cases a.pageAt ga with
  | none => exact h.mem
  | some x =>
    dsimp only
    split
    · exact h.mem
    · rw [errorRecord_mem, errorRecord_mem, setEntry_mem, setEntry_mem]
      split
      · simp only [State.putHome, h.mem]
      · exact h.mem

theorem homeLine_repair (h : FetchAlike a b) (ga line : Nat) :
    (b.repair ga).homeLine line = (a.repair ga).homeLine line := by
  simp only [State.homeLine, State.homeBytes, h.repair_mem]

theorem teamPart (h : FetchAlike a b) {k : Nat} {ls : Tbl Lane} (hk : b.team k = { a.team k with lanes := ls }) :
    b.teamPart k = a.teamPart k := by
  simp only [State.teamPart, State.teamRegion, hk, h.regionOf]

theorem codeOf (h : FetchAlike a b) {k : Nat} {ls : Tbl Lane} (hk : b.team k = { a.team k with lanes := ls }) :
    b.codeOf k = a.codeOf k := by
  simp only [State.codeOf, hk, h.wg]

/-! What the parts of a fetch change, they change in both. -/

theorem updCore_both (h : FetchAlike a b) (j : Nat) (f : Core → Core)
    (hf : ∀ x y : Core, y.tlb = x.tlb → y.fcopy = x.fcopy → (f y).tlb = (f x).tlb ∧ (f y).fcopy = (f x).fcopy) :
    FetchAlike (a.updCore j f) (b.updCore j f) where
  rest := by rw [h.rest]; rfl
  tlb i := by
    rw [State.updCore_core, State.updCore_core]
    split
    · exact (hf _ _ (h.tlb i) (h.fcopy i)).1
    · exact h.tlb i
  fcopy i := by
    rw [State.updCore_core, State.updCore_core]
    split
    · exact (hf _ _ (h.tlb i) (h.fcopy i)).2
    · exact h.fcopy i

theorem updCluster_both (h : FetchAlike a b) (q : Nat) (f : Cluster → Cluster) :
    FetchAlike (a.updCluster q f) (b.updCluster q f) := ⟨by rw [h.rest]; rfl, h.tlb, h.fcopy⟩

theorem readHome_both (h : FetchAlike a b) (ga : Nat) : FetchAlike (a.readHome ga) (b.readHome ga) :=
  ⟨by rw [h.rest]; rfl, h.tlb, h.fcopy⟩

theorem tlbFill_both (h : FetchAlike a b) (core : Nat) (e : TlbEnt) :
    FetchAlike (a.tlbFill core e) (b.tlbFill core e) := by
  unfold State.tlbFill
  refine (h.updCore_both core _ ?_).updCluster_both _ _
  exact fun x y ht hc => ⟨by rw [ht], hc⟩

theorem tlbTouch_both (h : FetchAlike a b) (core part va : Nat) :
    FetchAlike (a.tlbTouch core part va) (b.tlbTouch core part va) := by
  unfold State.tlbTouch
  dsimp only
  rw [h.tlb core, h.cluster]
  split
  · exact h.updCore_both core _ fun x y ht hc => ⟨by rw [ht], hc⟩
  · split
    · exact h.tlbFill_both core _
    · exact h

/-! The parts of a fetch, in the order of R283, R281, R272 and R40. -/

theorem leafFor (h : FetchAlike a b) (core part va : Nat) :
    (a.leafFor core part va = none ∧ b.leafFor core part va = none) ∨
    ∃ pte shift a' b', a.leafFor core part va = some (pte, shift, a') ∧
      b.leafFor core part va = some (pte, shift, b') ∧ FetchAlike a' b' := by
  unfold State.leafFor
  rw [h.tlbFind, h.walk]
  split
  · exact .inr ⟨_, _, _, _, rfl, rfl, h.tlbTouch_both core part va⟩
  · split
    · rw [h.leafFault]
      split
      · exact .inr ⟨_, _, _, _, rfl, rfl, h⟩
      · exact .inr ⟨_, _, _, _, rfl, rfl, h.tlbFill_both core _⟩
    · exact .inl ⟨rfl, rfl⟩

theorem fetchPage (h : FetchAlike a b) (core part va : Nat) :
    SameAnswer (a.fetchPage core part va) (b.fetchPage core part va) := by
  unfold State.fetchPage
  rw [h.walk, h.poisoned]
  obtain ⟨ea, eb⟩ | ⟨pte, shift, a', b', ea, eb, h'⟩ := h.leafFor core part va
  · rw [ea, eb]
    dsimp only
    split <;> exact ⟨rfl, h⟩
  · rw [ea, eb]
    dsimp only
    rw [h.leafFault]
    split
    · exact ⟨rfl, h⟩
    · split
      · exact ⟨rfl, h⟩
      · exact ⟨rfl, h'⟩

theorem fetchLine (h : FetchAlike a b) (core line : Nat) :
    SameAnswer (a.fetchLine core line) (b.fetchLine core line) := by
  unfold State.fetchLine
  rw [h.fcopy core]
  split
  · exact ⟨rfl, h⟩
  · refine ⟨h.homeLine_repair _ _, ?_⟩
    dsimp only
    rw [h.homeLine_repair]
    exact (h.readHome_both _).updCore_both core _ fun x y ht hc => ⟨ht, by rw [hc]⟩

theorem fetchWord (h : FetchAlike a b) (core ga : Nat) : SameAnswer (a.fetchWord core ga) (b.fetchWord core ga) := by
  obtain ⟨e1, h1⟩ := h.fetchLine core (ga / 128)
  obtain ⟨e2, h2⟩ := h1.fetchLine core ((ga + 11) / 128)
  unfold State.fetchWord
  dsimp only
  split
  · exact ⟨by rw [e1], h1⟩
  · exact ⟨by rw [e1, e2], h2⟩

theorem fetchCode (h : FetchAlike a b) {k : Nat} {ls : Tbl Lane} (hk : b.team k = { a.team k with lanes := ls })
    (pc : Word) : SameAnswer (a.fetchCode k pc) (b.fetchCode k pc) := by
  unfold State.fetchCode
  dsimp only
  rw [h.teamPart hk, h.codeOf hk, hk, h.codes, h.firmwareWord]
  generalize (a.team k).core = core, a.teamPart k = part, a.codeOf k = code
  dsimp only
  generalize code + 12 * pc.toNat = va
  split
  · exact ⟨rfl, h⟩
  · split
    · exact ⟨rfl, h⟩
    · split
      · exact ⟨rfl, h⟩
      · refine SameAnswer.fetchVia (h.fetchPage core part _) _ _ _ fun u v first => ?_
        refine SameAnswer.fetchVia (first.fetchPage core part _) _ _ _ fun u v last => ?_
        exact SameAnswer.map Fetched.word (last.fetchWord core (gaOf part va))

/-- A fetch gives the same in states that are alike, if the loop buffer holds the same for it and the team differs in its
lanes alone. -/
theorem fetch (h : FetchAlike a b) {k : Nat} {ls : Tbl Lane} (hk : b.team k = { a.team k with lanes := ls }) (pc : Word)
    (loop : b.loopWord k pc = a.loopWord k pc) : (b.fetch k pc).1 = (a.fetch k pc).1 := by
  unfold State.fetch
  rw [loop, hk]
  split
  · rfl
  · dsimp only
    split
    · rfl
    · exact (h.fetchCode hk pc).1

end State.FetchAlike

/-! Loop buffers. -/

namespace State

variable {s : State} {k : Nat} {pc : Word}

/-- The loop buffer of a pipe (R138). -/
def pipeLoop (s : State) (core pipe : Nat) : Option LoopBuf := ((s.core core).pipes.get {} pipe).loop

theorem loopWord_eq (s : State) (k : Nat) (pc : Word) :
    s.loopWord k pc = match s.pipeLoop (s.team k).core (s.team k).pipe with
      | some b => if b.team = k ∧ b.lo ≤ pc ∧ pc ≤ b.hi then b.words[(pc - b.lo).toNat]? else none
      | none => none := rfl

theorem loopWord_congr {a b : State} {ls : Tbl Lane} (hk : b.team k = { a.team k with lanes := ls })
    (h : b.pipeLoop (a.team k).core (a.team k).pipe = a.pipeLoop (a.team k).core (a.team k).pipe) :
    b.loopWord k pc = a.loopWord k pc := by
  have same : b.pipeLoop (b.team k).core (b.team k).pipe = a.pipeLoop (a.team k).core (a.team k).pipe := by
    rw [hk]; exact h
  rw [loopWord_eq, loopWord_eq, same]

theorem pipeLoop_throughL1 {a b : State} (h : ThroughL1 a b) (core pipe : Nat) :
    b.pipeLoop core pipe = a.pipeLoop core pipe := by
  unfold pipeLoop
  rw [h.cores]

theorem pipeLoop_updPipe (s : State) (core pipe j p : Nat) (f : Pipe → Pipe) (h : ∀ x, (f x).loop = x.loop) :
    (s.updCore j fun c => { c with pipes := c.pipes.upd {} p f }).pipeLoop core pipe = s.pipeLoop core pipe := by
  unfold pipeLoop
  rw [updCore_core]
  split
  · dsimp only
    rw [Tbl.get_upd]
    split
    · exact h _
    · rfl
  · rfl

theorem pipeLoop_endLoop (s : State) (k : Nat) : (s.endLoop k).pipeLoop (s.team k).core (s.team k).pipe =
    match s.pipeLoop (s.team k).core (s.team k).pipe with
    | some b => if b.team = k then none else some b
    | none => none := by
  unfold pipeLoop State.endLoop
  dsimp only
  rw [updCore_core, if_pos rfl]
  simp only [Tbl.get, Tbl.find?_updIf, if_true]
  cases Tbl.find? (s.core (s.team k).core).pipes (s.team k).pipe <;> rfl

/-- Whether a PC lies outside the loop buffer that a team holds, so that an issue there ends its hold (R138). -/
def leavesLoop (s : State) (k : Nat) (pc : Word) : Bool :=
  match s.pipeLoop (s.team k).core (s.team k).pipe with
  | some b => b.team == k && (decide (pc < b.lo) || decide (b.hi < pc))
  | none => false

theorem loopWord_of_leavesLoop (h : s.leavesLoop k pc = true) : s.loopWord k pc = none := by
  rw [loopWord_eq]
  unfold leavesLoop at h
  split
  · rename_i b e
    rw [e] at h
    simp only [Bool.and_eq_true, Bool.or_eq_true, decide_eq_true_eq] at h
    rw [if_neg]
    rintro ⟨-, lo, hi⟩
    obtain ⟨-, below | above⟩ := h
    · exact absurd lo (BitVec.not_le.mpr below)
    · exact absurd hi (BitVec.not_le.mpr above)
  · rfl

theorem loopWord_endLoop (h : s.leavesLoop k pc = true) : (s.endLoop k).loopWord k pc = none := by
  unfold leavesLoop at h
  rw [loopWord_eq, show (s.endLoop k).team k = s.team k from rfl, pipeLoop_endLoop]
  cases e : s.pipeLoop (s.team k).core (s.team k).pipe with
  | none => rfl
  | some b =>
    rw [e] at h
    simp only [Bool.and_eq_true, beq_iff_eq] at h
    simp only [h.1, if_true]

end State

/-! The state in which a group's word is fetched. -/

namespace State

/-- The state in which the word of a group is fetched as it issues: a loop buffer that the group leaves is let go, the
second halves of its team's stores are performed, and breakpoints have matched (R138, R260, R359). -/
def fetchState (s : State) (k : Nat) (pc : Word) (m : Mask) : State :=
  let u := (if s.leavesLoop k pc then s.endLoop k else s).endHalves (·.team == k)
  (u.matchBreaks k m).updCore (s.team k).core fun c =>
    { c with pipes := c.pipes.upd {} (s.team k).pipe fun p => { p with issued := true } }

theorem issueGroup_of_word (s : State) (k : Nat) (pc : Word) (m : Mask) (port : Nat) (w : IWord)
    (h : ((s.fetchState k pc m).fetch k pc).1 = .word w) :
    s.issueGroup k pc m port = .run (portInstr w) { ((s.fetchState k pc m).fetch k pc).2 with
      issue := some { team := k, lanes := m, pc := pc, word := w, port := port } } := by
  generalize hx : (s.fetchState k pc m).fetch k pc = x at h ⊢
  obtain ⟨_, u⟩ := x
  cases h
  unfold State.issueGroup portInstr
  dsimp only
  split
  · rename_i e
    cases e.symm.trans hx
    cases decode w <;> rfl
  · rename_i e
    cases e.symm.trans hx
  · rename_i e
    cases e.symm.trans hx

theorem fetchState_teams (s : State) (k : Nat) (pc : Word) (m : Mask) : (s.fetchState k pc m).teams = s.teams := by
  show (State.endHalves _ _).teams = _
  rw [(ThroughL1.endHalves _ _).rest]
  dsimp only
  split <;> rfl

theorem fetchState_alike (s : State) (k : Nat) (pc : Word) (m : Mask) : FetchAlike s (s.fetchState k pc m) := by
  have loop : FetchAlike s (if s.leavesLoop k pc then s.endLoop k else s) := by
    split
    · exact .updCore _ _ _ fun _ => ⟨rfl, rfl⟩
    · exact .refl s
  have halves := loop.trans (.of_throughL1 (.endHalves _ (·.team == k)))
  have breaks : ∀ u : State, FetchAlike u (u.matchBreaks k m) := fun _ => ⟨rfl, fun _ => rfl, fun _ => rfl⟩
  exact (halves.trans (breaks _)).trans (.updCore _ _ _ fun _ => ⟨rfl, rfl⟩)

/-- A loop buffer that is let go held no word for the group. -/
theorem fetchState_loopWord (s : State) (k : Nat) (pc : Word) (m : Mask) :
    (s.fetchState k pc m).loopWord k pc = s.loopWord k pc := by
  have held : (if s.leavesLoop k pc then s.endLoop k else s).loopWord k pc = s.loopWord k pc := by
    split
    · rename_i out
      rw [loopWord_endLoop out, loopWord_of_leavesLoop out]
    · rfl
  have team : (if s.leavesLoop k pc then s.endLoop k else s).team k = s.team k := by split <;> rfl
  rw [← held]
  refine loopWord_congr (ls := (s.team k).lanes) ?_ ?_
  · rw [team, State.team, fetchState_teams]; rfl
  · refine (pipeLoop_updPipe _ _ _ _ _ _ ?_).trans (pipeLoop_throughL1 (.endHalves _ _) _ _)
    exact fun _ => rfl

end State

/-! The selection of a team. -/

/-- Every lane of a team is where it was. -/
def Team.SamePlaces (t t' : Team) : Prop := ∀ l, l < 32 →
  (t'.lane l).pc = (t.lane l).pc ∧ (t'.lane l).st = (t.lane l).st ∧ (t'.lane l).level = (t.lane l).level

namespace Team.SamePlaces

variable {a b c : Team}

theorem refl (t : Team) : t.SamePlaces t := fun _ _ => ⟨rfl, rfl, rfl⟩
theorem trans (h : a.SamePlaces b) (g : b.SamePlaces c) : a.SamePlaces c := fun l hl => by
  obtain ⟨hpc, hst, hlevel⟩ := h l hl
  obtain ⟨gpc, gst, glevel⟩ := g l hl
  exact ⟨gpc.trans hpc, gst.trans hst, glevel.trans hlevel⟩

theorem mapLanes (t : Team) (p : Nat → Bool) (f : Nat → Lane → Lane)
    (h : ∀ l x, (f l x).pc = x.pc ∧ (f l x).st = x.st ∧ (f l x).level = x.level) : t.SamePlaces (t.mapLanes p f) := by
  intro l hl
  rw [Team.mapLanes_find _ _ _ _ hl]
  split
  · exact h _ _
  · exact ⟨rfl, rfl, rfl⟩

end Team.SamePlaces

namespace State

/-- A team has been picked by its pipe (R42). -/
def pick (s : State) (t : Team) : State := s.updCore t.core fun c =>
  { c with pipes := c.pipes.upd {} t.pipe fun p => { p with last := t.slot } }

/-- As a group issues outside a chain, the yield marks of its team are cleared, the ready lanes that are left gain age,
and a second group may stand for port 2 (R43, R44). -/
def passOver (s : State) (k : Nat) (left : Mask) (two : Option (Nat × Mask × Word)) : State :=
  { (s.updTeam k fun x => x.mapLanes (fun _ => true) fun _ l => { l with yld := false }).bumpAges k left with second := two }

theorem passOver_alike (s : State) (k : Nat) (left : Mask) (two : Option (Nat × Mask × Word)) :
    FetchAlike s (s.passOver k left two) := ⟨rfl, fun _ => rfl, fun _ => rfl⟩

theorem passOver_team (s : State) (k : Nat) (left : Mask) (two : Option (Nat × Mask × Word)) (t : Team)
    (hk : Tbl.find? s.teams k = some t) :
    ∃ t', Tbl.find? (s.passOver k left two).teams k = some t' ∧ t' = { t with lanes := t'.lanes } ∧ t.SamePlaces t' := by
  have cleared : t.SamePlaces (t.mapLanes (fun _ => true) fun _ l => { l with yld := false }) :=
    .mapLanes _ _ _ fun _ _ => ⟨rfl, rfl, rfl⟩
  refine ⟨_, ?_, ?_, cleared.trans (.mapLanes _ (left.getLsbD ·)
    (fun _ l => if l.st == LaneState.running then { l with age := l.age + 1 } else l) fun _ x => ?_)⟩
  · show Tbl.find? ((s.updTeam k _).updTeam k _).teams k = _
    rw [updTeam_find, if_pos rfl, updTeam_find, if_pos rfl, hk]
    rfl
  · rfl
  · split <;> exact ⟨rfl, rfl, rfl⟩

/-- A picked team with no notice due issues the first of its ready groups, in a state in which a fetch gives the same word
and every lane is where it was (R44, R68). -/
theorem select_eq_issueGroup (s : State) (k : Nat) (t : Team) (pc : Word) (m : Mask) (rest : List (Word × Mask))
    (hk : Tbl.find? s.teams k = some t) (quiet : noticeDue t = false)
    (first : orderGroups t ((s.pick t).teamWg k).fpp ((s.pick t).ready k) = (pc, m) :: rest) :
    ∃ s' t', s.select k = s'.issueGroup k pc m 1 ∧ FetchAlike (s.pick t) s' ∧ s'.cores = (s.pick t).cores ∧
      Tbl.find? s'.teams k = some t' ∧ t' = { t with lanes := t'.lanes } ∧ t.SamePlaces t' := by
  have picked : Tbl.find? (s.pick t).teams k = some t := hk
  unfold State.select
  rw [State.team_of_find s k t hk]
  dsimp only
  rw [← State.pick, if_neg (by rw [quiet]; exact Bool.false_ne_true), first]
  dsimp only
  by_cases chain : t.chain.isSome = true
  · rw [if_pos chain]
    exact ⟨_, t, rfl, .refl _, rfl, picked, rfl, .refl t⟩
  · rw [if_neg chain]
    obtain ⟨t', found⟩ := passOver_team (s.pick t) k _ _ t picked
    exact ⟨(s.pick t).passOver k _ _, t', rfl, passOver_alike _ _ _ _, rfl, found⟩

/-- The word that a picked team fetches stands at port 1 with the team's first ready group, and comes to its instruction;
main memory stands. -/
theorem select_of_word (s : State) (k : Nat) (t : Team) (pc : Word) (m : Mask) (rest : List (Word × Mask)) (w : IWord)
    (hk : Tbl.find? s.teams k = some t) (quiet : noticeDue t = false)
    (first : orderGroups t ((s.pick t).teamWg k).fpp ((s.pick t).ready k) = (pc, m) :: rest)
    (word : ((s.pick t).fetch k pc).1 = .word w) :
    ∃ s' t', s.select k = .run (portInstr w) s' ∧
      s'.issue = some { team := k, lanes := m, pc := pc, word := w, port := 1 } ∧ s'.mem = s.mem ∧
      s'.agenda = s.agenda ∧ Tbl.find? s'.teams k = some t' ∧ t' = { t with lanes := t'.lanes, ahead := t'.ahead } ∧
      t.SamePlaces t' := by
  obtain ⟨u, x, select, alike, cores, found, same, places⟩ := select_eq_issueGroup s k t pc m rest hk quiet first
  have picked : (s.pick t).team k = t := team_of_find _ _ _ hk
  have lanes : u.team k = { (s.pick t).team k with lanes := x.lanes } := by
    rw [picked, team_of_find _ _ _ found]; exact same
  have loop : u.loopWord k pc = (s.pick t).loopWord k pc :=
    loopWord_congr lanes (by unfold pipeLoop State.core; rw [cores])
  have alike' := alike.trans (fetchState_alike u k pc m)
  have fetched : ((u.fetchState k pc m).fetch k pc).1 = .word w := by
    rw [alike'.fetch (ls := x.lanes) (by rw [← lanes, State.team, fetchState_teams]; rfl) pc
      ((fetchState_loopWord u k pc m).trans loop), word]
  obtain ⟨ahead, found'⟩ := fetch_team (u.fetchState k pc m) k pc x (by rw [fetchState_teams, found])
  have kept := (fetch_elsewhere (u.fetchState k pc m) k pc).rest
  have mem : ((u.fetchState k pc m).fetch k pc).2.mem = s.mem := by rw [kept, alike'.rest]; rfl
  have agenda : ((u.fetchState k pc m).fetch k pc).2.agenda = s.agenda := by rw [kept, alike'.rest]; rfl
  exact ⟨_, { x with ahead := ahead }, select.trans (issueGroup_of_word u k pc m 1 w fetched), rfl, mem, agenda, found',
    by rw [same], places⟩

end State

/-- A STEP IN WHICH A GROUP ISSUES: with no event and no second group standing, the first ready group of the team that the
pick rules choose stands at port 1 with its word, and the step is what that word comes to there (R40, R42-R46, R92). `u`
is the state in which the pick is made, `s0` the state of the selection. -/
theorem step_of_word (s u s0 : State) (k turn : Nat) (todo : List Nat) (t : Team) (pc : Word) (m : Mask)
    (rest : List (Word × Mask)) (w : IWord) (idle : s.agenda = []) (single : s.second = none)
    (hu : u = s.gangs.keys.foldl State.stopPending s.countStalls) (scan : u.scan u.todo u.turn = some (todo, turn, k))
    (h0 : s0 = { u.passOn todo turn with todo := todo, turn := turn })
    (hk : Tbl.find? s0.teams k = some t) (quiet : State.noticeDue t = false)
    (first : orderGroups t ((s0.pick t).teamWg k).fpp ((s0.pick t).ready k) = (pc, m) :: rest)
    (word : ((s0.pick t).fetch k pc).1 = .word w) :
    ∃ s' t', step s = exec (portInstr w) s' ∧
      s'.issue = some { team := k, lanes := m, pc := pc, word := w, port := 1 } ∧ s'.mem = s.mem ∧ s'.agenda = [] ∧
      Tbl.find? s'.teams k = some t' ∧ t' = { t with lanes := t'.lanes, ahead := t'.ahead } ∧ t.SamePlaces t' := by
  have counted : State.BeforeIssue s s.countStalls := .countStalls s
  have before : State.BeforeIssue s u := hu ▸ counted.trans (.foldl _ State.BeforeIssue.stopPending _ _)
  have passed := before.trans (.passOn u todo turn)
  have gangs : s.countStalls.gangs = s.gangs := by rw [counted]
  have second : u.second = none := by rw [before]; exact single
  have mem : s0.mem = s.mem := by rw [h0]; dsimp only; rw [passed]
  have agenda : s0.agenda = [] := by rw [h0]; dsimp only; rw [passed]; exact idle
  have slot : s.countStalls.nextSlot = s0.select k := by
    unfold State.nextSlot
    rw [gangs, ← hu]
    dsimp only
    rw [second, scan, h0]
  obtain ⟨s', t', select, issue, mem', agenda', found⟩ := s0.select_of_word k t pc m rest w hk quiet first word
  refine ⟨s', t', ?_, issue, mem'.trans mem, agenda'.trans agenda, found⟩
  unfold step
  rw [idle]
  dsimp only
  rw [slot, select]

end Sys2Proof.Machine
end

section
/-!
The statement of 04_formats.md about words that hold no instruction.
-/

open Sys2Proof Sys2Proof.Machine

/-- Settles O53: the decoder's checks in their order, and for a group whose word has an unassigned opcode the step of a
group that issues, whose word comes to the illegal-instruction fault at port 1. -/
theorem unassignedAndReservedRefused : Obligations.UnassignedAndReservedRefused := by
  unfold Obligations.UnassignedAndReservedRefused
  intro w
  refine ⟨decode_of_unassigned w, fun o h hint => ?_, fun o h ty => ?_, fun h => ?_⟩
  · exact decode_of_decodeRaw_error w _ (decodeRaw_of_hint _ o h (hints_low w ▸ hint))
  · exact decode_of_decodeRaw_error w _ (decodeRaw_of_type _ o h ty)
  · intro s k turn todo t pc m rest idle single u scan s0 hk quiet s1 first word
    obtain ⟨s2, t', run, issue, mem, -, found, same, places⟩ :=
      step_of_word s u s0 k turn todo t pc m rest w idle single rfl scan rfl hk quiet first word
    obtain ⟨s', raised, mem', teams⟩ := exec_unassigned s2 _ issue
    refine ⟨s', t', ?_, mem'.trans mem, by rw [teams, found], same, places⟩
    rw [run, portInstr_of_error w _ (decode_of_unassigned w h), raised]
end

section
/-!
SUPPORT. What a word of the integer family comes to (05 R103-R121): the words that deliver values, the words that set
guards, and the moves to a format register.
-/

namespace Sys2Proof

/-- An instruction is the one that its mnemonic and fields name. -/
theorem Instr.ofOp_of_word {i : Instr} {o : Op} {f : Form} (h : i.word? = some (o, f)) : Instr.ofOp o f = i := by
  cases i <;> cases h <;> rfl

end Sys2Proof

namespace Sys2Proof.Machine

/-! The context of a word at issue. -/

@[simp] theorem openChain_f (c : Ctx) : (openChain c).f = c.f := by
  unfold openChain; split <;> rfl

@[simp] theorem issued_f (o : Op) (f : Form) (s : State) (is : Issue) : (issued o f s is).f = f := openChain_f _

/-! Words that deliver. -/

section Delivering

variable {i : Instr} {o : Op} {f : Form} {s : State} {is : Issue} {t : Team} {body : Ctx → Eff}

/-- A word whose own effect is one write to its destination. -/
theorem delivers_of_write {n : Nat} {sg : Bool} {x : Nat → Nat} (hs : Standing s is t) (hc : Clear o f s is)
    (hd : ∀ k, f.d.dst ≠ some (.f k)) (he : exec i s = wordIns o f s body)
    (hb : body (issued o f s is) =
      .go ((issued o f s is).advance ((issued o f s is).write (issued o f s is).s n sg false x))) :
    Delivers i f s is t n sg x t.fpstat := by
  unfold Delivers
  rw [he]
  exact wordIns_put o f s is t body n sg x hs hc hd hb

/-- A word that puts values of its type's width (R104, R105). -/
theorem delivers_of_put {x : Nat → Nat} (hs : Standing s is t) (hc : Clear o f s is)
    (hd : ∀ k, f.d.dst ≠ some (.f k)) (he : exec i s = wordIns o f s body)
    (hb : body (issued o f s is) = (issued o f s is).put x) : Delivers i f s is t f.ty.width f.ty.isS x t.fpstat := by
  rw [Ctx.put, issued_f] at hb
  exact delivers_of_write hs hc hd he hb

/-- A word whose results are exact integers, delivered under its type (R104). -/
theorem delivers_of_arith {y : Nat → Int} (hs : Standing s is t) (hc : Clear o f s is)
    (hd : ∀ k, f.d.dst ≠ some (.f k)) (he : exec i s = wordIns o f s body)
    (hb : body (issued o f s is) = (issued o f s is).arith y) :
    Delivers i f s is t f.ty.width f.ty.isS (fun l => deliver f.ty f.sat (y l)) t.fpstat := by
  rw [Ctx.arith, issued_f] at hb
  exact delivers_of_put hs hc hd he hb

/-- A word that sets the guard of each active lane (R120, R121). -/
theorem delivers_of_setGuard {p : Nat → Bool} (hs : Standing s is t) (hc : Clear o f s is)
    (hd : ∀ k, f.d.dst ≠ some (.f k)) (he : exec i s = wordIns o f s body)
    (hb : body (issued o f s is) = (issued o f s is).setGuard p) :
    Delivers i f s is t 1 false (fun l => if p l then 1 else 0) t.fpstat :=
  delivers_of_write hs hc hd he hb

end Delivering

/-- The six conditions of a comparison as propositions about integers (R106, R120). -/
theorem compareInt_eq (q : Nat) (a b : Int) :
    compareInt q a b = match q with
      | 0 => decide (a = b)
      | 1 => decide (a ≠ b)
      | 2 => decide (a < b)
      | 3 => decide (a ≤ b)
      | 4 => decide (a > b)
      | _ => decide (a ≥ b) := by
  match q with
  | 0 => exact beq_eq_decide a b
  | 1 => rw [decide_not, ← beq_eq_decide]; rfl
  | 2 | 3 | 4 | _ + 5 => rfl

end Sys2Proof.Machine
end

section
/-!
The statement of 05_ins_integer.md about the words that deliver values.
-/

open Sys2Proof Sys2Proof.Machine

/-- Settles O1: each word of the family is a `put` of the values that its rule gives, or an `arith` of its exact results
delivered under the type, and every `put` delivers. -/
theorem integerResults : Obligations.IntegerResults := by
  unfold Obligations.IntegerResults
  intro i o f s is t hw hs hc hd c T n x hx
  cases Instr.ofOp_of_word hw
  cases o with
  | add | sub | mul | mulhi | mad | min | max | abs | neg | shl | sar =>
    cases hx
    apply delivers_of_arith hs hc hd
    · unfold exec; rfl
    · rfl
  | div | rem | and | or | xor | not | shr | rot | bfx | bfi | popc | clz | brev | sel | mov | movi | lea =>
    cases hx
    apply delivers_of_put hs hc hd
    · unfold exec; rfl
    · rfl
  | _ => exact hx.elim
end

section
/-!
SUPPORT. What a move to a format register comes to (R60, R117, R118, R153).
-/

namespace Sys2Proof.Machine

/-! States that differ in a team, caches and counts, and in their workgroups. -/

namespace Elsewhere

variable {k : Nat} {a b : State}

theorem wgs (h : Elsewhere k a b) : b.wgs = a.wgs := by rw [h.rest]

/-- The same with other workgroups in both states. -/
theorem withWgs (h : Elsewhere k a b) (w : Tbl Wg) : Elsewhere k { a with wgs := w } { b with wgs := w } where
  rest := congrArg (fun s : State => { s with wgs := w }) h.rest
  served := h.served
  teams := h.teams
  cores := h.cores
  clusters := h.clusters
  regions := h.regions

end Elsewhere

/-! The state after a word whose own effect is done. -/

theorem Ctx.done_elsewhere (c : Ctx) (s : State) : Elsewhere c.is.team s (c.done s) :=
  (Elsewhere.updTeam ..).trans (finish_elsewhere ..)

/-- The registers of its team stay, and its lanes, which were running, stand at the next instruction. -/
theorem Ctx.done_team (c : Ctx) (s : State) (t : Team) (h : Tbl.find? s.teams c.is.team = some t)
    (runs : ∀ l, l < 32 → c.is.lanes.getLsbD l = true → (t.lane l).st = .running) :
    ∃ t', Tbl.find? (c.done s).teams c.is.team = some t' ∧ t.Kept t' ∧ t.Stepped t' c.is.lanes := by
  have found : Tbl.find? (c.advance s).teams c.is.team = some (t.advance c.is.lanes) := by
    rw [Ctx.advance, State.updTeam_find, if_pos rfl, h]; rfl
  obtain ⟨t', e, kept, lanes⟩ := finish_team c _ _ found
  refine ⟨t', e, Team.Kept.trans (b := t.advance c.is.lanes) rfl kept, fun l hl => ?_⟩
  obtain ⟨pc, st, level, -, -⟩ := lanes l hl
  rw [pc, st, level, Team.advance_lane _ _ _ hl]
  by_cases hm : c.is.lanes.getLsbD l = true
  · simp [hm, runs l hl hm]
  · simp [hm]

/-! Format registers. -/

namespace Wg

variable (w : Wg)

theorem fmt_writeFmt (n j : Nat) (x : BitVec 32) :
    (w.writeFmt n x).fmt j = if j = n then x &&& fmtBits else w.fmt j := by
  rw [fmt, writeFmt, Tbl.get_store]
  simp only [eq_comm, fmt]

theorem fmt_congr {a b : Wg} (h : a.fmts = b.fmts) (j : Nat) : a.fmt j = b.fmt j := by unfold fmt; rw [h]

theorem writeFmt_congr {a b : Wg} (h : a.fmts = b.fmts) (n : Nat) (x : BitVec 32) :
    (a.writeFmt n x).fmts = (b.writeFmt n x).fmts := by unfold writeFmt; rw [h]

/-- A team sees its own write of this cycle at once, and no other team's (R60, R153). -/
theorem seenBy_queueFmt (team n u j : Nat) (x : BitVec 32) :
    ((w.queueFmt team n x).seenBy u).fmt j = if j = n ∧ u = team then x &&& fmtBits else (w.seenBy u).fmt j := by
  have before : (w.fmtsNew.foldl (fun w (t, n, x) => if t = u then w.writeFmt n x else w) (w.queueFmt team n x)).fmts =
      (w.seenBy u).fmts := by
    refine List.foldl_rel (r := fun a b : Wg => a.fmts = b.fmts) rfl fun e _ a b h => ?_
    dsimp only
    split
    · exact writeFmt_congr h _ _
    · exact h
  rw [seenBy, show (w.queueFmt team n x).fmtsNew = w.fmtsNew ++ [(team, n, x)] from rfl, List.foldl_concat]
  dsimp only
  by_cases hu : u = team
  · rw [if_pos hu.symm, fmt_writeFmt, fmt_congr before]
    simp only [hu, and_true]
  · rw [if_neg (Ne.symm hu), if_neg fun h => hu h.2, fmt_congr before]

/-- The write takes effect at the end of the cycle, after those that were issued before it (R60, R153). -/
theorem endFmts_queueFmt (team n j : Nat) (x : BitVec 32) :
    (w.queueFmt team n x).endFmts.fmt j = if j = n then x &&& fmtBits else w.endFmts.fmt j := by
  have before : (w.fmtsNew.foldl (fun w (_, n, x) => w.writeFmt n x) (w.queueFmt team n x)).fmts = w.endFmts.fmts :=
    List.foldl_rel (r := fun a b : Wg => a.fmts = b.fmts) rfl fun _ _ _ _ h => writeFmt_congr h _ _
  have last : (w.queueFmt team n x).endFmts.fmts =
      ((w.fmtsNew.foldl (fun w (_, n, x) => w.writeFmt n x) (w.queueFmt team n x)).writeFmt n x).fmts := by
    rw [endFmts, show (w.queueFmt team n x).fmtsNew = w.fmtsNew ++ [(team, n, x)] from rfl, List.foldl_concat]
  rw [fmt_congr last, fmt_writeFmt, fmt_congr before]

end Wg

/-! The write of a format register. -/

/-- The latches of a destination stand in the open chain. -/
theorem Ctx.latched_eq (c : Ctx) (n : Nat) (vs : Bool) (x : Nat → Nat) (t : Team) :
    c.latched n vs x t = { t with chain := (c.latched n vs x t).chain } := by
  unfold Ctx.latched
  split
  · generalize c.lanes = ls
    induction ls generalizing t with
    | nil => rfl
    | cons l ls ih => rw [List.foldl_cons, ih]; rfl
  · rfl

/-- `write` where the destination is a format register: with an active lane its workgroup queues the value of the lowest
(R117); no register of the team changes. -/
theorem Ctx.write_fmt (c : Ctx) (s : State) (n : Nat) (sg : Bool) (x : Nat → Nat) (t : Team) (k : BitVec 4)
    (h : Tbl.find? s.teams c.is.team = some t) (hd : c.f.d.dst = some (.f k)) :
    let s' := c.write s n sg false x
    (∃ ch, Tbl.find? s'.teams c.is.team = some { t with chain := ch }) ∧
      Elsewhere c.is.team { s with wgs := s'.wgs } s' ∧
      s'.wgs = if c.active = 0 then s.wgs else
        s.wgs.updIf c.t.wg fun w => w.queueFmt c.is.team k.toNat (BitVec.ofNat 32 (x c.low)) := by
  dsimp only
  unfold Ctx.write Ctx.wroteFmt Ctx.wrote
  simp only [hd]
  split
  · exact ⟨⟨t.chain, h⟩, .refl .., rfl⟩
  · refine ⟨⟨(c.latched n false x t).chain, ?_⟩, ?_, rfl⟩
    · rw [State.updWg_teams, State.updTeam_find, if_pos rfl, h, ← c.latched_eq n false x t]; rfl
    · exact (Elsewhere.updTeam ..).withWgs _

/-- The context in which the own effect of a standing group's word takes place. -/
theorem issued_spec (o : Op) (f : Form) {s : State} {is : Issue} {t : Team} (hs : Standing s is t) :
    (issued o f s is).is = is ∧ (issued o f s is).active = activeMask t is.lanes f.h ∧
      (∃ ch, (issued o f s is).t = { t with chain := ch }) ∧
      Tbl.find? (issued o f s is).s.teams is.team = some (issued o f s is).t ∧ Elsewhere is.team s (issued o f s is).s := by
  have team := ctxOf_team o f s is t hs
  obtain ⟨eis, -, act, -, -, found, chain, elsewhere⟩ :=
    openChain_spec (ctxOf o f s is) (by rw [team]; exact hs.team)
  rw [team] at chain
  refine ⟨eis, act.trans ?_, ⟨_, chain⟩, found, elsewhere⟩
  show activeMask (ctxOf o f s is).t is.lanes f.h = _
  rw [team]

/-- A word answers a next state in which its group stands at the next instruction and its workgroup `w` has queued the value
`x` for format register `k`, where a lane was active; of its team no register has changed (R60, R117, R153). -/
def MovesFormat (i : Instr) (f : Form) (s : State) (is : Issue) (t : Team) (k : BitVec 4) (w : Wg) (x : BitVec 32) : Prop :=
  ∃ s' t' w', exec i s = .next s' ∧ Elsewhere is.team { s with wgs := s'.wgs } s' ∧
    Tbl.find? s'.teams is.team = some t' ∧ t.Kept t' ∧ t.Stepped t' is.lanes ∧
    (∀ j, j ≠ t.wg → Tbl.find? s'.wgs j = Tbl.find? s.wgs j) ∧ Tbl.find? s'.wgs t.wg = some w' ∧
    w' = if activeMask t is.lanes f.h = 0 then w else w.queueFmt is.team k.toNat x

/-- A word that puts values in a format register moves the value of the lowest active lane. -/
theorem movesFormat_of_put {i : Instr} {o : Op} {f : Form} {s : State} {is : Issue} {t : Team} {body : Ctx → Eff}
    {k : BitVec 4} {w : Wg} {y : Nat → Nat} {v : Nat} (hs : Standing s is t) (hc : Clear o f s is) (hd : f.d.dst = some (.f k))
    (hw : Tbl.find? s.wgs t.wg = some w) (he : exec i s = wordIns o f s body)
    (hb : body (issued o f s is) = (issued o f s is).put y) (hv : v = y (issued o f s is).low) :
    MovesFormat i f s is t k w (BitVec.ofNat 32 v) := by
  subst hv
  have next := he.trans (wordIns_go o f s _ is body hs.port hc hb)
  have hd' : (issued o f s is).f.d.dst = some (.f k) := by rw [issued_f]; exact hd
  obtain ⟨eis, act, ⟨ch, team⟩, found, opened⟩ := issued_spec o f hs
  generalize issued o f s is = c at *
  subst eis
  rw [team] at found
  obtain ⟨⟨ch', found'⟩, written, wgs⟩ := c.write_fmt c.s c.f.ty.width c.f.ty.isS y _ k found hd'
  obtain ⟨t', found'', kept, stepped⟩ := c.done_team _ _ found' hs.runs
  have finished := c.done_elsewhere (c.write c.s c.f.ty.width c.f.ty.isS false y)
  rw [act, opened.wgs, team] at wgs
  have wgs' := finished.wgs.trans wgs
  refine ⟨_, t', _, next, ?_, found'', Team.Kept.trans (b := { t with chain := ch' }) rfl kept, stepped, ?_, ?_, rfl⟩
  · show Elsewhere _ { s with wgs := (c.done _).wgs } (c.done _)
    rw [finished.wgs]
    exact ((opened.withWgs _).trans written).trans finished
  · intro j hj
    show Tbl.find? (c.done _).wgs j = _
    rw [wgs']
    split
    · rfl
    · rw [Tbl.find?_updIf, if_neg (Ne.symm hj)]
  · show Tbl.find? (c.done _).wgs t.wg = _
    rw [wgs']
    split
    · exact hw
    · rw [Tbl.find?_updIf, if_pos rfl, hw]; rfl

end Sys2Proof.Machine
end

section
/-!
The statement of 05_ins_integer.md about guards and format registers.
-/

open Sys2Proof Sys2Proof.Machine

/-- Settles O2: each guard word sets the guard that its rule gives; a move to a format register is queued in its workgroup,
where its team sees it from now on and the others from the end of the cycle. -/
theorem guardAndFormatRegisterResults : Obligations.GuardAndFormatRegisterResults := by
  unfold Obligations.GuardAndFormatRegisterResults
  constructor
  · intro i o f s is t hw hs hc hd c p hp
    cases Instr.ofOp_of_word hw
    cases o with
    | cmp =>
      have hp' : p = fun l => compareInt f.q3 (c.ia l) (c.ib l) := hp.trans (funext fun l => (compareInt_eq _ _ _).symm)
      cases hp'
      apply delivers_of_setGuard hs hc hd
      · unfold exec; rfl
      · rfl
    | gand | gor | gxor | gnot | gmov =>
      cases hp
      apply delivers_of_setGuard hs hc hd
      · unfold exec; rfl
      · rfl
    | gset =>
      have hp' : p = fun l => match f.a with
          | .s _ | .int _ => (c.src f.a false l).getLsbD l
          | _ => c.u32 f.a l != 0 := by
        refine hp.trans (funext fun l => ?_)
        cases f.a with
        | s | int => rfl
        | _ => dsimp only; rw [decide_not, ← beq_eq_decide]; rfl
      cases hp'
      apply delivers_of_setGuard hs hc hd
      · unfold exec; rfl
      · rfl
    | _ => exact hp.elim
  · intro i o f s is t k w hw ho hs hc hd hwg c x
    have moved : MovesFormat i f s is t k w x := by
      cases Instr.ofOp_of_word hw
      obtain rfl | rfl := ho
      · apply movesFormat_of_put hs hc hd hwg
        · unfold exec; rfl
        · rfl
        · exact if_pos rfl
      · apply movesFormat_of_put hs hc hd hwg
        · unfold exec; rfl
        · rfl
        · exact if_neg (by decide)
    obtain ⟨s', t', w', next, elsewhere, team, kept, stepped, others, own, queued⟩ := moved
    refine ⟨s', t', w', next, elsewhere, team, kept, stepped, others, own, ?_⟩
    by_cases idle : activeMask t is.lanes f.h = 0
    · rw [if_pos idle] at queued
      subst queued
      simp [idle]
    · rw [if_neg idle] at queued
      subst queued
      have on : decide (activeMask t is.lanes f.h ≠ 0) = true := decide_eq_true idle
      refine ⟨rfl, fun u j => ?_, fun j => ?_⟩
      · simp only [Wg.seenBy_queueFmt, on, true_and]
      · simp only [Wg.endFmts_queueFmt, on, true_and]
end

section
/-!
SUPPORT. Masks of the lanes that satisfy a test, and the answer of a word by the outcome of its own effect (R28, R43, R93).
-/

namespace Sys2Proof.Machine

/-! The mask of a test. -/

@[simp] theorem getLsbD_maskBy (p : Nat → Bool) {l : Nat} (hl : l < 32) : (maskBy p).getLsbD l = p l := by
  have bits : ∀ (ls : List Nat) (m : Mask), (ls.foldl (fun m l => if p l then m ||| (1#32 <<< l) else m) m).getLsbD l =
      (m.getLsbD l || decide (l ∈ ls) && p l) := by
    intro ls
    induction ls with
    | nil => simp
    | cons j ls ih =>
      intro m
      rw [List.foldl_cons, ih]
      by_cases hj : j = l
      · subst hj
        cases hp : p j <;> simp [hl]
      · have other : (1#32 <<< j).getLsbD l = false := by
          rw [← BitVec.twoPow_eq, BitVec.getLsbD_twoPow, decide_eq_false hj, Bool.and_false]
        cases hp : p j <;> simp [Ne.symm hj, other]
  rw [maskBy, bits]
  simp [mem_allLanes, hl]

theorem maskBy_congr {p q : Nat → Bool} (h : ∀ l, l < 32 → p l = q l) : maskBy p = maskBy q := by
  apply BitVec.eq_of_getLsbD_eq
  intro l hl
  rw [getLsbD_maskBy p hl, getLsbD_maskBy q hl, h l hl]

theorem maskBy_eq_zero {p : Nat → Bool} (h : ∀ l, l < 32 → p l = false) : maskBy p = 0 := by
  apply BitVec.eq_of_getLsbD_eq
  intro l hl
  rw [getLsbD_maskBy p hl, h l hl, BitVec.ofNat_eq_ofNat, BitVec.getLsbD_zero]

/-- An active lane belongs to the group (R28). -/
theorem lanes_of_activeMask {t : Team} {lanes : Mask} {h : Hdr} {l : Nat}
    (active : (activeMask t lanes h).getLsbD l = true) : lanes.getLsbD l = true := by
  simp only [activeMask, BitVec.getLsbD_and, Bool.and_eq_true] at active
  exact active.1.1

/-- A lane waits where no stop keeps its wait from completing (R41, R400, R407). -/
theorem Team.getLsbD_waiters {t : Team} {p : Wait → Bool} {w : Wait} {l : Nat} (hl : l < 32)
    (waits : (t.lane l).st = .waiting) (what : (t.lane l).wait = some w) (free : t.parked l = false)
    (goes : t.stopping = false) : (t.waiters p).getLsbD l = p w := by
  rw [Team.waiters, getLsbD_maskBy _ hl]
  simp [waits, what, free, goes]

/-- Lanes that were running stand at the next instruction after an advance (R41). -/
theorem Team.stepped_advance {t : Team} {m : Mask}
    (runs : ∀ l, l < 32 → m.getLsbD l = true → (t.lane l).st = .running) : t.Stepped (t.advance m) m := by
  intro l hl
  rw [Team.advance_lane _ _ _ hl]
  by_cases hm : m.getLsbD l = true
  · simp [hm, runs l hl hm]
  · simp [hm]

/-! The answer of a word. -/

section Answers

variable {o : Op} {f : Form} {s : State} {is : Issue} {t : Team} {body : Ctx → Eff}

/-- A word whose own effect faults: the exception is taken in the state as its chain stands, and its issue counts. -/
theorem wordIns_trap {fi : FaultInfo} (hp : s.issue = some is) (hc : Clear o f s is)
    (hb : body (issued o f s is) = .trap fi) :
    wordIns o f s body = .next (countIssue (issued o f s is)
      ((issued o f s is).s.raise is.team is.lanes is.pc is.word fi true)) := by
  have clear : wordFault (ctxOf o f s is) = none := hc
  have faults : body (openChain (ctxOf o f s is)) = .trap fi := hb
  unfold wordIns
  rw [hp]
  dsimp only
  rw [clear]
  dsimp only
  rw [faults]
  rfl

/-- An answer in which team `k` is `u` but for the words fetched ahead, the chain, the skid and its lanes' ages and hints,
and nothing else of the machine has changed but caches and counts. -/
def AnswersTeam (r : Res) (s : State) (k : Nat) (u : Team) : Prop :=
  ∃ s' t', r = .next s' ∧ Tbl.find? s'.teams k = some t' ∧ Elsewhere k s s' ∧ u.Kept t' ∧
    ∀ l, l < 32 → (t'.lane l).pc = (u.lane l).pc ∧ (t'.lane l).st = (u.lane l).st ∧
      (t'.lane l).level = (u.lane l).level ∧ (t'.lane l).wait = (u.lane l).wait

/-- A word whose own effect takes its team to `u` and leaves the other teams alone. -/
theorem wordIns_team {s1 : State} {u : Team} (hs : Standing s is t) (hc : Clear o f s is)
    (hb : body (issued o f s is) = .go s1) (own : Elsewhere is.team (issued o f s is).s s1)
    (hu : Tbl.find? s1.teams is.team = some u) :
    AnswersTeam (wordIns o f s body) s is.team u := by
  obtain ⟨eis, -, -, -, opened⟩ := issued_spec o f hs
  have finished := finish_elsewhere (issued o f s is) s1
  obtain ⟨t', found, kept, lanes⟩ := finish_team (issued o f s is) s1 u (by rw [eis]; exact hu)
  rw [eis] at found finished
  refine ⟨_, t', wordIns_go o f s s1 is body hs.port hc hb, found, (opened.trans own).trans finished, kept, fun l hl => ?_⟩
  obtain ⟨pc, st, level, wait, -⟩ := lanes l hl
  exact ⟨pc, st, level, wait⟩

end Answers

end Sys2Proof.Machine
end

section
/-!
SUPPORT. Convergence regions: tokens written lane by lane, the fault of a level count, and the close of a level (R64,
R125-R127).
-/

namespace Sys2Proof.Machine

/-! Tokens. -/

/-- The token that `conv.open` writes: the PC as OPENER, and pass 0 (R64, R125). -/
theorem openedToken_eq (pc : Word) : pc <<< 8 = pc.extractLsb' 0 24 ++ 0#8 :=
  BitVec.shiftLeft_eq_concat_of_lt (by decide)

/-- The token after `conv.next`: its PASS raised modulo 256 (R64, R126). -/
def raisePass (x : Word) : Word := x.extractLsb' 8 24 ++ (x.extractLsb' 0 8 + 1)

/-- A team that differs from another in the lanes of a list alone: each of them goes from its level k to `up k`, and the
token of that level from x to `g x` (R64, R125, R126). -/
def Team.Tokened (t t' : Team) (ls : List Nat) (up : Nat → Nat) (g : Word → Word) : Prop :=
  t' = { t with lanes := t'.lanes, v := t'.v } ∧
  ∀ l, l < 32 → t'.lane l = (if l ∈ ls then { t.lane l with level := up (t.lane l).level } else t.lane l) ∧
    ∀ r, t'.readV r l = if l ∈ ls ∧ r = t.vregs - up (t.lane l).level then g (t.readV r l) else t.readV r l

theorem Team.readV_setToken (t : Team) (k r : Nat) (x : Word) {l j : Nat} (hl : l < 32) (hj : j < 32) :
    (t.setToken k l x).readV r j = if j = l ∧ r = t.vregs - k then x else t.readV r j := by
  rw [Team.setToken, Team.readV_writeV _ _ _ _ _ _ hl hj]
  simp only [eq_comm, and_comm]

/-- A step that writes the token of the lane it is given, folded over distinct lanes, writes the token of each. -/
theorem Team.Tokened.foldl {up : Nat → Nat} {g : Word → Word} {step : Team → Nat → Team}
    (one : ∀ (u : Team) l, l < 32 → u.Tokened (step u l) [l] up g) (ls : List Nat) (distinct : ls.Nodup)
    (lanes : ∀ l ∈ ls, l < 32) (t : Team) : t.Tokened (ls.foldl step t) ls up g := by
  induction ls generalizing t with
  | nil => exact ⟨rfl, fun l _ => ⟨by simp, fun r => by simp⟩⟩
  | cons a ls ih =>
    obtain ⟨notIn, distinct'⟩ := List.nodup_cons.mp distinct
    obtain ⟨same, first⟩ := one t a (lanes a List.mem_cons_self)
    obtain ⟨same', rest⟩ := ih distinct' (fun l h => lanes l (List.mem_cons_of_mem _ h)) (step t a)
    have vregs : (step t a).vregs = t.vregs := by rw [same]
    refine ⟨by rw [List.foldl_cons, same', same], fun l hl => ?_⟩
    obtain ⟨lane, reads⟩ := first l hl
    obtain ⟨lane', reads'⟩ := rest l hl
    rw [lane] at lane'
    simp only [reads, lane, vregs] at reads'
    by_cases h : l = a
    · subst h
      simpa [notIn] using And.intro lane' reads'
    · simpa [h] using And.intro lane' reads'

theorem Team.Tokened.places {t u : Team} {ls : List Nat} {up : Nat → Nat} {g : Word → Word} (h : t.Tokened u ls up g)
    {l : Nat} (hl : l < 32) : (u.lane l).st = (t.lane l).st ∧ (u.lane l).pc = (t.lane l).pc ∧
      (u.lane l).level = if l ∈ ls then up (t.lane l).level else (t.lane l).level := by
  obtain ⟨lane, -⟩ := h.2 l hl
  rw [lane]
  split
  · exact ⟨rfl, rfl, rfl⟩
  · exact ⟨rfl, rfl, rfl⟩

/-- The steps of `conv.open` and of `conv.next` in one lane (R125, R126). -/
theorem Team.tokened_open (pc : Word) (u : Team) (l : Nat) (hl : l < 32) :
    u.Tokened ((u.setToken ((u.lane l).level + 1) l (pc <<< 8)).mapLanes (· == l) fun _ x =>
      { x with level := (u.lane l).level + 1 }) [l] (· + 1) fun _ => pc <<< 8 := by
  refine ⟨rfl, fun j hj => ⟨?_, fun r => ?_⟩⟩
  · rw [Team.mapLanes_find _ _ _ _ hj]
    by_cases h : j = l
    · subst h; simp [Team.setToken, Team.writeV, Team.lane]
    · simp [h, Team.setToken, Team.writeV, Team.lane]
  · refine (u.readV_setToken _ r _ hl hj).trans ?_
    by_cases h : j = l
    · subst h; simp
    · simp [h]

theorem Team.tokened_next (g : Word → Word) (u : Team) (l : Nat) (hl : l < 32) :
    u.Tokened (u.setToken (u.lane l).level l (g (u.token (u.lane l).level l))) [l] id g := by
  refine ⟨rfl, fun j hj => ⟨?_, fun r => ?_⟩⟩
  · simp [Team.setToken, Team.writeV, Team.lane]
  · rw [u.readV_setToken _ r _ hl hj]
    by_cases h : j = l ∧ r = u.vregs - (u.lane l).level
    · obtain ⟨rfl, rfl⟩ := h
      simp [Team.token]
    · rw [if_neg h, if_neg]
      rintro ⟨mem, hr⟩
      obtain rfl := List.mem_singleton.mp mem
      exact h ⟨rfl, hr⟩

/-! Waiting at a close. -/

theorem Team.await_lane (t : Team) (m : Mask) (w : Nat → Wait) (l : Nat) (hl : l < 32) : (t.await m w).lane l =
    if m.getLsbD l then { t.lane l with st := .waiting, age := 0, wait := some (w l) } else t.lane l :=
  Team.mapLanes_find _ _ _ _ hl

/-- The close that a lane waits for at a `conv.close`: the OPENER of its innermost token and the tokens outside
(R127). -/
def Team.closeWait (t : Team) (l : Nat) : Wait :=
  .close ((t.token (t.lane l).level l).extractLsb' 8 24) ((t.presents l).take ((t.lane l).level - 1))

theorem Team.closeWait_congr {a b : Team} {l : Nat} (lane : a.lane l = b.lane l) (v : a.v = b.v) (n : a.vregs = b.vregs) :
    a.closeWait l = b.closeWait l := by
  unfold Team.closeWait Team.presents Team.token Team.readV
  rw [lane, v, n]

/-- The lanes of a group at its `conv.close`: the active ones wait for their close, the others go on (R127). -/
def Team.waitClose (t : Team) (m active : Mask) : Team :=
  (t.advance (m &&& ~~~active)).await active (t.advance (m &&& ~~~active)).closeWait

theorem Team.waitClose_lane (t : Team) (m active : Mask) (l : Nat) (hl : l < 32) : (t.waitClose m active).lane l =
    if active.getLsbD l then { t.lane l with st := .waiting, age := 0, wait := some (t.closeWait l) }
    else (t.advance m).lane l := by
  rw [Team.waitClose, Team.await_lane _ _ _ _ hl]
  have bit : (m &&& ~~~active).getLsbD l = (m.getLsbD l && !active.getLsbD l) := by simp [hl]
  cases h : active.getLsbD l with
  | true =>
    have stays : (t.advance (m &&& ~~~active)).lane l = t.lane l := by simp [Team.advance_lane _ _ _ hl, bit, h]
    rw [Team.closeWait_congr stays rfl rfl, stays, if_pos rfl, if_pos rfl]
  | false => simp [Team.advance_lane _ _ _ hl, bit, h]

/-! The words. -/

section Words

variable {o : Op} {f : Form} {s : State} {is : Issue} {t : Team} {body : Ctx → Eff}

/-- What a word about tokens answers: each active lane goes from its level k to `up k` and the token of that level from x to
`g x`, the group stands at the next instruction, and no other register changes. -/
def Retokens (r : Res) (f : Form) (s : State) (is : Issue) (t : Team) (up : Nat → Nat) (g : Word → Word) : Prop :=
  ∃ s' t', r = .next s' ∧ Tbl.find? s'.teams is.team = some t' ∧ Elsewhere is.team s s' ∧
    t' = { t with lanes := t'.lanes, chain := t'.chain, ahead := t'.ahead, skid := t'.skid, v := t'.v } ∧
    ∀ l, l < 32 → (t'.lane l).st = (t.lane l).st ∧
      (t'.lane l).pc = (if is.lanes.getLsbD l then is.pc + 1 else (t.lane l).pc) ∧
      (t'.lane l).level = (if (activeMask t is.lanes f.h).getLsbD l then up (t.lane l).level else (t.lane l).level) ∧
      ∀ r, t'.readV r l =
        if (activeMask t is.lanes f.h).getLsbD l ∧ r = t.vregs - up (t.lane l).level then g (t.token (up (t.lane l).level) l)
        else t.readV r l

theorem retokens_of_fold {up : Nat → Nat} {g : Word → Word} {step : Team → Nat → Team} (hs : Standing s is t)
    (hc : Clear o f s is)
    (hb : body (issued o f s is) = .go ((issued o f s is).advance ((issued o f s is).s.updTeam (issued o f s is).is.team
      fun t => (issued o f s is).lanes.foldl step t)))
    (one : ∀ (u : Team) l, l < 32 → u.Tokened (step u l) [l] up g) : Retokens (wordIns o f s body) f s is t up g := by
  obtain ⟨eis, act, ⟨ch, team⟩, found, -⟩ := issued_spec o f hs
  have isLane : ∀ l, l < 32 → (l ∈ (issued o f s is).lanes ↔ (activeMask t is.lanes f.h).getLsbD l = true) := by
    intro l hl
    rw [Ctx.lanes, mem_lanesOf, act]
    exact and_iff_right hl
  have tokens := Team.Tokened.foldl one (issued o f s is).lanes (lanesOf_nodup _)
    (fun l h => ((mem_lanesOf _ l).mp h).1) (issued o f s is).t
  rw [team] at tokens found
  generalize foldTeam : (issued o f s is).lanes.foldl step { t with chain := ch } = u at tokens
  rw [Ctx.advance, eis] at hb
  obtain ⟨s', t', next, found', elsewhere, kept, lanes⟩ := wordIns_team (u := u.advance is.lanes) hs hc hb
    ((Elsewhere.updTeam ..).trans (.updTeam ..))
    (by rw [State.updTeam_find, if_pos rfl, State.updTeam_find, if_pos rfl, found, ← foldTeam]; rfl)
  have kept' : t' = { u with lanes := t'.lanes, chain := t'.chain, ahead := t'.ahead, skid := t'.skid } := kept
  have regs : t'.v = u.v := by rw [kept']
  have runs : ∀ l, l < 32 → is.lanes.getLsbD l = true → (u.lane l).st = .running := fun l hl hm =>
    (tokens.places hl).1.trans (hs.runs l hl hm)
  refine ⟨s', t', next, found', elsewhere, by rw [kept', tokens.1], fun l hl => ?_⟩
  obtain ⟨st, pc, level⟩ := tokens.places hl
  obtain ⟨pc', st', level'⟩ := Team.stepped_advance runs l hl
  obtain ⟨pc'', st'', level'', -⟩ := lanes l hl
  refine ⟨st''.trans (st'.trans st), ?_, ?_, fun r => ?_⟩
  · rw [pc'', pc', pc]
    by_cases hm : is.lanes.getLsbD l = true
    · rw [if_pos hm, if_pos hm, ← hs.at_ l hl hm]; rfl
    · rw [if_neg hm, if_neg hm]; rfl
  · rw [level'', level', level, ite_cond_congr (propext (isLane l hl))]; rfl
  · have read : t'.readV r l = u.readV r l := by unfold Team.readV; rw [regs]
    obtain ⟨-, reads⟩ := tokens.2 l hl
    simp only [isLane l hl] at reads
    rw [read, reads r]
    by_cases h : (activeMask t is.lanes f.h).getLsbD l = true ∧ r = t.vregs - up (t.lane l).level
    · rw [if_pos h, h.2]; exact if_pos ⟨h.1, rfl⟩
    · rw [if_neg h]; exact if_neg h

/-! Levels that a word does not find. -/

theorem Ctx.levelFault_none {c : Ctx} {sub : Nat} {bad : Nat → Bool} {k : Eff}
    (h : ∀ l, l < 32 → c.active.getLsbD l = true → bad (c.t.lane l).level = false) : c.levelFault sub bad k = k := by
  have no : (maskBy fun l => c.active.getLsbD l && bad (c.t.lane l).level) = 0 := by
    refine maskBy_eq_zero fun l hl => ?_
    cases active : c.active.getLsbD l with
    | false => rfl
    | true => exact h l hl active
  exact if_neg (by rw [no]; decide)

/-- An answer that is the fault of a level count in the lanes of a mask, taken in the state as the word's chain stands. -/
def FaultsLevel (r : Res) (o : Op) (f : Form) (s : State) (is : Issue) (sub : Nat) (m : Mask) : Prop :=
  r = .next (countIssue (issued o f s is) ((issued o f s is).s.raise is.team is.lanes is.pc is.word
    { cause := 9, sub := sub, mask := m } true))

/-- The fault names the active lanes whose level fails (R125, R126). -/
theorem wordIns_levelFault {sub : Nat} {bad : Nat → Bool} {k : Eff} (hs : Standing s is t) (hc : Clear o f s is)
    (hb : body (issued o f s is) = (issued o f s is).levelFault sub bad k) {m : Mask}
    (hm : m = maskBy fun l => (issued o f s is).active.getLsbD l && bad (t.lane l).level) (fails : m ≠ 0) :
    FaultsLevel (wordIns o f s body) o f s is sub m := by
  obtain ⟨-, -, ⟨ch, team⟩, -, -⟩ := issued_spec o f hs
  have hm' : (maskBy fun l => (issued o f s is).active.getLsbD l && bad ((issued o f s is).t.lane l).level) = m := by
    rw [hm, team]; rfl
  refine wordIns_trap hs.port hc (hb.trans ?_)
  unfold Ctx.levelFault
  rw [hm']
  exact if_pos (bne_iff_ne.mpr fails)

/-! `conv.open` and `conv.next`. -/

theorem execConvOpen_retokens (hs : Standing s is t) (hc : Clear .convOpen f s is)
    (room : ∀ l, l < 32 → (activeMask t is.lanes f.h).getLsbD l = true → (t.lane l).level < t.depth) :
    Retokens (execConvOpen f s) f s is t (· + 1) fun _ => is.pc.extractLsb' 0 24 ++ 0#8 := by
  obtain ⟨eis, act, ⟨ch, team⟩, -, -⟩ := issued_spec .convOpen f hs
  refine retokens_of_fold hs hc (Ctx.levelFault_none fun l hl active => ?_) fun u l hl => ?_
  · rw [team]; exact decide_eq_false (Nat.not_le.mpr (room l hl (act ▸ active)))
  · rw [eis, ← openedToken_eq]; exact u.tokened_open is.pc l hl

theorem execConvNext_retokens (hs : Standing s is t) (hc : Clear .convNext f s is)
    (inside : ∀ l, l < 32 → (activeMask t is.lanes f.h).getLsbD l = true → (t.lane l).level ≠ 0) :
    Retokens (execConvNext f s) f s is t id raisePass := by
  obtain ⟨-, act, ⟨ch, team⟩, -, -⟩ := issued_spec .convNext f hs
  refine retokens_of_fold hs hc (Ctx.levelFault_none fun l hl active => ?_) fun u l hl => ?_
  · rw [team]; exact beq_false_of_ne (inside l hl (act ▸ active))
  · exact u.tokened_next raisePass l hl

/-! Their faults, and that of `conv.close`. -/

theorem execConvOpen_fault {m : Mask} (hs : Standing s is t) (hc : Clear .convOpen f s is)
    (hm : m = maskBy fun l => (issued .convOpen f s is).active.getLsbD l && decide (t.depth ≤ (t.lane l).level))
    (fails : m ≠ 0) : FaultsLevel (execConvOpen f s) .convOpen f s is 0 m := by
  obtain ⟨-, -, ⟨ch, team⟩, -, -⟩ := issued_spec .convOpen f hs
  refine wordIns_levelFault hs hc rfl ?_ fails
  rw [team]; exact hm

theorem execConvNext_fault {m : Mask} (hs : Standing s is t) (hc : Clear .convNext f s is)
    (hm : m = maskBy fun l => (issued .convNext f s is).active.getLsbD l && (t.lane l).level == 0)
    (fails : m ≠ 0) : FaultsLevel (execConvNext f s) .convNext f s is 1 m :=
  wordIns_levelFault hs hc rfl hm fails

theorem execConvClose_fault {m : Mask} (hs : Standing s is t) (hc : Clear .convClose f s is)
    (hm : m = maskBy fun l => (issued .convClose f s is).active.getLsbD l && (t.lane l).level == 0)
    (fails : m ≠ 0) : FaultsLevel (execConvClose f s) .convClose f s is 1 m :=
  wordIns_levelFault hs hc rfl hm fails

/-! `conv.close` and its completion. -/

/-- The active lanes wait for their close where they stand, and the other lanes of the group go on (R127). -/
theorem execConvClose_waits (hs : Standing s is t) (hc : Clear .convClose f s is)
    (inside : ∀ l, l < 32 → (activeMask t is.lanes f.h).getLsbD l = true → (t.lane l).level ≠ 0) :
    ∃ s' t', execConvClose f s = .next s' ∧ Tbl.find? s'.teams is.team = some t' ∧ Elsewhere is.team s s' ∧ t.Kept t' ∧
      ∀ l, l < 32 → (t'.lane l).level = (t.lane l).level ∧
        if (activeMask t is.lanes f.h).getLsbD l then
          (t'.lane l).st = .waiting ∧ (t'.lane l).pc = is.pc ∧ (t'.lane l).wait = some (t.closeWait l)
        else (t'.lane l).st = (t.lane l).st ∧
          (t'.lane l).pc = if is.lanes.getLsbD l then is.pc + 1 else (t.lane l).pc := by
  obtain ⟨eis, act, ⟨ch, team⟩, found, -⟩ := issued_spec .convClose f hs
  have old : ∀ l, (issued .convClose f s is).t.lane l = t.lane l := fun l => by rw [team]; rfl
  have inside' : ∀ l, l < 32 → (issued .convClose f s is).active.getLsbD l = true →
      (((issued .convClose f s is).t.lane l).level == 0) = false := fun l hl h => by
    rw [old]; exact beq_false_of_ne (inside l hl (act ▸ h))
  have answer : AnswersTeam (execConvClose f s) s is.team
      ((issued .convClose f s is).t.waitClose is.lanes (activeMask t is.lanes f.h)) := by
    refine wordIns_team hs hc (Ctx.levelFault_none inside') ?_ ?_
    · rw [eis]; exact .updTeam ..
    · rw [eis, act, State.updTeam_find, if_pos rfl, found]; rfl
  obtain ⟨s', t', next, found', elsewhere, kept, lanes⟩ := answer
  refine ⟨s', t', next, found', elsewhere, Team.Kept.trans ?_ kept, fun l hl => ?_⟩
  · rw [team]; rfl
  · have wait' : (issued .convClose f s is).t.closeWait l = t.closeWait l :=
      Team.closeWait_congr (old l) (by rw [team]) (by rw [team])
    obtain ⟨pc, st, level, wait⟩ := lanes l hl
    have runs : ∀ l, l < 32 → is.lanes.getLsbD l = true → ((issued .convClose f s is).t.lane l).st = .running :=
      fun l hl hm => by rw [old]; exact hs.runs l hl hm
    rw [Team.waitClose_lane _ _ _ _ hl, wait'] at pc st level wait
    cases active : (activeMask t is.lanes f.h).getLsbD l with
    | true =>
      rw [active, if_pos rfl, old] at pc st level wait
      exact ⟨level, st, pc.trans (hs.at_ l hl (lanes_of_activeMask active)), wait⟩
    | false =>
      obtain ⟨pc', st', level'⟩ := Team.stepped_advance runs l hl
      simp only [active, Bool.false_eq_true, if_false, pc', st', level', old] at pc st level ⊢
      refine ⟨level, st, pc.trans ?_⟩
      by_cases hm : is.lanes.getLsbD l = true
      · rw [if_pos hm, if_pos hm, hs.at_ l hl hm]
      · rw [if_neg hm, if_neg hm]

end Words

/-- The members of a close of `k` levels (R127). -/
def State.closeMembers (t : Team) (k : Nat) (opener : BitVec 24) (outer : List Word) : Mask :=
  maskBy fun l => (State.partners t).getLsbD l && State.closeMember t k opener outer l

/-- Members that wait drop to level `k` and go on; no other lane moves (R127). -/
def Team.closed (t : Team) (members : Mask) (k : Nat) : Team :=
  (t.mapLanes (members.getLsbD ·) fun _ y => { y with level := k }).advance members

theorem Team.closed_lane_member {t : Team} {members : Mask} {l : Nat} (k : Nat) (hl : l < 32)
    (member : members.getLsbD l = true) (waits : (t.lane l).st = .waiting) : (t.closed members k).lane l =
      { t.lane l with level := k, pc := (t.lane l).pc + 1, st := .running, wait := none, hold := none } := by
  rw [Team.closed, Team.advance_lane _ _ _ hl, Team.mapLanes_find _ _ _ _ hl]
  simp [member, waits]

theorem Team.closed_lane_other {t : Team} {members : Mask} {l : Nat} (k : Nat) (hl : l < 32)
    (other : members.getLsbD l = false) : (t.closed members k).lane l = t.lane l := by
  rw [Team.closed, Team.advance_lane _ _ _ hl, Team.mapLanes_find _ _ _ _ hl]
  simp [other]

/-- A close that is whole, seen from a lane that waits for it, completes: its members drop a level and go on
(R127). -/
theorem execConvCloseCompletion_whole {s : State} {k l : Nat} {t : Team} {opener : BitVec 24} {outer : List Word}
    (found : Tbl.find? s.teams k = some t) (what : (t.lane l).wait = some (.close opener outer))
    (there : (t.waiters fun w => w == .close opener outer).getLsbD l = true)
    (member : (State.closeMembers t (t.lane l).level opener outer).getLsbD l = true)
    (whole : ∀ j, j < 32 → (State.closeMembers t (t.lane l).level opener outer).getLsbD j = true →
      (t.waiters fun w => w == .close opener outer).getLsbD j = true ∧ (t.lane j).level = (t.lane l).level) :
    execConvCloseCompletion k l s = .next (s.updTeam k fun u =>
      u.closed (State.closeMembers t (t.lane l).level opener outer) ((t.lane l).level - 1)) := by
  unfold execConvCloseCompletion
  rw [State.team_of_find _ _ _ found]
  dsimp only
  rw [what]
  refine if_pos ?_
  rw [Bool.and_eq_true, Bool.and_eq_true]
  refine ⟨⟨bne_iff_ne.mpr fun zero => ?_, List.all_eq_true.mpr fun j hj => ?_⟩, there⟩
  · rw [State.closeMembers, zero] at member
    simp at member
  · obtain ⟨hj', mem⟩ := (mem_lanesOf _ j).mp hj
    obtain ⟨at_, level⟩ := whole j hj' mem
    rw [at_, level, beq_self_eq_true]; rfl

end Sys2Proof.Machine
end

section
/-!
The statement of 06_ins_control.md about convergence regions.
-/

open Sys2Proof Sys2Proof.Machine

/-- Settles O6: a fold of lane-local token writes, the fault of a level count, the waits of the active lanes at a close, and
the completion of a whole close. -/
theorem convergenceRegions : Obligations.ConvergenceRegions := by
  unfold Obligations.ConvergenceRegions
  refine ⟨⟨?_, ?_⟩, ?_, ?_⟩
  · intro i o f s is t hw ho hs hc levels
    cases Instr.ofOp_of_word hw
    obtain rfl | rfl := ho
    · exact execConvOpen_retokens hs hc levels
    · exact execConvNext_retokens hs hc levels
  · intro i o f s is t hw ho hs hc c bad depth fails
    cases Instr.ofOp_of_word hw
    simp only [List.mem_cons, List.not_mem_nil, or_false] at ho
    obtain rfl | rfl | rfl := ho
    · refine execConvOpen_fault hs hc (maskBy_congr fun l hl => ?_) fails
      show (c.active.getLsbD l && decide ((t.lane l).level = t.depth)) = _
      rw [decide_eq_decide.mpr (Nat.le_antisymm_iff.trans (and_iff_right (depth l hl)))]
    · exact execConvNext_fault hs hc (maskBy_congr fun l _ => congrArg _ (beq_eq_decide _ 0).symm) fails
    · exact execConvClose_fault hs hc (maskBy_congr fun l _ => congrArg _ (beq_eq_decide _ 0).symm) fails
  · intro f s is t hs hc inside
    exact execConvClose_waits hs hc inside
  · intro s k l t opener outer found hl waits what free goes level member mem whole
    have bits : ∀ j, j < 32 → (State.closeMembers t level opener outer).getLsbD j = member j := fun j hj =>
      getLsbD_maskBy _ hj
    have there : ∀ j, j < 32 → member j = true → (t.waiters fun w => w == .close opener outer).getLsbD j = true := by
      intro j hj h
      obtain ⟨waits, what, free, -⟩ := whole j hj h
      rw [Team.getLsbD_waiters hj waits what free goes, beq_self_eq_true]
    have completes := execConvCloseCompletion_whole found what (there l hl mem) ((bits l hl).trans mem) fun j hj h =>
      have h' := (bits j hj).symm.trans h
      have ⟨_, _, _, same⟩ := whole j hj h'
      ⟨there j hj h', same⟩
    refine ⟨_, t.closed (State.closeMembers t level opener outer) (level - 1), completes, .updTeam .., ?_, rfl,
      fun j hj => ?_⟩
    · rw [State.updTeam_find, if_pos rfl, found]; rfl
    · cases h : member j with
      | true =>
        obtain ⟨waits, -, -, -⟩ := whole j hj h
        rw [if_pos rfl, Team.closed_lane_member _ hj ((bits j hj).trans h) waits]
        exact ⟨rfl, rfl, rfl, rfl⟩
      | false => exact Team.closed_lane_other _ hj ((bits j hj).trans h)
end

section
/-!
SUPPORT. The reserve words and the surrender of pages: what a move of a region's counts leaves alone (R206), the context of
a word that acts once (R366), and what `rsv.read`, `rsv.ask` and `pgsurr` come to (R382-R384).
-/

namespace Sys2Proof.Machine

/-! A move of a region's counts. -/

/-- Reading after a change of every entry that keeps the keys. -/
theorem Tbl.find?_map {α : Type} {g : Nat × α → Nat × α} (keys : ∀ x, (g x).1 = x.1) (m : Tbl α) (k : Nat) :
    Tbl.find? (m.map g) k = (Tbl.find? m k).map fun a => (g (k, a)).2 := by
  induction m with
  | nil => rfl
  | cons x m ih =>
    obtain ⟨j, a⟩ := x
    rw [List.map_cons, show g (j, a) = (j, (g (j, a)).2) from Prod.ext (keys _) rfl, Tbl.find?_cons, Tbl.find?_cons, ih]
    by_cases h : j = k
    · subst h; simp
    · simp [h]

/-- A team that differs from another in its notices alone (R68). -/
def Team.Noticed (t t' : Team) : Prop :=
  t' = { t with notice := t'.notice, noticeRose := t'.noticeRose, noticeSet := t'.noticeSet }

theorem Team.Noticed.trans {a b c : Team} (h : a.Noticed b) (g : b.Noticed c) : a.Noticed c := by
  unfold Team.Noticed at *; rw [g, h]

namespace State

variable {s : State}

/-- RSVLOW is all that follows available in a team (R206). -/
theorem followLow_team {k : Nat} {t : Team} (r : Nat) (h : Tbl.find? s.teams k = some t) :
    ∃ t', Tbl.find? (s.followLow r).teams k = some t' ∧ t.Noticed t' := by
  unfold followLow
  dsimp only
  rw [Tbl.find?_map (fun x => by split <;> rfl), h]
  refine ⟨_, rfl, ?_⟩
  dsimp only
  split <;> rfl

theorem reserve_team {k : Nat} {t : Team} (r : Nat) (f : Region → Region) (h : Tbl.find? s.teams k = some t) :
    ∃ t', Tbl.find? (s.reserve r f).teams k = some t' ∧ t.Noticed t' := by
  obtain ⟨t', found, noticed⟩ := followLow_team (s := s.updRegion r f) r h
  refine ⟨t', ?_, noticed⟩
  unfold reserve
  dsimp only
  split <;> exact found

theorem reserve_find (r j : Nat) (f : Region → Region) :
    Tbl.find? (s.reserve r f).regions j = if r = j then (Tbl.find? s.regions j).map f else Tbl.find? s.regions j := by
  rw [← updRegion_find]
  unfold reserve
  dsimp only
  split <;> rfl

@[simp] theorem reserve_mem (r : Nat) (f : Region → Region) : (s.reserve r f).mem = s.mem := by
  unfold reserve
  dsimp only
  split <;> rfl

/-- Sectors of grant that go from one region to another (R205). -/
def moveGrant (s : State) (p k : Nat) (n : Int) : State :=
  (s.reserve p fun g => { g with rsvg := g.rsvg - n }).reserve k fun g => { g with rsvg := g.rsvg + n }

theorem region_of_find {r : Nat} {g : Region} (h : Tbl.find? s.regions r = some g) : s.region r = g := by
  simp [region, Tbl.get, h]

section

variable {p k : Nat} (n : Int)

theorem moveGrant_team {j : Nat} {t : Team} (h : Tbl.find? s.teams j = some t) :
    ∃ t', Tbl.find? (s.moveGrant p k n).teams j = some t' ∧ t.Noticed t' := by
  obtain ⟨t1, found1, noticed1⟩ := reserve_team p (fun g => { g with rsvg := g.rsvg - n }) h
  obtain ⟨t2, found2, noticed2⟩ := reserve_team k (fun g => { g with rsvg := g.rsvg + n }) found1
  exact ⟨t2, found2, noticed1.trans noticed2⟩

theorem moveGrant_to {r : Region} (h : Tbl.find? s.regions k = some r) (other : p ≠ k) :
    (s.moveGrant p k n).region k = { r with rsvg := r.rsvg + n } := by
  apply region_of_find
  rw [moveGrant, reserve_find, if_pos rfl, reserve_find, if_neg other, h]
  rfl

theorem moveGrant_from {q : Region} (h : Tbl.find? s.regions p = some q) (other : p ≠ k) :
    (s.moveGrant p k n).region p = { q with rsvg := q.rsvg - n } := by
  apply region_of_find
  rw [moveGrant, reserve_find, if_neg other.symm, reserve_find, if_pos rfl, h]
  rfl

@[simp] theorem moveGrant_mem : (s.moveGrant p k n).mem = s.mem := by rw [moveGrant, reserve_mem, reserve_mem]

end

end State

/-! What an ask moves. -/

theorem askAmount_eq (q r : Region) (a : Nat) : askAmount q r a =
    min (min (a : Int) (max 0 q.available)) (if r.rsvmax = 0 then (a : Int) else max 0 (r.rsvmax.toNat - r.rsvg)) := by
  unfold askAmount
  dsimp only
  split
  · omega
  · rfl

theorem askAmount_nonneg (q r : Region) (a : Nat) : 0 ≤ askAmount q r a := by
  rw [askAmount_eq]
  split <;> omega

/-! The context of a word that acts once. -/

theorem Ctx.once_of_active {c : Ctx} {k : Eff} (h : c.active ≠ 0) : c.once k = k := if_neg h

/-- A word that opens a chain changes teams alone (R94). -/
theorem issued_state (o : Op) (f : Form) (s : State) (is : Issue) :
    (issued o f s is).s = { s with teams := (issued o f s is).s.teams } := by
  unfold issued openChain
  split <;> rfl

section Issued

variable (o : Op) (f : Form) {s : State} {is : Issue} {t : Team}

theorem issued_regionAt (r : Nat) : (issued o f s is).s.region r = s.region r := by rw [issued_state]; rfl

theorem issued_migrating (ga : Nat) : (issued o f s is).s.migrating ga = s.migrating ga := by rw [issued_state]; rfl

theorem issued_region (hs : Standing s is t) : (issued o f s is).region = s.regionOf t.wg := by
  obtain ⟨eis, -, ⟨ch, team⟩, found, -⟩ := issued_spec o f hs
  rw [Ctx.region, State.teamRegion, eis, State.team_of_find _ _ _ found, team, issued_state]
  rfl

theorem issued_part (hs : Standing s is t) : (issued o f s is).part = s.regionOf t.wg / 65536 :=
  congrArg (· / 65536) (issued_region o f hs)

theorem issued_active (hs : Standing s is t) : (issued o f s is).active = activeMask t is.lanes f.h := by
  obtain ⟨-, act, -⟩ := issued_spec o f hs
  exact act

end Issued

/-! `rsv.read`. -/

theorem Team.Stepped.congr_left {t u t' : Team} {m : Mask} (h : t.Stepped t' m) (lanes : u.lanes = t.lanes) :
    u.Stepped t' m := by
  unfold Team.Stepped Team.lane at *
  rw [lanes]
  exact h

/-- The counts of a region in three scalar registers from `d` on (R382). -/
def Team.withReserve (t : Team) (d : Nat) (r : Region) : Team :=
  ((t.writeS d (BitVec.ofInt 64 r.rsvg)).writeS (d + 1) (BitVec.ofInt 64 r.rsvh)).writeS (d + 2) (BitVec.ofInt 64 r.rsvp)

theorem Team.readS_withReserve (t : Team) (d : Nat) (r : Region) (j : Nat) : (t.withReserve d r).readS j =
    if j = d then BitVec.ofInt 64 r.rsvg else if j = d + 1 then BitVec.ofInt 64 r.rsvh
      else if j = d + 2 then BitVec.ofInt 64 r.rsvp else t.readS j := by
  rw [Team.withReserve, Team.readS_writeS, Team.readS_writeS, Team.readS_writeS]
  by_cases g : j = d
  · simp [g]
  · by_cases h : j = d + 1
    · simp [h]
    · simp [g, h, Ne.symm g, eq_comm]

section Words

variable {f : Form} {s : State} {is : Issue} {t : Team} {d : BitVec 6}

theorem execRsvRead_reads (hs : Standing s is t) (hc : Clear .rsvRead f s is) (hd : f.d.dst = some (.s d))
    (room : d.toNat ≤ 61) (active : (issued .rsvRead f s is).active ≠ 0) :
    ∃ s' t', execRsvRead f s = .next s' ∧ Elsewhere is.team s s' ∧ Tbl.find? s'.teams is.team = some t' ∧
      t.Stepped t' is.lanes ∧ t'.v = t.v ∧ t'.g = t.g ∧
      ∀ j, t'.readS j = (t.withReserve d.toNat (s.region (s.regionOf t.wg))).readS j := by
  obtain ⟨eis, -, ⟨ch, team⟩, opened, -⟩ := issued_spec .rsvRead f hs
  rw [team] at opened
  generalize written : ({ t with chain := ch } : Team).withReserve d.toNat (s.region (s.regionOf t.wg)) = u
  have answer : AnswersTeam (execRsvRead f s) s is.team (u.advance is.lanes) := by
    refine wordIns_team (s1 := (issued .rsvRead f s is).advance ((issued .rsvRead f s is).s.updTeam is.team
      (·.withReserve d.toNat (s.region (s.regionOf t.wg))))) hs hc ?_ ?_ ?_
    · refine (Ctx.once_of_active active).trans ?_
      rw [hd, issued_region .rsvRead f hs, issued_regionAt, eis]
      exact if_neg (Nat.not_lt.mpr room)
    · rw [Ctx.advance, eis]
      exact (Elsewhere.updTeam ..).trans (.updTeam ..)
    · rw [Ctx.advance, eis, State.updTeam_find, if_pos rfl, State.updTeam_find, if_pos rfl, opened, ← written]
      rfl
  obtain ⟨s', t', next, found, elsewhere, kept, lanes⟩ := answer
  have kept' : t' = { u with lanes := t'.lanes, chain := t'.chain, ahead := t'.ahead, skid := t'.skid } := kept
  have same : u.lanes = t.lanes := by rw [← written]; rfl
  have stepped : u.Stepped (u.advance is.lanes) is.lanes :=
    Team.stepped_advance fun l hl mem => by rw [Team.lane, same]; exact hs.runs l hl mem
  refine ⟨s', t', next, elsewhere, found, fun l hl => ?_, by rw [kept', ← written]; rfl, by rw [kept', ← written]; rfl,
    fun j => ?_⟩
  · obtain ⟨pc, st, level, -⟩ := lanes l hl
    rw [pc, st, level]
    exact stepped.congr_left same.symm l hl
  · rw [Team.readS, kept', ← written]
    rfl

theorem execRsvRead_faults (hs : Standing s is t) (hc : Clear .rsvRead f s is) (hd : f.d.dst = some (.s d))
    (beyond : 61 < d.toNat) (active : (issued .rsvRead f s is).active ≠ 0) :
    execRsvRead f s = .next (countIssue (issued .rsvRead f s is) ((issued .rsvRead f s is).s.raise is.team is.lanes is.pc
      is.word ((issued .rsvRead f s is).fault 2 16) true)) := by
  refine wordIns_trap hs.port hc ((Ctx.once_of_active active).trans ?_)
  rw [hd]
  exact if_pos beyond

/-! `rsv.ask`. -/

/-- A root region receives 0 at issue, and the group of another is held for its parent's reserve unit (R206, R383). -/
theorem execRsvAsk_eq (hs : Standing s is t) (hc : Clear .rsvAsk f s is) (active : (issued .rsvAsk f s is).active ≠ 0) :
    execRsvAsk f s = .next (
      if (s.region (s.regionOf t.wg)).parentKey (s.regionOf t.wg / 65536) = none then
        (issued .rsvAsk f s is).done ((issued .rsvAsk f s is).writeScalar (issued .rsvAsk f s is).s 0)
      else finish (issued .rsvAsk f s is) ((issued .rsvAsk f s is).s.updTeam is.team fun t =>
        t.holdOn is.lanes (.ask ((issued .rsvAsk f s is).sc f.a).toNat is.word))) := by
  obtain ⟨eis, -, -, -, -⟩ := issued_spec .rsvAsk f hs
  have parent : ((issued .rsvAsk f s is).s.region (issued .rsvAsk f s is).region).parentKey (issued .rsvAsk f s is).part =
      (s.region (s.regionOf t.wg)).parentKey (s.regionOf t.wg / 65536) := by
    rw [issued_regionAt, issued_region _ _ hs, issued_part _ _ hs]
  cases key : (s.region (s.regionOf t.wg)).parentKey (s.regionOf t.wg / 65536) with
  | none =>
    refine wordIns_go _ _ _ _ _ _ hs.port hc ((Ctx.once_of_active active).trans ?_)
    rw [parent, key]
  | some p =>
    refine wordIns_go _ _ _ _ _ _ hs.port hc ((Ctx.once_of_active active).trans ?_)
    rw [parent, key, eis]

end Words

/-- A held word is served in the context of its lanes, where its region has a parent (R206, R383). -/
theorem State.askServed_of_parent {s : State} {j a p : Nat} {m : Mask} {word : IWord} {f : Form} {t : Team}
    (decoded : decodeRaw (Raw.ofWord word) = .ok (.rsvAsk, f)) (found : Tbl.find? s.teams j = some t)
    (parent : (s.region (s.regionOf t.wg)).parentKey (s.regionOf t.wg / 65536) = some p) :
    ∃ is : Issue, is.team = j ∧ is.lanes = m ∧ s.askServed j m a word = (ctxOf .rsvAsk f s is).askNow p a := by
  refine ⟨{ team := j, lanes := m, pc := ((s.team j).lane ((lowest m).getD 0)).pc, word := word, port := 1 }, rfl, rfl, ?_⟩
  unfold State.askServed
  rw [decoded]
  dsimp only
  rw [show (s.region _).parentKey _ = some p from ?_]
  rw [← State.team_of_find s j t found] at parent
  exact parent

/-- The instruction of lanes that run and are not parked has completed: they stand at the next one (R41, R266). -/
theorem Team.stepped_complete {t : Team} {m : Mask}
    (runs : ∀ l, l < 32 → m.getLsbD l = true → (t.lane l).st = .running ∧ t.parked l = false) :
    t.Stepped (t.complete m) m := by
  have same : (maskBy fun l => m.getLsbD l && !t.parked l) = m := by
    apply BitVec.eq_of_getLsbD_eq
    intro l hl
    rw [getLsbD_maskBy _ hl]
    cases mem : m.getLsbD l with
    | false => rfl
    | true => rw [(runs l hl mem).2]; rfl
  intro l hl
  have goes : (m.getLsbD l && t.parked l) = false := by
    cases mem : m.getLsbD l with
    | false => rfl
    | true => rw [(runs l hl mem).2]; rfl
  rw [Team.complete, same, Team.mapLanes_find _ _ _ _ hl, if_neg (ne_true_of_eq_false goes)]
  exact Team.stepped_advance (fun l hl mem => (runs l hl mem).1) l hl

/-- A delivered value of 64 bits counts modulo 2^64 (R57, R58). -/
theorem Team.Holds.of_word {t t' : Team} {d : Option Dst} {m : Mask} {x : Nat → Nat}
    (h : t.Holds t' d m 64 false fun l => (BitVec.ofNat 64 (x l)).toNat) : t.Holds t' d m 64 false x := by
  have low : ∀ y : Nat, BitVec.ofNat 32 (y % 2 ^ 64) = BitVec.ofNat 32 y := fun y =>
    BitVec.eq_of_toNat_eq (by simp only [BitVec.toNat_ofNat]; omega)
  have high : ∀ y : Nat, BitVec.ofNat 32 (y % 2 ^ 64 / 2 ^ 32) = BitVec.ofNat 32 (y / 2 ^ 32) := fun y =>
    BitVec.eq_of_toNat_eq (by simp only [BitVec.toNat_ofNat]; omega)
  have odd : ∀ y : Nat, y % 2 ^ 64 % 2 = y % 2 := fun y => by omega
  unfold Team.Holds at *
  simp only [BitVec.toNat_ofNat, low, high, odd, Nat.mod_mod, Bool.false_eq_true, if_false, if_true] at h ⊢
  exact h

theorem Team.parked_congr {t u : Team} (l : Nat) (resident : u.resident = t.resident) (halted : u.halted = t.halted)
    (handler : u.handler = t.handler) : u.parked l = t.parked l := by
  unfold Team.parked
  rw [resident, halted, handler]

theorem Ctx.askNow_eq (c : Ctx) (p a n : Nat) (amount : askAmount (c.s.region p) (c.s.region c.region) a = n) :
    c.askNow p a = c.complete (c.writeScalar (c.s.moveGrant p c.region n) (BitVec.ofNat 64 n)) := by
  unfold Ctx.askNow
  dsimp only
  rw [amount, BitVec.ofInt_natCast]
  rfl

/-- What the reserve unit's service changes: the destination takes the number moved, the group goes on, and the grants of
region and parent move by it (R205, R206, R383). -/
theorem Ctx.askNow_spec (c : Ctx) (p a : Nat) {r q : Region} (found : Tbl.find? c.s.teams c.is.team = some c.t)
    (hd : ∀ k, c.f.d.dst ≠ some (.f k))
    (runs : ∀ l, l < 32 → c.is.lanes.getLsbD l = true → (c.t.lane l).st = .running ∧ c.t.parked l = false)
    (own : Tbl.find? c.s.regions c.region = some r) (parent : Tbl.find? c.s.regions p = some q) (other : p ≠ c.region) :
    ∃ t' n, Tbl.find? (c.askNow p a).teams c.is.team = some t' ∧ c.t.Stepped t' c.is.lanes ∧
      c.t.Holds t' c.f.d.dst c.active 64 false (fun _ => n) ∧
      ((c.askNow p a).region c.region).rsvg = r.rsvg + n ∧ ((c.askNow p a).region p).rsvg = q.rsvg - n ∧
      (n : Int) = askAmount q r a ∧ ((c.askNow p a).region c.region).rsvh = r.rsvh ∧
      ((c.askNow p a).region c.region).rsvp = r.rsvp ∧ (c.askNow p a).mem = c.s.mem := by
  obtain ⟨n, amount⟩ := Int.eq_ofNat_of_zero_le (askAmount_nonneg q r a)
  rw [c.askNow_eq p a n (by rw [State.region_of_find own, State.region_of_find parent, amount])]
  obtain ⟨t1, found1, noticed⟩ := State.moveGrant_team (p := p) (k := c.region) n found
  obtain ⟨t2, found2, written, holds, -, elsewhere⟩ :=
    c.write_spec _ 64 false (fun _ => (BitVec.ofNat 64 n).toNat) t1 found1 hd
  have same : t2 = { t1 with v := t2.v, s := t2.s, g := t2.g, chain := t2.chain } := written
  have lanes : t2.lanes = c.t.lanes := by rw [same, noticed]
  have parked : ∀ l, t2.parked l = c.t.parked l := fun l =>
    Team.parked_congr l (by rw [same, noticed]) (by rw [same, noticed]) (by rw [same, noticed])
  have runs' : ∀ l, l < 32 → c.is.lanes.getLsbD l = true → (t2.lane l).st = .running ∧ t2.parked l = false := by
    intro l hl mem
    rw [parked, Team.lane, lanes]
    exact runs l hl mem
  have grants := elsewhere.regions c.region
  rw [State.moveGrant_to n own other] at grants
  refine ⟨t2.complete c.is.lanes, n, ?_, (Team.stepped_complete runs').congr_left lanes.symm, ?_, ?_, ?_, amount.symm, ?_, ?_,
    ?_⟩
  · rw [Ctx.complete, State.updTeam_find, if_pos rfl, Ctx.writeScalar, found2]
    rfl
  · exact (holds.of_word.congr (b := t2.complete c.is.lanes) rfl rfl rfl).congr_left (by rw [noticed]) (by rw [noticed])
      (by rw [noticed])
  · exact (congrArg Region.rsvg grants :)
  · exact congrArg Region.rsvg ((elsewhere.regions p).trans (by rw [State.moveGrant_from n parent other]))
  · exact (congrArg Region.rsvh grants :)
  · exact (congrArg Region.rsvp grants :)
  · exact (congrArg State.mem elsewhere.rest).trans (State.moveGrant_mem n)

/-! `pgsurr`. -/

theorem execPgsurr_legal {f : Form} {s : State} {is : Issue} {t : Team} (hs : Standing s is t) (hc : Clear .pgsurr f s is) :
    let c := issued .pgsurr f s is
    let a := (c.sc f.a).toNat
    let n := (c.sc f.b).toNat
    c.active ≠ 0 → a % 65536 = 0 → n ≠ 0 → n ≤ 4096 → a + 65536 * n ≤ c.limit 0 →
    (∀ j, j < n → c.surrFault (c.base 0 + a + 65536 * j) = none ∧
      s.migrating (gaOf c.part (c.base 0 + a + 65536 * j)) = false) →
    let r := c.s.surrenderRange c.part n (c.base 0 + a)
    execPgsurr f s = .next (c.done (c.writeScalar r.2 (BitVec.ofNat 64 r.1))) := by
  intro c a n active aligned nonzero bounded inside pages r
  have legal : (a % 65536 != 0 || decide (n = 0) || decide (n > 4096)) = false := by simp [aligned, nonzero, bounded]
  refine wordIns_go _ _ _ _ _ _ hs.port hc ((Ctx.once_of_active active).trans ?_)
  dsimp only
  rw [if_neg (ne_true_of_eq_false legal), if_neg (Nat.not_lt.mpr inside),
    show List.findSome? _ (List.range n) = none from ?noFault]
  case noFault =>
    refine List.findSome?_eq_none_iff.mpr fun j hj => ?_
    rw [(pages j (List.mem_range.mp hj)).1]
    rfl
  refine if_neg fun held => ?_
  obtain ⟨j, hj, moving⟩ := List.any_eq_true.mp held
  rw [issued_migrating, (pages j (List.mem_range.mp hj)).2] at moving
  exact Bool.false_ne_true moving

end Sys2Proof.Machine
end

section
/-!
The statement of 17_ins_sync_system.md about the reserve and the surrender of pages.
-/

open Sys2Proof Sys2Proof.Machine

/-- Settles O35: `rsv.read` writes three scalar registers or faults, `rsv.ask` is answered or held and its service moves
grant from parent to region, and a legal `pgsurr` surrenders its range. -/
theorem reserveAndPages : Obligations.ReserveAndPages := by
  unfold Obligations.ReserveAndPages
  refine ⟨⟨?_, ?_, ?_, ?_⟩, ?_⟩
  · intro f s is t d hs hc hd room active r
    obtain ⟨s', t', next, elsewhere, found, stepped, v, g, regs⟩ :=
      execRsvRead_reads hs hc hd room (issued_active .rsvRead f hs ▸ active)
    exact ⟨s', t', next, elsewhere, found, stepped, v, g, fun j => (regs j).trans (t.readS_withReserve d.toNat r j)⟩
  · intro f s is t d hs hc hd beyond active c
    exact execRsvRead_faults hs hc hd beyond (issued_active .rsvRead f hs ▸ active)
  · intro f s is t hs hc active c
    exact execRsvAsk_eq hs hc (issued_active .rsvAsk f hs ▸ active)
  · intro f s j m a word t p r q decoded found runs hd active k own key parent other
    obtain ⟨is, rfl, rfl, served⟩ := State.askServed_of_parent (m := m) (a := a) decoded found
      (by rw [State.region_of_find own]; exact key)
    have team : (ctxOf .rsvAsk f s is).t = t := State.team_of_find _ _ _ found
    have region : (ctxOf .rsvAsk f s is).region = k := congrArg (fun u : Team => s.regionOf u.wg) team
    have act : (ctxOf .rsvAsk f s is).active = activeMask t is.lanes f.h := congrArg (activeMask · is.lanes f.h) team
    have spec := (ctxOf .rsvAsk f s is).askNow_spec p a (r := r) (q := q) (by rw [team]; exact found) hd
      (by rw [team]; exact runs) (by rw [region]; exact own) parent (by rw [region]; exact other)
    rw [team, region, act, ← served] at spec
    obtain ⟨t', n, found', stepped, holds, gains, gives, amount, rsvh, rsvp, mem⟩ := spec
    exact ⟨_, t', n, rfl, found', stepped, holds, gains, gives, amount.trans (askAmount_eq q r a), rsvh, rsvp, mem⟩
  · intro f s is t hs hc
    exact execPgsurr_legal hs hc
end

section
/-!
SUPPORT. The return from an exception: what `rett` reads of the save slot, what becomes of the team that returns and of its
siblings, and the halt of a gang that waited for MASK (R377, R401, R404, R408, R413).
-/

namespace Sys2Proof.Machine

/-! What hardware reads of a save slot. -/

theorem State.hwLoad_length (s : State) (ga n : Nat) : (s.hwLoad ga n).length = n := by
  unfold State.hwLoad
  dsimp only
  split
  · rw [List.length_map, List.length_range]
  · rw [State.homeBytes, memReadBytes, List.length_map, List.length_range]

/-- The low bits of bytes that are read as a wider word. -/
theorem setWidth_ofBytes {v w : Nat} (h : v ≤ w) (bs : List Byte) : (ofBytes w bs).setWidth v = ofBytes v bs := by
  induction bs with
  | nil => simp [ofBytes]
  | cons b bs ih =>
    show ((ofBytes w bs <<< 8) ||| b.setWidth w).setWidth v = (ofBytes v bs <<< 8) ||| b.setWidth v
    rw [BitVec.setWidth_or, BitVec.setWidth_shiftLeft_of_le h, ih, BitVec.setWidth_setWidth_of_le _ h]

/-- The number that `n` bytes at offset `a` of a save slot at `ga` hold, the least byte first (R396-R399). -/
def State.slotNat (s : State) (ga a n : Nat) : Nat := (ofBytes 64 (s.hwLoad (ga + a) n)).toNat

theorem State.ofNat_slotNat (s : State) (ga a n : Nat) {w : Nat} (h : w ≤ 64) :
    BitVec.ofNat w (s.slotNat ga a n) = ofBytes w (s.hwLoad (ga + a) n) := by
  rw [State.slotNat, BitVec.ofNat_toNat, setWidth_ofBytes h]

/-- The cause of a trap is byte 0 of its frame (R397). -/
theorem State.headD_hwLoad (s : State) (ga : Nat) : ((s.hwLoad ga 1).headD 0).toNat = s.slotNat ga 0 1 := by
  obtain ⟨b, hb⟩ := List.length_eq_one_iff.mp (s.hwLoad_length ga 1)
  have one : ofBytes 64 [b] = b.setWidth 64 := by simp [ofBytes]
  rw [State.slotNat, Nat.add_zero, hb, one, BitVec.toNat_setWidth, Nat.mod_eq_of_lt (by omega)]
  rfl

/-! The team that returns. -/

/-- A lane as the return leaves it: one that trapped and is live runs at the frame's PC, and one that the trap stopped
stands at its PC in the save slot (R404). -/
def State.returnedLane (s : State) (ga : Nat) (trapped : Mask) (l : Nat) (y : Lane) : Lane :=
  if trapped.getLsbD l then
    if y.st == .running || y.st == .waiting then
      { y with pc := ofBytes 32 (s.hwLoad (ga + 20) 4), st := .running, age := 0, wait := none, hold := none }
    else y
  else { y with pc := ((List.range 32).map fun l => (ofBytes 32 (s.hwLoad (ga + 256 + 4 * l) 4) : Word)).getD l 0 }

/-- A team as its return from its handler leaves it, with its save slot at `ga` (R377, R404, R408): `returnFromHandler`
but for the siblings. -/
def State.returned (s : State) (ga : Nat) (x : Team) : Team :=
  let m := match x.handler with | some h => h.lanes | none => 0
  let x := (x.mapLanes (fun _ => true) (s.returnedLane ga m)).writeS 62 (ofBytes 64 (s.hwLoad (ga + 48) 8))
  let x := if (s.hwLoad ga 1).headD 0 = 8 then
    x.writeS (s.slotNat ga 64 8 % 64) (ofBytes 64 (s.hwLoad (ga + 56) 8)) else x
  { x with handler := none, trapmask := x.trapmask &&& ~~~1#32, priv := if x.priv = 1 then 0 else x.priv, ahead := [],
           stopping := x.atTask, colls := x.colls.filter fun (_, i) => !i.handler }

/-- A team after the return from its handler, but for its lanes, its scalar registers and what halts it: its stay is over,
MASK is cleared and PRIV goes from 1 to 0, and every other register is as before (R377, R404). -/
def Team.Returned (t t' : Team) : Prop :=
  t' = { t with lanes := t'.lanes, s := t'.s, handler := none, trapmask := t.trapmask &&& ~~~1#32,
                priv := if t.priv = 1 then 0 else t.priv, chain := t'.chain, ahead := t'.ahead, colls := t'.colls,
                halted := t'.halted, haltDue := t'.haltDue, skid := t'.skid, stopping := t'.stopping }

namespace State

variable (s : State) (ga : Nat) (x : Team)

theorem returned_frame : x.Returned (s.returned ga x) := by
  unfold Team.Returned returned
  dsimp only
  split <;> rfl

/-- A team that stopped at a task boundary stops again (R408). -/
theorem stopping_returned : (s.returned ga x).stopping = x.atTask := by
  unfold returned
  dsimp only
  split <;> rfl

theorem s_returned : (s.returned ga x).s = if (s.hwLoad ga 1).headD 0 = 8 then
      ((x.writeS 62 (ofBytes 64 (s.hwLoad (ga + 48) 8))).writeS (s.slotNat ga 64 8 % 64)
        (ofBytes 64 (s.hwLoad (ga + 56) 8))).s
    else (x.writeS 62 (ofBytes 64 (s.hwLoad (ga + 48) 8))).s := by
  unfold returned
  dsimp only
  split
  · rfl
  · rfl

/-- s62 is given back, and a sparse-overrun trap delivers its detail word (R404). -/
theorem readS_returned (r : Nat) : (s.returned ga x).readS r =
    if s.slotNat ga 0 1 = 8 ∧ r = s.slotNat ga 64 8 % 64 then BitVec.ofNat 64 (s.slotNat ga 56 8)
    else if r = 62 then BitVec.ofNat 64 (s.slotNat ga 48 8) else x.readS r := by
  have cause : (s.hwLoad ga 1).headD 0 = 8 ↔ s.slotNat ga 0 1 = 8 := by
    rw [← headD_hwLoad, ← BitVec.toNat_inj]; rfl
  simp only [ofNat_slotNat _ _ _ _ (Nat.le_refl 64), ← cause, @eq_comm _ r]
  rw [Team.readS, s_returned]
  by_cases overrun : (s.hwLoad ga 1).headD 0 = 8
  · rw [if_pos overrun, ← Team.readS, Team.readS_writeS, Team.readS_writeS]
    simp only [overrun, true_and]
  · rw [if_neg overrun, ← Team.readS, Team.readS_writeS]
    simp only [overrun, false_and, if_false]

theorem lanes_returned {h : Handler} (hh : x.handler = some h) :
    (s.returned ga x).lanes = (x.mapLanes (fun _ => true) (s.returnedLane ga h.lanes)).lanes := by
  unfold returned
  rw [hh]
  dsimp only
  split
  · rfl
  · rfl

theorem lane_returned {h : Handler} (hh : x.handler = some h) {l : Nat} (hl : l < 32) :
    (s.returned ga x).lane l = s.returnedLane ga h.lanes l (x.lane l) := by
  rw [Team.lane, lanes_returned s ga x hh]
  exact Team.mapLanes_find x _ _ l hl

/-- Where a lane stands after the return, in the numbers of the save slot (R404). -/
theorem returnedLane_place (m : Mask) {l : Nat} (hl : l < 32) (y : Lane) :
    if m.getLsbD l then (y.st = .running ∨ y.st = .waiting) →
      (s.returnedLane ga m l y).pc = BitVec.ofNat 32 (s.slotNat ga 20 4) ∧ (s.returnedLane ga m l y).st = .running
    else (s.returnedLane ga m l y).pc = BitVec.ofNat 32 (s.slotNat ga (256 + 4 * l) 4) ∧
      (s.returnedLane ga m l y).st = y.st := by
  have listed : ((List.range 32).map fun l => (ofBytes 32 (s.hwLoad (ga + 256 + 4 * l) 4) : Word)).getD l 0 =
      ofBytes 32 (s.hwLoad (ga + (256 + 4 * l)) 4) := by
    rw [List.getD_eq_getElem _ _ (by simpa using hl), List.getElem_map, List.getElem_range, Nat.add_assoc]
  rw [returnedLane, listed, ofNat_slotNat _ _ _ _ (by decide), ofNat_slotNat _ _ _ _ (by decide)]
  by_cases trapped : m.getLsbD l = true
  · rw [if_pos trapped, if_pos trapped]
    rintro (run | wait)
    · simp [run]
    · simp [wait]
  · rw [if_neg trapped, if_neg trapped]
    exact ⟨rfl, rfl⟩

end State

/-! Changes of several teams. -/

/-- A step that changes one team by `f`, folded over a list of teams, changes each of them by `f`. -/
theorem State.foldl_teams {f : Team → Team} {step : State → Nat → State} (idem : ∀ y, f (f y) = f y)
    (one : ∀ s u, (step s u).teams = (s.updTeam u f).teams) (us : List Nat) (s : State) (j : Nat) :
    Tbl.find? (us.foldl step s).teams j = if j ∈ us then (Tbl.find? s.teams j).map f else Tbl.find? s.teams j := by
  induction us generalizing s with
  | nil => rfl
  | cons u us ih =>
    rw [List.foldl_cons, ih, one, State.updTeam_find]
    by_cases hu : u = j
    · subst hu
      cases Tbl.find? s.teams u <;> simp [idem]
    · simp [hu, Ne.symm hu]

/-- A team that a trap of its workgroup had halted, or was to halt, goes on (R404). -/
def Team.resumed (y : Team) : Team := { y with halted := false, haltDue := none }

/-- A team that has stopped for a pre-emption (R407). -/
def Team.stopped (y : Team) : Team := { y with stopping := true }

/-- A team that goes on where the trap was one of its own workgroup. -/
def Team.resumedIf (y : Team) (p : Bool) : Team := if p then y.resumed else y

/-- A team that stops where a halt of its gang takes effect. -/
def Team.stoppedIf (y : Team) (p : Bool) : Team := if p then y.stopped else y

/-- A team that differs from another in what halts or stops it alone. -/
def Team.Released (a b : Team) : Prop :=
  b = { a with halted := b.halted, haltDue := b.haltDue, stopping := b.stopping }

theorem Team.Released.trans {a b c : Team} (h : a.Released b) (g : b.Released c) : a.Released c := by
  unfold Team.Released at *; rw [g, h]

theorem Team.released_resumedIf (y : Team) (p : Bool) : y.Released (y.resumedIf p) := by
  cases p <;> rfl

theorem Team.released_stoppedIf (y : Team) (p : Bool) : y.Released (y.stoppedIf p) := by
  cases p <;> rfl

theorem Team.stopping_resumedIf (y : Team) (p : Bool) : (y.resumedIf p).stopping = y.stopping := by
  cases p <;> rfl

theorem Team.stopping_stoppedIf (y : Team) (p : Bool) : (y.stoppedIf p).stopping = (y.stopping || p) := by
  cases p
  · exact (Bool.or_false _).symm
  · exact (Bool.or_true _).symm

theorem Team.halts_stoppedIf (y : Team) (p : Bool) :
    (y.stoppedIf p).halted = y.halted ∧ (y.stoppedIf p).haltDue = y.haltDue := by
  cases p <;> exact ⟨rfl, rfl⟩

theorem Team.Returned.released {t a b : Team} (h : t.Returned a) (g : a.Released b) : t.Returned b := by
  unfold Team.Returned Team.Released at *; rw [g, h]

theorem Team.Returned.kept {t a b : Team} (h : t.Returned a) (g : a.Kept b) : t.Returned b := by
  unfold Team.Returned Team.Kept at *; rw [g, h]

/-- MASK is clear after a return (R404). -/
theorem Team.Returned.masked {t a : Team} (h : t.Returned a) : a.masked = false := by
  unfold Team.Returned at h
  rw [h, Team.masked]
  simp

theorem Team.Released.masked {a b : Team} (h : a.Released b) : b.masked = a.masked := by
  unfold Team.Released at h; rw [h]; rfl

theorem Team.Released.s {a b : Team} (h : a.Released b) : b.s = a.s := by
  unfold Team.Released at h; rw [h]

theorem Team.Released.lanes {a b : Team} (h : a.Released b) : b.lanes = a.lanes := by
  unfold Team.Released at h; rw [h]

theorem Team.Released.resident {a b : Team} (h : a.Released b) : b.resident = a.resident := by
  unfold Team.Released at h; rw [h]

theorem Team.Returned.fields {t a : Team} (h : t.Returned a) : a.handler = none ∧
    a.priv = (if t.priv = 1 then 0 else t.priv) ∧ a.trapmask = t.trapmask &&& ~~~1#32 ∧ a.v = t.v ∧ a.g = t.g := by
  unfold Team.Returned at h
  rw [h]
  exact ⟨rfl, rfl, rfl, rfl, rfl⟩

namespace State

/-! The return. -/

theorem hwHeat_eq (s : State) (ga n : Nat) : s.hwHeat ga n = { s with served := (s.hwHeat ga n).served } := by
  unfold hwHeat
  generalize List.range _ = is
  induction is generalizing s with
  | nil => rfl
  | cons i is ih => rw [List.foldl_cons, ih]; rfl

/-- A state that differs from another in its teams and in the reads that homes have served alone. -/
def TeamsServed (a b : State) : Prop := b = { a with teams := b.teams, served := b.served }

theorem TeamsServed.trans {a b c : State} (h : TeamsServed a b) (g : TeamsServed b c) : TeamsServed a c := by
  unfold TeamsServed at *; rw [g, h]

theorem TeamsServed.mem {a b : State} (h : TeamsServed a b) : b.mem = a.mem := by
  unfold TeamsServed at h; rw [h]

theorem TeamsServed.gang {a b : State} (h : TeamsServed a b) (g : Nat) : b.gang g = a.gang g := by
  unfold TeamsServed at h; rw [h]; rfl

theorem TeamsServed.gangTeams {a b : State} (h : TeamsServed a b) (g : Nat) : b.gangTeams g = a.gangTeams g := by
  unfold TeamsServed at h; rw [h]; rfl

theorem TeamsServed.hwHeat (s : State) (ga n : Nat) : TeamsServed s (s.hwHeat ga n) := by
  unfold TeamsServed
  rw [hwHeat_eq]

theorem TeamsServed.updTeam (s : State) (k : Nat) (f : Team → Team) : TeamsServed s (s.updTeam k f) := rfl

theorem TeamsServed.foldl (f : Team → Team) (us : List Nat) (s : State) :
    TeamsServed s (us.foldl (fun s u => s.updTeam u f) s) := by
  induction us generalizing s with
  | nil => rfl
  | cons u us ih => exact (TeamsServed.updTeam s u f).trans (ih _)

/-- The global address of a team's save slot (R395). -/
def slotGa (s : State) (k : Nat) : Nat := gaOf (s.teamPart k) (s.team k).slotVa

theorem returnFromHandler_def (s : State) (k : Nat) : s.returnFromHandler k =
    (((s.hwHeat (s.slotGa k) 384).updTeam k (s.returned (s.slotGa k))).teamWg k).teams.foldl
      (fun s u => s.updTeam u Team.resumed) ((s.hwHeat (s.slotGa k) 384).updTeam k (s.returned (s.slotGa k))) := rfl

variable {s : State} {k : Nat} {t : Team}

/-- The return as a change of its team and then of the teams of its workgroup. -/
theorem returnFromHandler_foldl (found : Tbl.find? s.teams k = some t) : s.returnFromHandler k =
    (s.wg t.wg).teams.foldl (fun s u => s.updTeam u Team.resumed)
      ((s.hwHeat (s.slotGa k) 384).updTeam k (s.returned (s.slotGa k))) := by
  rw [returnFromHandler_def]
  have heat := hwHeat_eq s (s.slotGa k) 384
  generalize s.hwHeat (s.slotGa k) 384 = u at *
  have found' : Tbl.find? u.teams k = some t := by rw [heat, found]
  have wg : ∀ f, (u.updTeam k f).wg t.wg = s.wg t.wg := fun f => by rw [heat]; rfl
  have own := returned_frame s (s.slotGa k) t
  rw [teamWg, team_updTeam_self _ _ _ t found', own, wg]

theorem returnFromHandler_rest (found : Tbl.find? s.teams k = some t) : s.TeamsServed (s.returnFromHandler k) := by
  rw [returnFromHandler_foldl found]
  exact ((TeamsServed.hwHeat s (s.slotGa k) 384).trans (.updTeam _ k _)).trans (.foldl _ _ _)

/-- Team `j`, which was `y`, as the return of team `k` leaves it; `sibling` says whether it is of the same workgroup. -/
def atReturn (s : State) (k j : Nat) (sibling : Bool) (y : Team) : Team :=
  let x := if k = j then s.returned (s.slotGa k) y else y
  x.resumedIf sibling

theorem returnFromHandler_find (found : Tbl.find? s.teams k = some t) (j : Nat) :
    Tbl.find? (s.returnFromHandler k).teams j =
      (Tbl.find? s.teams j).map (s.atReturn k j (decide (j ∈ (s.wg t.wg).teams))) := by
  rw [returnFromHandler_foldl found, foldl_teams (f := Team.resumed) (fun _ => rfl) (fun _ _ => rfl), updTeam_find]
  have heat : (s.hwHeat (s.slotGa k) 384).teams = s.teams := by rw [hwHeat_eq]
  rw [heat]
  unfold atReturn Team.resumedIf
  generalize s.returned _ = f
  by_cases self : k = j
  · by_cases sibling : j ∈ (s.wg t.wg).teams
    · simp only [if_pos self, if_pos sibling, Option.map_map, decide_eq_true sibling]; rfl
    · simp only [if_pos self, if_neg sibling, decide_eq_false sibling, Bool.false_eq_true, if_false]
  · by_cases sibling : j ∈ (s.wg t.wg).teams
    · simp only [if_neg self, if_pos sibling, decide_eq_true sibling]; rfl
    · simp only [if_neg self, if_neg sibling, decide_eq_false sibling, Bool.false_eq_true, if_false, Option.map_id']

theorem atReturn_self (sibling : Bool) : (s.returned (s.slotGa k) t).Released (s.atReturn k k sibling t) := by
  rw [atReturn, if_pos rfl]
  exact Team.released_resumedIf _ _

theorem stopping_atReturn_self (sibling : Bool) : (s.atReturn k k sibling t).stopping = t.atTask := by
  rw [atReturn, if_pos rfl]
  exact (Team.stopping_resumedIf _ _).trans (stopping_returned ..)

theorem atReturn_other {j : Nat} (other : j ≠ k) (sibling : Bool) : t.Released (s.atReturn k j sibling t) := by
  rw [atReturn, if_neg (Ne.symm other)]
  exact t.released_resumedIf _

theorem atReturn_sibling (j : Nat) : (s.atReturn k j true t).halted = false ∧ (s.atReturn k j true t).haltDue = none :=
  ⟨rfl, rfl⟩

/-! The halt of a gang that waited for MASK. -/

/-- A halt of a gang is under way and no team of it has MASK set (R408). -/
def HaltTakes (s : State) (g : Nat) : Prop :=
  ∃ r, (s.gang g).req = some r ∧ r.halting = true ∧ (s.gang g).resident = true ∧ s.gangMasked g = false

theorem stopPending_of_haltTakes {g : Nat} (h : s.HaltTakes g) : s.stopPending g = (s.gangTeams g).foldl stopTeam s := by
  obtain ⟨r, req, halting, resident, masked⟩ := h
  unfold gang at req resident
  unfold stopPending
  rw [req]
  dsimp only
  rw [halting, resident, masked]
  rfl

theorem stopPending_of_not_haltTakes {g : Nat} (h : ¬ s.HaltTakes g) : s.stopPending g = s := by
  unfold stopPending
  split
  next r req =>
    refine if_neg fun all => h ⟨r, req, ?_⟩
    simpa [gang, and_assoc] using all
  next => rfl

theorem stopPending_mem (s : State) (g : Nat) : (s.stopPending g).mem = s.mem := by
  have alike := BeforeIssue.stopPending s g
  unfold BeforeIssue at alike
  rw [alike]

/-- A halt that takes effect stops the teams of the gang; otherwise no team changes. -/
theorem stopPending_find (s : State) (g j : Nat) : ∃ p : Bool, (p = true ↔ s.HaltTakes g ∧ j ∈ s.gangTeams g) ∧
    Tbl.find? (s.stopPending g).teams j = (Tbl.find? s.teams j).map (·.stoppedIf p) := by
  by_cases takes : s.HaltTakes g
  · refine ⟨decide (j ∈ s.gangTeams g), by simp [takes], ?_⟩
    rw [stopPending_of_haltTakes takes,
      foldl_teams (step := stopTeam) (f := Team.stopped) (fun _ => rfl) (fun _ _ => rfl)]
    by_cases member : j ∈ s.gangTeams g
    · rw [if_pos member, decide_eq_true member]; rfl
    · rw [if_neg member, decide_eq_false member]; exact Option.map_id'.symm
  · refine ⟨false, by simp [takes], ?_⟩
    rw [stopPending_of_not_haltTakes takes]; exact Option.map_id'.symm

/-- The return clears its team's MASK, and no other team's MASK changes (R404). -/
theorem masked_returnFromHandler (found : Tbl.find? s.teams k = some t) {j : Nat}
    (other : j ≠ k → (s.team j).resident = true → (s.team j).masked = false)
    (res : ((s.returnFromHandler k).team j).resident = true) : ((s.returnFromHandler k).team j).masked = false := by
  have there := returnFromHandler_find found j
  generalize s.returnFromHandler k = u at *
  cases hy : Tbl.find? s.teams j with
  | none =>
    rw [hy] at there
    simp [team, Tbl.get, there, Team.masked]
  | some y =>
    rw [hy] at there
    rw [team_of_find _ _ _ there] at res ⊢
    rw [team_of_find _ _ _ hy] at other
    by_cases self : j = k
    · subst self
      exact ((returned_frame s (s.slotGa j) y).released (atReturn_self _)).masked
    · have released := atReturn_other (s := s) (t := y) self (decide (j ∈ (s.wg t.wg).teams))
      exact released.masked.trans (other self (released.resident.symm.trans res))

/-- A halt takes effect at the return of a team, for which no other team of the gang has MASK set (R404, R408). -/
theorem haltTakes_returnFromHandler {g : Nat} {r : PreReq} (found : Tbl.find? s.teams k = some t)
    (req : (s.gang g).req = some r) (halting : r.halting = true) (resident : (s.gang g).resident = true)
    (others : ∀ j ∈ s.gangTeams g, j ≠ k → (s.team j).resident = true → (s.team j).masked = false) :
    (s.returnFromHandler k).HaltTakes g := by
  have rest := returnFromHandler_rest found
  refine ⟨r, by rw [rest.gang, req], halting, by rw [rest.gang, resident], ?_⟩
  rw [gangMasked, rest.gangTeams]
  refine List.any_eq_false.mpr fun j hj counts => ?_
  obtain ⟨⟨res, -⟩, masked⟩ : (((s.returnFromHandler k).team j).resident = true ∧ _) ∧
      ((s.returnFromHandler k).team j).masked = true := by simpa only [Bool.and_eq_true] using counts
  exact Bool.false_ne_true ((masked_returnFromHandler found (others j hj) res).symm.trans masked)

/-! Both, as `rett` has them. -/

/-- The state after the own effect of `rett`. -/
def rettState (s : State) (k g : Nat) : State := (s.returnFromHandler k).stopPending g

theorem rettState_mem (found : Tbl.find? s.teams k = some t) (g : Nat) : (s.rettState k g).mem = s.mem :=
  (stopPending_mem _ g).trans (returnFromHandler_rest found).mem

/-- Each team as the return leaves it, and stopped where a halt of its gang takes effect. -/
theorem rettState_find (found : Tbl.find? s.teams k = some t) (g j : Nat) :
    ∃ p : Bool, (p = true ↔ (s.returnFromHandler k).HaltTakes g ∧ j ∈ s.gangTeams g) ∧
      Tbl.find? (s.rettState k g).teams j = (Tbl.find? s.teams j).map fun y =>
        (s.atReturn k j (decide (j ∈ (s.wg t.wg).teams)) y).stoppedIf p := by
  obtain ⟨p, takes, stops⟩ := stopPending_find (s.returnFromHandler k) g j
  rw [(returnFromHandler_rest found).gangTeams] at takes
  rw [returnFromHandler_find found, Option.map_map] at stops
  exact ⟨p, takes, stops⟩

theorem rettState_own (found : Tbl.find? s.teams k = some t) (g : Nat) :
    ∃ u, Tbl.find? (s.rettState k g).teams k = some u ∧ (s.returned (s.slotGa k) t).Released u ∧
      (t.atTask = true → u.stopping = true) := by
  obtain ⟨p, -, stops⟩ := rettState_find found g k
  rw [found] at stops
  refine ⟨_, stops, (atReturn_self _).trans (Team.released_stoppedIf _ p), fun atTask => ?_⟩
  rw [Team.stopping_stoppedIf, stopping_atReturn_self, atTask, Bool.true_or]

theorem rettState_sibling (found : Tbl.find? s.teams k = some t) (g : Nat) {j : Nat} {y : Team}
    (sibling : j ∈ (s.wg t.wg).teams) (hy : Tbl.find? (s.rettState k g).teams j = some y) :
    y.halted = false ∧ y.haltDue = none := by
  obtain ⟨p, -, stops⟩ := rettState_find found g j
  rw [hy] at stops
  obtain ⟨x, -, rfl⟩ := Option.map_eq_some_iff.mp stops.symm
  obtain ⟨halted, haltDue⟩ := Team.halts_stoppedIf (s.atReturn k j (decide (j ∈ (s.wg t.wg).teams)) x) p
  rw [halted, haltDue, decide_eq_true sibling]
  exact atReturn_sibling j

theorem rettState_halting {g : Nat} {r : PreReq} (found : Tbl.find? s.teams k = some t)
    (req : (s.gang g).req = some r) (halting : r.halting = true) (resident : (s.gang g).resident = true)
    (others : ∀ j ∈ s.gangTeams g, j ≠ k → (s.team j).resident = true → (s.team j).masked = false)
    {j : Nat} {y : Team} (member : j ∈ s.gangTeams g) (hy : Tbl.find? s.teams j = some y) :
    ∃ y', Tbl.find? (s.rettState k g).teams j = some y' ∧ y'.stopping = true := by
  obtain ⟨p, takes, stops⟩ := rettState_find found g j
  rw [hy] at stops
  refine ⟨_, stops, ?_⟩
  have stopped : p = true := takes.mpr ⟨haltTakes_returnFromHandler found req halting resident others, member⟩
  rw [Team.stopping_stoppedIf, stopped, Bool.or_true]

end State

/-! The word. -/

/-- A word without LEN opens no chain (R94). -/
theorem issued_of_no_latch (o : Op) {f : Form} (s : State) (is : Issue) (h : f.d.lat = none) :
    issued o f s is = ctxOf o f s is := by
  have no : ((ctxOf o f s is).f.d.lat.isSome && !(ctxOf o f s is).f.h.chain) = false := by
    rw [show (ctxOf o f s is).f = f from rfl, h]; rfl
  rw [issued, openChain, no]
  rfl

theorem Wg.seenBy_gang (w : Wg) (k : Nat) : (w.seenBy k).gang = w.gang := by
  unfold Wg.seenBy
  generalize w.fmtsNew = xs
  induction xs generalizing w with
  | nil => rfl
  | cons x xs ih =>
    rw [List.foldl_cons, ih]
    dsimp only
    split <;> rfl

theorem finish_mem (c : Ctx) (s : State) : (finish c s).mem = s.mem :=
  (congrArg State.mem (finish_elsewhere c s).rest).trans rfl

/-- The teams after `finish` are those before it, with their registers and what halts them. -/
theorem finish_find (c : Ctx) {s : State} {j : Nat} {y : Team} (found : Tbl.find? s.teams j = some y) :
    ∃ y', Tbl.find? (finish c s).teams j = some y' ∧ y.Kept y' := by
  by_cases self : j = c.is.team
  · subst self
    obtain ⟨y', found', kept, -⟩ := finish_team c s y found
    exact ⟨y', found', kept⟩
  · exact ⟨y, by rw [(finish_elsewhere c s).teams j self, found], .refl y⟩

theorem find_of_finish {c : Ctx} {s : State} {t : Team} (own : Tbl.find? s.teams c.is.team = some t) {j : Nat} {y : Team}
    (found : Tbl.find? (finish c s).teams j = some y) : ∃ x, Tbl.find? s.teams j = some x ∧ x.Kept y := by
  by_cases self : j = c.is.team
  · subst self
    obtain ⟨y', found', kept⟩ := finish_find c own
    rw [found] at found'
    exact ⟨t, own, Option.some.inj found' ▸ kept⟩
  · exact ⟨y, by rw [← (finish_elsewhere c s).teams j self, found], .refl y⟩

theorem Team.Kept.s {a b : Team} (h : a.Kept b) : b.s = a.s := by
  unfold Team.Kept at h; rw [h]

theorem Team.Kept.halts {a b : Team} (h : a.Kept b) :
    b.halted = a.halted ∧ b.haltDue = a.haltDue ∧ b.stopping = a.stopping := by
  unfold Team.Kept at h
  rw [h]
  exact ⟨rfl, rfl, rfl⟩

/-- `rett` whose team has performed its accesses, with the links open to its save slot, returns from the handler, and then a
halt of the gang that waited for MASK takes effect (R299, R377, R408, R413). -/
theorem execRett_returns {f : Form} {s : State} {is : Issue} {t : Team} (hs : Standing s is t) (hc : Clear .rett f s is)
    (active : activeMask t is.lanes f.h ≠ 0) (performed : s.accessOut is.team = false) (noLatch : f.d.lat = none)
    (links : s.readShut (coreDie t.core) (s.slotGa is.team) 384 = none) :
    execRett f s = .next (finish (ctxOf .rett f s is) (s.rettState is.team (s.wg t.wg).gang)) := by
  have plain := issued_of_no_latch .rett s is noLatch
  have team := ctxOf_team .rett f s is t hs
  have gang : (ctxOf .rett f s is).w.gang = (s.wg t.wg).gang := by
    rw [← team]
    exact Wg.seenBy_gang ..
  have act : (ctxOf .rett f s is).active ≠ 0 := by rw [← plain, issued_active _ _ hs]; exact active
  have shut : s.readShut (coreDie (ctxOf .rett f s is).t.core)
      (gaOf (ctxOf .rett f s is).part (ctxOf .rett f s is).t.slotVa) 384 = none := by
    rw [team, ← links, State.slotGa, State.team_of_find _ _ _ hs.team]
    rfl
  rw [← plain, ← gang]
  refine wordIns_go _ _ _ _ _ _ hs.port hc ?_
  rw [plain]
  refine (Ctx.once_of_active act).trans ((if_neg (ne_true_of_eq_false performed)).trans ?_)
  rw [show (ctxOf .rett f s is).s = s from rfl, shut]
  rfl

/-- What the whole of `rett` leaves of its team (R377, R404, R408). -/
theorem finish_rettState_own {c : Ctx} {s : State} {k : Nat} {t : Team} {h : Handler} (hk : c.is.team = k)
    (found : Tbl.find? s.teams k = some t) (stay : t.handler = some h) (g : Nat) :
    ∃ t', Tbl.find? (finish c (s.rettState k g)).teams k = some t' ∧ t.Returned t' ∧
      (∀ r, t'.readS r = (s.returned (s.slotGa k) t).readS r) ∧
      (∀ l, l < 32 → (t'.lane l).pc = (s.returnedLane (s.slotGa k) h.lanes l (t.lane l)).pc ∧
        (t'.lane l).st = (s.returnedLane (s.slotGa k) h.lanes l (t.lane l)).st) ∧
      (t.atTask = true → t'.stopping = true) := by
  subst hk
  obtain ⟨u, own, released, atTask⟩ := State.rettState_own found g
  obtain ⟨t', found', kept, lanes⟩ := finish_team c _ u own
  obtain ⟨-, -, stopping⟩ := kept.halts
  refine ⟨t', found', ((State.returned_frame ..).released released).kept kept, fun r => ?_, fun l hl => ?_,
    fun at_ => stopping.trans (atTask at_)⟩
  · exact congrArg (Tbl.get (0 : DWord) · r) (kept.s.trans released.s)
  · obtain ⟨pc, st, -⟩ := lanes l hl
    have lane : u.lane l = (s.returned (s.slotGa c.is.team) t).lane l := congrArg (Tbl.get ({} : Lane) · l) released.lanes
    rw [pc, st, lane, State.lane_returned s _ t stay hl]
    exact ⟨rfl, rfl⟩

end Sys2Proof.Machine
end

section
/-!
The statement of 19_traps_preemption.md about the return from an exception.
-/

open Sys2Proof Sys2Proof.Machine

/-- Settles O32: `rett` is the return of its team with the resumption of its siblings, after which a halt of the gang that
waited for MASK takes effect; what the issue does beside changes nothing that the statement names. -/
theorem handlerReturn : Obligations.HandlerReturn := by
  unfold Obligations.HandlerReturn
  intro f s is t h hs hc active performed stay _ _ noLatch ga word links
  have slot : s.slotGa is.team = ga := by rw [State.slotGa, State.team_of_find _ _ _ hs.team]
  have reads : word = s.slotNat (s.slotGa is.team) := by rw [slot]; rfl
  clear_value word
  subst reads
  rw [issued_of_no_latch .rett s is noLatch] at links
  have next := execRett_returns hs hc active performed noLatch (slot ▸ links)
  obtain ⟨t', found, returned, regs, lanes, atTask⟩ :=
    finish_rettState_own (c := ctxOf .rett f s is) rfl hs.team stay (s.wg t.wg).gang
  obtain ⟨handler, priv, mask, v, g⟩ := returned.fields
  refine ⟨_, t', next, found, (finish_mem ..).trans (State.rettState_mem hs.team _), handler, priv, mask, v, g,
    fun r => (regs r).trans (s.readS_returned _ t r), fun l hl => ?_, fun j y member hy => ?_, atTask,
    fun r req halting resident others j member y hy => ?_⟩
  · obtain ⟨pc, st⟩ := lanes l hl
    rw [pc, st]
    exact s.returnedLane_place _ h.lanes hl (t.lane l)
  · obtain ⟨u, own, -, -⟩ := State.rettState_own hs.team (s.wg t.wg).gang
    obtain ⟨x, before, kept⟩ := find_of_finish (c := ctxOf .rett f s is) own hy
    obtain ⟨halted, haltDue, -⟩ := kept.halts
    rw [halted, haltDue]
    exact State.rettState_sibling hs.team _ member before
  · obtain ⟨x, before, stopping⟩ := State.rettState_halting hs.team req halting resident others member hy
    obtain ⟨y', after, kept⟩ := finish_find (ctxOf .rett f s is) before
    obtain ⟨-, -, same⟩ := kept.halts
    exact ⟨y', after, same.trans stopping⟩
end
